-- ==== Sys2Proof/Word.lean ====
section
/-! DEFINITION. The words of the machine: the widths the spec fixes, and nothing else. -/

namespace Sys2Proof

/-- A g register, a wide counter, a doubleword (R32). -/
abbrev Word := BitVec 64
/-- A scalar instruction word, a 32-bit register, a lane (R35, R98). -/
abbrev Half := BitVec 32
/-- One byte of a memory (R1). -/
abbrev Byte := BitVec 8
/-- A 128-bit stream command, a handle record, a region entry (R236, R197, R224). -/
abbrev Quad := BitVec 128
/-- The 512 data bits of a token, one 64-byte row (R98, R185). -/
abbrev Row := BitVec 512

end Sys2Proof
end

