-- ==== Sys2Proof/Syntax.lean ====
section
/-! DEFINITION. The instructions: one constructor of `Instr` for every row of the opcode table.
Scalar words, stream commands, and the part's own steps and events. The pair bit P is not part of an
instruction: the decoder returns it beside the instruction (R35, R36). -/

namespace Sys2Proof

/-- g0–g31 (R32). -/
abbrev GReg := Fin 32
/-- c0–c7 (R32). -/
abbrev CReg := Fin 8

/-- Operand width, W = 64 >> w (R54). -/
inductive Width | w64 | w32 | w16 | w8
deriving DecidableEq, Repr

/-- The load sizes of the sz table (R69). -/
inductive LdSz | i8 | n8 | i16 | n16 | i32 | n32 | i64
deriving DecidableEq, Repr

/-- The store sizes of the sz table, the even rows (R69). -/
inductive StSz | b1 | b2 | b4 | b8
deriving DecidableEq, Repr

/-- Level width of a mica instruction (R230). -/
inductive MicaWid | ml2 | ml4 | ml8
deriving DecidableEq, Repr

/-- FENCE scope (R92). -/
inductive Scope | core | gang | die | device | system
deriving DecidableEq, Repr

/-- MODE of RSAVE (R178, R181). -/
inductive SaveMode | keep | thaw | clear
deriving DecidableEq, Repr

/-- One slot, named by register `gb`, or every slot (A = 1, or the summary of RSTAT) (R178). -/
inductive SlotSel | one (gb : GReg) | all
deriving DecidableEq, Repr

/-- The same in a command: the phase stands in w2 (R246). -/
inductive PhaseSel | one (phase : Half) | all
deriving DecidableEq, Repr

/-- One declaration group: handle and count minus 1 (R239). -/
structure Grp where
  h : Fin 32
  n : Fin 16
deriving DecidableEq, Repr

/-- The declaration word: input groups A and B, output group O (R239). -/
structure Decl where
  a : Option Grp
  b : Option Grp
  o : Option Grp
deriving DecidableEq, Repr

/-- The histogram fields of COPY and HCOPY (R256). -/
structure Hist where
  ebase : BitVec 8
  fmt   : Fin 11
  bias  : BitVec 8
deriving DecidableEq, Repr

/-- Tile and row formats of the matrix engine: codes 0, 8, 9 (R266). -/
inductive MxTy | i8 | dk8 | bf16
deriving DecidableEq, Repr

/-- Output formats of RDACC: codes 0, 2, 8, 9, 10 (R273). -/
inductive RdFmt | i8 | i32 | dk8 | bf16 | fp32
deriving DecidableEq, Repr

/-- The tile source of LDB (R270). -/
inductive LdbSrc | spad (off : BitVec 24) | port (p : Fin 16) | slot
deriving DecidableEq, Repr

/-- The prefetch of MMUL (R272). -/
structure Prefetch where
  /-- `none`: the first input slot of group B; `some p`: port p -/
  port : Option (Fin 16)
  ty   : MxTy
  bias : BitVec 8
  fwd  : Option (Fin 16)
deriving DecidableEq, Repr

/-- The destination of RDACC (R273). -/
inductive RdDst | spad (off : BitVec 24) | port (p : Fin 16) (eoi : Bool)
deriving DecidableEq, Repr

/-- Atomic operations (R281). -/
inductive AtomOp | add | min | max | and | or | xor | swap | cas | finc
deriving DecidableEq, Repr

/-- Formats of an atomic (R281). -/
inductive AtomFmt | i32 | i64 | fp32 | n32 | n64
deriving DecidableEq, Repr

/-- SCOPE of an SYE command: codes 1–4 (R281). -/
inductive SyeScope | gang | die | device | system
deriving DecidableEq, Repr

/-- The target of an invalidation: an ASID, or the issuing context's own (R221). -/
inductive AsidSel | asid (a : BitVec 16) | self
deriving DecidableEq, Repr

/-- A read or write of one aligned span by an agent outside the module (R350). -/
structure Span where
  addr  : BitVec 48
  len   : Nat
deriving DecidableEq, Repr

/-- One Penyan flit as the receiver sees it, field by field; its reserved bits are 0 (R351). -/
structure Flit where
  seq     : BitVec 12
  vc      : Fin 4
  ak      : Bool
  nk      : Bool
  aseq    : BitVec 12
  cred    : BitVec 16
  payload : BitVec 1920
  crc     : BitVec 64
deriving DecidableEq, Repr

/-- How a retrain of a Penyan port ends (R351, R352). -/
inductive Retrain
  /-- the retrain fails -/
  | fails
  /-- it ends; `creditsAgree`: the two ends' credit counts agree; `reset`: an end's receive state was reset -/
  | ends (creditsAgree reset : Bool)
  /-- an uncorrectable error in the replay buffer -/
  | bufferEcc
deriving DecidableEq, Repr

/-- Storage in which an uncorrectable or corrected error is detected (R303, the ECC kinds and levels). -/
inductive EccSite
  /-- a memory level, the agent whose access met it, and the partition physical address, 0 where none applies -/
  | mem (level : Fin 8) (agent : Fin 8) (addr : BitVec 48)
  | cell (n : Fin 32)
  | port (n : Fin 16)
  | rot (q : Fin 8)
  | eng (cls : Fin 9)
  | dict
  /-- the replay buffer of a Penyan port -/
  | link (port : Fin 16)
deriving DecidableEq, Repr

/-- What CMP firmware may change in a partition (R358). -/
inductive PartChange
  | clusters (b : BitVec 64)
  | banks (b : BitVec 128)
  | channels (b : BitVec 64)
  | links (b : BitVec 16)
  | syeQuota (b : BitVec 32)
  | hub (b : BitVec 2)
  | asids (b : BitVec 32)
  | budget (k : Fin 7) (v : BitVec 32)
  | bitmapBase (pa : BitVec 48)
  | counters (pa : BitVec 48)
  | aperture (base size : BitVec 48)
  | hostWindow (e : Fin 64) (v : Word)
  | peerWindow (e : Fin 128) (v : Word)
  | route (device : BitVec 16) (port : Fin 16)
  | queue (j : Fin 256) (ceiling : Fin 8) (en dev : Bool)
  /-- queue j belongs to no partition -/
  | freeQueue (j : Fin 256)
  /-- the barriers `bid` of the partition's gangs form a peer barrier group of `gangs` gangs on all devices; arrivals go out by
  port `up`, and none does on the device that collects them; behind the ports `down` stand other devices of the group, whose
  arrivals come and whose release goes by them (R354) -/
  | peerGroup (bid : Fin 64) (gangs : Nat) (up : Option (Fin 16)) (down : BitVec 16)
  | debugEnable (b : Bool)
  | revive (asid : BitVec 16)
deriving DecidableEq, Repr

/-- Every instruction, command, step and event of the opcode table. -/
inductive Instr
  -- ALU (R57)
  | add (d a b : GReg) (w : Width) (s u : Bool)
  | sub (d a b : GReg) (w : Width) (s u : Bool)
  | and (d a b : GReg)
  | or (d a b : GReg)
  | xor (d a b : GReg)
  | andn (d a b : GReg)
  | shl (d a b : GReg) (w : Width) (u : Bool)
  | shr (d a b : GReg) (w : Width) (u : Bool)
  | sar (d a b : GReg) (w : Width) (u : Bool)
  | ror (d a b : GReg) (w : Width) (u : Bool)
  | min (d a b : GReg) (w : Width) (u : Bool)
  | max (d a b : GReg) (w : Width) (u : Bool)
  | slt (d a b : GReg) (w : Width) (u : Bool)
  | seq (d a b : GReg) (w : Width)
  -- MULDIV (R60)
  | mul (d a b : GReg) (w : Width) (s u : Bool)
  | mulh (d a b : GReg) (w : Width) (u : Bool)
  | div (d a b : GReg) (w : Width) (u : Bool)
  | rem (d a b : GReg) (w : Width) (u : Bool)
  -- CMPC (R64)
  | ceq (c : CReg) (a b : GReg) (w : Width)
  | cne (c : CReg) (a b : GReg) (w : Width)
  | clt (c : CReg) (a b : GReg) (w : Width) (u : Bool)
  | cge (c : CReg) (a b : GReg) (w : Width) (u : Bool)
  | ctst (c : CReg) (a b : GReg) (w : Width)
  -- immediates (R61), shifts by immediate (R62), compares with immediate (R65), LI and LIS (R63)
  | addi (d a : GReg) (i : BitVec 15)
  | andi (d a : GReg) (i : BitVec 15)
  | ori (d a : GReg) (i : BitVec 15)
  | xori (d a : GReg) (i : BitVec 15)
  | shli (d a : GReg) (w : Width) (u : Bool) (n : BitVec 6)
  | shri (d a : GReg) (w : Width) (u : Bool) (n : BitVec 6)
  | sari (d a : GReg) (w : Width) (u : Bool) (n : BitVec 6)
  | rori (d a : GReg) (w : Width) (u : Bool) (n : BitVec 6)
  | ceqi (c : CReg) (a : GReg) (i : BitVec 12)
  | cnei (c : CReg) (a : GReg) (i : BitVec 12)
  | clti (c : CReg) (a : GReg) (i : BitVec 12)
  | cgei (c : CReg) (a : GReg) (i : BitVec 12)
  | cltui (c : CReg) (a : GReg) (i : BitVec 12)
  | cgeui (c : CReg) (a : GReg) (i : BitVec 12)
  | ctsti (c : CReg) (a : GReg) (i : BitVec 12)
  | li (d : GReg) (i : BitVec 20)
  | lis (d : GReg) (i : BitVec 20)
  -- BIT (R66)
  | clz (d a : GReg)
  | ctz (d a : GReg)
  | popc (d a : GReg)
  | brev (d a : GReg)
  | bswap (d a : GReg)
  | sel (d a b : GReg) (c : CReg)
  | seln (d a b : GReg) (c : CReg)
  | mfc (d : GReg) (c : CReg)
  | mtc (c : CReg) (a : GReg)
  | cand (d a b : CReg)
  | cor (d a b : CReg)
  | cxor (d a b : CReg)
  | candn (d a b : CReg)
  -- AGEN (R67)
  | addsh (d a : GReg) (f : BitVec 6)
  | wrapi (d a : GReg) (k f : BitVec 6)
  | alignu (d a : GReg) (k : BitVec 6)
  -- MOV (R68)
  | mov (d a : GReg)
  | sxb (d a : GReg)
  | sxh (d a : GReg)
  | sxw (d a : GReg)
  | zxb (d a : GReg)
  | zxh (d a : GReg)
  | zxw (d a : GReg)
  | mfl (d : GReg) (l : Fin 9)
  | mtl (l : Fin 9) (a : GReg)
  -- loads and stores (R70, R72, R73)
  | ldl (d a : GReg) (z : LdSz) (o : BitVec 12)
  | stl (s a : GReg) (z : StSz) (o : BitVec 12)
  | ldg (d a : GReg) (z : LdSz) (o : BitVec 12)
  | stg (s a : GReg) (z : StSz) (o : BitVec 12)
  | ldlx (d a b : GReg) (s : BitVec 2) (z : LdSz)
  | stlx (d a b : GReg) (s : BitVec 2) (z : StSz)
  | ldgx (d a b : GReg) (s : BitVec 2) (z : LdSz)
  | stgx (d a b : GReg) (s : BitVec 2) (z : StSz)
  -- full/empty words (R195)
  | ldf (d a : GReg) (x : Bool) (o : BitVec 12)
  | ldfp (d a : GReg) (x : Bool) (o : BitVec 12)
  | ste (s a : GReg) (o : BitVec 12)
  | stf (s a : GReg) (o : BitVec 12)
  -- handles, write pointers, circuits (R199, R201, R202)
  | hcfg (a : GReg) (h : Fin 32)
  | hget (d : GReg) (k : Bool) (h : Fin 32)
  | hwaitc (a : GReg) (h : Fin 32)
  | hwaitp (a : GReg) (h : Fin 32)
  | hadvc (a : GReg) (h : Fin 32)
  | hadvp (a : GReg) (h : Fin 32)
  | hroll (a : GReg) (h : Fin 32)
  | hpslot (d a : GReg) (h : Fin 32)
  | hcslot (d a : GReg) (h : Fin 32)
  | hown (a : GReg) (h : Fin 32)
  | wpr (d : GReg) (c : Fin 8)
  | wpw (a : GReg) (c : Fin 8)
  | carm (a : GReg) (c : Fin 16)
  -- mica (R231, R232)
  | mcfg (a : GReg) (k : Fin 8)
  | mcfgRd (d : GReg) (j : Bool) (k : Fin 8)
  | mcfgClr (k : Fin 8)
  | mld (d a b : GReg) (w : MicaWid)
  | mldg (d a b : GReg) (w : MicaWid)
  | mldl (d a b : GReg) (w : MicaWid)
  | mldlg (d a b : GReg) (w : MicaWid)
  | minc (s a b : GReg) (w : MicaWid)
  | mincg (s a b : GReg) (w : MicaWid)
  -- rotations (R174–R183)
  | radm (h : Fin 32) (b : GReg) (w : Bool) (q : Fin 8)
  | rret (x : SlotSel) (q : Fin 8)
  | rhold (x : SlotSel) (q : Fin 8)
  | rrel (x : SlotSel) (q : Fin 8)
  | rsave (a : GReg) (m : SaveMode) (q : Fin 8)
  | rload (a : GReg) (m kf : Bool) (q : Fin 8)
  | rmap (a : GReg) (q : Fin 8)
  | rstat (d : GReg) (x : SlotSel) (q : Fin 8)
  -- control flow (R78–R90)
  | br (c : CReg) (n : Bool) (o : BitVec 21)
  | call (o : BitVec 21)
  | jr (a : GReg)
  | jalr (d a : GReg)
  | loopReg (l : Fin 3) (a : GReg) (e : BitVec 12)
  | loopImm (l : Fin 3) (i : BitVec 10) (e : BitVec 12)
  | repReg (a : GReg) (e : BitVec 12)
  | repImm (i : BitVec 10) (e : BitVec 12)
  | pin (e : BitVec 12)
  -- dictionary issue, control registers, system words
  | dx (idx : Fin 1024) (h0 h1 h2 : BitVec 5)
  | rdc (d : GReg) (c : BitVec 12)
  | wrc (a : GReg) (c : BitVec 12)
  | wrcSplit (a : GReg)
  | wrcPins (a : GReg)
  | wrcLease (a : GReg)
  | wrcBkc (a : GReg) (n : Fin 8)
  | fence (s : Scope)
  | dload (a b : GReg)
  | dread (d a : GReg) (k : Fin 3)
  | trap (n : Fin 32)
  -- the sequencer's own steps
  | teardown (task : Nat)
  | regionRelease (task : Nat)
  | watchdog (task : Nat)
  -- the fabric's steps; n is the node code of the cell
  | cellFiring (n : Fin 32)
  | tokenPush (n : Fin 32)
  | markerFiring (n : Fin 32)
  | argwEffect (n : Fin 32)
  -- rotation steps
  | slotInject (q : Fin 8)
  | slotCapture (q : Fin 8)
  | rotSaveComplete (q : Fin 8)
  | slotExit (q : Fin 8)
  | exitPortPush (q : Fin 8)
  -- local memory and translation steps
  | bankEngineAccess (b : Fin 32)
  | requestAged (b : Fin 32)
  | circuitPassBegin (c : Fin 16)
  | circuitTransfer (c : Fin 16)
  | pageWalk (w : Nat)
  | invalidationAck (u : Nat)
  -- stream commands: FEED and DRAIN (R242)
  | feedh (q : Fin 4) (fe eoi : Bool) (port : Fin 16) (tag : BitVec 24) (d : Decl)
  | feeda (q : Fin 4) (glb fe eoi : Bool) (port : Fin 16) (base : BitVec 48) (sd : Fin 16) (d : Decl)
  | feedi (q : Fin 4) (eoi : Bool) (port : Fin 16) (x y : Half) (d : Decl)
  | feedm (q : Fin 4) (port : Fin 16) (d : Decl)
  | drainh (q : Fin 4) (fe eoi : Bool) (port : Fin 16) (d : Decl)
  | draina (q : Fin 4) (glb fe eoi : Bool) (port : Fin 16) (base : BitVec 48) (sd : Fin 16) (d : Decl)
  | drainx (q : Fin 4) (port : Fin 16) (d : Decl)
  | feedPush (q : Fin 4)
  | drainTake (q : Fin 4)
  -- copy engine (R256)
  | sdld (sd : Fin 16) (off : BitVec 24)
  | copy (q : Fin 8) (fe : Bool) (rc : Option (BitVec 24)) (ssd dsd : Fin 16) (hist : Option Hist) (d : Decl)
  | hcopy (q : Fin 8) (fe : Bool) (rc : Option (BitVec 24)) (ssd dsd : Fin 16) (hist : Hist) (d : Decl)
  | gather (q : Fin 8) (fe : Bool) (rc : Option (BitVec 24)) (ssd dsd : Fin 16) (idx : BitVec 24) (d : Decl)
  | scatter (q : Fin 8) (fe : Bool) (rc : Option (BitVec 24)) (ssd dsd : Fin 16) (idx : BitVec 24) (d : Decl)
  | selacc (q : Fin 8) (rc : BitVec 24) (ssd : Fin 16) (dsd : Option (Fin 16)) (k : BitVec 6) (d : Decl)
  -- matrix engine (R269)
  | ldb (src : LdbSrc) (ty : MxTy) (bias : BitVec 8) (fwd : Option (Fin 16)) (d : Decl)
  | mmul (row0 n : BitVec 7) (z sw : Bool) (ty : MxTy) (port : Fin 16) (fwd : Option (Fin 16)) (eoi : Bool)
      (pf : Option Prefetch) (d : Decl)
  | gmul (row0 n : BitVec 7) (z sw : Bool) (ty : MxTy) (bias : BitVec 8) (sd : Fin 16) (idx : BitVec 24)
      (fwd : Option (Fin 16)) (d : Decl)
  | rdacc (row0 n : BitVec 7) (z : Bool) (fmt : RdFmt) (bias : BitVec 8) (dst : RdDst) (d : Decl)
  | recur (q : Fin 8) (ty : MxTy) (bias : BitVec 8) (port : Fin 16) (fwd : Option (Fin 16)) (eoi : Bool) (d : Decl)
  -- synchronisation engine (R281)
  | atom (op : AtomOp) (fmt : AtomFmt) (sc : SyeScope) (va : BitVec 48) (opr : BitVec 24)
  | mmerge (wd : MicaWid) (sc : SyeScope) (va : BitVec 48) (j : BitVec 5) (lvl : BitVec 8) (opr : BitVec 24)
  | atomw (op : AtomOp) (fmt : AtomFmt) (sc : SyeScope) (va : BitVec 48) (opr : BitVec 24) (win : Fin 64)
  | mmergew (wd : MicaWid) (sc : SyeScope) (va : BitVec 48) (j : BitVec 5) (lvl : BitVec 8) (opr : BitVec 24)
      (win : Fin 64)
  | wend (sc : SyeScope) (nc : BitVec 12) (opr : BitVec 24) (win : Fin 64)
  | barr (sc : SyeScope) (bid : Fin 64) (opr : BitVec 24)
  | syeAccess (die : Fin 4)
  | windowRoundClose (task : Nat) (w : Fin 64)
  | barrierArrival (task : Nat) (bid : Fin 64) (die : Fin 4)
  | barrierRelease (task : Nat) (bid : Fin 64)
  -- STAT, ROT, LAUNCH, XLT (R245, R246, R343, R221)
  | snap (off : BitVec 24) (d : Decl)
  | argw (cell : Fin 32) (value : Half) (d : Decl)
  | radmc (q : Fin 8) (h : Fin 32) (own : Bool) (id : Half)
  | rretc (q : Fin 8) (x : PhaseSel)
  | rholdc (q : Fin 8) (x : PhaseSel)
  | rrelc (q : Fin 8) (x : PhaseSel)
  | rsavec (q : Fin 8) (m : SaveMode) (off : Half)
  | rloadc (q : Fin 8) (kf m : Bool) (off : Half)
  | rmapc (q : Fin 8) (off : Half)
  | launch (doff : BitVec 24) (queue : Fin 256)
  | replay (gva : BitVec 48) (queue : Fin 256)
  | replayNodeAppend (queue : Fin 256)
  | invr (page : Half) (pages : BitVec 16) (sel : AsidSel) (done : BitVec 24)
  | inva (sel : AsidSel) (done : BitVec 24)
  | commandPortIssue (p : Fin 16)
  | commandBegin (cls : Fin 9)
  | commandComplete (q : Fin 22)
  -- the hub (R332–R346)
  | cmpCircuitCarry (task : Nat)
  | taskComplete (task : Nat)
  | tailDoorbell (j : Fin 256) (v : Half)
  | graphDoorbell (j : Fin 256) (pa : Word)
  | kill (j : Fin 256) (v : Half)
  | preempt (j : Fin 256) (v : Half)
  | nodeQuiesce (n : Fin 48)
  | preemptAck (task : Nat)
  | hostRegisterWrite (off : BitVec 21) (v : Word)
  | dbmvRead (p : Fin 64)
  | hostRegisterRead (off : BitVec 21)
  | meas (p : Fin 64) (pa : Word)
  -- outside agents (R350–R353)
  | hostWrite (p : Fin 64) (off : BitVec 48) (bytes : List Byte)
  | hostRead (p : Fin 64) (off : BitVec 48) (len : Nat)
  | peerWrite (port : Fin 16) (p : Fin 64) (pa : BitVec 48) (bytes : List Byte)
  | peerRead (port : Fin 16) (p : Fin 64) (pa : BitVec 48) (len : Nat)
  | flitReceive (port : Fin 16) (f : Flit)
  | linkRetrain (port : Fin 16) (r : Retrain)
  | ucieLinkFail (u : Fin 8) (kind : Fin 5)
  | tenantTag (b : Fin 128) (owner : Bool) (lines : List Nat)
  | clockStretch (die : Fin 4) (edges : Nat)
  | thermalTrip (cluster : Fin 64)
  | railFault (rail : Fin 5)
  | boot (ok : Bool)
  | attestationRequest (nonce : BitVec 256)
  | debugNop (core : BitVec 8)
  | debugHalt (core : BitVec 8)
  | debugStep (core : BitVec 8)
  | debugResume (core : BitVec 8)
  | debugRead (core : BitVec 8) (space : Fin 16) (index : Half)
  | debugWrite (core : BitVec 8) (space : Fin 16) (index : Half) (data : Word)
  | debugStatus (core : BitVec 8)
  | debugTransact (jtag : Bool) (req : Quad)
  | illegalInstruction (w : Half)
  | uncorrectableError (core : BitVec 8) (site : EccSite) (corrected : Bool)
  | syeLost (die : Fin 4)
  | partitionConfigure (p : Fin 64) (ch : PartChange)
  -- instructions, steps and events without operands. A cell operation computes the results of the firing that
  -- CELL_FIRING latched, so it names no cell
  | exit
  | abort
  | dfence
  | brk
  | eret
  | writeLands
  | repetition
  | ptsTick
  | asyncCauseEntry
  | coreRetire
  | cellPass
  | cellSelect
  | cellSteer
  | cellMerge
  | cellDelay
  | cellSink
  | cellLeave
  | cellAdd
  | cellSub
  | cellMul
  | cellMac
  | cellMin
  | cellMax
  | cellAbs
  | cellAnd
  | cellOr
  | cellXor
  | cellShl
  | cellShr
  | cellSar
  | cellRshr
  | cellReq
  | cellPeq
  | cellPne
  | cellPlt
  | cellPge
  | cellFadd
  | cellFsub
  | cellFmul
  | cellFma
  | cellFmin
  | cellFmax
  | cellFabs
  | cellFneg
  | cellFexp2
  | cellFlog2
  | cellFrcp
  | cellFrsq
  | cellFdiv
  | cellFpeq
  | cellFplt
  | cellDkmul
  | cellDkdot
  | cellDkmax
  | cellCvt
  | cellNarrow
  | cellWiden
  | cellBcast
  | cellShuf
  | cellZip
  | cellUnzip
  | cellSlide
  | cellRsum
  | cellRmax
  | cellRmin
  | cellLdx
  | cellLdv
  | cellLds
  | cellStx
  | cellStv
  | cellSts
  | cellMadd
  | cellMest
  | cellMlvl
  | cellSemit
  | cellCemit
  | rotAdmit
  | rotRetire
  | rotHold
  | rotRelease
  | rotSave
  | rotLoad
  | rotMap
  | xltComplete
  | cpeRowAccess
  | mxeRowFiring
  | recurCapture
  | recurInject
  | dispatchStep
  | roundYield
  | coreCapture
  | quartzPeriod
  | conventionalReset
  | functionLevelReset
  | globalAccessComplete
  | mxePortToken
deriving DecidableEq, Repr

end Sys2Proof
end

