-- ==== Sys2Proof/Config.lean ====
section
/-! DEFINITION. The configuration and the free values: what the spec leaves open, as constants without a body, so
that nothing can be proved of them but what holds of every value. The log entries name each. -/

namespace Sys2Proof

/-- An SYE request of another device, as the messages of a flit on VC 0 hold it: the requester's device and core, its number, the
partition and address it names here, the atomic, its format, operand and comparand (R291, R351, R353). -/
structure PeerAtom where
  dev  : BitVec 16
  core : BitVec 8
  seq  : BitVec 16
  part : Fin 64
  pa   : BitVec 48
  op   : AtomOp
  fmt  : AtomFmt
  x    : BitVec 64
  cmp  : BitVec 64
deriving DecidableEq, Repr

namespace Config

/-- Cycles that a part of a global access, a walk or an admission takes beyond the cycle it starts in (R204, R220,
R335): not architectural. Applied to a fresh counter of the state (log entry 6). -/
opaque latency : Nat → Nat

/-- A choice the spec leaves to timing: which of the listed outcomes occurs (R252, R257, R289, R311, R381). Applied to
a fresh counter of the state (log entry 6). -/
opaque coin : Nat → Bool

/-- Bytes of device memory of a partition of another device, by 256 × device + partition (R353; log entry 71). -/
opaque peerSize : Nat → Nat

/-- The 240 bytes of messages of a Penyan flit that carries a request of this module (R351): their layout is not given.
Applied to a fresh counter of the state (log entry 112). -/
opaque flitPayload : Nat → BitVec 1920

/-- The barrier token that the messages of a flit on VC 3 hold: the barrier, and whether it is a release (R354; log entry
112). -/
opaque peerToken : BitVec 1920 → Option (Fin 64 × Bool)

/-- The SYE request of another device that the messages of a flit on VC 0 hold, where they hold one (R353; log entry 112). -/
opaque peerSye : BitVec 1920 → Option PeerAtom

/-- SHAKE256 with a 64-byte output (R380, R381): fixed by an outside standard (log entry 8). -/
opaque shake256 : List Byte → BitVec 512

/-- Whether an ML-DSA-65 signature over a digest is good under a public key (R380; log entry 8). -/
opaque mlDsaVerify : List Byte → BitVec 512 → List Byte → Bool

/-- The ML-DSA-65 public identity key derived from the fused secret and the firmware's digest (R381; log entry 8). -/
opaque identityKey : BitVec 256 → BitVec 512 → List Byte

/-- The 3,309-byte ML-DSA-65 signature by that identity over a digest (R381; log entry 8). -/
opaque mlDsaSign : BitVec 256 → BitVec 512 → BitVec 512 → BitVec 26472

/-- What an access at an L2 home needs of its GDDR-7 channel: beats of 32 bytes, and channel cycles (R367, R370). What the
L2 holds is not architectural. Applied to a fresh counter of the state (log entry 66). -/
opaque gddr : Nat → Nat × Nat

/-- The pair of banks that a line of an L1 lies in: which storage a line takes is not architectural (R186, R190). Applied to
a fresh counter of the state (log entry 16). -/
opaque l1Banks : Nat → BitVec 4

/-- The 64-byte row of the partition's memory where the fossil record of a task starts, by the task's number in the hub: the
spec names no place for the record (R309, R318; log entry 9). -/
opaque fossilPlace : Nat → BitVec 64

/-- Eight bytes of the raw storage of an L1 as the debug port reads them (R323): its layout is not architectural. Applied
to a fresh counter of the state (log entry 10). -/
opaque rawL1 : Nat → BitVec 64

/-- A row that an operation takes from an input whose selector is none, by input and token (R101, R144: neither a value nor a
rejection is given; log entry 34). -/
opaque unfed : Nat → Nat → BitVec 512

/-- A token that an engine pushes on a channel whose format no inserted conversion joins to the engine's (R135), by the two
format codes and the token's data (log entry 20). -/
opaque misfit : Nat → Nat → BitVec 512 → BitVec 512

end Config
end Sys2Proof
end

