-- ==== Sys2Proof/WellFormed.lean ====
section
/-! DEFINITION. The limits an instruction's fields keep beyond their types: what the decoder checks and the
encoder relies on. Each clause cites the rule that states the limit. -/

namespace Sys2Proof

/-- Level width in bits (R225). -/
def MicaWid.bits : MicaWid → Nat
  | .ml2 => 2
  | .ml4 => 4
  | .ml8 => 8

/-- The control registers whose write has a row of its own: SPLIT, PINS, LEASE, BKC0–BKC7 (R46). -/
def crOwnRow (c : Nat) : Bool :=
  c == 0x038 || c == 0x012 || c == 0x031 || (0x068 ≤ c && c ≤ 0x06F)

/-- The format and operation pairs of R281. -/
def AtomOp.allows : AtomOp → AtomFmt → Bool
  | .add, f => f == .i32 || f == .i64 || f == .fp32
  | .min, _ => true
  | .max, _ => true
  | .finc, f => f == .n32 || f == .n64
  | .and, f => f != .fp32
  | .or, f => f != .fp32
  | .xor, f => f != .fp32
  | .swap, f => f != .fp32
  | .cas, f => f != .fp32

/-- Bytes of an atomic's word (R282). -/
def AtomFmt.bytes : AtomFmt → Nat
  | .i32 => 4
  | .fp32 => 4
  | .n32 => 4
  | .i64 => 8
  | .n64 => 8

/-- A bias field is 0 unless the format is dk8 (R269). -/
def MxTy.biasOk (t : MxTy) (b : BitVec 8) : Bool := t == .dk8 || b == 0
def RdFmt.biasOk (t : RdFmt) (b : BitVec 8) : Bool := t == .dk8 || b == 0

/-- A completion record is 64-byte aligned (R256). -/
def recOk : Option (BitVec 24) → Bool
  | none => true
  | some r => r.toNat % 64 == 0

/-- The base of FEEDA and DRAINA: local below 2^24; G and F not together (R242). -/
def patternOk (glb fe : Bool) (base : BitVec 48) : Bool :=
  !(glb && fe) && (glb || base.toNat < 2 ^ 24)

/-- `ROW0 + N + 1 ≤ 128` (R269). -/
def rowsOk (row0 n : BitVec 7) : Bool := row0.toNat + n.toNat + 1 ≤ 128

/-- A one-slot group (R270, R272). -/
def oneSlot : Option Grp → Bool
  | none => false
  | some g => g.n == 0

namespace Instr

/-- Whether an instruction's fields keep the limits the spec states for them. -/
def wf : Instr → Bool
  | .br c n _ => !(c == 0 && n)                              -- R78
  | .loopReg _ _ e => e != 0                                  -- R37
  | .loopImm _ _ e => e != 0
  | .repReg _ e => e == 1 || e == 2                           -- R84
  | .repImm _ e => e == 1 || e == 2
  | .pin e => e != 0                                          -- R37
  | .wrc _ c => !crOwnRow c.toNat
  | .feedh _ _ _ _ _ d => d.a.isSome                          -- R242
  | .feeda _ glb fe _ _ base _ _ => patternOk glb fe base
  | .drainh _ _ _ _ d => d.o.isSome
  | .draina _ glb fe _ _ base _ _ => patternOk glb fe base
  | .sdld _ off => off.toNat % 16 == 0                        -- R256
  | .copy _ _ rc _ _ _ _ => recOk rc
  | .hcopy _ _ rc _ _ _ _ => recOk rc
  | .gather _ _ rc _ _ idx _ => recOk rc && idx.toNat % 4 == 0
  | .scatter _ _ rc _ _ idx _ => recOk rc && idx.toNat % 4 == 0
  | .selacc _ rc _ _ _ _ => rc.toNat % 64 == 0
  | .ldb src ty bias _ d =>                                   -- R270
    ty.biasOk bias &&
    match src with
    | .spad off => off.toNat % 64 == 0 && off.toNat + 32768 ≤ 2 ^ 24
    | .port _ => true
    | .slot => oneSlot d.a
  | .mmul row0 n _ _ _ _ _ _ pf d =>                          -- R272
    rowsOk row0 n &&
    match pf with
    | none => true
    | some x => x.ty.biasOk x.bias && (x.port.isSome || oneSlot d.b)
  | .gmul row0 n _ _ ty bias _ idx _ _ => rowsOk row0 n && ty.biasOk bias && idx.toNat % 4 == 0
  | .rdacc row0 n _ fmt bias dst _ =>                         -- R273
    rowsOk row0 n && fmt.biasOk bias &&
    match dst with
    | .spad off => off.toNat % 64 == 0
    | .port _ _ => true
  | .recur _ ty bias _ _ _ _ => ty != .i8 && ty.biasOk bias   -- R274
  | .atom op fmt _ va opr => op.allows fmt && va.toNat % fmt.bytes == 0 && opr.toNat % 32 == 0   -- R282
  | .atomw op fmt _ va opr _ => op.allows fmt && va.toNat % fmt.bytes == 0 && opr.toNat % 32 == 0
  | .mmerge wd _ va j lvl opr =>
    va.toNat % 4 == 0 && lvl.toNat < 2 ^ wd.bits && j.toNat < 32 / wd.bits && opr.toNat % 32 == 0
  | .mmergew wd _ va j lvl opr _ =>
    va.toNat % 4 == 0 && lvl.toNat < 2 ^ wd.bits && j.toNat < 32 / wd.bits && opr.toNat % 32 == 0
  | .wend _ _ opr _ => opr.toNat % 32 == 0
  | .barr _ _ opr => opr.toNat % 32 == 0
  | .snap off _ => off.toNat % 64 == 0                        -- R245
  | .launch doff _ => doff.toNat % 64 == 0                    -- R343
  | .replay gva _ => gva.toNat % 64 == 0
  | .invr page pages _ done => page.toNat + pages.toNat + 1 ≤ 2 ^ 32 && done.toNat % 4 == 0   -- R221
  | .inva _ done => done.toNat % 4 == 0
  | _ => true

end Instr
end Sys2Proof
end

