-- ==== Sys2Proof/Decode.lean ====
section
/-! DEFINITION. The decoder and the encoder. `decodeScalar` reads one scalar word and `decodeCommand` one 128-bit
stream command; both are total and reject by name. `encodeScalar` and `encodeCommand` write the words from the same
rulers (R37, R56–R307, R236–R346). -/

namespace Sys2Proof

/-- Why a word or a command is no instruction. Every rejected scalar word raises ILLEGAL_INSTRUCTION and every
rejected command ILLEGAL_COMMAND when it issues (R39, R237). -/
inductive Reject
  /-- a reserved major opcode (R39) -/
  | reservedMajor
  /-- an unassigned op, fn or sz value (R37) -/
  | unassigned
  /-- a nonzero reserved field (R6, R37) -/
  | reservedField
  /-- a CMD header: it is read with its payload words, not as a scalar word (R35) -/
  | commandHeader
  /-- a command class of 9–15 (R237) -/
  | reservedClass
  /-- an unassigned op of a class (R237) -/
  | unassignedOp
  /-- Q at or above the class's queue count (R237) -/
  | badQueue
  /-- a check the class lists for issue fails (R237) -/
  | badField
deriving DecidableEq, Repr

/-- The field of `n` bits whose lowest bit is bit `lo` (R3). -/
def fld (x lo n : Nat) : Nat := x / 2 ^ lo % 2 ^ n

/-- One bit. -/
def bitAt (x lo : Nat) : Bool := x / 2 ^ lo % 2 == 1

def bit (b : Bool) : Nat := if b then 1 else 0

def Width.code : Width → Nat
  | .w64 => 0
  | .w32 => 1
  | .w16 => 2
  | .w8 => 3

def Width.ofCode : Nat → Width
  | 0 => .w64
  | 1 => .w32
  | 2 => .w16
  | _ => .w8

def LdSz.code : LdSz → Nat
  | .i8 => 0
  | .n8 => 1
  | .i16 => 2
  | .n16 => 3
  | .i32 => 4
  | .n32 => 5
  | .i64 => 6

def LdSz.ofCode : Nat → Option LdSz
  | 0 => some .i8
  | 1 => some .n8
  | 2 => some .i16
  | 3 => some .n16
  | 4 => some .i32
  | 5 => some .n32
  | 6 => some .i64
  | _ => none

def StSz.code : StSz → Nat
  | .b1 => 0
  | .b2 => 2
  | .b4 => 4
  | .b8 => 6

def StSz.ofCode : Nat → Option StSz
  | 0 => some .b1
  | 2 => some .b2
  | 4 => some .b4
  | 6 => some .b8
  | _ => none

def MicaWid.code : MicaWid → Nat
  | .ml2 => 0
  | .ml4 => 1
  | .ml8 => 2

def MicaWid.ofCode : Nat → Option MicaWid
  | 0 => some .ml2
  | 1 => some .ml4
  | 2 => some .ml8
  | _ => none

def Scope.code : Scope → Nat
  | .core => 0
  | .gang => 1
  | .die => 2
  | .device => 3
  | .system => 4

def Scope.ofCode : Nat → Option Scope
  | 0 => some .core
  | 1 => some .gang
  | 2 => some .die
  | 3 => some .device
  | 4 => some .system
  | _ => none

def SaveMode.code : SaveMode → Nat
  | .keep => 0
  | .thaw => 1
  | .clear => 2

def SaveMode.ofCode : Nat → Option SaveMode
  | 0 => some .keep
  | 1 => some .thaw
  | 2 => some .clear
  | _ => none

/-- What a scalar decoder answers. -/
abbrev Dec := Except Reject Instr

/-- An instruction whose reserved fields are zero (`c`), else a rejection. -/
def okIf (c : Bool) (i : Instr) : Dec := if c then .ok i else .error .reservedField

/-- An instruction whose code is assigned, else a rejection. -/
def assigned {α : Type} (o : Option α) (f : α → Instr) : Dec :=
  match o with
  | some x => .ok (f x)
  | none => .error .unassigned

section rulers
variable (n : Nat)

/-- the gd field, [24:20] -/
def gdF : Fin 32 := Fin.ofNat 32 (n / 2 ^ 20)
/-- the ga field, [19:15] -/
def gaF : Fin 32 := Fin.ofNat 32 (n / 2 ^ 15)
/-- the gb field, [14:10] -/
def gbF : Fin 32 := Fin.ofNat 32 (n / 2 ^ 10)
/-- a condition register in the low three bits of the gd field -/
def cdF : Fin 8 := Fin.ofNat 8 (n / 2 ^ 20)
/-- a condition register in the low three bits of the ga field -/
def caF : Fin 8 := Fin.ofNat 8 (n / 2 ^ 15)
/-- a condition register in the low three bits of the gb field -/
def cbF : Fin 8 := Fin.ofNat 8 (n / 2 ^ 10)
def wF : Width := .ofCode (fld n 8 2)
def sF : Bool := bitAt n 7
def uF : Bool := bitAt n 6
def i12F : BitVec 12 := .ofNat 12 n
def i15F : BitVec 15 := .ofNat 15 n
def i20F : BitVec 20 := .ofNat 20 n

/-- Major 0x01 (R56). -/
def decAlu : Dec :=
  let d := gdF n; let a := gaF n; let b := gbF n; let w := wF n; let s := sF n; let u := uF n
  match fld n 0 6 with
  | 0 => .ok (.add d a b w s u)
  | 1 => .ok (.sub d a b w s u)
  | 2 => okIf (fld n 6 4 == 0) (.and d a b)
  | 3 => okIf (fld n 6 4 == 0) (.or d a b)
  | 4 => okIf (fld n 6 4 == 0) (.xor d a b)
  | 5 => okIf (fld n 6 4 == 0) (.andn d a b)
  | 8 => okIf (!s) (.shl d a b w u)
  | 9 => okIf (!s) (.shr d a b w u)
  | 10 => okIf (!s) (.sar d a b w u)
  | 11 => okIf (!s) (.ror d a b w u)
  | 16 => okIf (!s) (.min d a b w u)
  | 17 => okIf (!s) (.max d a b w u)
  | 20 => okIf (!s) (.slt d a b w u)
  | 21 => okIf (!s && !u) (.seq d a b w)
  | _ => .error .unassigned

/-- Major 0x02 (R59). -/
def decMulDiv : Dec :=
  let d := gdF n; let a := gaF n; let b := gbF n; let w := wF n; let s := sF n; let u := uF n
  match fld n 0 6 with
  | 0 => .ok (.mul d a b w s u)
  | 1 => okIf (!s) (.mulh d a b w u)
  | 4 => okIf (!s) (.div d a b w u)
  | 5 => okIf (!s) (.rem d a b w u)
  | _ => .error .unassigned

/-- Major 0x03 (R64). -/
def decCmpc : Dec :=
  let c := cdF n; let a := gaF n; let b := gbF n; let w := wF n; let s := sF n; let u := uF n
  let z := fld n 23 2 == 0
  match fld n 0 6 with
  | 0 => okIf (z && !s && !u) (.ceq c a b w)
  | 1 => okIf (z && !s && !u) (.cne c a b w)
  | 2 => okIf (z && !s) (.clt c a b w u)
  | 3 => okIf (z && !s) (.cge c a b w u)
  | 4 => okIf (z && !s && !u) (.ctst c a b w)
  | _ => .error .unassigned

/-- Major 0x08 (R62). -/
def decShi : Dec :=
  let d := gdF n; let a := gaF n; let w := Width.ofCode (fld n 10 2); let u := bitAt n 9
  let k := BitVec.ofNat 6 n; let z := fld n 6 3 == 0
  match fld n 12 3 with
  | 0 => okIf z (.shli d a w u k)
  | 1 => okIf z (.shri d a w u k)
  | 2 => okIf z (.sari d a w u k)
  | 3 => okIf z (.rori d a w u k)
  | _ => .error .unassigned

/-- Major 0x09 (R65). -/
def decCmpci : Dec :=
  let c := cdF n; let a := gaF n; let i := i12F n; let z := fld n 23 2 == 0
  match fld n 12 3 with
  | 0 => okIf z (.ceqi c a i)
  | 1 => okIf z (.cnei c a i)
  | 2 => okIf z (.clti c a i)
  | 3 => okIf z (.cgei c a i)
  | 4 => okIf z (.cltui c a i)
  | 5 => okIf z (.cgeui c a i)
  | 6 => okIf z (.ctsti c a i)
  | _ => .error .unassigned

/-- Major 0x0C (R66). -/
def decBit : Dec :=
  let d := gdF n; let a := gaF n; let b := gbF n
  let b0 := fld n 10 5 == 0
  let cd := fld n 23 2 == 0; let ca := fld n 18 2 == 0; let cb := fld n 13 2 == 0
  let c := Fin.ofNat 8 n
  match fld n 0 10 with
  | 0x000 => okIf b0 (.clz d a)
  | 0x001 => okIf b0 (.ctz d a)
  | 0x002 => okIf b0 (.popc d a)
  | 0x003 => okIf b0 (.brev d a)
  | 0x004 => okIf b0 (.bswap d a)
  | 0x020 => okIf (b0 && ca) (.mfc d (caF n))
  | 0x021 => okIf (b0 && cd) (.mtc (cdF n) a)
  | 0x022 => okIf (cd && ca && cb) (.cand (cdF n) (caF n) (cbF n))
  | 0x023 => okIf (cd && ca && cb) (.cor (cdF n) (caF n) (cbF n))
  | 0x024 => okIf (cd && ca && cb) (.cxor (cdF n) (caF n) (cbF n))
  | 0x025 => okIf (cd && ca && cb) (.candn (cdF n) (caF n) (cbF n))
  | _ =>
    match fld n 3 7 with
    | 1 => .ok (.sel d a b c)
    | 2 => .ok (.seln d a b c)
    | _ => .error .unassigned

/-- Major 0x0D (R67). -/
def decAgen : Dec :=
  let d := gdF n; let a := gaF n; let k := BitVec.ofNat 6 (n / 2 ^ 6); let f := BitVec.ofNat 6 n
  match fld n 12 3 with
  | 0 => okIf (k == 0) (.addsh d a f)
  | 1 => .ok (.wrapi d a k f)
  | 2 => okIf (f == 0) (.alignu d a k)
  | _ => .error .unassigned

/-- A loop register index, 0–8 (R68). -/
def loopIdx (x : Nat) : Option (Fin 9) := if h : x < 9 then some ⟨x, h⟩ else none

/-- Major 0x0E (R68). -/
def decMov : Dec :=
  let d := gdF n; let a := gaF n; let b0 := fld n 10 5 == 0
  match fld n 0 10 with
  | 0x000 => okIf b0 (.mov d a)
  | 0x001 => okIf b0 (.sxb d a)
  | 0x002 => okIf b0 (.sxh d a)
  | 0x003 => okIf b0 (.sxw d a)
  | 0x004 => okIf b0 (.zxb d a)
  | 0x005 => okIf b0 (.zxh d a)
  | 0x006 => okIf b0 (.zxw d a)
  | 0x010 => if b0 then assigned (loopIdx (fld n 15 5)) (.mfl d) else .error .reservedField
  | 0x011 => if b0 then assigned (loopIdx (fld n 20 5)) (.mtl · a) else .error .reservedField
  | _ => .error .unassigned

/-- Major 0x14 (R73). -/
def decMemx : Dec :=
  let d := gdF n; let a := gaF n; let b := gbF n; let s := BitVec.ofNat 2 (n / 2 ^ 5)
  if fld n 7 3 != 0 then .error .reservedField
  else match fld n 3 2 with
    | 0 => assigned (LdSz.ofCode (fld n 0 3)) (.ldlx d a b s)
    | 1 => assigned (LdSz.ofCode (fld n 0 3)) (.ldgx d a b s)
    | 2 => assigned (StSz.ofCode (fld n 0 3)) (.stlx d a b s)
    | _ => assigned (StSz.ofCode (fld n 0 3)) (.stgx d a b s)

/-- Major 0x15 (R195). -/
def decFe : Dec :=
  let d := gdF n; let a := gaF n; let x := bitAt n 12; let o := i12F n
  match fld n 13 2 with
  | 0 => .ok (.ldf d a x o)
  | 1 => .ok (.ldfp d a x o)
  | 2 => okIf (!x) (.ste d a o)
  | _ => okIf (!x) (.stf d a o)

/-- Major 0x16 (R198). -/
def decHnd : Dec :=
  let d := gdF n; let a := gaF n; let h := Fin.ofNat 32 (n / 2 ^ 5)
  let d0 := fld n 20 5 == 0; let a0 := fld n 15 5 == 0; let b0 := fld n 10 5 == 0
  match fld n 0 5 with
  | 0 => okIf (d0 && b0) (.hcfg a h)
  | 1 => okIf (a0 && fld n 11 4 == 0) (.hget d (bitAt n 10) h)
  | 2 => okIf (d0 && b0) (.hwaitc a h)
  | 3 => okIf (d0 && b0) (.hwaitp a h)
  | 4 => okIf (d0 && b0) (.hadvc a h)
  | 5 => okIf (d0 && b0) (.hadvp a h)
  | 6 => okIf (d0 && b0) (.hroll a h)
  | 7 => okIf b0 (.hpslot d a h)
  | 8 => okIf b0 (.hcslot d a h)
  | 9 => okIf (d0 && b0) (.hown a h)
  | 10 => okIf (a0 && b0 && fld n 8 2 == 0) (.wpr d (Fin.ofNat 8 (n / 2 ^ 5)))
  | 11 => okIf (d0 && b0 && fld n 8 2 == 0) (.wpw a (Fin.ofNat 8 (n / 2 ^ 5)))
  | 12 => okIf (d0 && b0 && !bitAt n 9) (.carm a (Fin.ofNat 16 (n / 2 ^ 5)))
  | _ => .error .unassigned

/-- Major 0x17 (R230). -/
def decMica : Dec :=
  let d := gdF n; let a := gaF n; let b := gbF n; let k := Fin.ofNat 8 (n / 2 ^ 4)
  let d0 := fld n 20 5 == 0; let a0 := fld n 15 5 == 0; let b0 := fld n 10 5 == 0
  let wd := MicaWid.ofCode (fld n 4 2); let g := bitAt n 3; let z := fld n 6 4 == 0
  match fld n 0 3 with
  | 0 =>
    if g || bitAt n 9 then .error .reservedField
    else match fld n 7 2 with
      | 0 => okIf (d0 && b0) (.mcfg a k)
      | 1 => okIf (a0 && fld n 11 4 == 0) (.mcfgRd d (bitAt n 10) k)
      | 2 => okIf (d0 && a0 && b0) (.mcfgClr k)
      | _ => .error .unassigned
  | 1 => if z then assigned wd (fun w => if g then .mldg d a b w else .mld d a b w) else .error .reservedField
  | 2 => if z then assigned wd (fun w => if g then .mldlg d a b w else .mldl d a b w) else .error .reservedField
  | 3 => if z then assigned wd (fun w => if g then .mincg d a b w else .minc d a b w) else .error .reservedField
  | _ => .error .unassigned

/-- The slot selector of RRET, RHOLD, RREL and RSTAT: bit [6] with gb 0, or gb (R178). -/
def slotSel (f : SlotSel → Instr) : Dec :=
  if bitAt n 6 then okIf (fld n 10 5 == 0) (f .all) else .ok (f (.one (gbF n)))

/-- Major 0x18 (R178). -/
def decRot : Dec :=
  let d := gdF n; let a := gaF n; let q := Fin.ofNat 8 (n / 2 ^ 3)
  let d0 := fld n 20 5 == 0; let a0 := fld n 15 5 == 0; let b0 := fld n 10 5 == 0
  let f97 := fld n 7 3 == 0; let f98 := fld n 8 2 == 0
  match fld n 0 3 with
  | 0 => okIf (a0 && f97) (.radm d (gbF n) (bitAt n 6) q)
  | 1 => if d0 && a0 && f97 then slotSel n (.rret · q) else .error .reservedField
  | 2 => if d0 && a0 && f97 then slotSel n (.rhold · q) else .error .reservedField
  | 3 => if d0 && a0 && f97 then slotSel n (.rrel · q) else .error .reservedField
  | 4 => if d0 && b0 && f98 then assigned (SaveMode.ofCode (fld n 6 2)) (.rsave a · q) else .error .reservedField
  | 5 => okIf (d0 && b0 && f98) (.rload a (bitAt n 7) (bitAt n 6) q)
  | 6 => okIf (d0 && b0 && fld n 6 4 == 0) (.rmap a q)
  | _ => if a0 && f97 then slotSel n (.rstat d · q) else .error .reservedField

/-- Major 0x20 (R78). -/
def decBr : Dec :=
  let c := Fin.ofNat 8 (n / 2 ^ 22); let neg := bitAt n 21
  okIf (!(c == 0 && neg)) (.br c neg (.ofNat 21 n))

/-- Major 0x21 (R78). -/
def decCall : Dec := okIf (fld n 21 4 == 0) (.call (.ofNat 21 n))

/-- Major 0x22 (R79). -/
def decJmpr : Dec :=
  let b0 := fld n 10 5 == 0
  match fld n 0 10 with
  | 0 => okIf (b0 && fld n 20 5 == 0) (.jr (gaF n))
  | 1 => okIf b0 (.jalr (gdF n) (gaF n))
  | _ => .error .unassigned

/-- Major 0x23 (R80). -/
def decLoop : Dec :=
  let e := i12F n
  if h : fld n 23 2 < 3 then
    let l : Fin 3 := ⟨fld n 23 2, h⟩
    if e == 0 then .error .reservedField
    else if bitAt n 22 then .ok (.loopImm l (.ofNat 10 (n / 2 ^ 12)) e)
    else okIf (fld n 12 5 == 0) (.loopReg l (Fin.ofNat 32 (n / 2 ^ 17)) e)
  else .error .unassigned

/-- Major 0x24 (R84). -/
def decRep : Dec :=
  let e := i12F n
  if fld n 23 2 != 0 || !(e == 1 || e == 2) then .error .reservedField
  else if bitAt n 22 then .ok (.repImm (.ofNat 10 (n / 2 ^ 12)) e)
  else okIf (fld n 12 5 == 0) (.repReg (Fin.ofNat 32 (n / 2 ^ 17)) e)

/-- Major 0x25 (R89). -/
def decPin : Dec :=
  let e := i12F n
  okIf (fld n 23 2 == 0 && bitAt n 22 && fld n 12 10 == 0 && e != 0) (.pin e)

/-- Major 0x28 (R249). -/
def decDx : Dec :=
  .ok (.dx (Fin.ofNat 1024 (n / 2 ^ 15)) (.ofNat 5 (n / 2 ^ 10)) (.ofNat 5 (n / 2 ^ 5)) (.ofNat 5 n))

/-- Major 0x2A (R48). -/
def decRdc : Dec := okIf (fld n 12 8 == 0) (.rdc (gdF n) (i12F n))

/-- Major 0x2B (R49). The writes of SPLIT, PINS, LEASE and BKCn have rows of their own. -/
def decWrc : Dec :=
  let a := gaF n; let c := fld n 0 12
  if fld n 20 5 != 0 || fld n 12 3 != 0 then .error .reservedField
  else if c == 0x038 then .ok (.wrcSplit a)
  else if c == 0x012 then .ok (.wrcPins a)
  else if c == 0x031 then .ok (.wrcLease a)
  else if 0x068 ≤ c && c ≤ 0x06F then .ok (.wrcBkc a (Fin.ofNat 8 (c - 0x068)))
  else .ok (.wrc a (.ofNat 12 c))

/-- Major 0x2C (R91, R251, R307). -/
def decSys : Dec :=
  let d := gdF n; let a := gaF n
  let d0 := fld n 20 5 == 0; let a0 := fld n 15 5 == 0; let b0 := fld n 10 5 == 0
  match fld n 0 10 with
  | 0x000 => if d0 && b0 then assigned (Scope.ofCode (fld n 15 5)) .fence else .error .reservedField
  | 0x010 => okIf (d0 && a0 && b0) .exit
  | 0x011 => okIf (d0 && a0 && b0) .abort
  | 0x020 => okIf d0 (.dload a (gbF n))
  | 0x021 => okIf (d0 && a0 && b0) .dfence
  | 0x022 => if h : fld n 10 5 < 3 then .ok (.dread d a ⟨fld n 10 5, h⟩) else .error .reservedField
  | 0x030 => okIf (d0 && b0) (.trap a)
  | 0x031 => okIf (d0 && a0 && b0) .brk
  | 0x032 => okIf (d0 && a0 && b0) .eret
  | _ => .error .unassigned

/-- The scalar word by its major opcode (R38, R39). -/
def decMajor : Dec :=
  match fld n 25 6 with
  | 0x01 => decAlu n
  | 0x02 => decMulDiv n
  | 0x03 => decCmpc n
  | 0x04 => .ok (.addi (gdF n) (gaF n) (i15F n))
  | 0x05 => .ok (.andi (gdF n) (gaF n) (i15F n))
  | 0x06 => .ok (.ori (gdF n) (gaF n) (i15F n))
  | 0x07 => .ok (.xori (gdF n) (gaF n) (i15F n))
  | 0x08 => decShi n
  | 0x09 => decCmpci n
  | 0x0A => .ok (.li (gdF n) (i20F n))
  | 0x0B => .ok (.lis (gdF n) (i20F n))
  | 0x0C => decBit n
  | 0x0D => decAgen n
  | 0x0E => decMov n
  | 0x10 => assigned (LdSz.ofCode (fld n 12 3)) (.ldl (gdF n) (gaF n) · (i12F n))
  | 0x11 => assigned (StSz.ofCode (fld n 12 3)) (.stl (gdF n) (gaF n) · (i12F n))
  | 0x12 => assigned (LdSz.ofCode (fld n 12 3)) (.ldg (gdF n) (gaF n) · (i12F n))
  | 0x13 => assigned (StSz.ofCode (fld n 12 3)) (.stg (gdF n) (gaF n) · (i12F n))
  | 0x14 => decMemx n
  | 0x15 => decFe n
  | 0x16 => decHnd n
  | 0x17 => decMica n
  | 0x18 => decRot n
  | 0x20 => decBr n
  | 0x21 => decCall n
  | 0x22 => decJmpr n
  | 0x23 => decLoop n
  | 0x24 => decRep n
  | 0x25 => decPin n
  | 0x28 => decDx n
  | 0x29 => .error .commandHeader
  | 0x2A => decRdc n
  | 0x2B => decWrc n
  | 0x2C => decSys n
  | _ => .error .reservedMajor

end rulers

/-- One scalar word. The pair bit is bit 31 and no part of the instruction (R35). -/
def decodeScalar (w : Half) : Dec := decMajor w.toNat

/-- The pair bit P (R35). -/
def pairBit (w : Half) : Bool := bitAt w.toNat 31

/-- The major opcode, [30:25] (R35). -/
def majorOf (w : Half) : Nat := fld w.toNat 25 6

/-! ### The encoder of scalar words -/

/-- RRR (R37). -/
def rrr (maj d a b fn : Nat) : Nat := 2 ^ 25 * maj + 2 ^ 20 * d + 2 ^ 15 * a + 2 ^ 10 * b + fn
/-- RRI (R37). -/
def rri (maj d a imm : Nat) : Nat := 2 ^ 25 * maj + 2 ^ 20 * d + 2 ^ 15 * a + imm
/-- RI20 (R37). -/
def ri20 (maj d imm : Nat) : Nat := 2 ^ 25 * maj + 2 ^ 20 * d + imm
/-- BR (R37). -/
def brR (maj c n off : Nat) : Nat := 2 ^ 25 * maj + 2 ^ 22 * c + 2 ^ 21 * n + off
/-- LP (R37): `mid` is the field [21:12]. -/
def lpR (maj level k mid e : Nat) : Nat := 2 ^ 25 * maj + 2 ^ 23 * level + 2 ^ 22 * k + 2 ^ 12 * mid + e

/-- The fn field of the ALU ruler (R56). -/
def aluFn (w : Width) (s u : Bool) (op : Nat) : Nat := 2 ^ 8 * w.code + 2 ^ 7 * bit s + 2 ^ 6 * bit u + op

/-- The gb field and bit [6] of a slot selector (R178). -/
def SlotSel.gb : SlotSel → Nat
  | .one r => r.val
  | .all => 0
def SlotSel.flag : SlotSel → Bool
  | .one _ => false
  | .all => true

/-- The scalar word of an instruction, with P = 0; `none` for commands, steps and events. -/
def encodeScalar : Instr → Option Nat
  | .add d a b w s u => some (rrr 1 d a b (aluFn w s u 0))
  | .sub d a b w s u => some (rrr 1 d a b (aluFn w s u 1))
  | .and d a b => some (rrr 1 d a b 2)
  | .or d a b => some (rrr 1 d a b 3)
  | .xor d a b => some (rrr 1 d a b 4)
  | .andn d a b => some (rrr 1 d a b 5)
  | .shl d a b w u => some (rrr 1 d a b (aluFn w false u 8))
  | .shr d a b w u => some (rrr 1 d a b (aluFn w false u 9))
  | .sar d a b w u => some (rrr 1 d a b (aluFn w false u 10))
  | .ror d a b w u => some (rrr 1 d a b (aluFn w false u 11))
  | .min d a b w u => some (rrr 1 d a b (aluFn w false u 16))
  | .max d a b w u => some (rrr 1 d a b (aluFn w false u 17))
  | .slt d a b w u => some (rrr 1 d a b (aluFn w false u 20))
  | .seq d a b w => some (rrr 1 d a b (aluFn w false false 21))
  | .mul d a b w s u => some (rrr 2 d a b (aluFn w s u 0))
  | .mulh d a b w u => some (rrr 2 d a b (aluFn w false u 1))
  | .div d a b w u => some (rrr 2 d a b (aluFn w false u 4))
  | .rem d a b w u => some (rrr 2 d a b (aluFn w false u 5))
  | .ceq c a b w => some (rrr 3 c a b (aluFn w false false 0))
  | .cne c a b w => some (rrr 3 c a b (aluFn w false false 1))
  | .clt c a b w u => some (rrr 3 c a b (aluFn w false u 2))
  | .cge c a b w u => some (rrr 3 c a b (aluFn w false u 3))
  | .ctst c a b w => some (rrr 3 c a b (aluFn w false false 4))
  | .addi d a i => some (rri 4 d a i.toNat)
  | .andi d a i => some (rri 5 d a i.toNat)
  | .ori d a i => some (rri 6 d a i.toNat)
  | .xori d a i => some (rri 7 d a i.toNat)
  | .shli d a w u n => some (rri 8 d a (2 ^ 10 * w.code + 2 ^ 9 * bit u + n.toNat))
  | .shri d a w u n => some (rri 8 d a (1 * 2 ^ 12 + 2 ^ 10 * w.code + 2 ^ 9 * bit u + n.toNat))
  | .sari d a w u n => some (rri 8 d a (2 * 2 ^ 12 + 2 ^ 10 * w.code + 2 ^ 9 * bit u + n.toNat))
  | .rori d a w u n => some (rri 8 d a (3 * 2 ^ 12 + 2 ^ 10 * w.code + 2 ^ 9 * bit u + n.toNat))
  | .ceqi c a i => some (rri 9 c a i.toNat)
  | .cnei c a i => some (rri 9 c a (1 * 2 ^ 12 + i.toNat))
  | .clti c a i => some (rri 9 c a (2 * 2 ^ 12 + i.toNat))
  | .cgei c a i => some (rri 9 c a (3 * 2 ^ 12 + i.toNat))
  | .cltui c a i => some (rri 9 c a (4 * 2 ^ 12 + i.toNat))
  | .cgeui c a i => some (rri 9 c a (5 * 2 ^ 12 + i.toNat))
  | .ctsti c a i => some (rri 9 c a (6 * 2 ^ 12 + i.toNat))
  | .li d i => some (ri20 0x0A d i.toNat)
  | .lis d i => some (ri20 0x0B d i.toNat)
  | .clz d a => some (rrr 0x0C d a 0 0)
  | .ctz d a => some (rrr 0x0C d a 0 1)
  | .popc d a => some (rrr 0x0C d a 0 2)
  | .brev d a => some (rrr 0x0C d a 0 3)
  | .bswap d a => some (rrr 0x0C d a 0 4)
  | .sel d a b c => some (rrr 0x0C d a b (8 + c))
  | .seln d a b c => some (rrr 0x0C d a b (16 + c))
  | .mfc d c => some (rrr 0x0C d c 0 0x20)
  | .mtc c a => some (rrr 0x0C c a 0 0x21)
  | .cand d a b => some (rrr 0x0C d a b 0x22)
  | .cor d a b => some (rrr 0x0C d a b 0x23)
  | .cxor d a b => some (rrr 0x0C d a b 0x24)
  | .candn d a b => some (rrr 0x0C d a b 0x25)
  | .addsh d a f => some (rri 0x0D d a f.toNat)
  | .wrapi d a k f => some (rri 0x0D d a (1 * 2 ^ 12 + 2 ^ 6 * k.toNat + f.toNat))
  | .alignu d a k => some (rri 0x0D d a (2 * 2 ^ 12 + 2 ^ 6 * k.toNat))
  | .mov d a => some (rrr 0x0E d a 0 0)
  | .sxb d a => some (rrr 0x0E d a 0 1)
  | .sxh d a => some (rrr 0x0E d a 0 2)
  | .sxw d a => some (rrr 0x0E d a 0 3)
  | .zxb d a => some (rrr 0x0E d a 0 4)
  | .zxh d a => some (rrr 0x0E d a 0 5)
  | .zxw d a => some (rrr 0x0E d a 0 6)
  | .mfl d l => some (rrr 0x0E d l 0 0x10)
  | .mtl l a => some (rrr 0x0E l a 0 0x11)
  | .ldl d a z o => some (rri 0x10 d a (2 ^ 12 * z.code + o.toNat))
  | .stl s a z o => some (rri 0x11 s a (2 ^ 12 * z.code + o.toNat))
  | .ldg d a z o => some (rri 0x12 d a (2 ^ 12 * z.code + o.toNat))
  | .stg s a z o => some (rri 0x13 s a (2 ^ 12 * z.code + o.toNat))
  | .ldlx d a b s z => some (rrr 0x14 d a b (2 ^ 5 * s.toNat + z.code))
  | .ldgx d a b s z => some (rrr 0x14 d a b (2 ^ 5 * s.toNat + 1 * 2 ^ 3 + z.code))
  | .stlx d a b s z => some (rrr 0x14 d a b (2 ^ 5 * s.toNat + 2 * 2 ^ 3 + z.code))
  | .stgx d a b s z => some (rrr 0x14 d a b (2 ^ 5 * s.toNat + 3 * 2 ^ 3 + z.code))
  | .ldf d a x o => some (rri 0x15 d a (2 ^ 12 * bit x + o.toNat))
  | .ldfp d a x o => some (rri 0x15 d a (1 * 2 ^ 13 + 2 ^ 12 * bit x + o.toNat))
  | .ste s a o => some (rri 0x15 s a (2 * 2 ^ 13 + o.toNat))
  | .stf s a o => some (rri 0x15 s a (3 * 2 ^ 13 + o.toNat))
  | .hcfg a h => some (rrr 0x16 0 a 0 (2 ^ 5 * h.val + 0))
  | .hget d k h => some (rrr 0x16 d 0 (bit k) (2 ^ 5 * h.val + 1))
  | .hwaitc a h => some (rrr 0x16 0 a 0 (2 ^ 5 * h.val + 2))
  | .hwaitp a h => some (rrr 0x16 0 a 0 (2 ^ 5 * h.val + 3))
  | .hadvc a h => some (rrr 0x16 0 a 0 (2 ^ 5 * h.val + 4))
  | .hadvp a h => some (rrr 0x16 0 a 0 (2 ^ 5 * h.val + 5))
  | .hroll a h => some (rrr 0x16 0 a 0 (2 ^ 5 * h.val + 6))
  | .hpslot d a h => some (rrr 0x16 d a 0 (2 ^ 5 * h.val + 7))
  | .hcslot d a h => some (rrr 0x16 d a 0 (2 ^ 5 * h.val + 8))
  | .hown a h => some (rrr 0x16 0 a 0 (2 ^ 5 * h.val + 9))
  | .wpr d c => some (rrr 0x16 d 0 0 (2 ^ 5 * c.val + 10))
  | .wpw a c => some (rrr 0x16 0 a 0 (2 ^ 5 * c.val + 11))
  | .carm a c => some (rrr 0x16 0 a 0 (2 ^ 5 * c.val + 12))
  | .mcfg a k => some (rrr 0x17 0 a 0 (k.val * 2 ^ 4))
  | .mcfgRd d j k => some (rrr 0x17 d 0 (bit j) (1 * 2 ^ 7 + k.val * 2 ^ 4))
  | .mcfgClr k => some (rrr 0x17 0 0 0 (2 * 2 ^ 7 + k.val * 2 ^ 4))
  | .mld d a b w => some (rrr 0x17 d a b (w.code * 2 ^ 4 + 1))
  | .mldg d a b w => some (rrr 0x17 d a b (w.code * 2 ^ 4 + 8 + 1))
  | .mldl d a b w => some (rrr 0x17 d a b (w.code * 2 ^ 4 + 2))
  | .mldlg d a b w => some (rrr 0x17 d a b (w.code * 2 ^ 4 + 8 + 2))
  | .minc s a b w => some (rrr 0x17 s a b (w.code * 2 ^ 4 + 3))
  | .mincg s a b w => some (rrr 0x17 s a b (w.code * 2 ^ 4 + 8 + 3))
  | .radm h b w q => some (rrr 0x18 h 0 b (2 ^ 6 * bit w + q.val * 2 ^ 3 + 0))
  | .rret x q => some (rrr 0x18 0 0 x.gb (2 ^ 6 * bit x.flag + q.val * 2 ^ 3 + 1))
  | .rhold x q => some (rrr 0x18 0 0 x.gb (2 ^ 6 * bit x.flag + q.val * 2 ^ 3 + 2))
  | .rrel x q => some (rrr 0x18 0 0 x.gb (2 ^ 6 * bit x.flag + q.val * 2 ^ 3 + 3))
  | .rsave a m q => some (rrr 0x18 0 a 0 (2 ^ 6 * m.code + q.val * 2 ^ 3 + 4))
  | .rload a m kf q => some (rrr 0x18 0 a 0 (2 ^ 7 * bit m + 2 ^ 6 * bit kf + q.val * 2 ^ 3 + 5))
  | .rmap a q => some (rrr 0x18 0 a 0 (q.val * 2 ^ 3 + 6))
  | .rstat d x q => some (rrr 0x18 d 0 x.gb (2 ^ 6 * bit x.flag + q.val * 2 ^ 3 + 7))
  | .br c n o => some (brR 0x20 c (bit n) o.toNat)
  | .call o => some (brR 0x21 0 0 o.toNat)
  | .jr a => some (rrr 0x22 0 a 0 0)
  | .jalr d a => some (rrr 0x22 d a 0 1)
  | .loopReg l a e => some (lpR 0x23 l 0 (2 ^ 5 * a.val) e.toNat)
  | .loopImm l i e => some (lpR 0x23 l 1 i.toNat e.toNat)
  | .repReg a e => some (lpR 0x24 0 0 (2 ^ 5 * a.val) e.toNat)
  | .repImm i e => some (lpR 0x24 0 1 i.toNat e.toNat)
  | .pin e => some (lpR 0x25 0 1 0 e.toNat)
  | .dx idx h0 h1 h2 =>
    some (0x28 * 2 ^ 25 + 2 ^ 15 * idx.val + 2 ^ 10 * h0.toNat + 2 ^ 5 * h1.toNat + h2.toNat)
  | .rdc d c => some (rri 0x2A d 0 c.toNat)
  | .wrc a c => some (rri 0x2B 0 a c.toNat)
  | .wrcSplit a => some (rri 0x2B 0 a 0x038)
  | .wrcPins a => some (rri 0x2B 0 a 0x012)
  | .wrcLease a => some (rri 0x2B 0 a 0x031)
  | .wrcBkc a k => some (rri 0x2B 0 a (0x068 + k.val))
  | .fence s => some (rrr 0x2C 0 s.code 0 0)
  | .exit => some (rrr 0x2C 0 0 0 0x10)
  | .abort => some (rrr 0x2C 0 0 0 0x11)
  | .dload a b => some (rrr 0x2C 0 a b 0x20)
  | .dfence => some (rrr 0x2C 0 0 0 0x21)
  | .dread d a k => some (rrr 0x2C d a k 0x22)
  | .trap k => some (rrr 0x2C 0 k 0 0x30)
  | .brk => some (rrr 0x2C 0 0 0 0x31)
  | .eret => some (rrr 0x2C 0 0 0 0x32)
  | _ => none

/-- The words of a well-formed scalar instruction, with its pair bit (R35). -/
def encodeWord (p : Bool) (i : Instr) : Option Half :=
  (encodeScalar i).map fun n => BitVec.ofNat 32 (2 ^ 31 * bit p + n)

/-! ### Stream commands (R236, R237) -/

def MxTy.code : MxTy → Nat
  | .i8 => 0
  | .dk8 => 8
  | .bf16 => 9

def MxTy.ofCode : Nat → Option MxTy
  | 0 => some .i8
  | 8 => some .dk8
  | 9 => some .bf16
  | _ => none

def RdFmt.code : RdFmt → Nat
  | .i8 => 0
  | .i32 => 2
  | .dk8 => 8
  | .bf16 => 9
  | .fp32 => 10

def RdFmt.ofCode : Nat → Option RdFmt
  | 0 => some .i8
  | 2 => some .i32
  | 8 => some .dk8
  | 9 => some .bf16
  | 10 => some .fp32
  | _ => none

def AtomOp.code : AtomOp → Nat
  | .add => 0
  | .min => 1
  | .max => 2
  | .and => 3
  | .or => 4
  | .xor => 5
  | .swap => 6
  | .cas => 7
  | .finc => 8

def AtomOp.ofCode : Nat → Option AtomOp
  | 0 => some .add
  | 1 => some .min
  | 2 => some .max
  | 3 => some .and
  | 4 => some .or
  | 5 => some .xor
  | 6 => some .swap
  | 7 => some .cas
  | 8 => some .finc
  | _ => none

def AtomFmt.code : AtomFmt → Nat
  | .i32 => 0
  | .i64 => 1
  | .fp32 => 2
  | .n32 => 3
  | .n64 => 4

def AtomFmt.ofCode : Nat → Option AtomFmt
  | 0 => some .i32
  | 1 => some .i64
  | 2 => some .fp32
  | 3 => some .n32
  | 4 => some .n64
  | _ => none

def SyeScope.code : SyeScope → Nat
  | .gang => 1
  | .die => 2
  | .device => 3
  | .system => 4

def SyeScope.ofCode : Nat → Option SyeScope
  | 1 => some .gang
  | 2 => some .die
  | 3 => some .device
  | 4 => some .system
  | _ => none

/-- One group of DECL: V at bit `lo` + 9, N at `lo` + 5, H at `lo` (R239). -/
def decGrp (w3 lo : Nat) : Except Reject (Option Grp) :=
  if bitAt w3 (lo + 9) then .ok (some ⟨Fin.ofNat 32 (w3 / 2 ^ lo), Fin.ofNat 16 (w3 / 2 ^ (lo + 5))⟩)
  else if fld w3 lo 9 == 0 then .ok none
  else .error .badField

/-- DECL (R239). -/
def decDecl (w3 : Nat) : Except Reject Decl :=
  if fld w3 30 2 != 0 then .error .badField
  else match decGrp w3 0, decGrp w3 10, decGrp w3 20 with
    | .ok a, .ok b, .ok o => .ok ⟨a, b, o⟩
    | _, _, _ => .error .badField

def encGrp : Option Grp → Nat
  | none => 0
  | some g => 2 ^ 9 + 2 ^ 5 * g.n.val + g.h.val

/-- The declaration word (R239). -/
def Decl.word (d : Decl) : Nat := encGrp d.a + 2 ^ 10 * encGrp d.b + 2 ^ 20 * encGrp d.o

/-- A command that keeps its class's limits, else a rejection (R237). -/
def okCmd (c : Bool) (i : Instr) : Dec := if c && i.wf then .ok i else .error .badField

/-- A command with a declaration word. -/
def withDecl (w3 : Nat) (c : Bool) (f : Decl → Instr) : Dec :=
  match decDecl w3 with
  | .ok d => okCmd c (f d)
  | .error r => .error r

/-- An optional port field: present when its flag is 1, else its bits are 0 (R269, R272). -/
def optPort (flag : Bool) (v : Nat) : Option (Option (Fin 16)) :=
  if flag then some (some (Fin.ofNat 16 v)) else if v % 16 == 0 then some none else none

/-- The bits of an optional port field: flag, then port. -/
def portBits : Option (Fin 16) → Nat × Nat
  | none => (0, 0)
  | some p => (1, p.val)

/-- An optional record offset: R and REC (R256). -/
def optRec (r : Bool) (w2 : Nat) : Option (Option (BitVec 24)) :=
  if r then some (some (.ofNat 24 w2)) else if w2 == 0 then some none else none

def recBits : Option (BitVec 24) → Nat × Nat
  | none => (0, 0)
  | some r => (1, r.toNat)

/-- Classes 0 and 1 (R242). -/
def decFeed (op q qp w1 w2 w3 : Nat) : Dec :=
  let g := bitAt qp 9; let f := bitAt qp 8; let m := bitAt qp 4
  let port := Fin.ofNat 16 qp; let q := Fin.ofNat 4 q
  let z := fld qp 5 3 == 0
  let base := BitVec.ofNat 48 (w1 + 2 ^ 32 * (w2 % 2 ^ 16)); let sd := Fin.ofNat 16 (w2 / 2 ^ 16)
  match op with
  | 0 => withDecl w3 (z && !g && w1 / 2 ^ 24 == 0 && w2 == 0) (.feedh q f m port (.ofNat 24 w1))
  | 1 => withDecl w3 (z && w2 / 2 ^ 20 == 0) (.feeda q g f m port base sd)
  | 2 => withDecl w3 (z && !g && !f) (.feedi q m port (.ofNat 32 w1) (.ofNat 32 w2))
  | 3 => withDecl w3 (z && !g && !f && !m && w1 == 0 && w2 == 0) (.feedm q port)
  | _ => .error .unassignedOp

def decDrain (op q qp w1 w2 w3 : Nat) : Dec :=
  let g := bitAt qp 9; let f := bitAt qp 8; let m := bitAt qp 4
  let port := Fin.ofNat 16 qp; let q := Fin.ofNat 4 q
  let z := fld qp 5 3 == 0
  let base := BitVec.ofNat 48 (w1 + 2 ^ 32 * (w2 % 2 ^ 16)); let sd := Fin.ofNat 16 (w2 / 2 ^ 16)
  match op with
  | 0 => withDecl w3 (z && !g && w1 == 0 && w2 == 0) (.drainh q f m port)
  | 1 => withDecl w3 (z && w2 / 2 ^ 20 == 0) (.draina q g f m port base sd)
  | 2 => withDecl w3 (z && !g && !f && !m && w1 == 0 && w2 == 0) (.drainx q port)
  | _ => .error .unassignedOp

/-- The histogram fields of w1 (R256). -/
def decHist (w1 : Nat) : Option Hist :=
  if h : fld w1 8 4 < 11 then
    if w1 / 2 ^ 21 == 0 then some ⟨.ofNat 8 w1, ⟨fld w1 8 4, h⟩, .ofNat 8 (w1 / 2 ^ 13)⟩ else none
  else none

def encHist (h : Hist) : Nat := h.ebase.toNat + 2 ^ 8 * h.fmt.val + 2 ^ 12 + 2 ^ 13 * h.bias.toNat

/-- Class 2 (R256). -/
def decCpe (op q qp w1 w2 w3 : Nat) : Dec :=
  let r := bitAt qp 9; let f := bitAt qp 8
  let ssd := Fin.ofNat 16 (qp / 2 ^ 4); let dsd := Fin.ofNat 16 qp
  let qf := Fin.ofNat 8 q; let z2 := w2 / 2 ^ 24 == 0
  match op, optRec r w2 with
  | 0, _ => okCmd (q == 0 && qp / 2 ^ 4 == 0 && w1 / 2 ^ 24 == 0 && w2 == 0 && w3 == 0)
      (.sdld dsd (.ofNat 24 w1))
  | 1, some rc =>
    if bitAt w1 12 then
      match decHist w1 with
      | some h => withDecl w3 z2 (.copy qf f rc ssd dsd (some h))
      | none => .error .badField
    else withDecl w3 (z2 && w1 == 0) (.copy qf f rc ssd dsd none)
  | 2, some rc => withDecl w3 (z2 && w1 / 2 ^ 24 == 0) (.gather qf f rc ssd dsd (.ofNat 24 w1))
  | 3, some rc => withDecl w3 (z2 && w1 / 2 ^ 24 == 0) (.scatter qf f rc ssd dsd (.ofNat 24 w1))
  | 4, some (some rc) =>
    let nd := bitAt w1 6
    withDecl w3 (z2 && !f && w1 / 2 ^ 7 == 0 && (!nd || dsd == 0))
      (.selacc qf rc ssd (if nd then none else some dsd) (.ofNat 6 w1))
  | 5, some rc =>
    match decHist w1 with
    | some h => withDecl w3 z2 (.hcopy qf f rc ssd dsd h)
    | none => .error .badField
  | n, _ => if n ≤ 5 then .error .badField else .error .unassignedOp

/-- Class 3 (R269–R274). A port field that a form names no port with is ignored, and so are FW and FPORT of RDACC, which takes no
tokens to forward (log entry 53). -/
def decMxe (op qp w1 w2 w3 : Nat) : Dec :=
  let m := bitAt qp 9; let port := Fin.ofNat 16 qp
  let row0 := BitVec.ofNat 7 w1; let n := BitVec.ofNat 7 (w1 / 2 ^ 8)
  let z := bitAt w1 16; let sw := bitAt w1 17; let bias := BitVec.ofNat 8 (w1 / 2 ^ 22)
  let ty := MxTy.ofCode (fld w1 18 4)
  let rsv := !bitAt w1 7 && !bitAt w1 15 && w1 / 2 ^ 30 == 0
  match optPort (bitAt qp 8) (qp / 2 ^ 4) with
  | none => if op ≤ 4 then .error .badField else .error .unassignedOp
  | some fwd =>
    match op with
    | 0 =>
      match MxTy.ofCode (fld w1 2 4) with
      | none => .error .badField
      | some ty =>
        let b := BitVec.ofNat 8 (w1 / 2 ^ 6)
        let ok := !m && w1 / 2 ^ 14 == 0
        match fld w1 0 2 with
        | 0 => withDecl w3 (ok && w2 / 2 ^ 24 == 0) (.ldb (.spad (.ofNat 24 w2)) ty b fwd)
        | 1 => withDecl w3 (ok && w2 == 0) (.ldb (.port port) ty b fwd)
        | 2 => withDecl w3 (ok && w2 == 0) (.ldb .slot ty b fwd)
        | _ => .error .badField
    | 1 =>
      match ty with
      | none => .error .badField
      | some ty =>
        if bitAt w2 0 then
          match MxTy.ofCode (fld w2 6 4), optPort (bitAt w2 18) (w2 / 2 ^ 19) with
          | some pty, some pfwd =>
            let src := if bitAt w2 1 then some (Fin.ofNat 16 (w2 / 2 ^ 2)) else none
            withDecl w3 (rsv && bias == 0 && w2 / 2 ^ 23 == 0 && (bitAt w2 1 || fld w2 2 4 == 0))
              (.mmul row0 n z sw ty port fwd m (some ⟨src, pty, .ofNat 8 (w2 / 2 ^ 10), pfwd⟩))
          | _, _ => .error .badField
        else withDecl w3 (rsv && bias == 0 && w2 == 0) (.mmul row0 n z sw ty port fwd m none)
    | 2 =>
      match ty with
      | none => .error .badField
      | some ty =>
        withDecl w3 (rsv && !m && w2 / 2 ^ 24 == 0) (.gmul row0 n z sw ty bias port (.ofNat 24 w2) fwd)
    | 3 =>
      match RdFmt.ofCode (fld w1 18 4) with
      | none => .error .badField
      | some fmt =>
        if sw then withDecl w3 (rsv && w2 == 0) (.rdacc row0 n z fmt bias (.port port m))
        else withDecl w3 (rsv && !m && w2 / 2 ^ 24 == 0) (.rdacc row0 n z fmt bias (.spad (.ofNat 24 w2)))
    | 4 =>
      match ty with
      | none => .error .badField
      | some ty =>
        withDecl w3 (fld w1 3 15 == 0 && w1 / 2 ^ 30 == 0 && w2 == 0)
          (.recur (Fin.ofNat 8 w1) ty bias port fwd m)
    | _ => .error .unassignedOp

/-- Class 4 (R281, R282). -/
def decSye (op qp w1 w2 w3 : Nat) : Dec :=
  let va := BitVec.ofNat 48 (w1 + 2 ^ 32 * (w2 % 2 ^ 16)); let opr := BitVec.ofNat 24 w3
  let win := Fin.ofNat 64 (w3 / 2 ^ 26); let merge := fld qp 0 4 == 9
  let j := BitVec.ofNat 5 (w2 / 2 ^ 24); let lvl := BitVec.ofNat 8 (w2 / 2 ^ 16)
  let z3 := w3 / 2 ^ 24 == 0; let zw := fld w3 24 2 == 0
  if op > 3 then .error .unassignedOp else
  match SyeScope.ofCode (fld qp 7 3) with
  | none => .error .badField
  | some sc =>
    match op with
    | 0 =>
      if merge then
        match MicaWid.ofCode (fld qp 4 3) with
        | some wd => okCmd (z3 && w2 / 2 ^ 29 == 0) (.mmerge wd sc va j lvl opr)
        | none => .error .badField
      else match AtomOp.ofCode (fld qp 0 4), AtomFmt.ofCode (fld qp 4 3) with
        | some a, some f => okCmd (z3 && w2 / 2 ^ 16 == 0) (.atom a f sc va opr)
        | _, _ => .error .badField
    | 1 =>
      if merge then
        match MicaWid.ofCode (fld qp 4 3) with
        | some wd => okCmd (zw && w2 / 2 ^ 29 == 0) (.mmergew wd sc va j lvl opr win)
        | none => .error .badField
      else match AtomOp.ofCode (fld qp 0 4), AtomFmt.ofCode (fld qp 4 3) with
        | some a, some f => okCmd (zw && w2 / 2 ^ 16 == 0) (.atomw a f sc va opr win)
        | _, _ => .error .badField
    | 2 => okCmd (fld qp 0 7 == 0 && w1 / 2 ^ 12 == 0 && w2 == 0 && zw) (.wend sc (.ofNat 12 w1) opr win)
    | _ => okCmd (fld qp 0 7 == 0 && w1 / 2 ^ 6 == 0 && w2 == 0 && z3) (.barr sc (Fin.ofNat 64 w1) opr)

/-- Class 5 (R245). -/
def decStat (op qp w1 w2 w3 : Nat) : Dec :=
  match op with
  | 0 => withDecl w3 (qp == 0 && w1 / 2 ^ 24 == 0 && w2 == 0) (.snap (.ofNat 24 w1))
  | 1 => withDecl w3 (qp == 0 && w1 / 2 ^ 5 == 0) (.argw (Fin.ofNat 32 w1) (.ofNat 32 w2))
  | _ => .error .unassignedOp

/-- The phase selector of RRETC, RHOLDC, RRELC (R246). -/
def decPhase (w1 w2 : Nat) : PhaseSel := if bitAt w1 8 then .all else .one (.ofNat 32 w2)

def PhaseSel.flag : PhaseSel → Bool
  | .one _ => false
  | .all => true
def PhaseSel.word : PhaseSel → Nat
  | .one p => p.toNat
  | .all => 0

/-- Class 6 (R246). -/
def decRotc (op qp w1 w2 w3 : Nat) : Dec :=
  let q := Fin.ofNat 8 w1; let z := qp == 0 && w3 == 0
  let selOk := fld w1 3 5 == 0 && w1 / 2 ^ 9 == 0 && (!bitAt w1 8 || w2 == 0)
  let off := BitVec.ofNat 32 w2
  match op with
  | 0 => okCmd (z && w1 / 2 ^ 9 == 0) (.radmc q (Fin.ofNat 32 (w1 / 2 ^ 3)) (bitAt w1 8) off)
  | 1 => okCmd (z && selOk) (.rretc q (decPhase w1 w2))
  | 2 => okCmd (z && selOk) (.rholdc q (decPhase w1 w2))
  | 3 => okCmd (z && selOk) (.rrelc q (decPhase w1 w2))
  | 4 =>
    match SaveMode.ofCode (fld w1 9 2) with
    | some m => okCmd (z && fld w1 3 6 == 0 && w1 / 2 ^ 11 == 0) (.rsavec q m off)
    | none => .error .badField
  | 5 => okCmd (z && fld w1 3 5 == 0 && fld w1 9 2 == 0 && w1 / 2 ^ 12 == 0)
      (.rloadc q (bitAt w1 8) (bitAt w1 11) off)
  | 6 => okCmd (z && w1 / 2 ^ 3 == 0) (.rmapc q off)
  | _ => .error .unassignedOp

/-- Class 7 (R343). -/
def decLaunch (op qp w1 w2 w3 : Nat) : Dec :=
  let z := qp == 0 && w3 == 0
  match op with
  | 0 => okCmd (z && w1 / 2 ^ 24 == 0 && w2 / 2 ^ 8 == 0) (.launch (.ofNat 24 w1) (Fin.ofNat 256 w2))
  | 1 => okCmd (z && w2 / 2 ^ 24 == 0)
      (.replay (.ofNat 48 (w1 + 2 ^ 32 * (w2 % 2 ^ 16))) (Fin.ofNat 256 (w2 / 2 ^ 16)))
  | _ => .error .unassignedOp

/-- Class 8 (R221). -/
def decXlt (op qp w1 w2 w3 : Nat) : Dec :=
  let self := bitAt w3 24
  let sel : AsidSel := if self then .self else .asid (.ofNat 16 w2)
  let z := qp == 0 && w3 / 2 ^ 25 == 0 && (!self || w2 % 2 ^ 16 == 0)
  let done := BitVec.ofNat 24 w3
  match op with
  | 0 => okCmd z (.invr (.ofNat 32 w1) (.ofNat 16 (w2 / 2 ^ 16)) sel done)
  | 1 => okCmd (z && w1 == 0 && w2 / 2 ^ 16 == 0) (.inva sel done)
  | _ => .error .unassignedOp

/-- The queue counts of classes 0–8 (R237). -/
def classQueues : Nat → Nat
  | 0 => 4
  | 1 => 4
  | 2 => 8
  | _ => 1

/-- A command from its four words; w0 is the header (R236). The header's P and major are checked by the caller:
they select the CMD form in the first place. -/
def decCommand (w0 w1 w2 w3 : Nat) : Dec :=
  let cls := fld w0 21 4; let op := fld w0 13 8; let q := fld w0 10 3; let qp := fld w0 0 10
  if cls > 8 then .error .reservedClass
  else if q ≥ classQueues cls then .error .badQueue
  else match cls with
    | 0 => decFeed op q qp w1 w2 w3
    | 1 => decDrain op q qp w1 w2 w3
    | 2 => decCpe op q qp w1 w2 w3
    | 3 => decMxe op qp w1 w2 w3
    | 4 => decSye op qp w1 w2 w3
    | 5 => decStat op qp w1 w2 w3
    | 6 => decRotc op qp w1 w2 w3
    | 7 => decLaunch op qp w1 w2 w3
    | _ => decXlt op qp w1 w2 w3

/-- A 128-bit command: header [31:0], payload words above it (R236). -/
def decodeCommand (c : Quad) : Dec :=
  let n := c.toNat
  decCommand (fld n 0 32) (fld n 32 32) (fld n 64 32) (fld n 96 32)

/-- The header word: P = 0, major 0x29, class, op, Q, qp (R236). -/
def hdr (cls op q qp : Nat) : Nat := 0x29 * 2 ^ 25 + 2 ^ 21 * cls + 2 ^ 13 * op + 2 ^ 10 * q + qp

/-- The qp of FEED and DRAIN (R242). -/
def feedQp (g f m : Bool) (port : Fin 16) : Nat := 2 ^ 9 * bit g + 2 ^ 8 * bit f + bit m * 2 ^ 4 + port.val

def vaLo (va : BitVec 48) : Nat := va.toNat % 2 ^ 32
def vaHi (va : BitVec 48) : Nat := va.toNat / 2 ^ 32

def AsidSel.bits : AsidSel → Nat × Nat
  | .asid a => (0, a.toNat)
  | .self => (1, 0)

/-- The qp of a CPE command (R256). -/
def cpeQp (rc : Option (BitVec 24)) (f : Bool) (ssd dsd : Fin 16) : Nat :=
  2 ^ 9 * (recBits rc).1 + 2 ^ 8 * bit f + ssd.val * 2 ^ 4 + dsd.val

/-- The qp of an MXE command (R269). -/
def mxeQp (m : Bool) (fwd : Option (Fin 16)) (port : Nat) : Nat :=
  2 ^ 9 * bit m + 2 ^ 8 * (portBits fwd).1 + (portBits fwd).2 * 2 ^ 4 + port

/-- w1 of MMUL, GMUL and RDACC (R269). -/
def mxeW1 (row0 n : BitVec 7) (z sw : Bool) (ty : Nat) (bias : BitVec 8) : Nat :=
  row0.toNat + 2 ^ 8 * n.toNat + 2 ^ 16 * bit z + 2 ^ 17 * bit sw + 2 ^ 18 * ty + 2 ^ 22 * bias.toNat

/-- w2 of a prefetch (R272). -/
def pfBits : Option Prefetch → Nat
  | none => 0
  | some p =>
    1 + (portBits p.port).1 * 2 + (portBits p.port).2 * 2 ^ 2 + 2 ^ 6 * p.ty.code + 2 ^ 10 * p.bias.toNat
      + 2 ^ 18 * (portBits p.fwd).1 + 2 ^ 19 * (portBits p.fwd).2

/-- The qp of an SYE command (R281). -/
def syeQp (sc : SyeScope) (fmt aop : Nat) : Nat := 2 ^ 7 * sc.code + fmt * 2 ^ 4 + aop

/-- The four words of a stream command; `none` for scalar words, steps and events. -/
def commandWords : Instr → Option (Nat × Nat × Nat × Nat)
  | .feedh q fe m p tag d => some (hdr 0 0 q (feedQp false fe m p), tag.toNat, 0, d.word)
  | .feeda q g fe m p base sd d =>
    some (hdr 0 1 q (feedQp g fe m p), vaLo base, vaHi base + 2 ^ 16 * sd.val, d.word)
  | .feedi q m p x y d => some (hdr 0 2 q (feedQp false false m p), x.toNat, y.toNat, d.word)
  | .feedm q p d => some (hdr 0 3 q (feedQp false false false p), 0, 0, d.word)
  | .drainh q fe m p d => some (hdr 1 0 q (feedQp false fe m p), 0, 0, d.word)
  | .draina q g fe m p base sd d =>
    some (hdr 1 1 q (feedQp g fe m p), vaLo base, vaHi base + 2 ^ 16 * sd.val, d.word)
  | .drainx q p d => some (hdr 1 2 q (feedQp false false false p), 0, 0, d.word)
  | .sdld sd off => some (hdr 2 0 0 sd.val, off.toNat, 0, 0)
  | .copy q fe rc s t h d =>
    some (hdr 2 1 q (cpeQp rc fe s t), (match h with | none => 0 | some x => encHist x), (recBits rc).2, d.word)
  | .hcopy q fe rc s t h d => some (hdr 2 5 q (cpeQp rc fe s t), encHist h, (recBits rc).2, d.word)
  | .gather q fe rc s t idx d => some (hdr 2 2 q (cpeQp rc fe s t), idx.toNat, (recBits rc).2, d.word)
  | .scatter q fe rc s t idx d => some (hdr 2 3 q (cpeQp rc fe s t), idx.toNat, (recBits rc).2, d.word)
  | .selacc q rc s t k d =>
    some (hdr 2 4 q (cpeQp (some rc) false s (t.getD 0)), k.toNat + 2 ^ 6 * bit t.isNone, rc.toNat, d.word)
  | .ldb src ty b fwd d =>
    let w1 := ty.code * 2 ^ 2 + 2 ^ 6 * b.toNat
    match src with
    | .spad off => some (hdr 3 0 0 (mxeQp false fwd 0), w1, off.toNat, d.word)
    | .port p => some (hdr 3 0 0 (mxeQp false fwd p), 1 + w1, 0, d.word)
    | .slot => some (hdr 3 0 0 (mxeQp false fwd 0), 2 + w1, 0, d.word)
  | .mmul r n z sw ty p fwd m pf d =>
    some (hdr 3 1 0 (mxeQp m fwd p), mxeW1 r n z sw ty.code 0, pfBits pf, d.word)
  | .gmul r n z sw ty b sd idx fwd d =>
    some (hdr 3 2 0 (mxeQp false fwd sd), mxeW1 r n z sw ty.code b, idx.toNat, d.word)
  | .rdacc r n z fmt b dst d =>
    match dst with
    | .spad off => some (hdr 3 3 0 (mxeQp false none 0), mxeW1 r n z false fmt.code b, off.toNat, d.word)
    | .port p m => some (hdr 3 3 0 (mxeQp m none p), mxeW1 r n z true fmt.code b, 0, d.word)
  | .recur q ty b p fwd m d =>
    some (hdr 3 4 0 (mxeQp m fwd p), q.val + 2 ^ 18 * ty.code + 2 ^ 22 * b.toNat, 0, d.word)
  | .atom a f sc va opr => some (hdr 4 0 0 (syeQp sc f.code a.code), vaLo va, vaHi va, opr.toNat)
  | .mmerge wd sc va j lvl opr =>
    some (hdr 4 0 0 (syeQp sc wd.code 9), vaLo va, vaHi va + 2 ^ 16 * lvl.toNat + 2 ^ 24 * j.toNat, opr.toNat)
  | .atomw a f sc va opr w =>
    some (hdr 4 1 0 (syeQp sc f.code a.code), vaLo va, vaHi va, opr.toNat + 2 ^ 26 * w.val)
  | .mmergew wd sc va j lvl opr w =>
    some (hdr 4 1 0 (syeQp sc wd.code 9), vaLo va, vaHi va + 2 ^ 16 * lvl.toNat + 2 ^ 24 * j.toNat,
      opr.toNat + 2 ^ 26 * w.val)
  | .wend sc nc opr w => some (hdr 4 2 0 (syeQp sc 0 0), nc.toNat, 0, opr.toNat + 2 ^ 26 * w.val)
  | .barr sc bid opr => some (hdr 4 3 0 (syeQp sc 0 0), bid.val, 0, opr.toNat)
  | .snap off d => some (hdr 5 0 0 0, off.toNat, 0, d.word)
  | .argw c v d => some (hdr 5 1 0 0, c.val, v.toNat, d.word)
  | .radmc q h own id => some (hdr 6 0 0 0, q.val + h.val * 2 ^ 3 + 2 ^ 8 * bit own, id.toNat, 0)
  | .rretc q x => some (hdr 6 1 0 0, q.val + 2 ^ 8 * bit x.flag, x.word, 0)
  | .rholdc q x => some (hdr 6 2 0 0, q.val + 2 ^ 8 * bit x.flag, x.word, 0)
  | .rrelc q x => some (hdr 6 3 0 0, q.val + 2 ^ 8 * bit x.flag, x.word, 0)
  | .rsavec q m off => some (hdr 6 4 0 0, q.val + 2 ^ 9 * m.code, off.toNat, 0)
  | .rloadc q kf m off => some (hdr 6 5 0 0, q.val + 2 ^ 8 * bit kf + 2 ^ 11 * bit m, off.toNat, 0)
  | .rmapc q off => some (hdr 6 6 0 0, q.val, off.toNat, 0)
  | .launch doff j => some (hdr 7 0 0 0, doff.toNat, j.val, 0)
  | .replay gva j => some (hdr 7 1 0 0, vaLo gva, vaHi gva + 2 ^ 16 * j.val, 0)
  | .invr page n sel done =>
    some (hdr 8 0 0 0, page.toNat, sel.bits.2 + 2 ^ 16 * n.toNat, done.toNat + 2 ^ 24 * sel.bits.1)
  | .inva sel done => some (hdr 8 1 0 0, 0, sel.bits.2, done.toNat + 2 ^ 24 * sel.bits.1)
  | _ => none

/-- The 128 bits of a stream command (R236). -/
def encodeCommand (i : Instr) : Option Quad :=
  (commandWords i).map fun (w0, w1, w2, w3) =>
    BitVec.ofNat 128 (w0 + 2 ^ 32 * w1 + 2 ^ 64 * w2 + 2 ^ 96 * w3)

/-! ### An instruction from bytes -/

/-- The words of an instruction, in its own byte order (little-endian, R1), from the lowest address. -/
def wordOfBytes : List Byte → Option Half
  | b0 :: b1 :: b2 :: b3 :: _ =>
    some (.ofNat 32 (b0.toNat + 2 ^ 8 * b1.toNat + 2 ^ 16 * b2.toNat + 2 ^ 24 * b3.toNat))
  | _ => none

/-- The instruction that the bytes from the lowest address begin with: a scalar word, or the four words of a CMD
form; with the pair bit and the number of bytes. A CMD header with P = 1 is none (R35, R36). -/
def decodeBytes (bs : List Byte) : Except Reject (Bool × Instr × Nat) :=
  match wordOfBytes bs with
  | none => .error .unassigned
  | some w =>
    if majorOf w == 0x29 then
      if pairBit w then .error .commandHeader
      else match wordOfBytes (bs.drop 4), wordOfBytes (bs.drop 8), wordOfBytes (bs.drop 12) with
        | some w1, some w2, some w3 =>
          match decCommand w.toNat w1.toNat w2.toNat w3.toNat with
          | .ok i => .ok (false, i, 16)
          | .error r => .error r
        | _, _, _ => .error .badField
    else match decodeScalar w with
      | .ok i => .ok (pairBit w, i, 4)
      | .error r => .error r

/-- The bytes of a word, the lowest address first (R1). -/
def bytesOfWord (w : Half) : List Byte :=
  [.ofNat 8 w.toNat, .ofNat 8 (w.toNat / 2 ^ 8), .ofNat 8 (w.toNat / 2 ^ 16), .ofNat 8 (w.toNat / 2 ^ 24)]

/-- The words of an instruction whose bits, numbered as the opcode table numbers them, are `w`: four words, every bit
at or above `nbits` zero. -/
def tableWords (nbits w : Nat) : List Half :=
  let x := w % 2 ^ nbits
  [.ofNat 32 x, .ofNat 32 (x / 2 ^ 32), .ofNat 32 (x / 2 ^ 64), .ofNat 32 (x / 2 ^ 96)]

/-- The instruction the decoder reads from the bits `w` of an opcode-table row. -/
def decodeTableWord (nbits w : Nat) : Option Instr :=
  match decodeBytes ((tableWords nbits w).flatMap bytesOfWord) with
  | .ok (_, i, _) => some i
  | .error _ => none

end Sys2Proof
end

