-- ==== Sys2Proof/Machine/State.lean ====
section
/-! DEFINITION. The state of the module: every piece of state the spec names, as plain data, and its value after
reset. The cores stand in `State.core` (the core whose turn it is) and `State.others`; everything outside the cores
stands in `State.chip`. -/

namespace Sys2Proof.Machine

/-! ### Registers and sparse stores -/

/-- A store of values by number in one canonical form: numbers strictly rising, no entry equal to what an unlisted
number reads as. -/
abbrev Sparse (α : Type) := List (Nat × α)

/-- A cause, CAUSE[9:0] (R301). -/
abbrev Cause := BitVec 10

/-! ### Tokens, arcs and cells (05_fabric_and_dataflow, 07_cell_operations) -/

/-- KIND of a token (R98). A pre-emption marker is a flag beside the FIFO (R313), so it is no token. -/
inductive TokKind | data | eoi
deriving DecidableEq, Repr

/-- A token: 512 data bits and the sideband (R98). -/
structure Token where
  data : Row
  tag  : BitVec 24
  kind : TokKind
  psn  : Bool
  slot : BitVec 6
  gen  : BitVec 8
  pts  : Word
deriving DecidableEq, Repr

/-- The counts of one counting point: OVF, UNF, NAN, SAT, lanes (R136). -/
structure Counts where
  ovf   : Half
  unf   : Half
  nan   : Half
  sat   : Half
  lanes : Half
deriving DecidableEq, Repr

def Counts.zero : Counts := ⟨0, 0, 0, 0, 0⟩

/-- An ARC record (R118). -/
structure ArcCfg where
  src   : Fin 64
  srco  : Bool
  stat  : Bool
  dst   : Fin 64
  dsti  : Fin 4
  depth : Nat
  xin   : Bool
  fmt   : BitVec 4
  sx    : Bool
  bias  : BitVec 8
  sarc  : Fin 128
deriving DecidableEq, Repr

/-- An arc or a neighbour link: its record, the FIFO (each token with the cycle from which its consumer sees it), the
slots reserved for pushes to come, the cycles at which consumed slots return to the producer's counter, the
pre-emption marker flag, the stall counter and the counts of a conversion inserted at its producer end (R100, R101,
R103, R113, R137, R313). -/
structure Arc where
  cfg      : Option ArcCfg
  fifo     : List (Nat × Token)
  reserved : Nat
  back     : List Nat
  flag     : Bool
  stall    : Word
  counts   : Counts
deriving DecidableEq, Repr

def Arc.none : Arc := ⟨.none, [], 0, [], false, 0, .zero⟩

/-- What one push puts on one arc; `copy`: the same token of the pipeline also goes to a target before this one (R100,
R113). -/
structure Push where
  arc  : Fin 256
  tok  : Token
  copy : Bool
deriving DecidableEq, Repr

/-- A cell: configuration word, constant, pending rewrites, data firings since the last marker, first cycle of the
next data firing (R148) and of the next firing of any kind (R96, R105), stop after a fault, counts, sequence number of
merges, logical time, sub-accesses done with the lanes they loaded and, of a rotation member, the wheel cycle and the
slot of the last one, a marker firing in this cycle, and the pushes of its pipeline with their cycles (R140, R150,
R160, R147, R149, R163, R285, R206, R189, R103). -/
structure Cell where
  conf    : Option Quad
  const   : Half
  rewrite : List Half
  fires   : Nat
  next    : Nat
  free    : Nat
  stopped : Bool
  counts  : Counts
  semit   : Half × Half
  mseq    : BitVec 16
  pts     : Word
  sub     : Nat
  got     : Sparse Half
  subAt   : Nat × Nat
  marked  : Bool
  pipe    : List (Nat × List Push)
  quiet   : Bool
deriving DecidableEq, Repr

def Cell.none : Cell := ⟨.none, 0, [], 0, 0, 0, false, .zero, (0, 0), 0, 0, 0, [], (0, 0), false, [], false⟩

/-- The firing that CELL_FIRING latched for the cell's operation: the tokens consumed, by input in ascending order
(0–2 data, 3 guard, 4 and 5 the extra inputs of a MERGE), the path of a STEER or MERGE (none where the predicate names
no path), and of a rotation member the slot and the slot's token, which the firing puts back on the loop (R168). -/
structure Firing where
  cell : Fin 32
  ins  : List (Nat × List Token)
  path : Option Nat
  slot : Option (Fin 8 × Nat)
  lap  : Option Token
deriving DecidableEq, Repr

/-- How an edge port is bound (R112). -/
inductive PortBind
  | free
  | circuit (c : Fin 16)
  | exit (q : Fin 8)
  | command
  /-- held by the begun command of queue k (0–21) -/
  | held (k : Fin 22)
deriving DecidableEq, Repr

/-- An edge port: binding, the buffer of a rotation exit (4 places), logical time, pre-emption marker passed, and the reads of
the SDLD packet at the head of a command port (R190, R238). -/
structure Port where
  bind : PortBind
  buf  : List Token
  pts  : Word
  quiet : Bool
  wait : List Nat
deriving DecidableEq, Repr

def Port.none : Port := ⟨.free, [], 0, false, []⟩

/-! ### Rotations (08_rotations) -/

/-- STATE of a slot (R170). -/
inductive SlotState | empty | active | held | faulted | leaving
deriving DecidableEq, Repr

/-- A slot table entry, with the save-hold of R181. -/
structure Slot where
  state : SlotState
  pend  : Bool
  gen   : BitVec 8
  cause : Cause
  id    : Half
  hold  : Bool
deriving DecidableEq, Repr

def Slot.zero : Slot := ⟨.empty, false, 0, 0, 0, false⟩

/-- A ROTATION record (R165), with the natural latency L the loader computes (R167). -/
structure RotCfg where
  depth   : Nat
  tap     : Fin 32
  exit    : Fin 16
  trap    : Bool
  members : BitVec 32
  lat     : Nat
deriving DecidableEq, Repr

/-- A pending injection: phase, token, first cycle it may be made in, whether it is RECUR's, and whether RECUR has still
to push it on its forward port (R174, R182, R275). -/
structure Inject where
  phase : Nat
  tok   : Token
  from_ : Nat
  recur : Bool
  fwd   : Bool
deriving DecidableEq, Repr

/-- What a capture took of one phase: the slot's entry, the token's TAG and the token (R181). -/
structure Captured where
  phase : Nat
  ent   : Word
  tag   : BitVec 24
  tok   : Option Token
deriving DecidableEq, Repr

/-- An RSAVE in progress: mode, record offset, start cycle, largest PTS captured, what it captured, the request that
writes the header, and whether it is the capture of a pre-emption (R181, R314). -/
structure Save where
  mode   : SaveMode
  off    : Nat
  start  : Nat
  pts    : Word
  ents   : List Captured
  hdr    : Option Nat
  preempt : Bool
deriving DecidableEq, Repr

/-- A rotation. -/
structure Rot where
  cfg      : Option RotCfg
  slots    : List Slot
  frozen   : Bool
  lateDrop : BitVec 16
  refused  : BitVec 16
  map      : Option (List Byte)
  inj      : List Inject
  save     : Option Save
  /-- an RLOAD has not yet made its last injection (R182) -/
  loading  : Bool
  /-- what the capture of a pre-emption took, and FROZEN before it (R314, R316) -/
  taken    : List Captured
  wasFrozen : Bool
deriving DecidableEq, Repr

def Rot.none : Rot := ⟨.none, [], false, 0, 0, .none, [], .none, false, [], false⟩

/-! ### Handles, descriptors, regions, dictionary (09, 13, 11, 12) -/

/-- A handle record (R197). -/
structure Handle where
  base   : BitVec 24
  slotsz : BitVec 12
  nslot  : BitVec 11
  pi     : BitVec 16
  ci     : BitVec 16
  own    : Bool
  oq     : BitVec 3
  os     : BitVec 6
  og     : BitVec 8
  ocore  : BitVec 8
deriving DecidableEq, Repr

def Handle.zero : Handle := ⟨0, 0, 0, 0, 0, false, 0, 0, 0, 0⟩

/-- One dimension of a descriptor (R254). -/
structure Dim where
  ext : Half
  str : BitVec 40
deriving DecidableEq, Repr

/-- A descriptor register (R254). -/
structure Desc where
  base : BitVec 48
  e    : BitVec 4
  ndim : BitVec 3
  g    : Bool
  dims : List Dim
deriving DecidableEq, Repr

/-- One dimension of extent 0: no elements (R254). -/
def Desc.zero : Desc := ⟨0, 0, 0, false, [⟨0, 0⟩]⟩

/-- An entry of the mica region table (R224). -/
structure Region where
  base : BitVec 48
  size : Half
  v    : Bool
  l    : Bool
  wid  : BitVec 2
  s    : BitVec 2
  sat  : Bool
  ts   : Bool
deriving DecidableEq, Repr

def Region.zero : Region := ⟨0, 0, false, false, 0, 0, false, false⟩

/-- A dictionary entry: template and hole map, V in bit 63 of the map (R247). -/
structure DictEnt where
  template : Quad
  map      : Word
deriving DecidableEq, Repr

def DictEnt.invalid : DictEnt := ⟨0, 0⟩

/-! ### Circuits and engine requests (09) -/

/-- A CIRCUIT record (R200). -/
structure CircCfg where
  port     : Fin 16
  out      : Bool
  pat      : Bool
  stat     : Bool
  sd       : Fin 16
  peerPort : Fin 16
  peer     : BitVec 12
  fmt      : BitVec 4
  bias     : BitVec 8
  sarc     : Fin 128
deriving DecidableEq, Repr

/-- A pass of a circuit memory node: the latched descriptor and the element number (R201). -/
structure Pass where
  desc : Desc
  n    : Nat
  /-- rows read and not yet sent, or tokens taken and not yet written, with their logical times -/
  rows : List (Row × Word)
  asked : Nat
  /-- requests outstanding, in order -/
  wait : List Nat
deriving DecidableEq, Repr

/-- One end of a circuit: the record, the armed count, the pass in progress, and at the receiving end the buffer of 8
places (each token with its arrival cycle). -/
structure Circ where
  cfg     : Option CircCfg
  armed   : BitVec 16
  pass    : Option Pass
  rx      : List (Nat × Token)
  counts  : Counts
  stopped : Bool
deriving DecidableEq, Repr

def Circ.none : Circ := ⟨.none, 0, .none, [], .zero, false⟩

/-- The requesters of scratchpad rows, in the fixed priority of R190. -/
inductive Requester
  | l1
  | rot (q : Fin 8)
  | mxe
  | circuit (c : Fin 16)
  | port (k : Fin 22)
  | command (k : Fin 22)
  | cpe (ch : Fin 8)
deriving DecidableEq, Repr

/-- One access of an engine request: a read of bytes of one row, which waits until the words of `full`, by word index,
are full (R196); or a write of spans of bytes in one row, by address, which in full/empty mode makes its words full
(R194). -/
inductive Access
  | read (addr len : Nat) (full : List Nat)
  | write (spans : List (Nat × List Byte)) (fe : Bool)
deriving DecidableEq, Repr

/-- An engine request that waits for its bank: its number, requester, access, logical time, the cycle it was first
presented, and the cycles in which it was refused (R190). -/
structure Req where
  id      : Nat
  who     : Requester
  acc     : Access
  pts     : Word
  since   : Nat
  refused : Nat
  /-- of the command side, the issue order of its command (R190) -/
  order   : Nat
deriving DecidableEq, Repr

/-- What a global request does at the place where it is performed (R72, R232, R284, R285). -/
inductive GlobOp
  | load (n : Nat)
  | store (bytes : List Byte)
  /-- spans of bytes in one 64-byte row, at distances from the address, stored as one access (R261) -/
  | row (spans : List (Nat × List Byte))
  /-- an atomic with its operand and comparand -/
  | atom (op : AtomOp) (fmt : AtomFmt) (opnd cmp : Word)
  /-- an update of level j of the word at `va`: x is a level to merge, or else a weight to add; with the draw's terms -/
  | merge (wd : MicaWid) (va j x : Nat) (byLevel : Bool) (region : Region) (mseed : Half) (mseq : BitVec 16)
      (node : BitVec 18)
deriving DecidableEq, Repr

/-- A TLB entry (R220). -/
structure Tlb where
  asid : BitVec 16
  base : Nat
  size : Nat
  pa   : Nat
  w    : Bool
  d    : Bool
  cls  : BitVec 2
  ver  : Bool
deriving DecidableEq, Repr

/-- A request that has left through a Penyan port: the port, the SEQ of the flit that carries it, the translation it was
looked up with, whether an invalidation has since dropped that, and whether the flit is to be sent again (R222, R351, R352). -/
structure PeerSent where
  port : Fin 16
  seq  : BitVec 12
  tlb  : Tlb
  mark : Bool
  lost : Bool
deriving DecidableEq, Repr

/-- A request of a core's agent to global memory: its number, source (R291), the agent that raises its translation
causes (R303), whether it goes through the copy engine's TLB and through the L1, the page class it needs, the first
cycle it may be made in, once the SYE has it its sequence number there, and once a Penyan port has it its flit. -/
structure GReq where
  id    : Nat
  src   : Fin 5
  agent : Nat
  cpe   : Bool
  l1    : Bool
  /-- none: any class; some c: only class c -/
  need  : Option Nat
  /-- the acting core's L1 copy is dropped before the request leaves (SYSTEM scope, R287) -/
  sys   : Bool
  va    : Nat
  what  : GlobOp
  pts   : Word
  ready : Nat
  sync  : Option (BitVec 16)
  sent  : Option PeerSent
deriving DecidableEq, Repr

/-- A request that was performed: its number, the bytes read, the logical time after the access, the cycle, the value
before an atomic, its flag (CAS equal, or an update that set SAT), and the cause it raised. -/
structure Served where
  id    : Nat
  bytes : List Byte
  pts   : Word
  at_   : Nat
  old   : Word
  flag  : Bool
  bad   : Option Cause
deriving DecidableEq, Repr

/-! ### Queues and begun commands (12–15) -/

/-- An entry of an engine queue: a command with its node, logical time at issue, issue order and the port that
forwarded it; or a FENCE marker (R237, R92). -/
inductive QEnt
  | cmd (i : Instr) (node : BitVec 18) (pts : Word) (order : Nat) (port : Option (Fin 16))
  | fence (order : Nat) (sc : Scope) (at_ : Nat)
deriving DecidableEq, Repr

/-- The running state of a selection (R264). -/
structure Sel where
  m    : Half
  s    : Half
  nans : Nat
  top  : List (Half × Nat)
deriving DecidableEq, Repr

def Sel.start : Sel := ⟨0xFF800000#32, 0, 0, []⟩

/-- A begun command (R240, R241): the command, its logical time, the latched descriptors, the first slots reserved for
groups A, B and O, tokens or elements done, requests outstanding, rows buffered, and the progress of the engines. -/
structure Run where
  cmd   : Instr
  node  : BitVec 18
  pts   : Word
  order : Nat
  /-- the port that forwarded the command, if one did -/
  via   : Option (Fin 16)
  begin_ : Nat
  src   : Desc
  dst   : Desc
  slotA : Nat
  slotB : Nat
  slotO : Nat
  /-- tokens, elements or rows done -/
  n     : Nat
  /-- source rows or elements asked for -/
  asked : Nat
  /-- tokens of a prefetch taken -/
  pre   : Nat
  /-- what the command does next, in its own numbering -/
  stage : Nat
  /-- request numbers outstanding, in order -/
  wait  : List Nat
  /-- rows read and not yet used, or taken and not yet written -/
  rows  : List (Row × Word)
  bytes : List Byte
  /-- current source row of a copy with its bytes, and its words that were waited for (R259, R261) -/
  srow  : Option Nat
  sdata : List Byte
  smask : List Nat
  /-- index rows read and still needed, with their bytes -/
  irows : List (Nat × List Byte)
  /-- spans of the destination row not yet written (R261) -/
  pend  : List (Nat × List Byte)
  /-- a cause that waits until the writes before it are performed (R259) -/
  bad   : Option Cause
  idx   : Nat
  /-- the access of an SYE command, with what its begin fixed (R285, R286) -/
  op    : Option GlobOp
  hist  : List Nat
  sel   : Sel
  old   : Word
  stat  : Half
  /-- first cycle in which the command may complete -/
  until_ : Nat
  /-- its last act is done -/
  done  : Bool
deriving DecidableEq, Repr

/-- An engine queue: entries, the begun command, and the cause that stopped it (R237, R306). -/
structure Queue where
  ents : List QEnt
  run  : Option Run
  stop : Option Cause
deriving DecidableEq, Repr

def Queue.empty : Queue := ⟨[], none, none⟩

/-- The matrix engine (R265): tiles, their valid bits, formats and biases, ACT, accumulators, OV; and, while RECUR
runs, the state tokens captured and not yet injected. -/
structure Mxe where
  b0  : Sparse Byte
  b1  : Sparse Byte
  bv  : Bool × Bool
  bt  : MxTy × MxTy
  bb  : BitVec 8 × BitVec 8
  act : Bool
  acc : Sparse Half
  ov  : BitVec 128
deriving DecidableEq, Repr

def Mxe.zero : Mxe := ⟨[], [], (false, false), (.i8, .i8), (0, 0), false, [], 0⟩

/-! ### Caches and translation (10) -/

/-- A line of an L1 (R205). -/
structure L1Line where
  owned : Bool
  data  : BitVec 1024
  wts   : Word
  rts   : Word
deriving DecidableEq, Repr

/-! ### The sequencer (02, 03, 04) -/

/-- The target of a write that lands later (R41). -/
inductive Landing
  | g (r : Fin 32) (v : Word)
  | c (r : Fin 8) (v : Bool)
  | loop (l : Fin 9) (v : Half)
  | creg (n : Nat) (v : Word)
  | region (k : Fin 8) (e : Region)
  | satClear (k : Fin 8)
  | sd (k : Fin 16) (d : Desc)
deriving DecidableEq, Repr

/-- A write in flight: the cycle it lands in, and the write. The list of them stands in program order. -/
structure Flight where
  at_ : Nat
  wr  : Landing
deriving DecidableEq, Repr

/-- The place of the word at issue: alone, or first or second of a pair (R36, R77). -/
inductive IssueSlot | lone | first | second
deriving DecidableEq, Repr

/-- The named waits (R40). -/
inductive WaitKind
  | ldf | ldfp | ste | hwaitc | hwaitp | wpw | global | queue
deriving DecidableEq, Repr

/-- The named wait in progress: its kind, the operands latched at the first issue attempt, and the cycle it began. A
global access keeps its request number in `third`. -/
structure Wait where
  kind  : WaitKind
  addr  : Word
  val   : Word
  third : Word
  since : Nat
deriving DecidableEq, Repr

/-- What follows the issue (R75, R76). -/
inductive After
  /-- the next word in address order, after the loop test -/
  | seq
  /-- a redirect and its withheld cycles -/
  | jump (target : Word) (cost : Nat)
  /-- the sequential successor, after withheld cycles (PIN, a wide local access) -/
  | held (cost : Nat)
  /-- REP: a repeat begins at the word after the issue, or is skipped -/
  | rep (n : BitVec 16)
  /-- the issue took an exception: the pc stands at the handler -/
  | trapped
  /-- the instruction waits: nothing issued in this cycle -/
  | waits
  /-- EXIT or ABORT issued: no further word issues -/
  | stop
deriving DecidableEq, Repr

/-- EXIT or ABORT has issued (R93, R94). -/
inductive Ending | exit | abort
deriving DecidableEq, Repr

/-- The exposure of DX words to a DLOAD: its address, its number for the free value, and the entries it
replaced (R252). -/
structure Exposure where
  addr : Nat
  key  : Nat
  old  : Sparse DictEnt
deriving DecidableEq, Repr

/-- An asynchronous cause raised: its cause, the phase for ROT_SLOT, and the cycle (R304, R306). -/
structure Raised where
  cause : Cause
  phase : BitVec 6
  at_   : Nat
deriving DecidableEq, Repr

/-- The counters RDC samples (R45, R192, R206, R371, R372). -/
structure Counters where
  bank   : Word
  hw     : Word
  fe     : Word
  gl     : Word
  cq     : Word
  bg     : Word
  pts    : Word
  cycle  : Word
  energy : Word
  pmc    : Vector Word 4
deriving DecidableEq, Repr

def Counters.zero : Counters := ⟨0, 0, 0, 0, 0, 0, 0, 0, 0, Vector.replicate 4 0⟩

/-- The debug state of a core (R324): `halting` has a HALT pending for the next issue boundary; `stepping` has the issue of a
STEP before it; `stepped` has made it and waits for the next boundary. -/
inductive DebugState | running | halting | halted | stepping | stepped
deriving DecidableEq, Repr

/-- The sequencer's registers and what governs its next issue. -/
structure Sq where
  g     : Vector Word 32
  c     : Vector Bool 8
  pc    : Half
  lc    : Vector Half 3
  ls    : Vector Half 3
  le    : Vector Half 3
  repc  : BitVec 16
  reps  : Word
  /-- START, LEN, V, RA (R90) -/
  pins  : Half
  /-- writes in flight, in program order (R41, R42) -/
  flight : List Flight
  /-- the place of the word that `exec` issues (R36) -/
  slot  : IssueSlot
  /-- what follows the issue just made -/
  after : After
  /-- a register-indirect target that PC cannot hold, until its fetch raises FETCH_BOUNDS (R34, R79) -/
  target : Option Half
  /-- withheld cycles still to pass (R75, R383) -/
  held  : Nat
  wait  : Option Wait
  /-- the word at issue may issue in this cycle, so that a blocking access of it may be performed (R40, R50, R310) -/
  may   : Bool
  /-- the DX idx of the issue, for TRAPSLOT.INDEX (R305) -/
  index : BitVec 10
  /-- the stepped word of a repetition, once REPETITION has formed it (R87) -/
  latch : Option Half
  ending : Option Ending
  /-- what DX words are exposed to, the oldest DLOAD first (R252) -/
  expo  : List Exposure
  /-- banks the SQ uses in this cycle, and of a wide access in the cycles that follow (R190, R383) -/
  banks : List Nat
  wide  : List (Nat × Nat)
  -- control registers (R46)
  lcid  : Half
  nlc   : Half
  pbase : Word
  cause : Half
  trappc : Half
  trapslot : Half
  tvec  : Half
  tcfg  : Half
  /-- the held asynchronous cause (R306) -/
  heldCause : Option (Cause × BitVec 6)
  /-- asynchronous causes raised and not yet taken (R306) -/
  raised : List Raised
  dgen  : Half
  dref  : Word
  mseed : Word
  lease : BitVec 16
  split : Half
  ctr   : Counters
  /-- the counters as they stood at the start of the cycle (R48) -/
  seen  : Counters
  pms   : Vector Half 4
  bka   : Vector Word 8
  bkc   : Vector Half 8
  dcause : Half
  debug : DebugState
  /-- the first issue after RESUME matches no breakpoint (R324) -/
  skipBrk : Bool
  /-- sequence numbers of the SQ's MINC and MMERGE (R229, R285) -/
  minc  : BitVec 16
  mmerge : BitVec 16
deriving DecidableEq, Repr

/-- LEASE is 64 and every other register 0, c0 reads 1 by R33; no task (R32, R46). -/
def Sq.start : Sq where
  g := Vector.replicate 32 0
  c := Vector.replicate 8 false
  pc := 0
  lc := Vector.replicate 3 0
  ls := Vector.replicate 3 0
  le := Vector.replicate 3 0
  repc := 0
  reps := 0
  pins := 0
  flight := []
  slot := .lone
  after := .seq
  target := none
  held := 0
  wait := none
  may := false
  index := 0
  latch := none
  ending := none
  expo := []
  banks := []
  wide := []
  lcid := 0
  nlc := 0
  pbase := 0
  cause := 0
  trappc := 0
  trapslot := 0
  tvec := 0
  tcfg := 0
  heldCause := none
  raised := []
  dgen := 0
  dref := 0
  mseed := 0
  lease := 64
  split := 0
  ctr := .zero
  seen := .zero
  pms := Vector.replicate 4 0
  bka := Vector.replicate 8 0
  bkc := Vector.replicate 8 0
  dcause := 0
  debug := .running
  skipBrk := false
  minc := 0
  mmerge := 0

/-- Events of one cycle charged to the context, by energy class, and the further events PMSn can select (R370, R372). -/
abbrev Events := Vector Nat 23

/-- The core's local memory side (09). -/
structure Local where
  /-- scratchpad bytes; an unlisted byte reads 0 (R193) -/
  mem   : List Host.Cell
  /-- full words, by word index (R194) -/
  fe    : Sparse Bool
  handles : Vector Handle 32
  /-- the handles as they stood at the start of the cycle (R199) -/
  hstart : Vector Handle 32
  /-- by handle and place of a slot, the logical time of the advance of PI that filled the slot, and of the advance of CI
  that freed it (R209, R241) -/
  hfill : Vector (Sparse Word) 32
  hfree : Vector (Sparse Word) 32
  sd    : Vector Desc 16
  wp    : Vector Word 8
  /-- the logical time of the copy each write pointer watches (R209) -/
  wppts : Vector Word 8
  /-- both as they stood at the start of the cycle (R202) -/
  wpstart : Vector Word 8
  wpptsStart : Vector Word 8
  circ  : Vector Circ 16
  reqs  : List Req
  served : List Served
  /-- global requests not yet performed, oldest first -/
  greqs : List GReq
  /-- number of the next request -/
  nreq  : Nat
  /-- full words and waiting requests as they stood at the start of the cycle (R196) -/
  festart : Sparse Bool
  rqstart : List Req
  /-- banks whose half A an aged request takes in this cycle, and whose request it is (R188, R190) -/
  halfA : List (Nat × Requester)
  /-- the copy engine has performed its row access of this cycle; and the channel that it serves next (R261) -/
  cpeUsed : Bool
  cpeTurn : Option (Fin 8)
  /-- bank times BT (R206) -/
  bt    : Vector Word 32
  dict  : Sparse DictEnt
  regions : Vector Region 8
  /-- the region table as it stood at the start of the cycle (R231) -/
  rgstart : Vector Region 8
deriving DecidableEq, Repr

/-- The core's fabric (05, 08). -/
structure Fabric where
  cells : Vector Cell 32
  /-- arcs 0–127; 128 + 4n + j is the neighbour link that input j of cell n reads (R101) -/
  arcs  : Vector Arc 256
  ports : Vector Port 16
  rots  : Vector Rot 8
  /-- the rotations as they stood at the start of the cycle (R180) -/
  rstart : Vector Rot 8
  fire  : Option Firing
  fires : Word
  /-- cycles that the tap and the bank wheel have turned beyond CYCLE, in the capture of a pre-emption (R168) -/
  spin  : Nat
  /-- a pre-emption has stopped the sources (R313) -/
  stopping : Bool
deriving DecidableEq, Repr

/-- A fault of the core's task that the CMP has not yet received: what the fault record takes from the core (R308,
R309). -/
structure CoreFault where
  cause    : Cause
  second   : Cause
  trappc   : Half
  trapslot : Half
  cycle    : Word
deriving DecidableEq, Repr

/-- A result block that the command side of a core still has to write: its offset, OLD where it has one, STAT, its
logical time, the region whose SAT it sets, and the write outstanding (R285, R289). -/
structure Block where
  opr  : Nat
  old  : Option Word
  stat : Half
  pts  : Word
  sat  : Option (Fin 8)
  wait : Option Nat
  /-- the begun SYE command completes with it -/
  fin  : Bool
  /-- it ends an access of SYSTEM scope (R356) -/
  sys  : Bool
  /-- the issue order of its command (R190) -/
  order : Nat
deriving DecidableEq, Repr

/-- A command that has completed in this cycle: its queue, its issue order and the ports it held. What R240 and R329 let begin in
the cycle of a removal does not begin on what its completion frees. -/
structure Ended where
  queue : Fin 22
  order : Nat
  ports : List (Fin 16)
deriving DecidableEq, Repr

/-- A core. -/
structure Core where
  cid   : BitVec 8
  /-- the task whose context is resident, by its number in the hub -/
  task  : Option Nat
  /-- the next cycle this core has to run -/
  tick  : Nat
  /-- what moves next in the core's cycle -/
  stage : Nat
  text  : List Half
  sq    : Sq
  loc   : Local
  fab   : Fabric
  queues : Vector Queue 22
  /-- issue order of the next command -/
  order : Nat
  /-- the largest completion PTS so far, and the floor that completed FENCEs set for later commands (R209, R214) -/
  donePts : Word
  floor : Word
  /-- the cycle in which an entry of the ROT queue completed last (R325) -/
  rotAt : Nat
  /-- channel the copy engine served last (R261) -/
  lastCh : Fin 8
  mxe   : Mxe
  /-- SYE sequence numbers of sources 0–4 (R291) -/
  syeSeq : Vector (BitVec 16) 5
  blocks : List Block
  /-- lines of the L1, by line number (R205) -/
  l1    : List (Nat × L1Line)
  /-- owned lines dropped by a resize whose write-back is still to be performed (R187) -/
  wb    : List (Nat × L1Line)
  tlb   : List Tlb
  cpeTlb : List Tlb
  events : Events
  /-- the cycle's activity (R317) and refused budget cycles -/
  active : Bool
  refused : Bool
  /-- a cause has removed a command in this cycle (R329) -/
  removed : Bool
  /-- commands that have completed in this cycle (R240, R329) -/
  ended : List Ended
  /-- the classes of which a command has begun in this cycle (R240) -/
  begun : List (Fin 9)
  /-- the core's part of the task has retired, and how (R93, R94) -/
  retired : Option Ending
  /-- the SQ has stopped for a pre-emption or a yield, and everything has been captured (R313, R314) -/
  preempting : Bool
  captured : Bool
  /-- idle cycles with work outstanding (R341) -/
  idle  : Nat
  fault : Option CoreFault
  /-- issue addresses and command headers of a measured pass (R374) -/
  sig   : List Word
deriving DecidableEq, Repr

def Local.empty : Local where
  mem := []
  fe := []
  handles := Vector.replicate 32 .zero
  hstart := Vector.replicate 32 .zero
  hfill := Vector.replicate 32 []
  hfree := Vector.replicate 32 []
  sd := Vector.replicate 16 .zero
  wp := Vector.replicate 8 0
  wppts := Vector.replicate 8 0
  wpstart := Vector.replicate 8 0
  wpptsStart := Vector.replicate 8 0
  circ := Vector.replicate 16 .none
  reqs := []
  served := []
  greqs := []
  nreq := 0
  festart := []
  rqstart := []
  halfA := []
  cpeUsed := false
  cpeTurn := none
  bt := Vector.replicate 32 0
  dict := []
  regions := Vector.replicate 8 .zero
  rgstart := Vector.replicate 8 .zero

def Fabric.empty : Fabric where
  cells := Vector.replicate 32 .none
  arcs := Vector.replicate 256 .none
  ports := Vector.replicate 16 .none
  rots := Vector.replicate 8 .none
  rstart := Vector.replicate 8 .none
  fire := none
  fires := 0
  spin := 0
  stopping := false

/-- A core with no context. -/
def Core.idleCore (cid : BitVec 8) : Core where
  cid := cid
  task := none
  tick := 0
  stage := 0
  text := []
  sq := .start
  loc := .empty
  fab := .empty
  queues := Vector.replicate 22 .empty
  order := 0
  donePts := 0
  floor := 0
  rotAt := 0
  lastCh := 7
  mxe := .zero
  syeSeq := Vector.replicate 5 0
  blocks := []
  l1 := []
  wb := []
  tlb := []
  cpeTlb := []
  events := Vector.replicate 23 0
  active := false
  refused := false
  removed := false
  ended := []
  begun := []
  retired := none
  preempting := false
  captured := false
  idle := 0
  fault := none
  sig := []

/-! ### Outside the cores -/

/-- A line's logical times, its owner (CID) and its poison (R206, R208, R363). -/
structure Line where
  wts    : Word
  rts    : Word
  owner  : Option (BitVec 8)
  poison : Bool
deriving DecidableEq, Repr

def Line.zero : Line := ⟨0, 0, none, false⟩

/-- An event on its way to an error ring: KIND, ADDR, CAUSE, TIME and the fault record (R360). -/
structure RingEvent where
  kind  : Nat
  addr  : Word
  cause : Cause
  time  : Word
  fault : Row
deriving DecidableEq, Repr

/-- A peer barrier group of a partition: the gangs it has on all devices; the port towards the device that collects the arrivals,
none on that device; the ports behind which other devices stand; arrivals that came from those, to be counted or handed on;
releases that came and are not yet given on; and the ports through which a release has still to leave (R354). -/
structure PeerGroup where
  gangs : Nat
  up    : Option (Fin 16)
  down  : BitVec 16
  came  : Nat
  free  : Nat
  send  : BitVec 16
deriving DecidableEq, Repr

def PeerGroup.none : PeerGroup := ⟨0, Option.none, 0, 0, 0, 0⟩

/-- A partition: the registers of its block, its memory and what firmware gives it (R358–R366). -/
structure Part where
  pclu : BitVec 64
  pbnk : BitVec 128
  pchn : BitVec 64
  plnk : BitVec 16
  psye : BitVec 32
  phub : BitVec 2
  pasid : BitVec 32
  epre : Word
  uesta : Half
  uemsk : Half
  cecnt : Half
  rhead : Half
  rtail : Half
  rovf : Half
  dctl : Half
  dbmbase : Word
  drbase : Word
  drhead : Half
  drtail : Half
  dbmx : Half
  qb : Vector Half 7
  /-- the error ring: entries of 128 bytes (R360) -/
  ring : Sparse (BitVec 1024)
  /-- device memory bytes, by partition physical address; unlisted bytes read 0 (log entry 1) -/
  mem : List Host.Cell
  /-- the logical times, owner and poison of the lines, by line number (R206, R208, R363) -/
  lines : Sparse Line
  /-- the dirty bitmap's words, held outside the partition's memory (R364) -/
  dirty : Sparse Word
  aperBase : BitVec 48
  aperSize : BitVec 48
  hostWin : Sparse Word
  peerWin : Sparse Word
  /-- the peer barrier groups by barrier; 0 gangs: none (R354) -/
  groups : Sparse PeerGroup
  /-- partition physical address of the signal-counter table (R333) -/
  counters : BitVec 48
  debugEn : Bool
  /-- ASIDs torn down by KILL and not assigned again (R336) -/
  dying : List Nat
  /-- counts of the budget instances in this period, by activity and instance, as at the start of the cycle (R367) -/
  used : Sparse Nat
  /-- what the cycle has added to them (R368) -/
  spent : Sparse Nat
  /-- events that reach the error ring at the end of this hub cycle (R360) -/
  errs : List RingEvent
deriving DecidableEq, Repr

def Part.none : Part where
  pclu := 0
  pbnk := 0
  pchn := 0
  plnk := 0
  psye := 0
  phub := 0
  pasid := 0
  epre := 0
  uesta := 0
  uemsk := 0
  cecnt := 0
  rhead := 0
  rtail := 0
  rovf := 0
  dctl := 0
  dbmbase := 0
  drbase := 0
  drhead := 0
  drtail := 0
  dbmx := 0
  qb := Vector.replicate 7 0
  ring := []
  mem := []
  lines := []
  dirty := []
  aperBase := 0
  aperSize := 0
  hostWin := []
  peerWin := []
  groups := []
  counters := 0
  debugEn := false
  dying := []
  used := []
  spent := []
  errs := []

/-- A launch descriptor (R331). -/
structure LaunchDesc where
  image  : Word
  param  : Word
  task   : Word
  ptroot : Word
  ctrl   : Half
  dep    : Half
  crec   : Word
  patch  : Word
  rsvd   : Word
deriving DecidableEq, Repr

/-- A hardware queue (R332), with the eligibility time of its head (R334). -/
structure HwQueue where
  part : Option (Fin 64)
  ceiling : BitVec 3
  en : Bool
  dev : Bool
  ovr : Bool
  qbase : Word
  head : Half
  tail : Half
  pack : Word
  elig : Option Nat
  /-- pre-empted tasks that have returned to the head, foremost first (R337) -/
  returned : List Nat
  /-- numbers of outstanding descriptors that a KILL has completed (R336) -/
  dead : List Half
deriving DecidableEq, Repr

def HwQueue.none : HwQueue := ⟨.none, 0, false, false, false, 0, 0, 0, 0, .none, [], []⟩

/-- How an append to a device queue waits (R344, R346). -/
structure Replay where
  gva   : Nat
  part  : Fin 64
  /-- the issuing core and its queue's command; none for a GRAPH doorbell -/
  from_ : Option (BitVec 8)
  gpw   : List Word
  nodes : Nat
  next  : Nat
  /-- it holds the append path of its queue (R344) -/
  on    : Bool
deriving DecidableEq, Repr

/-- A request waiting at a window: node and place s, its logical and physical core, its result block, what it does, and
whether an invalidation has dropped the translation of its address (R222, R288, R289). -/
structure WinReq where
  node : BitVec 18
  s    : Nat
  lcid : Nat
  core : BitVec 8
  opr  : Nat
  pts  : Word
  lease : Nat
  va   : Nat
  pa   : Nat
  mark : Bool
  what : GlobOp
  /-- SYSTEM scope (R356) -/
  sys  : Bool
  /-- the region entry of a merge -/
  reg  : Option (Fin 8)
  /-- the issue order of its command (R190) -/
  order : Nat
  /-- of a line whose home is a peer's SYE: the port and the SEQ of the flit that carries the application, and whether it was
  lost (R351–R353) -/
  sent : Option (Fin 16 × BitVec 12 × Bool)
  /-- the outcome, once applied -/
  out  : Option Served
deriving DecidableEq, Repr

/-- A WEND of a round; `sys`: of SYSTEM scope (R289, R356). -/
structure WinEnd where
  node : BitVec 18
  lcid : Nat
  core : BitVec 8
  opr  : Nat
  pts  : Word
  sys  : Bool
  order : Nat
deriving DecidableEq, Repr

/-- An open round of a window (R289, R290). -/
structure Round where
  reqs : List WinReq
  ends : List WinEnd
  nc   : Option Nat
  /-- its result blocks have gone to their cores -/
  told : Bool
deriving DecidableEq, Repr

def Round.empty : Round := ⟨[], [], none, false⟩

/-- A window: number of the oldest open round, its two open rounds, and each node's count of WENDs (R288). -/
structure Window where
  round  : Nat
  open_  : List Round
  wends  : Sparse Nat
deriving DecidableEq, Repr

def Window.start : Window := ⟨0, [], []⟩

/-- An arrival at a barrier: core, block offset, PTS, die, SYSTEM scope (R292, R293). -/
structure Arrival where
  lcid : Nat
  core : BitVec 8
  opr  : Nat
  pts  : Word
  die  : Fin 4
  sys  : Bool
  order : Nat
deriving DecidableEq, Repr

/-- A barrier: generation, arrivals of this generation, the units that have sent theirs upward, and, in a peer barrier
group, whether its gang's arrival has been told (R292, R354). -/
structure Barrier where
  gen : Nat
  arr : List Arrival
  up  : List (Fin 4)
  told : Bool
deriving DecidableEq, Repr

def Barrier.start : Barrier := ⟨0, [], [], false⟩

/-- A saved context: the record's VERSION, its PTS, and what else R315 records, as the core's own fields (R313–R316). -/
structure Saved where
  version : BitVec 16
  lcid : Nat
  pts  : Word
  core : Core
deriving DecidableEq, Repr

/-- The state of a task in the hub. -/
inductive TaskState | running | stopping | torn | preempted | completing | done
deriving DecidableEq, Repr

/-- A logical core's part of a task that is over: how it ended (none: torn down), its final CYCLE, PTS and PMCs, and the
signature of a measured pass (R93, R338, R374). -/
structure Retired where
  lcid  : Nat
  how   : Option Ending
  cycle : Word
  pts   : Word
  pmc   : Vector Word 4
  sig   : List Word
deriving DecidableEq, Repr

/-- A task (R331–R341). -/
structure Task where
  desc : LaunchDesc
  /-- none: a pass of a replay measurement, which no queue presents (R374) -/
  queue : Option (Fin 256)
  part : Fin 64
  state : TaskState
  asid : BitVec 16
  nlc : Nat
  /-- physical cores of the gang, position i mod m -/
  cores : List (BitVec 8)
  start : Word
  elig : Nat
  retired : List Retired
  saved : List Saved
  windows : Sparse Window
  barriers : Sparse Barrier
  /-- the task's version: the bytes it has stored, by physical address (R311) -/
  version : Sparse (Option Byte)
  idle : Nat
  /-- logical cores resident since the gang's last activity (R341) -/
  beenIn : List Nat
  /-- the fault the record holds, with the faulting core's LCID and CID (R309) -/
  fault : Option (CoreFault × Half × Half)
  faultTime : Word
  /-- versioned lines discarded (R309) -/
  vlines : Nat
  /-- the fossil record's entries, and CYCLE of logical core 0 at the freeze (R318) -/
  fossil : List Quad
  freeze : Word
  /-- an acknowledgement is owed at PACK (R337) -/
  packOwed : Bool
  status : Half
  /-- the pass of a replay measurement this admission is (R374) -/
  meas : Bool
deriving DecidableEq, Repr

/-- A plain or atomic access that waits at an SYE: requester id, sequence number, its lookup with the mark of an
invalidation that dropped it, what it does, and whether the SYE's turn is its sequencer's to take (R50, R222, R280, R291). -/
structure SyeReq where
  dev  : BitVec 16
  core : BitVec 8
  src  : Fin 5
  seq  : BitVec 16
  /-- the number of the core's request -/
  id   : Nat
  part : Fin 64
  asid : BitVec 16
  lease : Nat
  va   : Nat
  pa   : Nat
  mark : Bool
  pts  : Word
  what : GlobOp
  granted : Bool
deriving DecidableEq, Repr

/-- A kept reply (R291): whose, of which request, and the reply. -/
structure SyeReply where
  dev  : BitVec 16
  core : BitVec 8
  src  : Fin 5
  seq  : BitVec 16
  rep  : Served
deriving DecidableEq, Repr

/-- The SYE of a die: waiting requests, kept replies, the requester served last, and whether it has performed its
access of this cycle (R280, R291). -/
structure Sye where
  reqs : List SyeReq
  kept : List SyeReply
  last : Nat
  used : Bool
deriving DecidableEq, Repr

/-- A compute die: STRETCH, its SYE and its TLB (R369, R280, R220); the edges of the module's reference clock it has not
taken, those a sag has it skip still, whether it takes the present one, and the edge from which its clock may next fall
back (R4). -/
structure Die where
  stretch : Word
  sye : Sye
  tlb : List Tlb
  lag : Nat
  owed : Nat
  skips : Bool
  slipAt : Nat
deriving DecidableEq, Repr

def Die.zero : Die := ⟨0, ⟨[], [], 0, false⟩, [], 0, 0, false, 0⟩

/-- A page walk of a die's walker: the requesters it serves, each with the TLB it fills (the copy engine's or not), the
cycle it arrived in and its first requester's agent, the context, the address, whether it stores, the first cycle it may
be made in, the cause that stopped it, and the page class that the access needs, where it needs one (R219, R220). -/
structure Walk where
  die  : Fin 4
  who  : List (BitVec 8 × Bool)
  came : Nat
  agent : Nat
  part : Fin 64
  asid : BitVec 16
  root : Nat
  va   : Nat
  store : Bool
  ready : Nat
  ended : Option Cause
  need  : Option Nat
deriving DecidableEq, Repr

/-- An invalidation in progress: the issuing core (none once it was torn down), ASID, range, the units that have not yet
received it, and those that have and have not yet acknowledged (R222). -/
structure Inval where
  core : Option (BitVec 8)
  asid : BitVec 16
  lo   : Nat
  hi   : Nat
  units : List Nat
  owing : List Nat
deriving DecidableEq, Repr

/-- A Penyan port (R351): up, retraining, expected SEQ, next SEQ to send, flits in the replay buffer, credits of the four
VCs, credits to be returned, whether an acknowledgement or a NK is due, replays asked for of the expected SEQ; the SEQ that the
partner asked for last and how often; retrains in a row for the one and for the other; the flits accepted, those sent, and
replies to the partner that wait to be sent. -/
structure Link where
  up : Bool
  training : Bool
  expect : BitVec 12
  next : BitVec 12
  buffer : List Flit
  credits : Vector Nat 4
  owed : Vector Nat 4
  ackDue : Bool
  nakDue : Bool
  replays : Nat
  naked : BitVec 12
  resent : Nat
  retrains : Nat
  retrainsOut : Nat
  accepted : List Flit
  sent : List Flit
  replies : List (BitVec 1920)
deriving DecidableEq, Repr

def Link.fresh : Link :=
  ⟨true, false, 0, 0, [], Vector.replicate 4 0, Vector.replicate 4 0, false, false, 0, 0, 0, 0, 0, [], [], []⟩

/-- Where the module stands in R380. -/
inductive Boot | step (n : Nat) | failed (n : Nat) | up
deriving DecidableEq, Repr

/-- The module flash and fuses (R380, R381). -/
structure Flash where
  firmware : List Byte
  signature : List Byte
  pubKey : List Byte
  svn : Half
  config : List Byte
  /-- the partitions, queues and tables that step 5 builds from the configuration -/
  parts : Sparse Part
  queues : Sparse HwQueue
  /-- device number to Penyan port (R353) -/
  route : Sparse Nat
  weights : Vector (BitVec 16) 16
deriving DecidableEq, Repr

structure Fuses where
  keyDigest : BitVec 512
  minSvn : Half
  harvest : BitVec 64
  secret : BitVec 256
deriving DecidableEq, Repr

/-- A debug transaction that waits: whether it came over JTAG, the edge at which it came, whether that was before the boot had
ended, and the request (R322). -/
structure DebugReq where
  jtag  : Bool
  came  : Nat
  early : Bool
  req   : Quad
deriving DecidableEq, Repr

/-- What is found before the partitions are built: an error, or a tag or owner error of a bank with the lines of its set (R363,
R382). -/
inductive FoundError
  | ecc (core : BitVec 8) (site : EccSite) (corrected : Bool)
  | tenant (b : Fin 128) (owner : Bool) (lines : List Nat)
deriving DecidableEq, Repr

/-- A debug response (R322). -/
structure DebugRsp where
  status : BitVec 8
  state : BitVec 4
  data : Word
deriving DecidableEq, Repr

/-- An attestation report, field by field (R381). -/
structure Report where
  nonce : BitVec 256
  idkey : BitVec 512
  fwdig : BitVec 512
  cfgdig : BitVec 512
  partdig : BitVec 512
  svn : Half
  harvest : BitVec 64
  down : BitVec 64
  resets : Word
  sig : BitVec 26472
deriving DecidableEq, Repr

/-- A replay measurement in progress (R373, R374): what its request holds, the running pass and task, the pages saved in
pass 0 in the order of their places in SAVE, whether it is full, and what the finished passes gave. -/
structure Measure where
  part : Fin 64
  desc : Nat
  /-- PTROOT of the descriptor, once a pass begins -/
  root : Nat
  save : Nat
  saveSize : Nat
  passes : Nat
  result : Nat
  sels : List (List Half)
  pass : Nat
  task : Option Nat
  saved : List Nat
  full : Bool
  sigs : List Word
  pmcs : List (List Word)
  codes : List (BitVec 8)
deriving DecidableEq, Repr

/-- Everything outside the cores. -/
structure Chip where
  /-- the cycle of the die whose core has its turn -/
  now : Nat
  /-- edges of the module's reference clock, the fastest of R4 -/
  base : Nat
  /-- the time base in ns, and the femtoseconds beyond (R4, R382) -/
  time : Nat
  frac : Nat
  /-- the next dispatch step's time (R334) -/
  dispatchAt : Nat
  dies : Vector Die 4
  parts : Vector Part 64
  queues : Vector HwQueue 256
  tasks : List Task
  replays : List (Fin 256 × Replay)
  walks : List Walk
  invals : List Inval
  hostMem : List Host.Cell
  peerMem : List Host.Cell
  links : Vector Link 16
  route : Sparse Nat
  ucieDown : Vector Bool 8
  weights : Vector (BitVec 16) 16
  down : BitVec 64
  boot : Boot
  bootError : Nat
  resets : Word
  measured : Option (BitVec 512)
  flash : Flash
  fuses : Fuses
  /-- the debug transactions that wait; the response of the last finished one, which DPACC shows, the last request in DPREQ, and
  what DPRSP shows (R322) -/
  dpq : List DebugReq
  debug : DebugRsp
  dpreq : Quad
  dprsp : DebugRsp
  /-- errors corrected or found before the partitions are built, with their times (R360, R382) -/
  found : List (Nat × FoundError)
  report : Option Report
  /-- the measurements asked for; of each partition the first runs (R373) -/
  meas : List Measure
  /-- what the host or a peer read last -/
  hostData : List Byte
  peerData : List Byte
  /-- accesses of the host and of peers that a budget holds back, oldest first (R368) -/
  waiting : List Instr
deriving DecidableEq, Repr

/-- The state of the module. -/
structure State where
  core   : Core
  others : List Core
  chip   : Chip
  /-- inputs of the outside agents that wait for their turn, oldest first (log entry 3) -/
  inbox  : List Instr
  /-- what moves next within the cycle of the module (log entry 4) -/
  stage  : Nat
  /-- index of the next free value (log entry 5) -/
  fresh  : Nat
deriving DecidableEq, Repr

/-- Flash with no firmware's partitions: what firmware brings is an input (PARTITION_CONFIGURE). -/
def Flash.blank : Flash := ⟨[], [], [], 0, [], [], [], [], Vector.replicate 16 0⟩

def Fuses.blank : Fuses := ⟨0, 0, 0, 0⟩

/-- The module as the rails become stable, before boot step 1. -/
def Chip.reset : Chip where
  now := 0
  base := 0
  time := 0
  frac := 0
  dispatchAt := 0
  dies := Vector.replicate 4 .zero
  parts := Vector.replicate 64 .none
  queues := Vector.replicate 256 .none
  tasks := []
  replays := []
  walks := []
  invals := []
  hostMem := []
  peerMem := []
  links := Vector.replicate 16 .fresh
  route := []
  ucieDown := Vector.replicate 8 false
  weights := Vector.replicate 16 0
  down := 0
  boot := .step 1
  bootError := 0
  resets := 0
  measured := none
  flash := .blank
  fuses := .blank
  dpq := []
  debug := ⟨0, 3, 0⟩
  dpreq := 0
  dprsp := ⟨0, 3, 0⟩
  found := []
  report := none
  meas := []
  hostData := []
  peerData := []
  waiting := []

/-- The machine right after reset (R32, R380, R382): every register at the value the spec gives, no context on any
core, memory with nothing listed, the boot before its first step. -/
def State.reset : State where
  core := .idleCore 0
  others := (List.range 255).map fun k => .idleCore (.ofNat 8 (k + 1))
  chip := .reset
  inbox := []
  stage := 0
  fresh := 0

/-- Why the machine can stop without a next state. The spec turns every error of a program into a cause, so the
machine itself has one stop only. -/
inductive Fault
  /-- The module is not running: a rail is out of its window and nothing has restored it (R378). Raised by no
  instruction of the table; kept as the name of the one state in which no step is defined. Safe. -/
  | noPower
deriving DecidableEq, Repr

/-- Why the machine has no meaning for an instruction. -/
inductive Refusal
  /-- The model gives the instruction no meaning yet: raised by an arm of `exec` alone. Safe. -/
  | notModelled (mnemonic : String)
deriving DecidableEq, Repr

/-- What a meaning answers. -/
abbrev Out := Host.Outcome State Fault Refusal

end Sys2Proof.Machine
end

