-- ==== Sys2Proof/Machine/Sparse.lean ====
section
/-! DEFINITION. Stores of values by number in canonical form, and bytes of a memory over them. -/

/-- Every entry of a vector changed by `f`; `Vector.map` in a form that a kernel evaluates. -/
def Vector.mapAll {α β : Type} {n : Nat} (f : α → β) (v : Vector α n) : Vector β n := Vector.ofFn fun k => f v[k]

namespace Sys2Proof.Machine

/-- The value at `k`; `d` where nothing is listed. -/
def look {α : Type} (d : α) (k : Nat) : Sparse α → α
  | [] => d
  | (j, v) :: r => if k < j then d else if j = k then v else look d k r

/-- Put the entry in front unless it equals what an unlisted number reads as. -/
def cons? {α : Type} [DecidableEq α] (d : α) (k : Nat) (v : α) (r : Sparse α) : Sparse α :=
  if v = d then r else (k, v) :: r

/-- Write `v` at `k`: an entry equal to `d` is removed, so the form stays canonical. -/
def put {α : Type} [DecidableEq α] (d : α) (k : Nat) (v : α) : Sparse α → Sparse α
  | [] => cons? d k v []
  | (j, w) :: r =>
    if k < j then cons? d k v ((j, w) :: r)
    else if j = k then cons? d k v r
    else (j, w) :: put d k v r

/-- Canonical above `lo`: numbers at or above `lo`, strictly rising, no entry equal to `d`. -/
def canonFrom {α : Type} [DecidableEq α] (d : α) (lo : Nat) : Sparse α → Bool
  | [] => true
  | (j, v) :: r => decide (lo ≤ j) && decide (v ≠ d) && canonFrom d (j + 1) r

/-- The canonical form of a store whose unlisted numbers read as `d`. -/
def canon {α : Type} [DecidableEq α] (d : α) (l : Sparse α) : Bool := canonFrom d 0 l

/-- Remove the entries whose number fails `p`. -/
def keepIf {α : Type} (p : Nat → Bool) (l : Sparse α) : Sparse α := l.filter fun e => p e.1

/-! ### Bytes -/

/-- What a byte reads as that nothing has written: 0 in a scratchpad (R193); the model's choice in device memory
(log entry 1). -/
def unlisted : Byte := 0

/-- A memory in its canonical form: addresses strictly rising, no entry equal to an unlisted byte. -/
def Memory.wf (m : List Host.Cell) : Bool := canon unlisted m

/-- One byte. -/
def rdByte (m : List Host.Cell) (a : Nat) : Byte := look unlisted a m

/-- Store one byte. -/
def wrByte (m : List Host.Cell) (a : Nat) (b : Byte) : List Host.Cell := put unlisted a b m

/-- The `n` bytes from `a` up, lowest address first. -/
def rdBytes (m : List Host.Cell) (a : Nat) : Nat → List Byte
  | 0 => []
  | n + 1 => rdByte m a :: rdBytes m (a + 1) n

/-- Store bytes from `a` up. -/
def wrBytes (m : List Host.Cell) (a : Nat) : List Byte → List Host.Cell
  | [] => m
  | b :: r => wrBytes (wrByte m a b) (a + 1) r

/-- The number that bytes denote, the first the least significant (R1). -/
def leNat : List Byte → Nat
  | [] => 0
  | b :: r => b.toNat + 256 * leNat r

/-- The `n` bytes of a number, the least significant first (R1). -/
def leBytes (x : Nat) : Nat → List Byte
  | 0 => []
  | n + 1 => BitVec.ofNat 8 x :: leBytes (x / 256) n

/-- The little-endian number in the `n` bytes from `a`. -/
def rdNat (m : List Host.Cell) (a n : Nat) : Nat := leNat (rdBytes m a n)

/-- Store the `n` low bytes of a number at `a`. -/
def wrNat (m : List Host.Cell) (a n x : Nat) : List Host.Cell := wrBytes m a (leBytes x n)

/-- Every byte from `lo` up reads 0. -/
def clearFrom (m : List Host.Cell) (lo : Nat) : List Host.Cell := keepIf (· < lo) m

end Sys2Proof.Machine
end

