-- ==== Sys2Proof/Machine/Num.lean ====
section
/-! DEFINITION. Integer arithmetic: the functions of R54 and the operations R57, R60, R66, R67 build from them. Every
operation converts its operands to integers, computes exactly, and narrows at the end. -/

namespace Sys2Proof.Machine

/-- Width(w) (R54). -/
def widthOf : Width → Nat
  | .w64 => 64
  | .w32 => 32
  | .w16 => 16
  | .w8 => 8

/-- The W low bits of a word as an unsigned number. -/
def lowN (v : Nat) (W : Nat) : Nat := v % 2 ^ W

/-- SignedValue of the W low bits (R3). -/
def signedN (v : Nat) (W : Nat) : Int :=
  if 2 * (v % 2 ^ W) < 2 ^ W then (v % 2 ^ W : Nat) else (v % 2 ^ W : Nat) - 2 ^ W

/-- Val(v, W, U) (R54). -/
def valN (v : Nat) (W : Nat) (u : Bool) : Int := if u then (lowN v W : Nat) else signedN v W

/-- Clamp(x, lo, hi). -/
def clampI (x lo hi : Int) : Int := if x < lo then lo else if hi < x then hi else x

/-- The least and the greatest value of a W-bit format (R54). -/
def minOf (W : Nat) (u : Bool) : Int := if u then 0 else -2 ^ (W - 1)
def maxOf (W : Nat) (u : Bool) : Int := if u then 2 ^ W - 1 else 2 ^ (W - 1) - 1

/-- The W bits of Fit(x, W, U, S): saturate when S = 1, then wrap (R54). -/
def fitN (x : Int) (W : Nat) (u s : Bool) : Nat :=
  ((if s then clampI x (minOf W u) (maxOf W u) else x) % 2 ^ W).toNat

/-- Fit(x, W, U, S), extended to 64 bits by U (R54). -/
def fit (x : Int) (W : Nat) (u s : Bool) : Word :=
  if u then .ofNat 64 (fitN x W u s) else .ofInt 64 (signedN (fitN x W u s) W)

/-- SignExtend of the W low bits to 64. -/
def sext (v : Nat) (W : Nat) : Word := .ofInt 64 (signedN v W)

/-- Min and Max of exact integers. -/
def minI (x y : Int) : Int := if x ≤ y then x else y
def maxI (x y : Int) : Int := if x ≤ y then y else x

/-- Truncate(x / y): toward zero. -/
def truncDiv (x y : Int) : Int := x.tdiv y

section ops
variable (a b : Word) (w : Width) (u : Bool)

/-- The shift amount, masked to the width (R57). -/
def shAmt (n : Nat) : Nat := n % widthOf w

/-- SHL by n (R57). -/
def shlW (n : Nat) : Word := fit ((lowN a.toNat (widthOf w) : Nat) * 2 ^ shAmt w n) (widthOf w) u false
/-- SHR by n (R57). -/
def shrW (n : Nat) : Word := fit ((lowN a.toNat (widthOf w) / 2 ^ shAmt w n : Nat)) (widthOf w) u false
/-- SAR by n: Floor (R57). -/
def sarW (n : Nat) : Word := fit (signedN a.toNat (widthOf w) / 2 ^ shAmt w n) (widthOf w) u false
/-- ROR by n (R57). -/
def rorW (n : Nat) : Word :=
  let W := widthOf w
  let y := lowN a.toNat W
  let k := shAmt w n
  fit ((y / 2 ^ k + y * 2 ^ (W - k) % 2 ^ W : Nat)) W u false

/-- DIV (R60). -/
def divW : Word :=
  let W := widthOf w
  let x := valN a.toNat W u
  let y := valN b.toNat W u
  if y = 0 then fit (-1) W u false else fit (truncDiv x y) W u false

/-- REM (R60). -/
def remW : Word :=
  let W := widthOf w
  let x := valN a.toNat W u
  let y := valN b.toNat W u
  if y = 0 then fit x W u false else fit (x - truncDiv x y * y) W u false

end ops

/-- Bits 0 to n − 1 of a word, the lowest first. -/
def bitsLE (a : Word) : List Bool := (List.range 64).map a.getLsbD

/-- The number of leading entries that are false. -/
def runFalse : List Bool → Nat
  | [] => 0
  | b :: r => if b then 0 else runFalse r + 1

/-- Leading zero bits (R66). -/
def clzW (a : Word) : Nat := runFalse (bitsLE a).reverse
/-- Trailing zero bits (R66). -/
def ctzW (a : Word) : Nat := runFalse (bitsLE a)
/-- 1 bits (R66). -/
def popcW (a : Word) : Nat := (bitsLE a).countP id
/-- Bits in reverse order (R66). -/
def brevW (a : Word) : Word := a.reverse
/-- Bytes in reverse order (R66). -/
def bswapW (a : Word) : Word := .ofNat 64 (leNat (leBytes a.toNat 8).reverse)

/-- A W-bit zero extension of a W-bit value to a word. -/
def zextW (v : Nat) : Word := .ofNat 64 v

/-- 2^k − 1 as a word (R67). -/
def maskW (k : BitVec 6) : Word := .ofNat 64 (2 ^ k.toNat - 1)

/-- `lo ≤ x < lo + n`. -/
def inSpan (x lo n : Nat) : Bool := lo ≤ x && x < lo + n

end Sys2Proof.Machine
end

