-- ==== Sys2Proof/Machine/Ops.lean ====
section
/-! DEFINITION. The named operations over registers, time, memory and the cores; taking an exception and returning
from one. Everything an instruction or an event does goes through these. -/

namespace Sys2Proof.Machine

/-! ### Cores -/

/-- The die of a core, CID[7:6] (R46). -/
def dieOf (cid : BitVec 8) : Fin 4 := Fin.ofNat 4 (cid.toNat / 64)

/-- The cycle of a die (R4). -/
def Chip.clock (h : Chip) (d : Fin 4) : Nat := h.base - h.dies[d].lag

namespace State

/-- The state with the core in turn changed. -/
def onCore (s : State) (f : Core → Core) : State := { s with core := f s.core }
/-- The state with the sequencer in turn changed. -/
def onSq (s : State) (f : Sq → Sq) : State := { s with core := { s.core with sq := f s.core.sq } }
/-- The state with the local memory side in turn changed. -/
def onLoc (s : State) (f : Local → Local) : State := { s with core := { s.core with loc := f s.core.loc } }
/-- The state with the fabric in turn changed. -/
def onFab (s : State) (f : Fabric → Fabric) : State := { s with core := { s.core with fab := f s.core.fab } }
/-- The state with what stands outside the cores changed. -/
def onChip (s : State) (f : Chip → Chip) : State := { s with chip := f s.chip }

/-- The core at a physical place, wherever it stands. -/
def coreAt (s : State) (cid : BitVec 8) : Option Core :=
  if s.core.cid = cid then some s.core else s.others.find? (·.cid = cid)

/-- Change the core at a physical place. -/
def onCoreAt (s : State) (cid : BitVec 8) (f : Core → Core) : State :=
  if s.core.cid = cid then { s with core := f s.core }
  else { s with others := s.others.map fun c => if c.cid = cid then f c else c }

/-- Change every core. -/
def onCores (s : State) (f : Core → Core) : State := { s with core := f s.core, others := s.others.map f }

/-- The cycle of the die of a core (R4). -/
def clockOf (s : State) (cid : BitVec 8) : Nat := s.chip.clock (dieOf cid)

/-- Act with the core at a physical place in turn, in its die's cycle: the two cores change places, and back. -/
def atCore (s : State) (cid : BitVec 8) (f : State → State) : State :=
  if s.core.cid = cid then f s
  else match s.others.find? (·.cid = cid) with
    | none => s
    | some x =>
      let old := s.core
      let t := f { s with
        core := x
        others := s.others.map fun c => if c.cid = cid then old else c
        chip := { s.chip with now := s.clockOf cid } }
      let back := (t.others.find? (·.cid = old.cid)).getD old
      { t with
        core := back
        others := t.others.map fun c => if c.cid = old.cid then t.core else c
        chip := { t.chip with now := s.chip.now } }

/-- The next free value's index, and the state after taking it (log entry 5). -/
def take (s : State) : Nat × State := (s.fresh, { s with fresh := s.fresh + 1 })

end State

/-- The cluster of a core, 16 × die + cluster (R303). -/
def clusterOf (cid : BitVec 8) : Nat := cid.toNat / 4

/-! ### Registers -/

/-- A g register as landed; g0 reads 0 (R33, R41). -/
def Sq.rg (q : Sq) (r : Fin 32) : Word := if r = 0 then 0 else q.g[r]
/-- A c register as landed; c0 reads 1 (R33). -/
def Sq.rc (q : Sq) (r : Fin 8) : Bool := if r = 0 then true else q.c[r]

/-- A g register of the core in turn. -/
def State.rg (s : State) (r : Fin 32) : Word := s.core.sq.rg r
/-- A c register of the core in turn. -/
def State.rc (s : State) (r : Fin 8) : Bool := s.core.sq.rc r

/-- A loop register, in the order lc0–lc2, ls0–ls2, le0–le2 (R68). -/
def Sq.rl (q : Sq) (l : Fin 9) : Half :=
  if h : l.val < 3 then q.lc[l.val]
  else if h : l.val < 6 then q.ls[l.val - 3]
  else q.le[l.val - 6]

def Sq.wl (q : Sq) (l : Fin 9) (v : Half) : Sq :=
  if h : l.val < 3 then { q with lc := q.lc.set l.val v }
  else if h : l.val < 6 then { q with ls := q.ls.set (l.val - 3) v }
  else { q with le := q.le.set (l.val - 6) v }

/-- Replace bits [lo + n − 1 : lo] of a number. -/
def setFld (x lo n v : Nat) : Nat := x - 2 ^ lo * fld x lo n + 2 ^ lo * (v % 2 ^ n)

/-! ### Control registers: fields with names -/

/-- TRAPSLOT.H (R305). -/
def Sq.inHandler (q : Sq) : Bool := q.trapslot.getLsbD 18
/-- TRAPSLOT.RA (R305). -/
def Sq.trapRa (q : Sq) : Bool := q.trapslot.getLsbD 19
/-- TRAPSLOT.BS (R305). -/
def Sq.bs (q : Sq) : Bool := q.trapslot.getLsbD 20
/-- PINS.RA (R90). -/
def Sq.ra (q : Sq) : Bool := q.pins.getLsbD 31
/-- PINS.V (R90). -/
def Sq.pinV (q : Sq) : Bool := q.pins.getLsbD 30
/-- PINS with RA set to `b` (R90). -/
def setRa (p : Half) (b : Bool) : Half := .ofNat 32 (setFld p.toNat 31 1 (bit b))
/-- REPS.DONE (R86). -/
def Sq.repDone (q : Sq) : Nat := fld q.reps.toNat 48 16
/-- A repeat is active (R87). -/
def Sq.repeating (q : Sq) : Bool := q.ra && q.repc != 0
/-- L1MB of SPLIT (R186). -/
def l1mb (split : Half) : Nat := fld split.toNat 0 3

/-- ScratchpadSize = (16 − L1MB) MiB (R186). -/
def Sq.spadSize (q : Sq) : Nat := 2 ^ 20 * (16 - l1mb q.split)

/-- ScratchpadSize of the core in turn. -/
def State.spadSize (s : State) : Nat := s.core.sq.spadSize

/-! ### Writes that land later (R41, R42) -/

/-- An instruction issued now with latency `lat` writes: the write lands at now + lat (R41). -/
def State.post (s : State) (lat : Nat) (w : Landing) : State :=
  s.onSq fun q => { q with flight := q.flight ++ [⟨s.chip.now + lat, w⟩] }

/-- What the word at issue does next (R75, R76). -/
def State.goes (s : State) (a : After) : State := s.onSq fun q => { q with after := a }

/-! ### Events, energy and stall counters -/

/-- `n` events of class k in this cycle (R370, R372). -/
def Core.event (c : Core) (k : Fin 23) (n : Nat) : Core := { c with events := c.events.set k (c.events[k] + n) }

def State.event (s : State) (k : Fin 23) (n : Nat) : State := s.onCore (·.event k n)

/-- ENERGY after e pJ more (R371). -/
def energyAfter (r : Word) (e : Nat) : Word :=
  let n := r.toNat
  if bitAt n 63 then r
  else
    let x := fld n 48 10 + e
    let nj := fld n 0 48 + x / 1000
    if 2 ^ 48 ≤ nj then .ofNat 64 (2 ^ 48 - 1 + 2 ^ 63) else .ofNat 64 (nj + 2 ^ 48 * (x % 1000))

/-- PMC counter n after m events of class k more (R372). -/
def Sq.pmcAfter (q : Sq) (k : Fin 23) (m : Nat) (n : Fin 4) : Word :=
  if bitAt q.pms[n].toNat 6 && q.pms[n].toNat % 64 == k.val then q.ctr.pmc[n] + .ofNat 64 m else q.ctr.pmc[n]

/-- `n` events of class k that something outside the core charges to its context in a cycle that the core has accounted: its
ENERGY and counters take them in that cycle (R371, R372). An event of no context is charged to none (R370). -/
def Core.charge (c : Core) (w : Vector (BitVec 16) 16) (k : Fin 23) (n : Nat) : Core :=
  if c.task.isNone then c
  else
    let e := if h : k.val < 16 then w[k.val].toNat * n else 0
    { c with sq := { c.sq with ctr := { c.sq.ctr with
        energy := energyAfter c.sq.ctr.energy e
        pmc := Vector.ofFn (c.sq.pmcAfter k n) } } }

/-- Something happened that the watchdog counts as an activity (R317). -/
def State.act (s : State) : State := s.onCore fun c => { c with active := true }

/-- The stall counters of the named waits (R45). -/
inductive Stall | hw | fe | gl | cq
deriving DecidableEq, Repr

def Counters.stall (c : Counters) : Stall → Counters
  | .hw => { c with hw := c.hw + 1 }
  | .fe => { c with fe := c.fe + 1 }
  | .gl => { c with gl := c.gl + 1 }
  | .cq => { c with cq := c.cq + 1 }

/-- One more withheld cycle of a wait, counted in its counter (R45). -/
def State.stalls (s : State) (k : Stall) : State := s.onSq fun q => { q with ctr := q.ctr.stall k }

/-! ### Causes (R301–R304) -/

def cILLEGAL_INSTRUCTION : Cause := 0x001
def cILLEGAL_PAIR : Cause := 0x002
def cILLEGAL_CREG : Cause := 0x003
def cILLEGAL_COMMAND : Cause := 0x004
def cFETCH_BOUNDS : Cause := 0x005
def cLOCAL_BOUNDS : Cause := 0x006
def cMISALIGNED : Cause := 0x007
def cGLOBAL_RANGE : Cause := 0x008
def cHANDLE_CFG : Cause := 0x009
def cHANDLE_COUNT : Cause := 0x00A
def cHANDLE_BUSY : Cause := 0x00B
def cMICA_CFG : Cause := 0x00C
def cMICA_REGION : Cause := 0x00D
def cMICA_WIDTH : Cause := 0x00E
def cMICA_WEIGHT : Cause := 0x00F
def cMICA_SAT : Cause := 0x010
def cBRK : Cause := 0x011
def cBKPT (n : Fin 8) : Cause := .ofNat 10 (0x012 + n.val)
def cERET_STATE : Cause := 0x01A
def cNESTED : Cause := 0x01B
def cRESTORE_BAD : Cause := 0x01C
def cTEARDOWN_REQUEST : Cause := 0x01D
def cDEBUG_HALT : Cause := 0x01E
def cDEBUG_STEP : Cause := 0x01F
def cTRAP (n : Fin 32) : Cause := .ofNat 10 (0x020 + n.val)

/-- Kinds of the cell family (R303). -/
inductive CellKind | eoi | path | overflow | addr | mica | ecc
deriving DecidableEq, Repr
def CellKind.code : CellKind → Nat
  | .eoi => 0
  | .path => 1
  | .overflow => 2
  | .addr => 3
  | .mica => 4
  | .ecc => 5
def cCELL (n : Fin 32) (k : CellKind) : Cause := .ofNat 10 (0x040 + 6 * n.val + k.code)

/-- Kinds of the port family (R303). -/
inductive PortKind | conflict | eoi | addr | illegalCommand | ecc
deriving DecidableEq, Repr
def PortKind.code : PortKind → Nat
  | .conflict => 0
  | .eoi => 1
  | .addr => 2
  | .illegalCommand => 3
  | .ecc => 4
def cPORT (n : Fin 16) (k : PortKind) : Cause := .ofNat 10 (0x200 + 5 * n.val + k.code)

/-- Kinds of the rotation family (R303). -/
inductive RotKind | unconf | phase | handle | record | map | notEmpty | slot | ecc
deriving DecidableEq, Repr
def RotKind.code : RotKind → Nat
  | .unconf => 0
  | .phase => 1
  | .handle => 2
  | .record => 3
  | .map => 4
  | .notEmpty => 5
  | .slot => 6
  | .ecc => 7
def cROT (q : Fin 8) (k : RotKind) : Cause := .ofNat 10 (0x250 + 8 * q.val + k.code)

/-- Kinds of the engine family (R303). -/
inductive EngKind | decl | addr | shape | index | mica | window | handleCount | ecc
deriving DecidableEq, Repr
def EngKind.code : EngKind → Nat
  | .decl => 0
  | .addr => 1
  | .shape => 2
  | .index => 3
  | .mica => 4
  | .window => 5
  | .handleCount => 6
  | .ecc => 7
def cENG (cls : Nat) (k : EngKind) : Cause := .ofNat 10 (0x290 + 8 * cls + k.code)

/-- Kinds of the translation family; agent 0 SQ, 1 FEED, 2 DRAIN, 3 CPE, 4 MXE, 5 SYE queue, 6 LAUNCH (R303). -/
inductive XltKind | notPresent | format | write | cls | asid
deriving DecidableEq, Repr
def XltKind.code : XltKind → Nat
  | .notPresent => 0
  | .format => 1
  | .write => 2
  | .cls => 3
  | .asid => 4
def cXLT (agent : Nat) (k : XltKind) : Cause := .ofNat 10 (0x318 + 5 * agent + k.code)

def cDICT_UNDEFINED : Cause := 0x33B
def cDICT_BADENTRY : Cause := 0x33C
def cDICT_RANGE : Cause := 0x33D
def cDICT_ECC : Cause := 0x33E
/-- A memory error of level l met by agent a (R303). -/
def cMEM (l a : Nat) : Cause := .ofNat 10 (0x2D8 + 8 * l + a)
/-- TENANT_TAG and TENANT_OWNER of a bank (R301). -/
def cTENANT (b : Nat) (owner : Bool) : Cause := .ofNat 10 (0x100 + 2 * b + bit owner)
def cCLUSTER_DOWN (c : Nat) : Cause := .ofNat 10 (0x33F + c)
def cVERSION_CAPACITY (d : Nat) : Cause := .ofNat 10 (0x37F + d)
def cSYE_LOST (d : Nat) : Cause := .ofNat 10 (0x383 + d)
def cWATCHDOG : Cause := 0x387
/-- LINK_ causes of a Penyan port: kinds DOWN, RETRY_LIMIT, CREDIT_LOST, FLIT_ECC, REPLAY_OVERRUN (R301, R303). -/
def cLINK (p k : Nat) : Cause := .ofNat 10 (0x388 + 5 * p + k)
/-- LINK_ causes of a UCIe link (R301). -/
def cUCIE (u k : Nat) : Cause := .ofNat 10 (0x3D8 + 5 * u + k)

/-- The TCFG bit that enables a cause; none where no bit covers it (R304). -/
def tcfgBit (c : Cause) : Option Nat :=
  let n := c.toNat
  if inSpan n 0x001 16 then some 0
  else if inSpan n 0x011 9 then some 1
  else if inSpan n 0x020 32 then some 2
  else if inSpan n 0x33B 3 then some 3
  else if inSpan n 0x318 5 then some 4
  else if inSpan n 0x31D 30 then some 8
  else if inSpan n 0x250 64 then (if (n - 0x250) % 8 ≤ 6 then some 5 else none)
  else if inSpan n 0x040 192 then (if (n - 0x040) % 6 ≤ 4 then some 6 else none)
  else if inSpan n 0x200 80 then (if (n - 0x200) % 5 ≤ 3 then some 7 else none)
  else if inSpan n 0x290 72 then (if (n - 0x290) % 8 ≤ 6 then some 8 else none)
  else none

/-- Whether TCFG sends a cause to the in-context handler (R304). -/
def Sq.enables (q : Sq) (c : Cause) : Bool :=
  match tcfgBit c with
  | some b => q.tcfg.getLsbD b
  | none => false

/-! ### Landing (R41, R42, R49) -/

/-- BKCn after a write: a KIND of 5–7 leaves KIND unchanged (R320). -/
def bkcWrite (old v : Half) : Half :=
  if 5 ≤ fld v.toNat 1 3 then .ofNat 32 (setFld (v.toNat % 2 ^ 5) 1 3 (fld old.toNat 1 3)) else .ofNat 32 (v.toNat % 2 ^ 5)

/-- Write a control register at the landing of a WRC: RW fields take the value, RW1C fields clear, others keep
theirs (R46, R49). The clamp of LEASE and the check of SPLIT are applied where the write is formed. -/
def Sq.setCreg (q : Sq) (n : Nat) (v : Word) : Sq :=
  let lo : Half := .ofNat 32 v.toNat
  if n = 0x010 then { q with repc := .ofNat 16 v.toNat }
  else if n = 0x011 then { q with reps := v }
  else if n = 0x012 then { q with pins := lo }
  else if n = 0x018 then { q with cause := .ofNat 32 (v.toNat % 2 ^ 10) }
  else if n = 0x019 then { q with trappc := lo }
  else if n = 0x01A then { q with trapslot := .ofNat 32 (v.toNat % 2 ^ 21) }
  else if n = 0x01B then { q with tvec := lo }
  else if n = 0x01C then { q with tcfg := .ofNat 32 (v.toNat % 2 ^ 9) }
  else if n = 0x028 then { q with mseed := v }
  else if n = 0x031 then { q with lease := .ofNat 16 v.toNat }
  else if n = 0x038 then { q with split := .ofNat 32 (v.toNat % 8) }
  else if h : 0x058 ≤ n ∧ n < 0x05C then
    { q with ctr := { q.ctr with pmc := q.ctr.pmc.set (n - 0x058) v } }
  else if h : 0x05C ≤ n ∧ n < 0x060 then { q with pms := q.pms.set (n - 0x05C) (.ofNat 32 (v.toNat % 2 ^ 7)) }
  else if h : 0x060 ≤ n ∧ n < 0x068 then { q with bka := q.bka.set (n - 0x060) v }
  else if h : 0x068 ≤ n ∧ n < 0x070 then 
    { q with bkc := q.bkc.set (n - 0x068) (bkcWrite q.bkc[n - 0x068] lo) }
  else q

/-- One write lands. A change of SPLIT resizes the scratchpad: the bytes and full/empty bits beyond the smaller of the
two sizes are lost, and when the L1 shrinks its lines are dropped, the owned ones to be written back (R187). -/
def Core.land1 (c : Core) : Landing → Core
  | .g r v => { c with sq := { c.sq with g := if r = 0 then c.sq.g else c.sq.g.set r v } }
  | .c r v => { c with sq := { c.sq with c := if r = 0 then c.sq.c else c.sq.c.set r v } }
  | .loop l v => { c with sq := c.sq.wl l v }
  | .creg n v =>
    let c' := { c with sq := c.sq.setCreg n v }
    if n = 0x038 then
      let lo := min c.sq.spadSize c'.sq.spadSize
      let c' := { c' with loc := { c'.loc with mem := clearFrom c'.loc.mem lo, fe := keepIf (· < lo / 4) c'.loc.fe } }
      if c.sq.spadSize < c'.sq.spadSize then { c' with l1 := [], wb := c'.wb ++ c'.l1.filter (·.2.owned) } else c'
    else c'
  | .region k e => { c with loc := { c.loc with regions := c.loc.regions.set k e } }
  | .satClear k => { c with loc := { c.loc with regions := c.loc.regions.set k { c.loc.regions[k] with sat := false } } }
  | .sd k d => { c with loc := { c.loc with sd := c.loc.sd.set k d } }

/-- Land the given writes in their order. -/
def Core.landAll (c : Core) : List Flight → Core
  | [] => c
  | f :: r => (c.land1 f.wr).landAll r

/-- Flights in landing order; those of one cycle keep program order (R42). -/
def sortFlights : List Flight → List Flight
  | [] => []
  | f :: r => insertFirst f (sortFlights r)
where
  /-- insert before those of the same cycle: the head stood earlier in program order -/
  insertFirst (f : Flight) : List Flight → List Flight
    | [] => [f]
    | x :: r => if f.at_ ≤ x.at_ then f :: x :: r else x :: insertFirst f r

/-- Every write in flight lands (R44). -/
def Core.drain (c : Core) : Core :=
  ({ c with sq := { c.sq with flight := [] } }).landAll (sortFlights c.sq.flight)

/-- The writes due in cycle `now` land (R41). -/
def Core.landDue (c : Core) (now : Nat) : Core :=
  ({ c with sq := { c.sq with flight := c.sq.flight.filter (now < ·.at_) } }).landAll
    (sortFlights (c.sq.flight.filter (·.at_ ≤ now)))

/-! ### Taking an exception (R306) and returning from one (R307) -/

/-- TRAPSLOT at an entry: SLOT, ASYNC, PHASE, INDEX, H = 1, RA, BS (R305). -/
def trapSlotWord (slot async : Bool) (phase : BitVec 6) (index : BitVec 10) (h ra bs : Bool) : Half :=
  .ofNat 32 (bit slot + bit async * 2 + phase.toNat * 2 ^ 2 + 2 ^ 8 * index.toNat + 2 ^ 18 * bit h + 2 ^ 19 * bit ra
    + 2 ^ 20 * bit bs)

/-- The pair slot of the word at issue: 1 for the second word of a pair (R305). -/
def IssueSlot.bit : IssueSlot → Bool
  | .second => true
  | _ => false

/-- What an entry saves beside the cause. -/
structure TrapInfo where
  pc    : Half
  slot  : Bool
  async : Bool
  phase : BitVec 6
  index : BitVec 10
deriving DecidableEq, Repr

/-- FaultTask (R308, R309): the core stops at a stopping point and reports its fault; every earlier issue completes
(R44). The CMP tears the task down (TEARDOWN). No handler is entered: H, RA and BS stand as the last entry left them
(log 32). -/
def Core.faultTask (c : Core) (cause second : Cause) (i : TrapInfo) : Core :=
  let c := c.drain
  { c with
    fault := some ⟨cause, second, i.pc,
      trapSlotWord i.slot i.async i.phase i.index c.sq.inHandler c.sq.trapRa c.sq.bs, c.sq.ctr.cycle⟩
    sq := { c.sq with after := .trapped, wait := none, latch := none } }

/-- Entry to the in-context handler (R306): every earlier issue completes, CAUSE, TRAPPC and TRAPSLOT are written,
PINS.RA is cleared, and PC goes to TVEC, a redirect at the cost of a JR (R75, R372). -/
def Core.enterHandler (c : Core) (cause : Cause) (i : TrapInfo) : Core :=
  let c := c.drain.event 19 1
  let bs := inSpan cause.toNat 0x012 8
  { c with sq := { c.sq with
      cause := .ofNat 32 cause.toNat
      trappc := i.pc
      trapslot := trapSlotWord i.slot i.async i.phase i.index true c.sq.ra bs
      pins := setRa c.sq.pins false
      pc := .ofNat 32 (c.sq.tvec.toNat / 4 * 4)
      held := 3
      target := none
      after := .trapped
      wait := none
      latch := none
      expo := [] } }

/-- CAUSE without what the debug port wrote into it: DCAUSE holds what stood there before (R324). -/
def Sq.ownCause (q : Sq) : Half := if q.cause = 0x01E || q.cause = 0x01F then q.dcause else q.cause

/-- A stop ends what the debug port has under way, and no halt is saved (R324). -/
def Sq.endHalt (q : Sq) : Sq :=
  { q with
    cause := q.ownCause
    debug := .running }

/-- A synchronous cause is taken at the issue that raised it: to the handler where TCFG enables it, NESTED inside a
handler, else to the CMP (R304, R306). TCFG and H are read as they stand, before the earlier issues complete (log 33). -/
def Core.takeSync (c : Core) (cause : Cause) (i : TrapInfo) : Core :=
  if c.sq.enables cause then
    if c.sq.inHandler then c.faultTask cNESTED cause i
    else c.enterHandler cause i
  else c.faultTask cause 0 i

/-- The instruction at issue raises a synchronous cause: nothing else of it takes place (R53). -/
def State.trapAt (s : State) (cause : Cause) (pc : Half) (index : BitVec 10) : State :=
  s.onCore fun c => c.takeSync cause ⟨pc, c.sq.slot.bit, false, 0, index⟩

/-- The same at the address of the issue's first word, with INDEX 0. -/
def State.raise (s : State) (cause : Cause) : State := s.trapAt cause s.core.sq.pc 0

/-- A unit raises an asynchronous cause; it is taken at the first boundary after this cycle (R304, R306). -/
def State.raiseAsync (s : State) (cause : Cause) (phase : BitVec 6) : State :=
  s.onSq fun q => { q with raised := q.raised ++ [⟨cause, phase, s.chip.now⟩] }

/-- The return of ERET: PINS.RA from TRAPSLOT.RA, H cleared, PC from TRAPPC at the cost of a JR (R307). -/
def State.leaveHandler (s : State) : State :=
  s.onSq fun q => { q with
    pins := setRa q.pins q.trapRa
    trapslot := .ofNat 32 (setFld q.trapslot.toNat 18 1 0)
    after := .jump (.ofNat 64 q.trappc.toNat) 3
    expo := [] }

/-! ### Scratchpad accesses of the sequencer (R50, R70, R209) -/

/-- The bank of a scratchpad offset (R185). -/
def bankOf (a : Nat) : Fin 32 := Fin.ofNat 32 (a / 64)

/-- Max of two logical times. -/
def maxW (a b : Word) : Word := if a.toNat ≤ b.toNat then b else a

/-- The SQ reads bank b: its PTS rises to the bank's time (R209); it uses half B of the bank (R190); one bank access
of energy (R370). -/
def State.sqReads (s : State) (a : Nat) : State :=
  let b := bankOf a
  (s.onSq fun q => { q with
    ctr := { q.ctr with pts := maxW q.ctr.pts s.core.loc.bt[b] }
    banks := b.val :: q.banks }).event 4 1

/-- The SQ writes bank b: the bank's time rises to its PTS (R209). -/
def State.sqWrites (s : State) (a : Nat) : State :=
  let b := bankOf a
  ((s.onLoc fun l => { l with bt := l.bt.set b (maxW l.bt[b] s.core.sq.ctr.pts) }).onSq fun q =>
    { q with banks := b.val :: q.banks }).event 4 1

/-- An atomic read-modify-write of the SQ in bank b, one access (R207, R232). -/
def State.sqRmw (s : State) (a : Nat) : State :=
  let b := bankOf a
  let t := maxW s.core.sq.ctr.pts s.core.loc.bt[b]
  ((s.onLoc fun l => { l with bt := l.bt.set b t }).onSq fun q => { q with
    ctr := { q.ctr with pts := t }
    banks := b.val :: q.banks }).event 4 1

/-- Store bytes in the scratchpad (R70). -/
def State.spadWrite (s : State) (a : Nat) (bs : List Byte) : State :=
  s.onLoc fun l => { l with mem := wrBytes l.mem a bs }

/-- The full/empty bit of the word at offset `a` (R194). -/
def Local.full (l : Local) (a : Nat) : Bool := look false (a / 4) l.fe

/-- Set the full/empty bit of the word at offset `a`. -/
def Local.setFull (l : Local) (a : Nat) (b : Bool) : Local := { l with fe := put false (a / 4) b l.fe }

/-! ### Handles (R197) -/

/-- SLOTSZ ≠ 0 (R197). -/
def Handle.configured (h : Handle) : Bool := h.slotsz != 0
/-- (PI − CI) mod 2^16 (R197). -/
def Handle.filled (h : Handle) : Nat := (h.pi - h.ci).toNat
/-- NSLOT − filled (R197). -/
def Handle.free (h : Handle) : Nat := h.nslot.toNat - h.filled
/-- The offset of slot `i mod NSLOT` (R197). -/
def Handle.place (h : Handle) (i : Nat) : Nat := i % 65536 % h.nslot.toNat

/-- The n slots from number lo on take logical time t (R241). -/
def Handle.stamp (h : Handle) (lo n : Nat) (t : Word) (l : Sparse Word) : Sparse Word :=
  (List.range n).foldl (fun l i => put 0 (h.place (lo + i)) t l) l

/-- The latest logical time of the n slots from number lo on (R241). -/
def Handle.stampOf (h : Handle) (lo n : Nat) (l : Sparse Word) : Word :=
  (List.range n).foldl (fun t i => maxW t (look 0 (h.place (lo + i)) l)) 0

def Handle.slotAt (h : Handle) (i : Nat) : Nat := h.base.toNat + 64 * h.slotsz.toNat * (i % h.nslot.toNat)

/-- The 128-bit record (R197). -/
def Handle.word (h : Handle) : Quad :=
  .ofNat 128 (h.base.toNat + 2 ^ 24 * h.slotsz.toNat + 2 ^ 36 * h.nslot.toNat + 2 ^ 64 * h.pi.toNat + 2 ^ 80 * h.ci.toNat
    + 2 ^ 96 * bit h.own + 2 ^ 97 * h.oq.toNat + 2 ^ 100 * h.os.toNat + 2 ^ 106 * h.og.toNat + 2 ^ 114 * h.ocore.toNat)

/-- A record from its 128 bits; reserved bits are dropped (the caller checks them). -/
def Handle.ofNat (n : Nat) : Handle where
  base := .ofNat 24 n
  slotsz := .ofNat 12 (n / 2 ^ 24)
  nslot := .ofNat 11 (n / 2 ^ 36)
  pi := .ofNat 16 (n / 2 ^ 64)
  ci := .ofNat 16 (n / 2 ^ 80)
  own := bitAt n 96
  oq := .ofNat 3 (n / 2 ^ 97)
  os := .ofNat 6 (n / 2 ^ 100)
  og := .ofNat 8 (n / 2 ^ 106)
  ocore := .ofNat 8 (n / 2 ^ 114)

/-! ### Tasks -/

/-- The task whose context is resident on a core. -/
def State.taskOf (s : State) (c : Core) : Option Task :=
  match c.task with
  | some t => s.chip.tasks[t]?
  | none => none

/-- The partition of the core in turn; partition 0 stands for a core without a task. -/
def State.partOf (s : State) (c : Core) : Fin 64 :=
  match s.taskOf c with
  | some t => t.part
  | none => 0

/-- The ASID of the context on a core (R217). -/
def State.asidOf (s : State) (c : Core) : BitVec 16 :=
  match s.taskOf c with
  | some t => t.asid
  | none => 0

/-- The page-table root of the context on a core (R217). -/
def State.rootOf (s : State) (c : Core) : Nat :=
  match s.taskOf c with
  | some t => t.desc.ptroot.toNat
  | none => 0

/-- Change a task. -/
def State.onTask (s : State) (t : Nat) (f : Task → Task) : State :=
  s.onChip fun h => { h with tasks := h.tasks.modify t f }

/-- Change a partition. -/
def State.onPart (s : State) (p : Fin 64) (f : Part → Part) : State :=
  s.onChip fun h => { h with parts := h.parts.set p (f h.parts[p]) }

end Sys2Proof.Machine
end

