-- ==== Sys2Proof/Machine/Operands.lean ====
section
/-! DEFINITION. The operand forms: addresses, load extension, store widths, immediates and branch targets. -/

namespace Sys2Proof
open Machine

/-- Bytes of a load (R69). -/
def LdSz.bytes : LdSz → Nat
  | .i8 => 1
  | .n8 => 1
  | .i16 => 2
  | .n16 => 2
  | .i32 => 4
  | .n32 => 4
  | .i64 => 8

/-- The load extension of the sz table (R69). -/
def LdSz.extend (z : LdSz) (v : Nat) : Word :=
  match z with
  | .i8 => sext v 8
  | .n8 => zextW v
  | .i16 => sext v 16
  | .n16 => zextW v
  | .i32 => sext v 32
  | .n32 => zextW v
  | .i64 => zextW v

/-- Bytes of a store (R69). -/
def StSz.bytes : StSz → Nat
  | .b1 => 1
  | .b2 => 2
  | .b4 => 4
  | .b8 => 8

/-- A slot number of RRET, RHOLD, RREL, RSTAT: the register, taken unsigned (R179). -/
def SlotSel.phase (s : State) : SlotSel → Option Nat
  | .one r => some (s.rg r).toNat
  | .all => none

end Sys2Proof

namespace Sys2Proof.Machine

/-- `ga + SignExtend(off12)`, modulo 2^64 (R70). -/
def addrOff (base : Word) (o : BitVec 12) : Word := base + sext o.toNat 12

/-- `ga + gb × 2^s`, modulo 2^64 (R73). -/
def addrIdx (base idx : Word) (s : BitVec 2) : Word := base + idx <<< s.toNat

/-- SignExtend of a 15-bit immediate (R61). -/
def imm15s (i : BitVec 15) : Word := sext i.toNat 15
/-- ZeroExtend of a 15-bit immediate (R61). -/
def imm15z (i : BitVec 15) : Word := zextW i.toNat
/-- SignExtend of a 12-bit immediate (R65). -/
def imm12s (i : BitVec 12) : Word := sext i.toNat 12
/-- SignExtend of a 20-bit immediate (R63). -/
def imm20s (i : BitVec 20) : Word := sext i.toNat 20

/-- The address of the word at issue: the issue's first word, or the word after it (R36). -/
def Sq.wordAddr (q : Sq) : Half :=
  match q.slot with
  | .second => q.pc + 4
  | _ => q.pc

/-- The link value of the issue: the address of the first word after it (R77). -/
def Sq.link (q : Sq) : Half :=
  match q.slot with
  | .lone => q.pc + 4
  | .first => q.pc + 8
  | .second => q.pc + 8

/-- The target of a BR ruler: the word's address plus 4 × SignExtend(off21) (R37). -/
def Sq.brTarget (q : Sq) (o : BitVec 21) : Word :=
  zextW ((q.wordAddr + .ofInt 32 (4 * signedN o.toNat 21)).toNat)

/-- The end word of an LP ruler: the word's address plus 4 × end (R37). -/
def Sq.lpEnd (q : Sq) (e : BitVec 12) : Half := q.wordAddr + .ofNat 32 (4 * e.toNat)

end Sys2Proof.Machine
end

