-- ==== Sys2Proof/Machine/Flags.lean ====
section
/-! DEFINITION. The conditions: what a compare writes into a condition register. The machine has no flags (R54). -/

namespace Sys2Proof.Machine

/-- x[W−1:0] == y[W−1:0] (R64). -/
def cmpEq (a b : Word) (w : Width) : Bool := lowN a.toNat (widthOf w) == lowN b.toNat (widthOf w)
/-- Val(x) < Val(y) (R64). -/
def cmpLt (a b : Word) (w : Width) (u : Bool) : Bool :=
  decide (valN a.toNat (widthOf w) u < valN b.toNat (widthOf w) u)
/-- (x AND y)[W−1:0] != 0 (R64). -/
def cmpTst (a b : Word) (w : Width) : Bool := lowN (a &&& b).toNat (widthOf w) != 0
/-- The 64-bit comparisons of R65. -/
def cmpLtS (a b : Word) : Bool := decide (a.toInt < b.toInt)
def cmpLtU (a b : Word) : Bool := decide (a.toNat < b.toNat)

/-- 1 or 0 as a word. -/
def boolW (b : Bool) : Word := if b then 1 else 0

end Sys2Proof.Machine
end

