-- ==== Sys2Proof/Machine/Scalar.lean ====
section
/-! DEFINITION. The plain scalar instructions: ALU, MULDIV, CMPC, immediates, SHI, CMPCI, LI, LIS, BIT, AGEN, MOV
(majors 0x01–0x0E). Each reads its sources at issue and posts its result (R41). -/

namespace Sys2Proof.Machine

/-- Write a g register `lat` cycles after issue (R41). -/
def State.setG (s : State) (d : Fin 32) (lat : Nat) (v : Word) : State := s.post lat (.g d v)

/-- Write a c register one cycle after issue (R64). -/
def State.setC (s : State) (d : Fin 8) (v : Bool) : State := s.post 1 (.c d v)

/-- ADD (R57). -/
def execAdd (d a b : GReg) (w : Width) (sat u : Bool) (s : State) : Out :=
  .next (s.setG d 1 (fit (valN (s.rg a).toNat (widthOf w) u + valN (s.rg b).toNat (widthOf w) u) (widthOf w) u sat))

/-- SUB (R57). -/
def execSub (d a b : GReg) (w : Width) (sat u : Bool) (s : State) : Out :=
  .next (s.setG d 1 (fit (valN (s.rg a).toNat (widthOf w) u - valN (s.rg b).toNat (widthOf w) u) (widthOf w) u sat))

/-- AND (R57). -/
def execAnd (d a b : GReg) (s : State) : Out :=
  .next (s.setG d 1 (s.rg a &&& s.rg b))

/-- OR (R57). -/
def execOr (d a b : GReg) (s : State) : Out :=
  .next (s.setG d 1 (s.rg a ||| s.rg b))

/-- XOR (R57). -/
def execXor (d a b : GReg) (s : State) : Out :=
  .next (s.setG d 1 (s.rg a ^^^ s.rg b))

/-- ANDN (R57). -/
def execAndn (d a b : GReg) (s : State) : Out :=
  .next (s.setG d 1 (s.rg a &&& ~~~ s.rg b))

/-- SHL: the amount is gb mod W (R57). -/
def execShl (d a b : GReg) (w : Width) (u : Bool) (s : State) : Out :=
  .next (s.setG d 1 (shlW (s.rg a) w u (s.rg b).toNat))

/-- SHR: the amount is gb mod W (R57). -/
def execShr (d a b : GReg) (w : Width) (u : Bool) (s : State) : Out :=
  .next (s.setG d 1 (shrW (s.rg a) w u (s.rg b).toNat))

/-- SAR: the amount is gb mod W (R57). -/
def execSar (d a b : GReg) (w : Width) (u : Bool) (s : State) : Out :=
  .next (s.setG d 1 (sarW (s.rg a) w u (s.rg b).toNat))

/-- ROR: the amount is gb mod W (R57). -/
def execRor (d a b : GReg) (w : Width) (u : Bool) (s : State) : Out :=
  .next (s.setG d 1 (rorW (s.rg a) w u (s.rg b).toNat))

/-- MIN (R57). -/
def execMin (d a b : GReg) (w : Width) (u : Bool) (s : State) : Out :=
  .next (s.setG d 1 (fit (minI (valN (s.rg a).toNat (widthOf w) u) (valN (s.rg b).toNat (widthOf w) u)) (widthOf w) u false))

/-- MAX (R57). -/
def execMax (d a b : GReg) (w : Width) (u : Bool) (s : State) : Out :=
  .next (s.setG d 1 (fit (maxI (valN (s.rg a).toNat (widthOf w) u) (valN (s.rg b).toNat (widthOf w) u)) (widthOf w) u false))

/-- SLT (R57). -/
def execSlt (d a b : GReg) (w : Width) (u : Bool) (s : State) : Out :=
  .next (s.setG d 1 (boolW (cmpLt (s.rg a) (s.rg b) w u)))

/-- SEQ (R57). -/
def execSeq (d a b : GReg) (w : Width) (s : State) : Out :=
  .next (s.setG d 1 (boolW (cmpEq (s.rg a) (s.rg b) w)))

/-- MUL, landing at issue + 3 (R60). -/
def execMul (d a b : GReg) (w : Width) (sat u : Bool) (s : State) : Out :=
  .next (s.setG d 3 (fit ((valN (s.rg a).toNat (widthOf w) u) * valN (s.rg b).toNat (widthOf w) u) (widthOf w) u sat))

/-- MULH: Floor(x·y / 2^W), landing at issue + 3 (R60). -/
def execMulh (d a b : GReg) (w : Width) (u : Bool) (s : State) : Out :=
  .next (s.setG d 3 (fit ((valN (s.rg a).toNat (widthOf w) u) * (valN (s.rg b).toNat (widthOf w) u) / 2 ^ widthOf w) (widthOf w) u false))

/-- DIV, landing at issue + 12 (R60). -/
def execDiv (d a b : GReg) (w : Width) (u : Bool) (s : State) : Out :=
  .next (s.setG d 12 (divW (s.rg a) (s.rg b) w u))

/-- REM, landing at issue + 12 (R60). -/
def execRem (d a b : GReg) (w : Width) (u : Bool) (s : State) : Out :=
  .next (s.setG d 12 (remW (s.rg a) (s.rg b) w u))

/-- CEQ (R64). -/
def execCeq (c : CReg) (a b : GReg) (w : Width) (s : State) : Out :=
  .next (s.setC c (cmpEq (s.rg a) (s.rg b) w))

/-- CNE (R64). -/
def execCne (c : CReg) (a b : GReg) (w : Width) (s : State) : Out :=
  .next (s.setC c (!cmpEq (s.rg a) (s.rg b) w))

/-- CLT (R64). -/
def execClt (c : CReg) (a b : GReg) (w : Width) (u : Bool) (s : State) : Out :=
  .next (s.setC c (cmpLt (s.rg a) (s.rg b) w u))

/-- CGE (R64). -/
def execCge (c : CReg) (a b : GReg) (w : Width) (u : Bool) (s : State) : Out :=
  .next (s.setC c (!cmpLt (s.rg a) (s.rg b) w u))

/-- CTST (R64). -/
def execCtst (c : CReg) (a b : GReg) (w : Width) (s : State) : Out :=
  .next (s.setC c (cmpTst (s.rg a) (s.rg b) w))

/-- ADDI (R61). -/
def execAddi (d a : GReg) (i : BitVec 15) (s : State) : Out :=
  .next (s.setG d 1 (s.rg a + imm15s i))

/-- ANDI (R61). -/
def execAndi (d a : GReg) (i : BitVec 15) (s : State) : Out :=
  .next (s.setG d 1 (s.rg a &&& imm15s i))

/-- ORI (R61). -/
def execOri (d a : GReg) (i : BitVec 15) (s : State) : Out :=
  .next (s.setG d 1 (s.rg a ||| imm15z i))

/-- XORI (R61). -/
def execXori (d a : GReg) (i : BitVec 15) (s : State) : Out :=
  .next (s.setG d 1 (s.rg a ^^^ imm15z i))

/-- SHLI: as SHL with the amount in place of gb (R62). -/
def execShli (d a : GReg) (w : Width) (u : Bool) (n : BitVec 6) (s : State) : Out :=
  .next (s.setG d 1 (shlW (s.rg a) w u n.toNat))

/-- SHRI: as SHR with the amount in place of gb (R62). -/
def execShri (d a : GReg) (w : Width) (u : Bool) (n : BitVec 6) (s : State) : Out :=
  .next (s.setG d 1 (shrW (s.rg a) w u n.toNat))

/-- SARI: as SAR with the amount in place of gb (R62). -/
def execSari (d a : GReg) (w : Width) (u : Bool) (n : BitVec 6) (s : State) : Out :=
  .next (s.setG d 1 (sarW (s.rg a) w u n.toNat))

/-- RORI: as ROR with the amount in place of gb (R62). -/
def execRori (d a : GReg) (w : Width) (u : Bool) (n : BitVec 6) (s : State) : Out :=
  .next (s.setG d 1 (rorW (s.rg a) w u n.toNat))

/-- CEQI (R65). -/
def execCeqi (c : CReg) (a : GReg) (i : BitVec 12) (s : State) : Out :=
  .next (s.setC c (s.rg a == imm12s i))

/-- CNEI (R65). -/
def execCnei (c : CReg) (a : GReg) (i : BitVec 12) (s : State) : Out :=
  .next (s.setC c (s.rg a != imm12s i))

/-- CLTI (R65). -/
def execClti (c : CReg) (a : GReg) (i : BitVec 12) (s : State) : Out :=
  .next (s.setC c (cmpLtS (s.rg a) (imm12s i)))

/-- CGEI (R65). -/
def execCgei (c : CReg) (a : GReg) (i : BitVec 12) (s : State) : Out :=
  .next (s.setC c (!cmpLtS (s.rg a) (imm12s i)))

/-- CLTUI (R65). -/
def execCltui (c : CReg) (a : GReg) (i : BitVec 12) (s : State) : Out :=
  .next (s.setC c (cmpLtU (s.rg a) (imm12s i)))

/-- CGEUI (R65). -/
def execCgeui (c : CReg) (a : GReg) (i : BitVec 12) (s : State) : Out :=
  .next (s.setC c (!cmpLtU (s.rg a) (imm12s i)))

/-- CTSTI (R65). -/
def execCtsti (c : CReg) (a : GReg) (i : BitVec 12) (s : State) : Out :=
  .next (s.setC c ((s.rg a &&& imm12s i) != 0))

/-- LI (R63). -/
def execLi (d : GReg) (i : BitVec 20) (s : State) : Out :=
  .next (s.setG d 1 (imm20s i))

/-- LIS reads its own destination (R63). -/
def execLis (d : GReg) (i : BitVec 20) (s : State) : Out :=
  .next (s.setG d 1 (s.rg d <<< 20 + zextW i.toNat))

/-- CLZ (R66). -/
def execClz (d a : GReg) (s : State) : Out :=
  .next (s.setG d 1 (zextW (clzW (s.rg a))))

/-- CTZ (R66). -/
def execCtz (d a : GReg) (s : State) : Out :=
  .next (s.setG d 1 (zextW (ctzW (s.rg a))))

/-- POPC (R66). -/
def execPopc (d a : GReg) (s : State) : Out :=
  .next (s.setG d 1 (zextW (popcW (s.rg a))))

/-- BREV (R66). -/
def execBrev (d a : GReg) (s : State) : Out :=
  .next (s.setG d 1 (brevW (s.rg a)))

/-- BSWAP (R66). -/
def execBswap (d a : GReg) (s : State) : Out :=
  .next (s.setG d 1 (bswapW (s.rg a)))

/-- SEL (R66). -/
def execSel (d a b : GReg) (c : CReg) (s : State) : Out :=
  .next (s.setG d 1 (if s.rc c then s.rg a else s.rg b))

/-- SELN (R66). -/
def execSeln (d a b : GReg) (c : CReg) (s : State) : Out :=
  .next (s.setG d 1 (if s.rc c then s.rg b else s.rg a))

/-- MFC (R66). -/
def execMfc (d : GReg) (c : CReg) (s : State) : Out :=
  .next (s.setG d 1 (boolW (s.rc c)))

/-- MTC (R66). -/
def execMtc (c : CReg) (a : GReg) (s : State) : Out :=
  .next (s.setC c (s.rg a != 0))

/-- CAND (R66). -/
def execCand (d a b : CReg) (s : State) : Out :=
  .next (s.setC d (s.rc a && s.rc b))

/-- COR (R66). -/
def execCor (d a b : CReg) (s : State) : Out :=
  .next (s.setC d (s.rc a || s.rc b))

/-- CXOR (R66). -/
def execCxor (d a b : CReg) (s : State) : Out :=
  .next (s.setC d (s.rc a ^^ s.rc b))

/-- CANDN (R66). -/
def execCandn (d a b : CReg) (s : State) : Out :=
  .next (s.setC d (s.rc a && !s.rc b))

/-- ADDSH reads its own destination (R67). -/
def execAddsh (d a : GReg) (f : BitVec 6) (s : State) : Out :=
  .next (s.setG d 1 (s.rg d + s.rg a <<< f.toNat))

/-- WRAPI: the step stays within the aligned window of 2^k (R67). -/
def execWrapi (d a : GReg) (k f : BitVec 6) (s : State) : Out :=
  .next (s.setG d 1 ((s.rg a &&& ~~~ maskW k) ||| ((s.rg a + sext f.toNat 6) &&& maskW k)))

/-- ALIGNU (R67). -/
def execAlignu (d a : GReg) (k : BitVec 6) (s : State) : Out :=
  .next (s.setG d 1 ((s.rg a + maskW k) &&& ~~~ maskW k))

/-- MOV (R68). -/
def execMov (d a : GReg) (s : State) : Out :=
  .next (s.setG d 1 (s.rg a))

/-- SXB (R68). -/
def execSxb (d a : GReg) (s : State) : Out :=
  .next (s.setG d 1 (sext (s.rg a).toNat 8))

/-- SXH (R68). -/
def execSxh (d a : GReg) (s : State) : Out :=
  .next (s.setG d 1 (sext (s.rg a).toNat 16))

/-- SXW (R68). -/
def execSxw (d a : GReg) (s : State) : Out :=
  .next (s.setG d 1 (sext (s.rg a).toNat 32))

/-- ZXB (R68). -/
def execZxb (d a : GReg) (s : State) : Out :=
  .next (s.setG d 1 (zextW (lowN (s.rg a).toNat 8)))

/-- ZXH (R68). -/
def execZxh (d a : GReg) (s : State) : Out :=
  .next (s.setG d 1 (zextW (lowN (s.rg a).toNat 16)))

/-- ZXW (R68). -/
def execZxw (d a : GReg) (s : State) : Out :=
  .next (s.setG d 1 (zextW (lowN (s.rg a).toNat 32)))

/-- MFL (R68). -/
def execMfl (d : GReg) (l : Fin 9) (s : State) : Out :=
  .next (s.setG d 1 (zextW (s.core.sq.rl l).toNat))

/-- MTL, landing at issue + 1 (R68, R82). -/
def execMtl (l : Fin 9) (a : GReg) (s : State) : Out :=
  .next (s.post 1 (.loop l (.ofNat 32 (s.rg a).toNat)))

end Sys2Proof.Machine
end

