-- ==== Sys2Proof/Machine/Queues.lean ====
section
/-! DEFINITION. The engine queues: which queue a command enters, what it declares, and the named waits of the
sequencer. -/

namespace Sys2Proof.Machine

/-! ### Commands (R236–R241) -/

/-- Class and place among the queues: FEED 0–3, DRAIN 4–7, CPE 8–15, MXE 16, SYE 17, STAT 18, ROT 19, LAUNCH 20,
XLT 21 (R237, in the order of R315); none for an instruction that is no command. -/
def queueOf : Instr → Option (Fin 22)
  | .feedh q .. | .feeda q .. | .feedi q .. | .feedm q .. => some (Fin.ofNat 22 q.val)
  | .drainh q .. | .draina q .. | .drainx q .. => some (Fin.ofNat 22 (4 + q.val))
  | .copy q .. | .hcopy q .. | .gather q .. | .scatter q .. | .selacc q .. => some (Fin.ofNat 22 (8 + q.val))
  | .ldb .. | .mmul .. | .gmul .. | .rdacc .. | .recur .. => some 16
  | .atom .. | .mmerge .. | .atomw .. | .mmergew .. | .wend .. | .barr .. => some 17
  | .snap .. | .argw .. => some 18
  | .radmc .. | .rretc .. | .rholdc .. | .rrelc .. | .rsavec .. | .rloadc .. | .rmapc .. => some 19
  | .launch .. | .replay .. => some 20
  | .invr .. | .inva .. => some 21
  | _ => none

/-- The class code of a queue (R237). -/
def classOfQueue (k : Fin 22) : Nat :=
  if k.val < 4 then 0 else if k.val < 8 then 1 else if k.val < 16 then 2 else k.val - 13

/-- The queues of a class, in ascending Q. -/
def queuesOf (cls : Nat) : List (Fin 22) := (List.finRange 22).filter fun k => classOfQueue k == cls

/-- No group. -/
def Decl.none : Decl := ⟨.none, .none, .none⟩

/-- The declaration word of a command (R239); RADM's declaration of one input slot stands in `radmHandle`. -/
def declOf : Instr → Decl
  | .feedh _ _ _ _ _ d | .feeda _ _ _ _ _ _ _ d | .feedi _ _ _ _ _ d | .feedm _ _ d => d
  | .drainh _ _ _ _ d | .draina _ _ _ _ _ _ _ d | .drainx _ _ d => d
  | .copy _ _ _ _ _ _ d | .hcopy _ _ _ _ _ _ d | .gather _ _ _ _ _ _ d | .scatter _ _ _ _ _ _ d
  | .selacc _ _ _ _ _ d => d
  | .ldb _ _ _ _ d | .mmul _ _ _ _ _ _ _ _ _ d | .gmul _ _ _ _ _ _ _ _ _ d | .rdacc _ _ _ _ _ _ d
  | .recur _ _ _ _ _ _ d => d
  | .snap _ d | .argw _ _ d => d
  | _ => Decl.none

/-- The handle of an RADM entry (R174). -/
def radmHandle : Instr → Option (Fin 32)
  | .radmc _ h _ _ => some h
  | _ => none

/-- The handle of a group. -/
def grpIs (h : Fin 32) : Option Grp → Bool
  | some g => g.h == h
  | none => false

/-- A command names handle h (R199). -/
def namesHandle (h : Fin 32) (i : Instr) : Bool :=
  grpIs h (declOf i).a || grpIs h (declOf i).b || grpIs h (declOf i).o || radmHandle i == some h

def QEnt.names (h : Fin 32) : QEnt → Bool
  | .cmd i _ _ _ _ => namesHandle h i
  | .fence _ _ _ => false

/-- h is named by a queued or executing command (R199). -/
def Core.handleBusy (c : Core) (h : Fin 32) : Bool :=
  c.queues.toList.any fun q => q.ents.any (·.names h) || q.run.any fun r => namesHandle h r.cmd

/-- Entries a queue holds, the begun command included (R237, R315). -/
def Queue.size (q : Queue) : Nat := q.ents.length + if q.run.isSome then 1 else 0

/-- A queue has a free entry (R237). -/
def Queue.hasRoom (q : Queue) : Bool := decide (q.size < 32)

/-- Counts reserved on handle h by begun, uncompleted commands (R240). -/
def grpCount (h : Fin 32) : Option Grp → Nat
  | some g => if g.h = h then g.n.val + 1 else 0
  | none => 0

/-- What is still reserved of a begun command's group A, and of its group O: FEEDH advances the one slot by slot, DRAINH the
other (R241, R243, R244). -/
def Run.leftIn (r : Run) (n : Nat) : Nat := match r.cmd with
  | .feedh .. => n - r.stage
  | _ => n
def Run.leftOut (r : Run) (n : Nat) : Nat := match r.cmd with
  | .drainh .. => n - r.stage
  | _ => n

def Core.reservedIn (c : Core) (h : Fin 32) : Nat :=
  (c.queues.toList.map fun q => match q.run with
    | some r => r.leftIn (grpCount h (declOf r.cmd).a) + grpCount h (declOf r.cmd).b
    | none => 0).sum

def Core.reservedOut (c : Core) (h : Fin 32) : Nat :=
  (c.queues.toList.map fun q => match q.run with
    | some r => r.leftOut (grpCount h (declOf r.cmd).o)
    | none => 0).sum

/-- Change one queue. -/
def Core.onQueue (c : Core) (k : Fin 22) (f : Queue → Queue) : Core :=
  { c with queues := c.queues.set k (f c.queues[k]) }

/-! ### The logical time of a request's agent (R207, R209) -/

/-- The begun command that waits for request `id`, or the pass of a circuit's memory node. -/
def Run.waitsFor (r : Run) (id : Nat) : Bool := r.wait.contains id
def Circ.waitsFor (x : Circ) (id : Nat) : Bool := x.pass.any fun p => p.wait.contains id

/-- The PTS with which request `id` is performed: that of its agent as it stands then, at least t. -/
def Core.agentPts (c : Core) (id : Nat) (t : Word) : Word :=
  let t := c.queues.toList.foldl (fun t q => match q.run with
    | some r => if r.waitsFor id then maxW t r.pts else t
    | none => t) t
  c.loc.circ.toList.foldl (fun t x => match x.cfg with
    | some g => if x.waitsFor id then maxW t c.fab.ports[g.port].pts else t
    | none => t) t

/-- A begun command after an access of request `id` that left it at t. -/
def Run.raiseFor (r : Run) (id : Nat) (t : Word) : Run := if r.waitsFor id then { r with pts := maxW r.pts t } else r

/-- The agent of request `id` after an access that left it at t. -/
def Core.raiseAgent (c : Core) (id : Nat) (t : Word) : Core :=
  let ports := c.loc.circ.toList.foldl (fun (v : Vector Port 16) x => match x.cfg with
    | some g => if x.waitsFor id then v.set g.port { v[g.port] with pts := maxW v[g.port].pts t } else v
    | none => v) c.fab.ports
  { c with
    queues := c.queues.mapAll fun q => { q with run := q.run.map (·.raiseFor id t) }
    fab := { c.fab with ports := ports } }

/-- A node: LCID[11:0] :: c[5:0] (R229, R288). -/
def Sq.node (q : Sq) (c : Nat) : BitVec 18 := .ofNat 18 (2 ^ 6 * (q.lcid.toNat % 2 ^ 12) + c % 2 ^ 6)

/-! ### Named waits (R40, R41, R45) -/

/-- The wait in progress, if it is of kind k: its operands are the latched ones (R41). -/
def Sq.waitOf (q : Sq) (k : WaitKind) : Option Wait :=
  match q.wait with
  | some w => if w.kind = k then some w else none
  | none => none

/-- A wait that begins now with these operands. -/
def Wait.start (k : WaitKind) (a v : Word) (now : Nat) : Wait := ⟨k, a, v, 0, now⟩

/-- The wait of kind k at this issue attempt: the one in progress, or a new one (R40). -/
def State.waitAt (s : State) (k : WaitKind) (a v : Word) : Wait :=
  match s.core.sq.waitOf k with
  | some w => w
  | none => .start k a v s.chip.now

/-- The instruction does not issue in this cycle: the cycle is withheld and counted (R40, R45). -/
def State.holds (s : State) (w : Wait) (k : Stall) : State :=
  (s.stalls k).onSq fun q => { q with wait := some w, after := .waits }

/-- The wait is over. -/
def State.served (s : State) : State := s.onSq fun q => { q with wait := none }

/-- The SQ's PTS joins another logical time (R209). -/
def State.join (s : State) (t : Word) : State :=
  s.onSq fun q => { q with ctr := { q.ctr with pts := maxW q.ctr.pts t } }

end Sys2Proof.Machine
end

