-- ==== Sys2Proof/Machine/Memory.lean ====
section
/-! DEFINITION. Global memory: the physical space and its homes (R203, R204), logical time at a home (R207, R208),
dirty marks (R364, R365), versions (R311) and budgets (R367, R368). -/

namespace Sys2Proof.Machine

/-! ### Bitmaps -/

/-- The 1 bits of an n-bit bitmap, ascending. -/
def onesOf (x n : Nat) : List Nat := (List.range n).filter (bitAt x)

/-- Entry i mod length of a list of indices. -/
def nthMod (l : List Nat) (i : Nat) : Nat := l.getD (i % l.length) 0

/-! ### Budgets (R367, R368) -/

/-- The place of an instance's count. -/
def budgetKey (k : Fin 7) (inst : Nat) : Nat := 2 ^ 16 * k.val + inst

/-- An event of an instance is permitted: its count at the start of the cycle is below the budget; 0 is no limit. -/
def Part.permits (p : Part) (k : Fin 7) (inst : Nat) : Bool :=
  p.qb[k] == 0 || decide (look 0 (budgetKey k inst) p.used < p.qb[k].toNat)

/-- Count n events of an instance. -/
def Part.spend (p : Part) (k : Fin 7) (inst n : Nat) : Part :=
  { p with spent := put 0 (budgetKey k inst) (look 0 (budgetKey k inst) p.spent + n) p.spent }

/-- The counts of the cycle are added at its end. -/
def Part.endCycle (p : Part) : Part :=
  { p with
    used := p.spent.foldl (fun u e => put 0 e.1 (look 0 e.1 u + e.2) u) p.used
    spent := [] }

/-- The die in whose clock an instance's period runs: of a channel, a bank, the sending end of a UCIe link, an SYE or a core;
4 is the hub (R367). -/
def budgetDie (key : Nat) : Nat :=
  let inst := key % 2 ^ 16
  match key / 2 ^ 16 with
  | 0 => inst / 16
  | 1 => inst / 32
  | 2 => inst / 8
  | 3 => 4
  | 4 => inst
  | _ => inst / 64

/-- The counts of die d are 0 at a period's start (R367). -/
def Part.newPeriod (p : Part) (d : Nat) : Part := { p with used := p.used.filter fun e => budgetDie e.1 != d }

/-- n events of class k charged to the context on a core in a cycle that it has accounted (R370, R371). -/
def State.charge (s : State) (cid : BitVec 8) (k : Fin 23) (n : Nat) : State :=
  match s.coreAt cid with
  | none => s
  | some c =>
    let e := if h : k.val < 16 then s.chip.weights[k.val].toNat * n else 0
    let s := if c.task.isSome then s.onPart (s.partOf c) fun q => q.spend 6 cid.toNat e else s
    s.onCoreAt cid (·.charge s.chip.weights k n)

/-- A budget refuses something to a core after it has closed its cycle: a refused cycle all the same (R368, R372). -/
def State.refusedLate (s : State) (cid : BitVec 8) : State := match s.coreAt cid with
  | some c => if c.refused then s else (s.charge cid 18 1).onCoreAt cid fun c => { c with refused := true }
  | none => s

/-- The energy budget of a core is not exhausted (R368). -/
def State.energyOk (s : State) (c : Core) : Bool := s.chip.parts[s.partOf c].permits 6 c.cid.toNat

/-- An event of a time is on its way to the error ring of partition p (R360). -/
def State.tellAt (s : State) (time : Nat) (p : Fin 64) (kind : Nat) (cause : Cause) (addr : Word) (fault : Row) : State :=
  s.onPart p fun q => { q with errs := q.errs ++ [⟨kind, addr, cause, .ofNat 64 time, fault⟩] }

/-- An event of this moment. -/
def State.tell (s : State) (p : Fin 64) (kind : Nat) (cause : Cause) (addr : Word) (fault : Row) : State :=
  s.tellAt s.chip.time p kind cause addr fault

/-! ### UCIe links (R347, R348) -/

/-- A crossing of a link: the sending die, 4 for the hub, and the link. -/
abbrev Hop := Nat × Nat

/-- The UCIe links from die i to die j (R347). -/
def ucieRoute (i j : Fin 4) : List Nat :=
  if j = i then []
  else if j.val = (i.val + 1) % 4 then [2 * i.val + 1]
  else if i.val = (j.val + 1) % 4 then [2 * j.val + 1]
  else [2 * i.val + 1, 2 * ((i.val + 1) % 4) + 1]

/-- The crossings from die i to die j: a second one leaves from the die between. -/
def ucieHops (i j : Fin 4) : List Hop :=
  (ucieRoute i j).zipIdx.map fun e => ((i.val + e.2) % 4, e.1)

/-- From a die to the hub, and back (R347). -/
def toHub (d : Fin 4) : List Hop := [(d.val, 2 * d.val)]
def fromHub (d : Fin 4) : List Hop := [(4, 2 * d.val)]

/-- The budget's instance of a crossing: the link at its sending die (R367). -/
def hopInst (e : Hop) : Nat := 8 * e.1 + e.2

/-- Crossings that the budget permits (R368). -/
def Part.permitsHops (p : Part) (l : List Hop) : Bool := l.all fun e => p.permits 2 (hopInst e)

/-- One flit crosses each link, on the partition's budget and on the energy of the context that caused it (R348, R370). -/
def State.crosses (s : State) (p : Fin 64) (who : Option (BitVec 8)) (l : List Hop) : State :=
  if l.isEmpty then s
  else
    let s := s.onPart p fun q => l.foldl (fun q e => q.spend 2 (hopInst e) 1) q
    match who with
    | some c => s.charge c 8 l.length
    | none => s

/-! ### The physical space (R203, R204, R353) -/

/-- Bytes of device memory: m × 4 GiB (R203). -/
def Part.devBytes (p : Part) : Nat := 2 ^ 32 * (onesOf p.pchn.toNat 64).length

/-- What a partition physical address names. -/
inductive Place
  | device
  /-- a byte of the host, by host address -/
  | host (a : Nat)
  /-- a byte of a remote partition, by device, partition and remote address -/
  | peer (a : Nat)
  | absent
deriving DecidableEq, Repr

/-- Host window entry e, peer window entry e (R353). -/
def Part.hostEntry (p : Part) (e : Nat) : Nat := (look 0 e p.hostWin).toNat
def Part.peerEntry (p : Part) (e : Nat) : Nat := (look 0 e p.peerWin).toNat

/-- A remote byte's number: DEV, RPART and RBASE :: A[39:0] (R353). -/
def peerByte (e a : Nat) : Nat := 2 ^ 56 * fld e 16 16 + 2 ^ 48 * fld e 8 8 + 2 ^ 40 * fld e 32 8 + a % 2 ^ 40

/-- The place a physical address names (R203, R353). -/
def Part.place (p : Part) (pa : Nat) : Place :=
  if pa < p.devBytes then .device
  else if inSpan pa (2 ^ 46) (2 ^ 46) then
    let e := p.hostEntry ((pa - 2 ^ 46) / 2 ^ 40)
    if bitAt e 0 then .host (2 ^ 40 * fld e 40 24 + pa % 2 ^ 40) else .absent
  else if inSpan pa (2 ^ 47) (2 ^ 47) then
    let e := p.peerEntry ((pa - 2 ^ 47) / 2 ^ 40)
    if bitAt e 0 then .peer (peerByte e pa) else .absent
  else .absent

/-- The home bank of a line: list[A[47:7] mod n] over the owned banks (R204). -/
def Part.homeBank (p : Part) (pa : Nat) : Nat := nthMod (onesOf p.pbnk.toNat 128) (pa / 128)

/-- The channel of a byte: list[A[47:8] mod m] over the owned channels (R204). -/
def Part.homeChannel (p : Part) (pa : Nat) : Nat := nthMod (onesOf p.pchn.toNat 64) (pa / 256)

/-- The home die of a line (R204). -/
def Part.homeDie (p : Part) (pa : Nat) : Fin 4 := Fin.ofNat 4 (p.homeBank pa / 32)

/-- From the home of a line on: a window line is forwarded to the hub, where the host and the ports are, and back (R204, R347,
R353). -/
def Part.beyond (q : Part) (pa : Nat) : List Hop :=
  if q.place pa == .device then [] else toHub (q.homeDie pa) ++ fromHub (q.homeDie pa)

/-- The crossings of an access from a die by the home of its line, and of its reply; and from the hub (R204, R347). -/
def Part.ways (q : Part) (die : Fin 4) (pa : Nat) : List Hop :=
  ucieHops die (q.homeDie pa) ++ q.beyond pa ++ ucieHops (q.homeDie pa) die
def Part.hubWays (q : Part) (pa : Nat) : List Hop := fromHub (q.homeDie pa) ++ q.beyond pa ++ toHub (q.homeDie pa)

/-- The bank and the channel of an access at a home are permitted (R367, R368); what the access needs of its channel is the
next free value (log entry 66). -/
def State.homePermits (s : State) (p : Fin 64) (pa : Nat) : Bool :=
  let q := s.chip.parts[p]
  q.permits 1 (q.homeBank pa)
    && (q.place pa != .device || q.permits 0 (q.homeChannel pa) || (Config.gddr s.fresh).2 == 0)

/-- The events of an access at a home: its bank, an L2 access, and what it needs of its channel (R367, R370). -/
def State.atHome (s : State) (p : Fin 64) (who : Option (BitVec 8)) (pa : Nat) : State :=
  let (k, s) := s.take
  let q := s.chip.parts[p]
  let s := s.onPart p fun x => x.spend 1 (q.homeBank pa) 1
  let pay := fun (s : State) (c : Fin 23) (n : Nat) => match who with
    | some x => s.charge x c n
    | none => s
  let s := pay s 6 1
  if q.place pa != .device then s
  else pay (s.onPart p fun x => x.spend 0 (q.homeChannel pa) (Config.gddr k).2) 7 (Config.gddr k).1

/-- Bytes as they stand at their place. -/
def State.rdPhys (s : State) (p : Fin 64) (pa n : Nat) : List Byte :=
  match s.chip.parts[p].place pa with
  | .device => rdBytes s.chip.parts[p].mem pa n
  | .host a => rdBytes s.chip.hostMem a n
  | .peer a => rdBytes s.chip.peerMem a n
  | .absent => List.replicate n 0

/-- Write bytes at their place. -/
def State.wrPhys (s : State) (p : Fin 64) (pa : Nat) (bs : List Byte) : State :=
  match s.chip.parts[p].place pa with
  | .device => s.onPart p fun q => { q with mem := wrBytes q.mem pa bs }
  | .host a => s.onChip fun h => { h with hostMem := wrBytes h.hostMem a bs }
  | .peer a => s.onChip fun h => { h with peerMem := wrBytes h.peerMem a bs }
  | .absent => s

/-! ### Lines (R205–R208) -/

/-- A line of the partition's device memory. -/
def State.lineAt (s : State) (p : Fin 64) (pa : Nat) : Line := look .zero (pa / 128) s.chip.parts[p].lines

def State.setLine (s : State) (p : Fin 64) (pa : Nat) (x : Line) : State :=
  s.onPart p fun q => { q with lines := put .zero (pa / 128) x q.lines }

/-- The owned copy a core holds of a line, in its L1 or on its way back (R187, R205). -/
def Core.owned (c : Core) (ln : Nat) : Option L1Line :=
  ((c.l1 ++ c.wb).find? fun e => e.1 == ln && e.2.owned).map (·.2)

/-- A core without any copy of a line. -/
def Core.dropLine (c : Core) (ln : Nat) : Core :=
  { c with l1 := c.l1.filter (·.1 != ln), wb := c.wb.filter (·.1 != ln) }

/-- The two rows of a line that a core's L1 takes in or gives up are engine requests of the L1, which touch no byte of the
scratchpad (R190). -/
def Core.l1Rows (c : Core) (k now : Nat) : Core :=
  let a := 128 * (Config.l1Banks k).toNat
  let n := c.loc.nreq
  { c with loc := { c.loc with
    nreq := n + 2
    reqs := c.loc.reqs ++ [⟨n, .l1, .write [(a, [])] false, 0, now, 0, 0⟩, ⟨n + 1, .l1, .write [(a + 64, [])] false, 0, now, 0, 0⟩] } }

def State.l1Rows (s : State) (cid : BitVec 8) : State :=
  let (k, s) := s.take
  s.onCoreAt cid (·.l1Rows k (s.clockOf cid))

/-- The crossings of a write-back of the line from its owner's die to the home's (R347). -/
def State.backHops (s : State) (p : Fin 64) (pa : Nat) : List Hop := match (s.lineAt p pa).owner with
  | none => []
  | some c => ucieHops (dieOf c) (s.chip.parts[p].homeDie pa)

/-- The events of an access of an agent on the hub, the CMP, the host or a peer, to a line: they are on the partition's budgets,
and of no context (R347, R348, R367, R370). -/
def State.hubPays (s : State) (p : Fin 64) (pa : Nat) : State :=
  (s.atHome p none pa).crosses p none (s.chip.parts[p].hubWays pa)

/-- Its budgets permit it, with a write-back that it calls for (R368). -/
def State.hubPermits (s : State) (p : Fin 64) (pa : Nat) : Bool :=
  (s.chip.parts[p].place pa != .device || s.homePermits p pa) &&
    s.chip.parts[p].permitsHops (s.chip.parts[p].hubWays pa ++ s.backHops p pa)

/-- The same of each line of n bytes. -/
def State.hubPaysAll (s : State) (p : Fin 64) (pa n : Nat) : State :=
  (List.range ((pa + n + 127) / 128 - pa / 128)).foldl (fun s i => s.hubPays p (128 * (pa / 128 + i))) s

/-- No budget of a channel, a bank, a UCIe link or an SYE is exhausted: an agent on the hub goes on with the partition's work
(R368; log entry 66). -/
def Part.hubMay (q : Part) : Bool := q.used.all fun e =>
  if h : e.1 / 2 ^ 16 < 5 then
    e.1 / 2 ^ 16 == 3 || q.qb[e.1 / 2 ^ 16]'(by omega) == 0 || decide (e.2 < (q.qb[e.1 / 2 ^ 16]'(by omega)).toNat)
  else true

/-- The line's owner gives data, WTS and RTS back to the home and keeps no copy (R208): an access at the home, and flits on the
way, of the context of core `who` (R348, R367, R370). -/
def State.comeHome (s : State) (p : Fin 64) (who : Option (BitVec 8)) (pa : Nat) : State :=
  let x := s.lineAt p pa
  match x.owner with
  | none => s
  | some cid =>
    match (s.coreAt cid).bind (·.owned (pa / 128)) with
    | none => s.setLine p pa { x with owner := none }
    | some l =>
      let s := (s.atHome p who pa).crosses p who (s.backHops p pa)
      let s := s.onPart p fun q => { q with mem := wrBytes q.mem (pa / 128 * 128) (leBytes l.data.toNat 128) }
      (s.setLine p pa { x with wts := l.wts, rts := l.rts, owner := none }).onCoreAt cid (·.dropLine (pa / 128))

/-- The home recalls the line's owner, whose L1 reads the rows of the line (R190, R208). -/
def State.recall (s : State) (p : Fin 64) (pa : Nat) : State := match (s.lineAt p pa).owner with
  | none => s
  | some cid =>
    let t := s.comeHome p (some cid) pa
    if ((s.coreAt cid).bind (·.owned (pa / 128))).isSome then t.l1Rows cid else t

/-! ### Dirty marks (R364, R365) -/

/-- A mark that changed a bit appends the page to the dirty ring, whose line comes home first, or sets LOGOVF when it
is full (R208, R365). -/
def State.ringAppend (s : State) (p : Fin 64) (page : Nat) : State :=
  let q := s.chip.parts[p]
  if !bitAt q.dctl.toNat 1 || bitAt q.dctl.toNat 2 then s
  else if (q.drtail - q.drhead).toNat < 4096 then
    let a := q.drbase.toNat + 8 * (q.drtail.toNat % 4096)
    ((s.recall p a).wrPhys p a (leBytes page 8)).onPart p fun q => { q with drtail := q.drtail + 1 }
  else s.onPart p fun q => { q with dctl := q.dctl ||| 4 }

/-- A write performed at a home, or a grant of ownership, marks the page of its line (R364). -/
def State.dirtyMark (s : State) (p : Fin 64) (pa : Nat) : State :=
  let q := s.chip.parts[p]
  let page := pa / 65536
  let w := look 0 (page / 64) q.dirty
  if !(bitAt q.dctl.toNat 0 && bitAt q.phub.toNat 1) || q.place pa != .device then s
  else if bitAt w.toNat (page % 64) then s
  else (s.onPart p fun q =>
    { q with dirty := put 0 (page / 64) (w + .ofNat 64 (2 ^ (page % 64))) q.dirty }).ringAppend p page

/-! ### Accesses at the home (R207) -/

/-- What an access answers: the bytes, the acting agent's PTS after it, and the state. -/
structure Got where
  bytes : List Byte
  pts   : Word
  st    : State

/-- A load performed at the home (R207): RTS rises to PTS + LEASE, and PTS to WTS. Window lines carry no times. -/
def State.homeLoad (s : State) (p : Fin 64) (pa n : Nat) (pts : Word) (lease : Nat) : Got :=
  let s := s.recall p pa
  if s.chip.parts[p].place pa != .device then ⟨s.rdPhys p pa n, pts, s⟩
  else
    let x := s.lineAt p pa
    ⟨s.rdPhys p pa n, maxW pts x.wts, s.setLine p pa { x with rts := maxW x.rts (pts + .ofNat 64 lease) }⟩

/-- The time of a store: above every lease (R207). -/
def storeTime (pts rts : Word) : Word := maxW pts (rts + 1)

/-- A store performed at the home (R207): WTS = RTS = the new PTS; a full-line store clears poison (R363). -/
def State.homeStore (s : State) (p : Fin 64) (pa : Nat) (bs : List Byte) (pts : Word) : Got :=
  let s := s.recall p pa
  if s.chip.parts[p].place pa != .device then ⟨[], pts, s.wrPhys p pa bs⟩
  else
    let x := s.lineAt p pa
    let t := storeTime pts x.rts
    ⟨[], t, ((s.wrPhys p pa bs).setLine p pa
      { x with wts := t, rts := t, poison := x.poison && decide (bs.length < 128) }).dirtyMark p pa⟩

/-- Spans of one row or line, at distances from `pa`, stored as one access (R207, R261, R312); of a whole line, it clears
poison (R363). -/
def State.homeStoreRow (s : State) (p : Fin 64) (pa : Nat) (l : List (Nat × List Byte)) (pts : Word) : Got :=
  match l with
  | [] => ⟨[], pts, s⟩
  | e :: r =>
    let g := s.homeStore p (pa + e.1) e.2 pts
    let s := r.foldl (fun s e => s.wrPhys p (pa + e.1) e.2) g.st
    { g with st := if (l.map (·.2.length)).sum < 128 then s
        else s.setLine p pa { s.lineAt p pa with poison := false } }

/-- The line is poisoned (R363). -/
def State.poisoned (s : State) (p : Fin 64) (pa : Nat) : Bool := (s.lineAt p pa).poison

/-! ### Accesses through the L1 (R205, R207, R208) -/

/-- Lines the L1 holds at most: L1MB MiB of 128-byte lines (R205). -/
def Core.l1Lines (c : Core) : Nat := 8192 * l1mb c.sq.split

/-- The budgets permit the write-back of a line from its owner (R368). -/
def State.backPermits (s : State) (p : Fin 64) (pa : Nat) : Bool :=
  s.homePermits p pa && s.chip.parts[p].permitsHops (s.backHops p pa)

/-- The context to which a write-back of the core in turn is charged: none once its stay is over (R370, R375). -/
def Core.payer (c : Core) : Option (BitVec 8) := if c.fab.stopping || c.retired.isSome then none else some c.cid

/-- The owned lines on their way back are written back to their homes, as the budgets permit; the L1 reads their rows (R187,
R190, R208, R368). -/
def State.writeBack (s : State) (p : Fin 64) : State :=
  s.core.wb.foldl (fun (s : State) e =>
    if s.backPermits p (e.1 * 128) then
      ((s.comeHome p s.core.payer (e.1 * 128)).onCore (·.dropLine e.1)).l1Rows s.core.cid
    else s.onCore fun c => { c with refused := true }) s

/-- Install a line in the L1 of the core in turn; the oldest line makes room, an owned one written back (R205, R220). -/
def State.install (s : State) (p : Fin 64) (ln : Nat) (l : L1Line) : State :=
  let s := s.onCore fun c => c.dropLine ln
  let s := if s.core.l1.length < s.core.l1Lines then s
    else match s.core.l1 with
      | [] => s
      | e :: _ => if e.2.owned then s.recall p (e.1 * 128) else s.onCore (·.dropLine e.1)
  if s.core.l1Lines = 0 then s else (s.onCore fun c => { c with l1 := c.l1 ++ [(ln, l)] }).l1Rows s.core.cid

/-- Replace a line the L1 of the core in turn holds. -/
def State.setL1 (s : State) (ln : Nat) (l : L1Line) : State :=
  s.onCore fun c => { c with l1 := c.l1.map fun e => if e.1 == ln then (ln, l) else e }

/-- n bytes of a line at address pa. -/
def L1Line.rd (l : L1Line) (pa n : Nat) : List Byte := leBytes (l.data.toNat / 2 ^ (8 * (pa % 128))) n

/-- The line with bytes stored at address pa. -/
def L1Line.wr (l : L1Line) (pa : Nat) (bs : List Byte) : L1Line :=
  let o := pa % 128
  let all := leBytes l.data.toNat 128
  { l with data := .ofNat 1024 (leNat (all.take o ++ bs ++ all.drop (o + bs.length))) }

/-- A load through the L1 (R207): performed at the L1 on an owned line, or on a shared copy whose RTS the PTS has not
passed; else at the home, which fills the L1. -/
def State.l1Load (s : State) (p : Fin 64) (pa n : Nat) (pts : Word) (lease : Nat) : Got :=
  let ln := pa / 128
  let s := s.event 5 1
  let miss := fun (s : State) =>
    let g := (s.event 21 1).homeLoad p pa n pts lease
    let x := g.st.lineAt p pa
    { g with st := g.st.install p ln ⟨false, .ofNat 1024 (leNat (g.st.rdPhys p (ln * 128) 128)), x.wts, x.rts⟩ }
  match s.core.l1.find? (·.1 == ln) with
  | none => miss s
  | some (_, l) =>
    if l.owned then ⟨l.rd pa n, maxW pts l.wts, s.setL1 ln { l with rts := maxW l.rts (pts + .ofNat 64 lease) }⟩
    else if pts.toNat ≤ l.rts.toNat then ⟨l.rd pa n, maxW pts l.wts, s⟩
    else miss (s.onCore (·.dropLine ln))

/-- A store through the L1 (R208): it first obtains ownership, whose grant marks the page (R364), and is performed in
the storing L1. -/
def State.l1Store (s : State) (p : Fin 64) (pa : Nat) (bs : List Byte) (pts : Word) : Got :=
  let ln := pa / 128
  let s := s.event 5 1
  let s := match s.core.owned ln with
    | some _ => s
    | none =>
      let s := ((s.event 21 1).recall p pa).dirtyMark p pa
      let x := s.lineAt p pa
      let s := s.setLine p pa { x with owner := some s.core.cid }
      s.install p ln ⟨true, .ofNat 1024 (leNat (s.rdPhys p (ln * 128) 128)), x.wts, x.rts⟩
  match s.core.l1.find? (·.1 == ln) with
  | none => s.homeStore p pa bs pts
  | some (_, l) =>
    let t := storeTime pts l.rts
    ⟨[], t, s.setL1 ln { (l.wr pa bs) with wts := t, rts := t }⟩

/-- Every shared line of the core in turn is dropped, and every owned one is on its way back (R214, R314). -/
def State.emptyL1 (s : State) (p : Fin 64) : State :=
  (s.onCore fun c => { c with
    l1 := []
    wb := c.wb ++ c.l1.filter (·.2.owned) }).writeBack p

/-- The owned line that makes room for another in a full L1 (R205). -/
def Core.victim (c : Core) (ln : Nat) : Option Nat :=
  let l := c.l1.filter (·.1 != ln)
  if l.length < c.l1Lines then none
  else match l with
    | e :: _ => if e.2.owned then some (128 * e.1) else none
    | [] => none

/-! ### Versions (R311, R312) -/

/-- The byte a task sees: its own version's, or the committed one (R311). -/
def overlay (v : Sparse (Option Byte)) (pa : Nat) : List Byte → List Byte
  | [] => []
  | b :: r => (look none pa v).getD b :: overlay v (pa + 1) r

/-- Bytes stored into a version. -/
def verStore (v : Sparse (Option Byte)) (pa : Nat) : List Byte → Sparse (Option Byte)
  | [] => v
  | b :: r => verStore (put none pa (some b) v) (pa + 1) r

/-- The lines of a version, ascending, each once. -/
def verLines (v : Sparse (Option Byte)) : List Nat := (v.map fun e => e.1 / 128).eraseDups

/-- Versioned lines homed at die d, of every task (R312). -/
def State.verCount (s : State) (d : Fin 4) : Nat :=
  (s.chip.tasks.map fun t => (verLines t.version).countP fun ln => s.chip.parts[t.part].homeDie (ln * 128) == d).sum

/-- A store to a versioned page of task t (R311); none where its die's space is full (R312). -/
def State.versionStore (s : State) (t : Nat) (p : Fin 64) (pa : Nat) (bs : List Byte) : Option State :=
  match s.chip.tasks[t]? with
  | none => some s
  | some k =>
    if (verLines k.version).contains (pa / 128) || decide (s.verCount (s.chip.parts[p].homeDie pa) < 262144) then
      some (s.onTask t fun k => { k with version := verStore k.version pa bs })
    else none

/-- A load from a versioned page of task t, performed at the home (R311). -/
def State.versionLoad (s : State) (t : Nat) (p : Fin 64) (pa n : Nat) (pts : Word) (lease : Nat) : Got :=
  let g := s.homeLoad p pa n pts lease
  match s.chip.tasks[t]? with
  | none => g
  | some k => { g with bytes := overlay k.version pa g.bytes }

end Sys2Proof.Machine
end

