-- ==== Sys2Proof/Machine/Formats.lean ====
section
/-! DEFINITION. Number formats and exact arithmetic (06_number_formats): every lane is read as an exact value, computed
exactly, and rounded once. -/

namespace Sys2Proof.Machine

/-! ### Exact values -/

/-- What a lane denotes: a NaN (as a quieted fp32 pattern), an infinity, or a finite number ± n / d (R126, R131). -/
inductive RVal
  | nan (bits : Nat)
  | inf (neg : Bool)
  | fin (neg : Bool) (n d : Nat)
deriving DecidableEq, Repr

/-- The default NaN (R128). -/
def RVal.defNan : RVal := .nan 0x7FC00000

def RVal.zero : RVal := .fin false 0 1

/-- Rounding modes of a conversion (R134). -/
inductive Mode | nearest | towardZero
deriving DecidableEq, Repr

/-- Events of a conversion (R136). -/
inductive Ev | none | nan | sat | ovf | unf
deriving DecidableEq, Repr

/-- n / d rounded to an integer: to nearest, ties to even, or toward zero. -/
def roundQ (m : Mode) (n d : Nat) : Nat :=
  let q := n / d
  let r := 2 * (n % d)
  match m with
  | .towardZero => q
  | .nearest => if r > d || (r == d && q % 2 == 1) then q + 1 else q

/-- n1/d1 against n2/d2. -/
def qLt (n1 d1 n2 d2 : Nat) : Bool := decide (n1 * d2 < n2 * d1)
def qLe (n1 d1 n2 d2 : Nat) : Bool := decide (n1 * d2 ≤ n2 * d1)

/-- Floor(log2(n / d)) for n, d > 0. -/
def log2Q (n d : Nat) : Int :=
  let e : Int := (Nat.log2 n : Int) - Nat.log2 d
  let lt := if e ≥ 0 then decide (n < d * 2 ^ e.toNat) else decide (n * 2 ^ (-e).toNat < d)
  if lt then e - 1 else e

/-- n / d times 2^k, as a fraction. -/
def scaleQ (n d : Nat) (k : Int) : Nat × Nat := if k ≥ 0 then (n * 2 ^ k.toNat, d) else (n, d * 2 ^ (-k).toNat)

/-! ### fp32 (p = 24) and bf16 (p = 8) (R126, R127) -/

/-- The value of a pattern with p significant bits. -/
def decFp (p bits : Nat) : RVal :=
  let neg := bitAt bits (p + 7)
  let e := fld bits (p - 1) 8
  let f := fld bits 0 (p - 1)
  if e = 255 then
    if f = 0 then .inf neg else .nan ((bits ||| 2 ^ (p - 2)) * 2 ^ (24 - p))
  else if e = 0 then .fin neg f (2 ^ (125 + p))
  else .fin neg ((2 ^ (p - 1) + f) * 2 ^ e) (2 ^ (126 + p))

/-- The sign bit. -/
def signBit (p : Nat) (neg : Bool) : Nat := if neg then 2 ^ (p + 7) else 0

/-- A value rounded once (R127, R134), with the event of R136. -/
def encFp (p : Nat) (m : Mode) : RVal → Nat × Ev
  | .nan b => (b / 2 ^ (24 - p) ||| 2 ^ (p - 2), .nan)
  | .inf neg => (signBit p neg + 255 * 2 ^ (p - 1), .none)
  | .fin neg n d =>
    if n = 0 then (signBit p neg, .none)
    else
      let e := log2Q n d
      let e' : Int := if e < -126 then -126 else e
      let s := scaleQ n d ((p : Int) - 1 - e')
      let k := roundQ m s.1 s.2
      let b := (e' + 126).toNat * 2 ^ (p - 1) + k
      match m with
      | .nearest =>
        if 255 * 2 ^ (p - 1) ≤ b then (signBit p neg + 255 * 2 ^ (p - 1), .ovf)
        else (signBit p neg + b, if k = 0 then .unf else .none)
      | .towardZero =>
        -- the largest finite value: every greater source gives it, and counts (R136)
        let top := 255 * 2 ^ (p - 1) - 1
        if top < b || (b = top && decide (k * s.2 < s.1)) then (signBit p neg + top, .ovf)
        else (signBit p neg + b, if k = 0 then .unf else .none)

/-! ### dk8 (R131–R133) -/

/-- Leading zeros of p as a 7-bit field, for p ≠ 0. -/
def dkZ (p : Nat) : Nat := 6 - Nat.log2 p

/-- M(p) (R131). -/
def dkM (p : Nat) : Nat :=
  let m := Nat.log2 p
  64 + 9 * (p - 2 ^ m) * 2 ^ (6 - m)

/-- 10^k, as a fraction. -/
def pow10 (k : Int) : Nat × Nat := if k ≥ 0 then (10 ^ k.toNat, 1) else (1, 10 ^ (-k).toNat)

/-- |Value(0, p)| at bias B (R131). -/
def dkMag (p : Nat) (B : Int) : Nat × Nat :=
  if p = 0 then (0, 1)
  else
    let t := pow10 (B - dkZ p)
    (dkM p * t.1, 64 * t.2)

def decDk8 (B : Int) (bits : Nat) : RVal :=
  let p := fld bits 0 7
  let s := bitAt bits 7
  if p = 0 then (if s then .defNan else .zero)
  else
    let v := dkMag p B
    .fin s v.1 v.2

/-- The largest p in lo .. lo + 2^k − 1 with |Value(0, p)| ≤ n / d, where lo already has it. -/
def dkFloor (B : Int) (n d : Nat) : Nat → Nat → Nat
  | 0, lo => lo
  | k + 1, lo =>
    let v := dkMag (lo + 2 ^ k) B
    dkFloor B n d k (if qLe v.1 v.2 n d then lo + 2 ^ k else lo)

/-- ToDk8 (R132). -/
def encDk8 (B : Int) (m : Mode) : RVal → Nat × Ev
  | .nan _ => (0x80, .nan)
  | .inf neg => ((if neg then 128 else 0) + 127, .sat)
  | .fin neg n d =>
    let lo := dkFloor B n d 7 0
    let top := dkMag 127 B
    let p := match m with
      | .towardZero => lo
      | .nearest =>
        if lo = 127 then 127
        else
          -- twice the value against the sum of the two neighbours
          let a := dkMag lo B
          let b := dkMag (lo + 1) B
          let sn := a.1 * b.2 + b.1 * a.2
          let sd := a.2 * b.2
          if qLt (2 * n) d sn sd then lo
          else if qLt sn sd (2 * n) d then lo + 1
          else if lo % 2 = 0 then lo else lo + 1
    if p = 0 then (0, if n = 0 then .none else .unf)
    else ((if neg then 128 else 0) + p, if qLt top.1 top.2 n d then .sat else .none)

/-! ### Integers (R125) -/

/-- An integer as an exact value. -/
def ofInt (x : Int) : RVal := .fin (decide (x < 0)) x.natAbs 1

/-- A value converted to a W-bit integer: clamped; NaN gives 0 (R134). -/
def encInt (W : Nat) (u : Bool) (m : Mode) : RVal → Nat × Ev
  | .nan _ => (0, .nan)
  | .inf neg => (fitN (if neg then minOf W u else maxOf W u) W u false, .sat)
  | .fin neg n d =>
    let k : Int := roundQ m n d
    let x := if neg then -k else k
    if x < minOf W u || maxOf W u < x then (fitN x W u true, .sat)
    else (fitN x W u false, if x = 0 && n ≠ 0 then .unf else .none)

/-! ### Formats by code (R118, R124) -/

/-- Bits of a lane. -/
def fmtBits : Nat → Nat
  | 0 | 4 | 8 => 8
  | 1 | 5 | 9 => 16
  | 2 | 6 | 10 => 32
  | 3 | 7 => 64
  | 11 => 2
  | 12 => 4
  | _ => 8

/-- A floating or decade format. -/
def fmtReal (f : Nat) : Bool := f == 8 || f == 9 || f == 10
/-- An unsigned integer format. -/
def fmtUns (f : Nat) : Bool := 4 ≤ f && f ≤ 7

/-- A channel's type: a format and a signed bias (R118). -/
structure Fmt where
  code : Nat
  bias : Int
deriving DecidableEq, Repr

/-- The signed bias of an 8-bit field. -/
def biasOf (b : BitVec 8) : Int := signedN b.toNat 8

/-- The exact value of a lane (R134). -/
def decLane (f : Fmt) (bits : Nat) : RVal :=
  if f.code = 8 then decDk8 f.bias bits
  else if f.code = 9 then decFp 8 bits
  else if f.code = 10 then decFp 24 bits
  else ofInt (valN bits (fmtBits f.code) (fmtUns f.code))

/-- A value rounded once to a lane (R134). -/
def encLane (f : Fmt) (m : Mode) (v : RVal) : Nat × Ev :=
  if f.code = 8 then encDk8 f.bias m v
  else if f.code = 9 then encFp 8 m v
  else if f.code = 10 then encFp 24 m v
  else encInt (fmtBits f.code) (fmtUns f.code) m v

/-- Converted lanes keep their bits where the two types are one. -/
def cvtLane (a b : Fmt) (m : Mode) (bits : Nat) : Nat × Ev := encLane b m (decLane a bits)

/-- Lanes of W bits of a token, lane 0 first (R99). -/
def lanesOf (W : Nat) (d : Row) : List Nat := (List.range (512 / W)).map fun i => fld d.toNat (W * i) W

/-- A token from its lanes. -/
def packNat (W : Nat) : List Nat → Nat
  | [] => 0
  | x :: r => x % 2 ^ W + 2 ^ W * packNat W r

def packLanes (W : Nat) (l : List Nat) : Row := .ofNat 512 (packNat W l)

/-! ### Counts (R136) -/

def satAdd32 (a : Half) (n : Nat) : Half := .ofNat 32 (min (a.toNat + n) (2 ^ 32 - 1))

/-- One converted lane is counted. -/
def Counts.add1 (c : Counts) (e : Ev) : Counts :=
  let c := { c with lanes := satAdd32 c.lanes 1 }
  match e with
  | .none => c
  | .nan => { c with nan := satAdd32 c.nan 1 }
  | .sat => { c with sat := satAdd32 c.sat 1 }
  | .ovf => { c with ovf := satAdd32 c.ovf 1 }
  | .unf => { c with unf := satAdd32 c.unf 1 }

def Counts.addAll (c : Counts) (l : List Ev) : Counts := l.foldl Counts.add1 c

/-- The data of a count token (R136). -/
def Counts.row (c : Counts) : Row := packLanes 32 [c.ovf.toNat, c.unf.toNat, c.nan.toNat, c.sat.toNat, c.lanes.toNat]

/-- A whole token converted from one channel type to another of equal width, with its events (R135). -/
def cvtRow (a b : Fmt) (d : Row) : Row × List Ev :=
  let l := (lanesOf (fmtBits a.code) d).map (cvtLane a b .nearest)
  (packLanes (fmtBits b.code) (l.map (·.1)), l.map (·.2))

/-! ### Exact operations (R127–R130) -/

/-- The first NaN operand, or the operation (R128). -/
def nan2 (a b : RVal) (f : RVal) : RVal :=
  match a, b with
  | .nan x, _ => .nan x
  | _, .nan y => .nan y
  | _, _ => f

/-- a + b, exact (R129). -/
def addR (a b : RVal) : RVal :=
  nan2 a b <| match a, b with
    | .inf x, .inf y => if x == y then .inf x else .defNan
    | .inf x, _ => .inf x
    | _, .inf y => .inf y
    | .fin s n d, .fin t m e =>
      if s == t then .fin s (n * e + m * d) (d * e)
      else if n * e = m * d then .fin false 0 1
      else if m * d < n * e then .fin s (n * e - m * d) (d * e)
      else .fin t (m * d - n * e) (d * e)
    | x, _ => x

def negR : RVal → RVal
  | .nan b => .nan b
  | .inf s => .inf !s
  | .fin s n d => .fin (!s) n d

def isZero : RVal → Bool
  | .fin _ n _ => n == 0
  | _ => false

def isNan : RVal → Bool
  | .nan _ => true
  | _ => false

def negOf : RVal → Bool
  | .nan _ => false
  | .inf s => s
  | .fin s _ _ => s

/-- a × b, exact (R128, R129). -/
def mulR (a b : RVal) : RVal :=
  nan2 a b <| match a, b with
    | .fin s n d, .fin t m e => .fin (s != t) (n * m) (d * e)
    | x, y => if isZero x || isZero y then .defNan else .inf (negOf x != negOf y)

/-- a / b, exact (R130). -/
def divR (a b : RVal) : RVal :=
  nan2 a b <| match a, b with
    | .inf _, .inf _ => .defNan
    | .inf s, .fin t _ _ => .inf (s != t)
    | .fin s _ _, .inf t => .fin (s != t) 0 1
    | .fin s n d, .fin t m e =>
      if m = 0 then (if n = 0 then .defNan else .inf (s != t)) else .fin (s != t) (n * e) (d * m)
    | x, _ => x

/-- a < b for numbers; −0 < +0 when `zeros` asks for it (R129). -/
def ltR (zeros : Bool) (a b : RVal) : Bool :=
  match a, b with
  | .inf s, .inf t => s && !t
  | .inf s, .fin .. => s
  | .fin .., .inf t => !t
  | .fin s n d, .fin t m e =>
    if n = 0 && m = 0 then zeros && s && !t
    else if s != t then s
    else if s then qLt m e n d else qLt n d m e
  | _, _ => false

/-- max and min: NaN by R128, +0 above −0 (R129). -/
def maxR (a b : RVal) : RVal := nan2 a b (if ltR true a b then b else a)
def minR (a b : RVal) : RVal := nan2 a b (if ltR true b a then b else a)

/-! ### exp2, log2, rsqrt: values to many bits beyond any rounding (R130) -/

/-- Floor of the square root, bit by bit. -/
def sqrtBits (x : Nat) : Nat → Nat → Nat
  | 0, r => r
  | k + 1, r => sqrtBits x k (if (r + 2 ^ k) * (r + 2 ^ k) ≤ x then r + 2 ^ k else r)

def isqrt (x : Nat) : Nat := sqrtBits x (Nat.log2 x / 2 + 1) 0

/-- Fraction bits of the evaluations of exp2 and of the roots. -/
def fracBits : Nat := 192

/-- ln 2 × 2^192, truncated. -/
def ln2Fix : Nat := 4350955369971217654477563090224794165364344896676135745069

/-- Σ t^k / k! in fixed point, from the k-th term on. -/
def expTerms (t : Nat) : Nat → Nat → Nat → Nat
  | 0, _, _ => 0
  | fuel + 1, k, term => term + expTerms t fuel (k + 1) (term * t / 2 ^ fracBits / (k + 1))

/-- exp2 (R130): exact at integers; elsewhere the value to 2^-180 of itself. -/
def exp2R : RVal → RVal
  | .nan b => .nan b
  | .inf s => if s then .fin false 0 1 else .inf false
  | .fin s n d =>
    -- |x| above 2^10 lies beyond every finite result or below every nonzero one
    if qLt 1024 1 n d then (if s then .fin false 1 (2 ^ 1000) else .fin false (2 ^ 1000) 1)
    else
      let up := if s then (n + d - 1) / d else n / d
      let fr := if s then up * d - n else n % d
      let m := if fr = 0 then 2 ^ fracBits else expTerms (fr * ln2Fix / d) 60 0 (2 ^ fracBits) + (if fr = 0 then 0 else 1)
      let q := scaleQ m (2 ^ fracBits) (if s then -(up : Int) else up)
      .fin false q.1 q.2

/-- k bits of log2 of y in [1, 2), y in fixed point with P bits. -/
def log2Bits (P : Nat) : Nat → Nat → Nat → Nat
  | 0, _, acc => acc
  | k + 1, y, acc =>
    let z := y * y / 2 ^ P
    if 2 ^ (P + 1) ≤ z then log2Bits P k (z / 2) (2 * acc + 1) else log2Bits P k z (2 * acc)

/-- log2 (R130): exact at powers of two; elsewhere the value to 2^-128. -/
def log2R : RVal → RVal
  | .nan b => .nan b
  | .inf s => if s then .defNan else .inf false
  | .fin s n d =>
    if n = 0 then .inf true
    else if s then .defNan
    else
      let e := log2Q n d
      let q := scaleQ n d (-e)
      if q.1 = q.2 then ofInt e
      else
        let f : Int := 2 * log2Bits 448 128 (q.1 * 2 ^ 448 / q.2) 0 + 1
        let v := e * 2 ^ 129 + f
        .fin (decide (v < 0)) v.natAbs (2 ^ 129)

/-- 1/x (R130). -/
def recipR : RVal → RVal
  | .nan b => .nan b
  | .inf s => .fin s 0 1
  | .fin s n d => if n = 0 then .inf s else .fin s d n

/-- 1/√x (R130): exact where the root is; elsewhere the value to 2^-192. -/
def rsqrtR : RVal → RVal
  | .nan b => .nan b
  | .inf s => if s then .defNan else .fin false 0 1
  | .fin s n d =>
    if n = 0 then .inf s
    else if s then .defNan
    else
      -- √(d/n) = √(d·n) / n
      let x := d * n * 2 ^ (2 * fracBits)
      let r := isqrt x
      if r * r = x then .fin false r (n * 2 ^ fracBits) else .fin false (2 * r + 1) (2 * n * 2 ^ fracBits)

/-- An fp32 operation on patterns: exact, then rounded once (R127). -/
def fp32 (v : RVal) : Nat := (encFp 24 .nearest v).1

/-- The exact value of an fp32 pattern. -/
def fp32Val (bits : Nat) : RVal := decFp 24 bits

end Sys2Proof.Machine
end

