-- ==== Sys2Proof/Machine/Mica.lean ====
section
/-! DEFINITION. Mica words (11_mica_memory): estimates, the update rule, the draw, and the region table. -/

namespace Sys2Proof.Machine

/-! ### Estimates (R227) -/

/-- Fraction bits of the powers of the base. -/
def micaBits : Nat := 256

/-- 2^(2^−s) in fixed point (R224). -/
def micaBase : Nat → Nat
  | 0 => 2 * 2 ^ micaBits
  | s + 1 => isqrt (micaBase s * 2 ^ micaBits)

/-- b^j for j below 2^s, in fixed point. -/
def micaPow (s : Nat) : Nat → Nat
  | 0 => 2 ^ micaBits
  | j + 1 => micaPow s j * micaBase s / 2 ^ micaBits

/-- The powers b^0 .. b^(2^s − 1). -/
def micaPows (s : Nat) : List Nat := (List.range (2 ^ s)).map (micaPow s)

/-- (b^l − 1) / (b − 1) = Σ b^k for k below l, in fixed point: b^(k + 2^s) = 2 b^k. -/
def micaSum (ps : List Nat) (s l : Nat) : Nat :=
  ((List.range l).map fun k => ps.getD (k % 2 ^ s) 0 * 2 ^ (k / 2 ^ s)).sum

/-- A value of at least 1 in fixed point, rounded once to fp32; the result counts units of 2^−23. -/
def roundSum (x : Nat) : Nat :=
  if x = 0 then 0
  else
    let k := Nat.log2 x - 23
    roundQ .nearest x (2 ^ k) * 2 ^ k / 2 ^ (micaBits - 23)

/-- Est of every level up to the top, in units of 2^−23: every estimate is a whole number of them (R227). -/
def estTable (s top : Nat) : List Nat :=
  let ps := micaPows s
  (List.range (top + 1)).map fun l => roundSum (micaSum ps s l)

/-- Est(l) in units of 2^−23. -/
def estFix (s l : Nat) : Nat := roundSum (micaSum (micaPows s) s l)

/-- The fp32 pattern of Est(l). -/
def estBits (s l : Nat) : Nat := fp32 (.fin false (estFix s l) (2 ^ 23))

/-! ### The draw (R229) -/

/-- Draw(k) (R229). -/
def draw (mseed k : Half) : Nat :=
  let h := mseed ^^^ k
  let h := h ^^^ (h >>> 15)
  let h := h * 0x2C1B3C6D
  let h := h ^^^ (h >>> 12)
  let h := h * 0x297A2D39
  let h := h ^^^ (h >>> 15)
  (h >>> 8).toNat

/-- k of a draw: the word's address, the node's sequence number and the node (R229). -/
def drawKey (A : Nat) (seq : Nat) (node : Nat) : Half :=
  .ofNat 32 (A / 4) ^^^ .ofNat 32 (2 ^ 16 * (seq % 2 ^ 16)) ^^^ .ofNat 32 node

/-! ### The update rule (R228) -/

/-- The level lo with Est(lo) ≤ t < Est(lo + 1), from the table. -/
def levelBelow (t : Nat) : List Nat → Nat → Nat
  | _ :: b :: r, l => if t < b then l else levelBelow t (b :: r) (l + 1)
  | _, l => l

/-- The threshold T of a rise (R228). -/
def riseT (num den : Nat) : Nat :=
  match fp32Val (fp32 (.fin false num den)) with
  | .fin _ n d => 2 ^ 24 * n / d
  | _ => 0

/-- Update(l, add, k): the new level, and whether SAT was set; `add` in units of 2^−23 (R228). -/
def micaUpdate (s top l add : Nat) (u : Nat) : Nat × Bool :=
  let tab := estTable s top
  let t := tab.getD l 0 + add
  let last := tab.getD top 0
  if add = 0 then (l, false)
  else if last ≤ t then (top, decide (last < t))
  else
    let lo := levelBelow t tab 0
    let a := tab.getD lo 0
    if u < riseT (t - a) (tab.getD (lo + 1) 0 - a) then (lo + 1, false) else (lo, false)

/-! ### Words of levels (R225) -/

/-- Level j of a word of w-bit levels. -/
def levelOf (w word j : Nat) : Nat := fld word (w * j) w
/-- The word with level j replaced. -/
def setLevel (w word j v : Nat) : Nat := setFld word (w * j) w v

/-! ### Regions (R224) -/

/-- w of a region's WID (R224). -/
def Region.width (r : Region) : Nat := 2 * 2 ^ r.wid.toNat
/-- The top level. -/
def Region.top (r : Region) : Nat := 2 ^ r.width - 1

/-- A valid entry of this kind covers the word at A. -/
def Region.covers (r : Region) (l : Bool) (A : Nat) : Bool :=
  r.v && r.l == l && inSpan A r.base.toNat r.size.toNat

/-- The entry that covers a word (R232). -/
def Local.regionOf (l : Local) (loc : Bool) (A : Nat) : Option (Fin 8) :=
  (List.finRange 8).find? fun k => l.regions[k].covers loc A

/-- Set SAT of an entry (R224, R228). -/
def Local.setSat (l : Local) (k : Fin 8) : Local :=
  { l with regions := l.regions.set k { l.regions[k] with sat := true } }

/-- An entry from its 128 bits (R224). -/
def Region.ofNat (n : Nat) : Region where
  base := .ofNat 48 n
  size := .ofNat 32 (n / 2 ^ 64)
  v := bitAt n 96
  l := bitAt n 97
  wid := .ofNat 2 (n / 2 ^ 98)
  s := .ofNat 2 (n / 2 ^ 100)
  sat := bitAt n 102
  ts := bitAt n 103

/-- The 128 bits of an entry (R224). -/
def Region.word (r : Region) : Quad :=
  .ofNat 128 (r.base.toNat + 2 ^ 64 * r.size.toNat + 2 ^ 96 * bit r.v + 2 ^ 97 * bit r.l + 2 ^ 98 * r.wid.toNat
    + 2 ^ 100 * r.s.toNat + 2 ^ 102 * bit r.sat + 2 ^ 103 * bit r.ts)

/-- Two entries of one kind share a byte. -/
def Region.overlaps (a b : Region) : Bool :=
  a.l == b.l && decide (a.base.toNat < b.base.toNat + b.size.toNat) && decide (b.base.toNat < a.base.toNat + a.size.toNat)

/-- The checks of MCFG on a descriptor with V = 1 (R231). -/
def regionBad (l : Local) (k : Fin 8) (n : Nat) : Bool :=
  let d := Region.ofNat n
  decide (d.base.toNat % 64 ≠ 0) || d.size == 0 || decide (d.size.toNat % 64 ≠ 0) || d.wid == 3
    || (d.wid == 2 && decide (d.s.toNat < 2)) || d.sat || fld n 48 16 != 0 || fld n 104 24 != 0
    || decide ((if d.l then 2 ^ 24 else 2 ^ 48) < d.base.toNat + d.size.toNat)
    || (List.finRange 8).any fun i => i != k && l.regions[i].v && l.regions[i].overlaps d

/-- What an update of level j of a word gives: the new word, the old level, and SAT. -/
structure MicaRes where
  word : Nat
  old  : Nat
  sat  : Bool
deriving DecidableEq, Repr

/-- An update of level j of a word in region r (R228): x is a weight, or a level to merge. -/
def micaApply (r : Region) (word j x : Nat) (byLevel : Bool) (u : Nat) : MicaRes :=
  let l := levelOf r.width word j
  let add := if byLevel then estFix r.s.toNat x else 2 ^ 23 * x
  let n := micaUpdate r.s.toNat r.top l add u
  ⟨setLevel r.width word j n.1, l, n.2⟩

end Sys2Proof.Machine
end

