-- ==== Sys2Proof/Machine/Fabric.lean ====
section
/-! DEFINITION. The fabric (05_fabric_and_dataflow): configuration words (R140), places and transit (R97), what feeds an
input and what an output feeds (R100, R101, R108), the FIFOs (R103), channel types and inserted conversions (R135,
R137), edge ports, and the end condition (R113, R114). -/

namespace Sys2Proof.Machine

/-! ### The configuration word (R140) -/

namespace Cell

/-- The configuration word; 0 where no record names the cell. -/
def word (c : Cell) : Nat := match c.conf with
  | some w => w.toNat
  | Option.none => 0

def op (c : Cell) : Nat := fld c.word 0 8
def type (c : Cell) : Nat := fld c.word 8 4
def dtype (c : Cell) : Nat := fld c.word 12 4
def sel (c : Cell) (j : Nat) : Nat := fld c.word (16 + 6 * j) 6
def cons (c : Cell) (j : Nat) : Nat := fld c.word (34 + 3 * j) 3
def prod (c : Cell) (k : Nat) : Nat := fld c.word (43 + 3 * k) 3
def guarded (c : Cell) : Bool := bitAt c.word 49
def rm (c : Cell) : Bool := bitAt c.word 50
def rq (c : Cell) : Fin 8 := Fin.ofNat 8 (fld c.word 51 3)
def st (c : Cell) : Bool := bitAt c.word 54
def satMode (c : Cell) : Bool := bitAt c.word 55
def ot (c : Cell) : Bool := bitAt c.word 56
def tz (c : Cell) : Bool := bitAt c.word 57
def hmode (c : Cell) : Bool := bitAt c.word 58
def hidx (c : Cell) : Fin 32 := Fin.ofNat 32 (fld c.word 59 5)
def obias (c : Cell) : BitVec 8 := .ofNat 8 (fld c.word 64 8)
def aux (c : Cell) : Nat := fld c.word 72 8

/-- The rotation the cell is a member of. -/
def member (c : Cell) : Option (Fin 8) := if c.rm then some c.rq else Option.none

/-- The predicate operations, whose results are in the n format of the operand width (R152, R154). -/
def isPred (c : Cell) : Bool := inSpan c.op 0x1F 4 || c.op == 0x4D || c.op == 0x4E
/-- LDX, LDV, LDS. -/
def isLoad (c : Cell) : Bool := inSpan c.op 0xA0 3
/-- STX, STV, STS. -/
def isStore (c : Cell) : Bool := inSpan c.op 0xA4 3
/-- MADD, MEST, MLVL. -/
def isMica (c : Cell) : Bool := inSpan c.op 0xA8 3
/-- A memory-port cell (R188). -/
def isPort (c : Cell) : Bool := c.isLoad || c.isStore || c.isMica
/-- RSUM, RMAX, RMIN. -/
def isRed (c : Cell) : Bool := inSpan c.op 0x88 3
/-- BCAST, SHUF, ZIP, UNZIP, SLIDE. -/
def isShuf (c : Cell) : Bool := inSpan c.op 0x80 5
def isSteer (c : Cell) : Bool := c.op == 0x03
def isMerge (c : Cell) : Bool := c.op == 0x04

/-- The latency L of the operation (R148). -/
def lat (c : Cell) : Nat :=
  let o := c.op
  if o = 0x05 then c.aux % 4 + 1
  else if o = 0x12 || o = 0x13 || o = 0x1D || o = 0x1E || inSpan o 0x44 4 || o = 0x4D || o = 0x4E || o = 0x62
      || inSpan o 0x70 3 then 2
  else if inSpan o 0x40 4 || o = 0x60 || o = 0x61 then 3
  else if c.isRed then (if c.type = 9 || c.type = 10 then 4 else 3)
  else if inSpan o 0x48 5 || c.isLoad || c.isMica then 4
  else 1

/-- The issue interval: 2 for FDIV and FRSQ (R148). -/
def interval (c : Cell) : Nat := if c.op = 0x4B || c.op = 0x4C then 2 else 1

/-- The arc of an extra path of a MERGE, named by the constant: path 2 is input 4, path 3 input 5 (R109). -/
def extraArc (c : Cell) (j : Nat) : Option (Fin 256) :=
  let lo := 8 * (j - 4)
  if c.isMerge && bitAt c.const.toNat (lo + 7) then some (Fin.ofNat 256 (fld c.const.toNat lo 7)) else Option.none

end Cell

/-! ### Places (R96, R97) -/

/-- Row and column of a node code. -/
def placeOf (n : Nat) : Int × Int :=
  if n < 32 then (n / 8, n % 8)
  else if n < 36 then (n - 32, -1)
  else if n < 40 then (n - 36, 8)
  else if n < 44 then (-1, 2 * (n - 40))
  else (4, 2 * (n - 44) + 1)

/-- T = 1 + |Δrow| + |Δcolumn| (R97). -/
def transitOf (a b : Nat) : Nat :=
  1 + ((placeOf a).1 - (placeOf b).1).natAbs + ((placeOf a).2 - (placeOf b).2).natAbs

/-- The cell a selector code 2–5 reads: nbn, nbs, nbe, nbw (R96, R101). -/
def neighbour (n : Nat) (code : Nat) : Option (Fin 32) :=
  let r := n / 8
  let c := n % 8
  match code with
  | 2 => if 1 ≤ r then some (Fin.ofNat 32 (n - 8)) else none
  | 3 => if r < 3 then some (Fin.ofNat 32 (n + 8)) else none
  | 4 => if c < 7 then some (Fin.ofNat 32 (n + 1)) else none
  | 5 => if 1 ≤ c then some (Fin.ofNat 32 (n - 1)) else none
  | _ => none

/-- The cell that reads cell n with a selector code. -/
def readerOf (n : Nat) (code : Nat) : Option (Fin 32) :=
  neighbour n (match code with
    | 2 => 3
    | 3 => 2
    | 4 => 5
    | 5 => 4
    | _ => 0)

/-! ### Topology (R100, R101, R108) -/

/-- The index of the link that input j of cell n reads. -/
def linkIdx (n : Fin 32) (j : Nat) : Fin 256 := Fin.ofNat 256 (128 + 4 * n.val + j)

/-- The ends of a channel. -/
structure Ends where
  src  : Nat
  srco : Nat
  dst  : Nat
  /-- input 0–2, 3 guard, 4 and 5 the extra inputs -/
  dsti : Nat
deriving DecidableEq, Repr

namespace Fabric

/-- Producer and consumer of an arc or link. -/
def ends (f : Fabric) (a : Fin 256) : Option Ends :=
  if a.val < 128 then
    match f.arcs[a].cfg with
    | some g => some ⟨g.src.val, bit g.srco, g.dst.val, if g.xin then 4 + g.dsti.val else g.dsti.val⟩
    | none => none
  else
    let n : Fin 32 := Fin.ofNat 32 ((a.val - 128) / 4)
    let j := (a.val - 128) % 4
    match if j < 3 then neighbour n.val (f.cells[n].sel j) else none with
    | some m => some ⟨m.val, 0, n.val, j⟩
    | none => none

/-- Arcs 0–127 that a record configures. -/
def live (f : Fabric) : List (Fin 256) := (List.finRange 256).filter fun a => a.val < 128 && f.arcs[a].cfg.isSome

/-- The channel that feeds input j of cell n: 0–2 by the selector, 3 the guard, 4 and 5 the extra paths. -/
def feeding (f : Fabric) (n : Fin 32) (j : Nat) : Option (Fin 256) :=
  let c := f.cells[n]
  let arc := f.live.find? fun a => match f.ends a with
    | some e => e.dst == n.val && e.dsti == j
    | none => false
  if j < 3 then
    if c.sel j = 1 then arc else if inSpan (c.sel j) 2 4 then some (linkIdx n j) else none
  else if j = 3 then (if c.guarded then arc else none)
  else c.extraArc j

/-- The used arc and link inputs of a cell, ascending. -/
def inputs (f : Fabric) (n : Fin 32) : List (Nat × Fin 256) :=
  (List.range 6).filterMap fun j => (f.feeding n j).map fun a => (j, a)

/-- The data targets of an output: arcs ascending, then for o0 the links by the reading selector (R108), those of one
selector by input number (log entry 21). -/
def targets (f : Fabric) (n : Nat) (o : Nat) : List (Fin 256) :=
  (f.live.filter fun a => match f.arcs[a].cfg with
    | some g => g.src.val == n && bit g.srco == o && !g.sx
    | none => false) ++
  (if o = 0 && n < 32 then
    [2, 3, 4, 5].flatMap fun code => match readerOf n code with
      | some m => ((List.range 3).filter fun j => f.cells[m].sel j == code).map (linkIdx m)
      | none => []
  else [])

/-- Statistics arcs of a node (R137). -/
def statArcs (f : Fabric) (n : Nat) : List (Fin 256) :=
  f.live.filter fun a => match f.arcs[a].cfg with
    | some g => g.sx && g.src.val == n
    | none => false

/-- The arc that reaches an edge port. -/
def intoPort (f : Fabric) (p : Fin 16) : Option (Fin 256) :=
  f.live.find? fun a => match f.arcs[a].cfg with
    | some g => g.dst.val == 32 + p.val
    | none => false

/-- The data arcs that leave an edge port. -/
def fromPort (f : Fabric) (p : Fin 16) : List (Fin 256) := f.targets (32 + p.val) 0

/-- Depth of a channel; a link has 2 (R101). -/
def depth (f : Fabric) (a : Fin 256) : Nat := match f.arcs[a].cfg with
  | some g => g.depth
  | none => 2

/-- Transit of a channel; a link has 1 (R101). -/
def transit (f : Fabric) (a : Fin 256) : Nat := match f.arcs[a].cfg with
  | some g => transitOf g.src.val g.dst.val
  | none => 1

/-- The rotation whose loop a channel belongs to: both its ends are members (R166, R169). -/
def loopOf (f : Fabric) (a : Fin 256) : Option (Fin 8) := match f.ends a with
  | some e =>
    if e.src < 32 && e.dst < 32 then
      match f.cells[Fin.ofNat 32 e.src].member, f.cells[Fin.ofNat 32 e.dst].member with
      | some q, some r => if q = r then some q else none
      | _, _ => none
    else none
  | none => none

/-- The D − L entries of the delay line before the tap (R167). -/
def delay (f : Fabric) (a : Fin 256) : Nat := match f.loopOf a, f.ends a with
  | some q, some e => match f.rots[q].cfg with
    | some g => if g.tap.val = e.dst then g.depth - g.lat else 0
    | none => 0
  | _, _ => 0

/-! ### Channel types and conversions (R135) -/

/-- The n format of the width of a format (R152). -/
def nFmt (t : Nat) : Nat :=
  match fmtBits t with
  | 8 => 4
  | 16 => 5
  | 32 => 6
  | _ => 7

/-- The type of output o of a cell (R135): what its own configuration gives; `inp` is the type of each input. The count
tokens of ST are n32 (R149). Routing operations, and the copies that stores push, carry the type of the input they take
their tokens from, which for a MERGE is that of its path, `j` (log entry 20). -/
def outOf (c : Cell) (o j : Nat) (inp : Nat → Option Fmt) : Option Fmt :=
  if c.st && o = 1 then some ⟨6, 0⟩
  else if inSpan c.op 0x01 7 && c.op != 0x02 then inp (if c.isMerge then j else 0)
  else if c.op = 0xA6 then inp 0
  else if c.isStore || c.op = 0xA8 then inp 1
  else if c.isPred then some ⟨nFmt c.type, 0⟩
  else if c.op = 0x61 || c.op = 0xA9 then some ⟨10, 0⟩
  else if c.op = 0xAA || c.op = 0xB0 || c.op = 0xB1 || (c.isRed && o = 1) then some ⟨6, 0⟩
  else if inSpan c.op 0x70 3 then some ⟨c.dtype, if c.dtype = 8 then biasOf c.obias else 0⟩
  else some ⟨c.type, if c.type = 8 then biasOf c.obias else 0⟩

/-- The type of input j's channel; none for a constant or an unused input. A link has the type of its producer's
output, of a MERGE that of its first path with a type, to which the tokens of the others are converted (log entry 20); `fuel` bounds the chain of links. -/
def inType (f : Fabric) : Nat → Fin 32 → Nat → Option Fmt
  | 0, _, _ => none
  | fuel + 1, n, j =>
    match f.feeding n j with
    | none => none
    | some a =>
      match f.arcs[a].cfg with
      | some g => some ⟨g.fmt.toNat, biasOf g.bias⟩
      | none => match f.ends a with
        | none => none
        | some e =>
          let inp := f.inType fuel (Fin.ofNat 32 e.src)
          match outOf f.cells[Fin.ofNat 32 e.src] 0 0 inp with
          | some t => some t
          | none => if f.cells[Fin.ofNat 32 e.src].isMerge then [1, 4, 5].findSome? inp else none

/-- The type of output o of cell n in a firing that takes its tokens from input j (R109, R135). -/
def outType (f : Fabric) (n : Fin 32) (o j : Nat) : Option Fmt := outOf f.cells[n] o j (f.inType 40 n)

/-- The types that output o of cell n can have: of a MERGE one for each path (R109, R135). -/
def outTypes (f : Fabric) (n : Fin 32) (o : Nat) : List Fmt :=
  (if f.cells[n].isMerge then [0, 1, 4, 5] else [0]).filterMap (f.outType n o)

/-- The type of a channel that its producer's tokens may not have: an arc's, by its record, and that of the link of a MERGE,
whose paths may differ. Every other link has its producer's type. -/
def chanType (f : Fabric) (a : Fin 256) : Option Fmt := match f.arcs[a].cfg with
  | some g => some ⟨g.fmt.toNat, biasOf g.bias⟩
  | none => match f.ends a with
    | some e => if e.src < 32 && f.cells[Fin.ofNat 32 e.src].isMerge then f.inType 40 (Fin.ofNat 32 e.dst) e.dsti else none
    | none => none

/-- Formats differ, or are dk8 at different biases. -/
def differs (x y : Fmt) : Bool := x.code != y.code || (x.code == 8 && x.bias != y.bias)

/-- Types that no inserted conversion joins (R135). -/
def unjoinable (a b : Fmt) : Bool :=
  fmtBits a.code != fmtBits b.code || (a.code != b.code && (inSpan a.code 11 3 || inSpan b.code 11 3))

/-- A data token as it enters channel a from a producer of type t: converted where the types differ, and counted where
the record enables statistics (R135, R137). The loader lets no two types meet that no conversion joins, but for those of an
engine, which it does not know (log entry 20). -/
def enter (f : Fabric) (t : Option Fmt) (a : Fin 256) (k : Token) : Fabric × Token :=
  match t, f.chanType a with
  | some x, some y =>
    if k.kind = .data && unjoinable x y then (f, { k with data := Config.misfit x.code y.code k.data })
    else if k.kind = .data && differs x y then
      let r := cvtRow x y k.data
      let arc := f.arcs[a]
      let f := match arc.cfg with
        | some g => if g.stat then { f with arcs := f.arcs.set a { arc with counts := arc.counts.addAll r.2 } } else f
        | none => f
      (f, { k with data := r.1 })
    else (f, k)
  | _, _ => (f, k)

/-! ### FIFOs (R103) -/

/-- Free slots in the producer's free-space counter in cycle `now` (R103). A loop channel of a rotation never lacks
space: its tokens are the slots' (R167, R384). -/
def room (f : Fabric) (a : Fin 256) (now n : Nat) : Bool :=
  (f.loopOf a).isSome ||
    decide (n + f.arcs[a].fifo.length + f.arcs[a].reserved + (f.arcs[a].back.filter (now < ·)).length ≤ f.depth a)

/-- Reserve n slots. -/
def reserve (f : Fabric) (a : Fin 256) (n : Nat) : Fabric :=
  { f with arcs := f.arcs.set a { f.arcs[a] with reserved := f.arcs[a].reserved + n } }

/-- Give n reserved slots back unused. -/
def release (f : Fabric) (a : Fin 256) (n : Nat) : Fabric :=
  { f with arcs := f.arcs.set a { f.arcs[a] with reserved := f.arcs[a].reserved - n } }

/-- A token pushed in cycle p is visible from p + T, and later by the delay line before a tap (R103, R167). -/
def put (f : Fabric) (a : Fin 256) (p : Nat) (k : Token) : Fabric :=
  { f with arcs := f.arcs.set a { f.arcs[a] with fifo := f.arcs[a].fifo ++ [(p + f.transit a + f.delay a, k)] } }

/-- What a consumer sees in cycle `now`. -/
def seen (f : Fabric) (a : Fin 256) (now : Nat) : List Token :=
  (f.arcs[a].fifo.takeWhile fun e => decide (e.1 ≤ now)).map (·.2)

/-- Consume the n oldest tokens in cycle `now`: their slots free at now + T (R103). -/
def pop (f : Fabric) (a : Fin 256) (now n : Nat) : Fabric :=
  let arc := f.arcs[a]
  { f with arcs := f.arcs.set a { arc with
      fifo := arc.fifo.drop n
      back := arc.back.filter (now < ·) ++ List.replicate n (now + f.transit a) } }

/-- Data tokens ahead of the first marker, and whether a marker follows them. -/
def scanOf : List Token → Nat × Bool
  | [] => (0, false)
  | k :: r => match k.kind with
    | .eoi => (0, true)
    | .data => ((scanOf r).1 + 1, (scanOf r).2)

def scan (f : Fabric) (a : Fin 256) (now : Nat) : Nat × Bool := scanOf (f.seen a now)

/-- One more cycle lost on arc a for want of space (R113); links have no counter. -/
def stall (f : Fabric) (a : Fin 256) : Fabric :=
  if a.val < 128 then { f with arcs := f.arcs.set a { f.arcs[a] with stall := f.arcs[a].stall + 1 } } else f

end Fabric

/-! ### Stalls, ports -/

/-- The targets that lack n free slots each count the cycle (R113, R372). -/
def State.stallOn (s : State) (l : List (Fin 256)) : State :=
  l.foldl (fun s a => if a.val < 128 then (s.onFab (·.stall a)).event 17 1 else s) s

/-- One token from an edge port onto every arc that leaves it, or a cycle counted on the arcs that lack space
(R102, R113); answers whether it was pushed. -/
def State.portPush (s : State) (p : Fin 16) (t : Option Fmt) (k : Token) : Bool × State :=
  let l := s.core.fab.fromPort p
  let now := s.chip.now
  let lack := l.filter fun a => !s.core.fab.room a now 1
  if lack.isEmpty then
    (true, s.onFab fun f => l.foldl (fun f a => let r := f.enter t a k; r.1.put a now r.2) f)
  else (false, s.stallOn lack)

/-- A channel with statistics at a counting point that names statistics arc z (R137). -/
def Fabric.countedArcs (f : Fabric) (n : Nat) (z : Fin 256) : List (Fin 256) :=
  f.live.filter fun a => match f.arcs[a].cfg with
    | some g => g.stat && g.src.val == n && g.sarc.val == z.val
    | none => false

/-- The out circuits with statistics at a port that name statistics arc z (R137). -/
def Local.countedCircuits (l : Local) (n : Nat) (z : Fin 256) : List (Fin 16) :=
  (List.finRange 16).filter fun c => match l.circ[c].cfg with
    | some g => g.stat && g.out && 32 + g.port.val == n && g.sarc.val == z.val
    | none => false

/-- The count token of a marker: its sideband is the marker's (R104, R136). -/
def Counts.token (c : Counts) (m : Token) : Token := { m with data := c.row, kind := .data }

/-- The count tokens marker m brings on statistics arc z, arcs first, then circuits (R136, R137). -/
def Core.countTokens (c : Core) (n : Nat) (z : Fin 256) (m : Token) : List Token :=
  ((c.fab.countedArcs n z).map fun a => c.fab.arcs[a].counts.token m) ++
  ((c.loc.countedCircuits n z).map fun k => c.loc.circ[k].counts.token m)

/-- A marker token of an engine or a port. -/
def Token.marker (pts : Word) : Token := ⟨0, 0, .eoi, false, 0, 0, pts⟩

/-- Slots the statistics arcs of a node need for its marker: a count token of each channel, and the marker (R137). -/
def Core.statRoom (c : Core) (n now : Nat) : Bool :=
  (c.fab.statArcs n).all fun z => c.fab.room z now ((c.countTokens n z (.marker 0)).length + 1)

/-- The counts of every channel of a counting point restart (R137). -/
def Core.clearCounts (c : Core) (n : Nat) : Core :=
  { c with
    fab := { c.fab with arcs := (c.fab.statArcs n).foldl (fun v z => (c.fab.countedArcs n z).foldl
      (fun (v : Vector Arc 256) (a : Fin 256) => v.set a { v[a] with counts := .zero }) v) c.fab.arcs }
    loc := { c.loc with circ := (c.fab.statArcs n).foldl (fun v z => (c.loc.countedCircuits n z).foldl
      (fun (v : Vector Circ 16) (k : Fin 16) => v.set k { v[k] with counts := .zero }) v) c.loc.circ } }

/-- The pushes on statistics arcs that a marker passing node n brings (R137). -/
def Core.statPushes (c : Core) (n : Nat) (m : Token) : List Push :=
  (c.fab.statArcs n).flatMap fun z => (c.countTokens n z m ++ [m]).map fun k => ⟨z, k, false⟩

/-- An end-of-invocation marker from an edge port onto its arcs, with the count tokens of its statistics arcs
(R105, R137); answers whether it was pushed. Its arcs that lack space count the cycle as for a token (R113; log entry 19). -/
def State.portMarker (s : State) (p : Fin 16) (k : Token) : Bool × State :=
  let n := 32 + p.val
  let now := s.chip.now
  if s.core.statRoom n now then
    let r := s.portPush p none k
    if r.1 then
      (true, (r.2.onFab fun f => (s.core.statPushes n k).foldl (fun f u => f.put u.arc now u.tok) f).onCore
        (·.clearCounts n))
    else r
  else (false, s)

/-- The oldest token that an edge port can take in this cycle. -/
def State.portHead (s : State) (p : Fin 16) : Option Token :=
  (s.core.fab.intoPort p).bind fun a => (s.core.fab.seen a s.chip.now).head?

/-- An edge port takes the oldest token of its arc; its time joins the token's (R209). -/
def State.portTake (s : State) (p : Fin 16) (k : Token) : State :=
  match s.core.fab.intoPort p with
  | none => s
  | some a => s.onFab fun f =>
    { f.pop a s.chip.now 1 with ports := f.ports.set p { f.ports[p] with pts := maxW f.ports[p].pts k.pts } }

/-! ### Occupancy and the end condition (R113, R114) -/

/-- OCC (R113): tokens on arcs and links, in pipelines (each once, whatever its targets), in exit buffers, and those of
circuits that have arrived in a port's buffer; tokens in transit between cores are none of a core's (R319). -/
def Core.occ (c : Core) (now : Nat) : Nat :=
  (c.fab.arcs.toList.map fun a => a.fifo.length).sum
    + (c.fab.cells.toList.map fun x => (x.pipe.map fun e => (e.2.filter (!·.copy)).length).sum).sum
    + (c.fab.ports.toList.map fun p => p.buf.length).sum
    + (c.loc.circ.toList.map fun x => (x.rx.filter fun e => decide (e.1 ≤ now)).length).sum

/-- A token stands in a circuit of the core, in transit or in its buffer (R319). -/
def Core.circuitTokens (c : Core) : Bool := c.loc.circ.toList.any fun x => !x.rx.isEmpty

/-- A slot that is not empty (R114). -/
def Slot.live (x : Slot) : Bool := x.state != .empty

/-- A command holds an edge port. -/
def Port.isHeld (p : Port) : Bool := match p.bind with
  | .held _ => true
  | _ => false

/-- The fabric end condition (R114); without a configured cell only held ports stand against it. -/
def Core.fabricEnded (c : Core) (now : Nat) : Bool :=
  (c.fab.ports.toList.all fun p => !p.isHeld) &&
    ((c.fab.cells.toList.all fun x => x.conf.isNone) ||
      (c.occ now == 0 && c.fab.rots.toList.all fun r => r.slots.all fun x => !x.live))

/-- The counter block, bytes 0x000–0x40F (R113). -/
def Core.counterBlock (c : Core) (now : Nat) : List Byte :=
  ((List.finRange 128).flatMap fun k => leBytes (c.fab.arcs[k.val]'(by omega)).stall.toNat 8)
    ++ leBytes c.fab.fires.toNat 8 ++ leBytes (c.occ now) 4 ++ leBytes 0 4

/-- The bank-wheel count: CYCLE, and the cycles of a capture beyond it (R168, R188). -/
def Core.wheel (c : Core) : Nat := c.sq.ctr.cycle.toNat + c.fab.spin

/-- The memory-port cells, ascending (R188). -/
def Fabric.portCells (f : Fabric) : List (Fin 32) := (List.finRange 32).filter fun n => f.cells[n].isPort

/-- Cell n holds the bank-wheel cycle (R188). -/
def Core.holdsWheel (c : Core) (n : Fin 32) : Bool :=
  let l := c.fab.portCells
  l[c.wheel % l.length]? == some n

end Sys2Proof.Machine
end

