-- ==== Sys2Proof/Machine/MemPort.lean ====
section
/-! DEFINITION. Memory-port cells: addresses and their checks (R159–R161, R233), sub-accesses (R189), and the accesses
themselves (R175, R191, R209, R233). -/

namespace Sys2Proof.Machine

/-- The constant in every 32-bit lane (R101). -/
def constRow (v : Half) : Row := packLanes 32 (List.replicate 16 v.toNat)

/-- Lane i of 32 bits. -/
def lane32 (d : Row) (i : Nat) : Nat := fld d.toNat (32 * i) 32

/-- One lane of an access: its number, its word's address, and the counter within the word (R159, R233). -/
structure Lane where
  i    : Nat
  addr : Nat
  j    : Nat
deriving DecidableEq, Repr

/-- Affine(n); none for a k that each firing refuses (R160). -/
def affine (const : Half) (aux n : Nat) : Option Nat :=
  let base := fld const.toNat 0 24
  let k := fld const.toNat 24 5
  let a : Int := base + n * (signedN aux 8 * 64)
  if k = 0 then some (a % 2 ^ 24).toNat
  else if k < 6 || 24 < k then none
  else some (base / 2 ^ k * 2 ^ k + (a % 2 ^ k).toNat)

/-- A 64-byte access at one address: LDV, LDS, STV, STS. -/
def Cell.wide (c : Cell) : Bool := c.op == 0xA1 || c.op == 0xA2 || c.op == 0xA5 || c.op == 0xA6
/-- LDS and STS address themselves (R160). -/
def Cell.selfAddressed (c : Cell) : Bool := c.op == 0xA2 || c.op == 0xA6

/-- The slot that a cell with H = 1 addresses: base and size (R161). -/
def Core.slotOf (c : Core) (x : Cell) : Nat × Nat :=
  let h := c.loc.handles[x.hidx]
  (h.slotAt (if x.isLoad then h.ci.toNat else h.pi.toNat), 64 * h.slotsz.toNat)

/-- The offset or address that lane i names before the handle (R159, R160). -/
def Cell.laneAddr (x : Cell) (a0 : Row) (i : Nat) : Option Nat :=
  if x.selfAddressed then (affine x.const x.aux x.fires).map (· + 4 * i)
  else if x.wide then some ((lane32 a0 0 + fld x.const.toNat 0 24) % 2 ^ 24 + 4 * i)
  else some ((lane32 a0 i + fld x.const.toNat 0 24) % 2 ^ 24)

/-- Lane i of the access, where its address passes the checks (R159, R161). -/
def Core.lane (c : Core) (x : Cell) (a0 : Row) (i : Nat) : Option Lane :=
  match x.laneAddr a0 i with
  | none => none
  | some a =>
    let aligned := if x.wide then (a - 4 * i) % 64 = 0 else a % 4 = 0
    let slot := c.slotOf x
    let at_ := if x.hmode then slot.1 + a else a
    if !aligned || (x.hmode && decide (slot.2 ≤ a)) || decide (c.sq.spadSize < at_ + 4) then none
    else some ⟨i, at_, fld (lane32 a0 i) 24 8⟩

/-- The lanes a guard leaves on (R111). -/
def lanesOn (g : Option Row) : List Nat := (List.range 16).filter fun i => match g with
  | some r => bitAt (lane32 r i) 0
  | none => true

/-! ### Mica lanes (R233) -/

/-- Level width of a TYPE (R118). -/
def micaTypeWidth (t : Nat) : Nat := if t = 11 then 2 else if t = 12 then 4 else 8

/-- One lane of a mica operation: the local memory after it and what it returns; none where it raises CELL_MICA. -/
def Local.micaLane (l : Local) (x : Cell) (node mseed : Nat) (a : Lane) (w : Nat) : Option (Local × Nat) :=
  match l.regionOf true a.addr with
  | none => none
  | some k =>
    let r := l.regions[k]
    if r.width ≠ micaTypeWidth x.type || decide (32 / r.width ≤ a.j) then none
    else
      let word := rdNat l.mem a.addr 4
      let lv := levelOf r.width word a.j
      if x.op = 0xA9 then some (l, estBits r.s.toNat lv)
      else if x.op = 0xAA then some (l, lv)
      else if 65535 < w then none
      else
        let u := micaApply r word a.j w false
          (draw (.ofNat 32 mseed) (drawKey a.addr (16 * x.fires + a.i) node))
        if u.sat && r.ts then none
        else
          let l := { l with mem := wrNat l.mem a.addr 4 u.word }
          some (if u.sat then l.setSat k else l, lv)

/-- Every lane in ascending order; none where one raises CELL_MICA. -/
def Local.micaLanes (l : Local) (x : Cell) (node mseed : Nat) (w : Row) : List Lane → Option Local
  | [] => some l
  | a :: r => match l.micaLane x node mseed a (lane32 w a.i) with
    | none => none
    | some (l, _) => l.micaLanes x node mseed w r

/-! ### Rows and sub-accesses (R189) -/

/-- Distinct numbers, each at its first place. -/
def firsts : List Nat → List Nat
  | [] => []
  | a :: r => a :: (firsts r).filter (· != a)

/-- The rows of bank b that lanes need, in lane order. -/
def rowsIn (l : List Lane) (b : Nat) : List Nat := firsts ((l.map (·.addr / 64)).filter (· % 32 == b))

/-- The number of sub-accesses: the largest number of distinct rows in one bank, at least 1 (R189). -/
def subCount (l : List Lane) : Nat := ((List.range 32).map fun b => (rowsIn l b).length).foldl max 1

/-- The sub-access of a lane: the place of its row among the rows of its bank (R189). -/
def subOf (l : List Lane) (a : Lane) : Nat := (rowsIn l (a.addr / 64 % 32)).idxOf (a.addr / 64)

/-- The lanes of sub-access k (R189). -/
def subLanes (l : List Lane) (k : Nat) : List Lane := l.filter fun a => subOf l a == k

/-- The banks that lanes need. -/
def banksOf (l : List Lane) : List Nat := firsts (l.map fun a => a.addr / 64 % 32)

/-! ### The plan of a firing -/

/-- The guard-on lanes of a firing, or the kind of the cause it raises (R147, R159, R233). A mica firing is judged by the
lanes it has still to perform: at its first sub-access by all of them (log entry 22). -/
def Core.plan (c : Core) (n : Fin 32) (a0 w : Row) (g : Option Row) : Except CellKind (List Lane) :=
  let x := c.fab.cells[n]
  let on := lanesOn g
  let l := on.filterMap (c.lane x a0)
  if (x.selfAddressed && (affine x.const x.aux x.fires).isNone) || l.length ≠ on.length then .error .addr
  else if x.isMica && (c.loc.micaLanes x (c.sq.node n.val).toNat c.sq.mseed.toNat w
      (l.filter fun a => decide (x.sub ≤ subOf l a))).isNone then .error .mica
  else .ok l

/-! ### Performing lanes -/

/-- A store lane of a member through a slot-owned handle whose owner has another generation writes nothing (R175). -/
def Core.lateLane (c : Core) (x : Cell) (k : Token) : Bool :=
  let h := c.loc.handles[x.hidx]
  x.hmode && x.rm && h.own && h.ocore == c.cid && h.oq.toNat == x.rq.val && h.os == k.slot && h.og != k.gen

/-- Change the cell of a firing. -/
def State.onCell (s : State) (n : Fin 32) (f : Cell → Cell) : State :=
  s.onFab fun b => { b with cells := b.cells.set n (f b.cells[n]) }

/-- The cell reads bank b: its time rises to the bank's (R209). -/
def State.cellReads (s : State) (n : Fin 32) (b : Nat) : State :=
  s.onCell n fun x => { x with pts := maxW x.pts s.core.loc.bt[bankOf (64 * b)] }

/-- The cell writes bank b: the bank's time rises to its own (R209). -/
def State.cellWrites (s : State) (n : Fin 32) (b : Nat) : State :=
  s.onLoc fun l => { l with bt := l.bt.set (bankOf (64 * b)) (maxW l.bt[bankOf (64 * b)] s.core.fab.cells[n].pts) }

/-- One lane is performed: `d` is the store data or the weights, `k` the data token of a store. -/
def State.doLane (s : State) (n : Fin 32) (d : Row) (k : Token) (a : Lane) : State :=
  let x := s.core.fab.cells[n]
  let b := a.addr / 64 % 32
  if x.isLoad then
    (s.cellReads n b).onCell n fun x => { x with got := put 0 a.i (.ofNat 32 (rdNat s.core.loc.mem a.addr 4)) x.got }
  else if x.isStore then
    if s.core.lateLane x k then
      s.onFab fun f => { f with rots := f.rots.set x.rq { f.rots[x.rq] with
        lateDrop := .ofNat 16 (min (f.rots[x.rq].lateDrop.toNat + 1) 65535) } }
    else (s.cellWrites n b).onLoc fun l => { l with mem := wrNat l.mem a.addr 4 (lane32 d a.i) }
  else
    match s.core.loc.micaLane x (s.core.sq.node n.val).toNat s.core.sq.mseed.toNat a (lane32 d a.i) with
    | none => s
    | some (l, v) =>
      let s := (s.cellReads n b).onLoc fun m => { m with mem := l.mem, regions := l.regions }
      let s := if x.op = 0xA8 then s.cellWrites n b else s
      s.onCell n fun x => { x with got := put 0 a.i (.ofNat 32 v) x.got }

/-- The lanes of a sub-access in ascending order, one bank access of energy for each row (R191, R370). -/
def State.doLanes (s : State) (n : Fin 32) (d : Row) (k : Token) (l : List Lane) : State :=
  (l.foldl (fun s a => s.doLane n d k a) s).event 4 (firsts (l.map (·.addr / 64))).length

/-- The token a load pushes: a lane that performed no access is zero (R111, R146). -/
def Cell.gotRow (x : Cell) : Row := packLanes 32 ((List.range 16).map fun i => (look 0 i x.got).toNat)

end Sys2Proof.Machine
end

