-- ==== Sys2Proof/Machine/Firing.lean ====
section
/-! DEFINITION. Firings (R102–R111), markers (R105, R106, R109, R137, R149, R163), pushes (R103), bypasses of rotation
members (R171, R384), and constant rewrites (R150). -/

namespace Sys2Proof.Machine

/-! ### Inputs of a cell -/

/-- What one used input shows: its number, its channel, data tokens ahead of the first marker, and whether a marker
follows them. -/
structure InState where
  j    : Nat
  a    : Fin 256
  n    : Nat
  mark : Bool
deriving DecidableEq, Repr

/-- The used inputs as the cell sees them in cycle `now`. -/
def Fabric.look (f : Fabric) (n : Fin 32) (now : Nat) : List InState :=
  (f.inputs n).map fun e => ⟨e.1, e.2, (f.scan e.2 now).1, (f.scan e.2 now).2⟩

/-- The input is closed: a marker stands at its head (R105). -/
def InState.closed (x : InState) : Bool := x.n == 0 && x.mark

/-- Tokens a firing consumes on input j (R102, R109, R111). -/
def Cell.need (c : Cell) (j : Nat) : Nat := if j < 3 then c.cons j else if j = 3 then 1 else c.cons 0

/-- Row at the head of input j, or the constant (R101); of an input without a selector a free value (log entry 34). -/
def Fabric.headRow (f : Fabric) (n : Fin 32) (now j : Nat) : Option Row :=
  if j < 3 && f.cells[n].sel j = 6 then some (constRow f.cells[n].const)
  else if j < 3 && f.cells[n].sel j = 0 then some (Config.unfed j 0)
  else (f.feeding n j).bind fun a => (f.seen a now).head?.bind fun k => if k.kind = .data then some k.data else none

/-- v of a STEER or MERGE: bits [1:0] of lane 0 of its predicate (R108, R109). -/
def Fabric.pathOf (f : Fabric) (n : Fin 32) (now : Nat) : Option Nat := (f.headRow n now 2).map fun d => d.toNat % 4

/-- The input of path v of a MERGE: i0, i1, i3, i4 (R109). -/
def mergeInput (v : Nat) : Nat := if v < 2 then v else v + 2

/-- Input j is a path of a MERGE: a used channel, or for i0 and i1 the constant. -/
def Fabric.hasPath (f : Fabric) (n : Fin 32) (v : Nat) : Bool :=
  (f.feeding n (mergeInput v)).isSome || (v < 2 && f.cells[n].sel v == 6)

/-- The conditions under which a node raises CELL_EOI, over its inputs outside a loop (R106, R109). -/
def Fabric.eoiBad (f : Fabric) (n : Fin 32) (now : Nat) (l : List InState) : Bool :=
  let c := f.cells[n]
  (l.any fun x => x.mark && decide (1 ≤ x.n) && decide (x.n < c.need x.j)) ||
  if c.isMerge then
    (l.any (fun x => x.j == 2 && x.closed) && l.any fun x => x.j != 2 && decide (1 ≤ x.n)) ||
    match f.pathOf n now with
    | some v => l.any fun x => x.j == mergeInput v && x.closed
    | none => false
  else l.any InState.closed && l.any fun x => decide (1 ≤ x.n)

/-- The inputs a firing takes from: all, or for a MERGE the predicate and path v (R102, R109). -/
def Fabric.takes (f : Fabric) (n : Fin 32) (now : Nat) (l : List InState) : List InState :=
  if f.cells[n].isMerge then
    match f.pathOf n now with
    | some v => l.filter fun x => x.j == 2 || x.j == mergeInput v
    | none => l.filter (·.j == 2)
  else l

/-- Condition 1 and 3 of R102; a STEER and a MERGE need their predicate. -/
def Fabric.fed (f : Fabric) (n : Fin 32) (now : Nat) (l : List InState) : Bool :=
  (f.takes n now l).all (fun x => decide (f.cells[n].need x.j ≤ x.n)) &&
    (!(f.cells[n].isSteer || f.cells[n].isMerge) || (f.pathOf n now).isSome)

/-- The targets of a firing with the tokens each gets: for a STEER the chosen path alone (R102, R108). -/
def Fabric.outs (f : Fabric) (n : Fin 32) (now : Nat) : List (Fin 256 × Nat) :=
  let c := f.cells[n]
  if c.isSteer then
    match (f.pathOf n now).bind fun v => (f.targets n 0)[v]? with
    | some a => [(a, c.prod 0)]
    | none => []
  else [0, 1].flatMap fun o => if c.prod o = 0 then [] else (f.targets n o).map fun a => (a, c.prod o)

/-- The path a STEER or MERGE takes; none where the predicate names none (R108, R109). -/
def Fabric.goodPath (f : Fabric) (n : Fin 32) (now : Nat) : Option Nat :=
  let c := f.cells[n]
  match f.pathOf n now with
  | none => none
  | some v =>
    if c.isSteer then (if v < (f.targets n 0).length then some v else none)
    else if c.isMerge then (if f.hasPath n v then some v else none)
    else some v

/-! ### Faults of a cell (R147) -/

/-- Outside a rotation: the cell fires no more in the task and its cause is raised (R106, R147). -/
def State.stopCell (s : State) (n : Fin 32) (k : CellKind) : State :=
  (s.onCell n fun c => { c with stopped := true }).raiseAsync (cCELL n k) 0

/-! ### Firing -/

/-- Tokens of a firing, input by input, the guard last (R104, R146). -/
def Firing.tokens (g : Firing) : List Token :=
  (g.ins.filter (·.1 != 3)).flatMap (·.2) ++ (g.ins.filter (·.1 == 3)).flatMap (·.2)

/-- The token whose TAG the outputs carry: of the lowest-numbered input that consumed one, else the guard's (R104); where that
input consumed several, the first (log entry 126). -/
def Firing.lead (g : Firing) : Option Token := g.tokens.head?

/-- A token of the firing is poisoned (R146). -/
def Firing.psn (g : Firing) : Bool := g.tokens.any (·.psn)

/-- The tokens of input j. -/
def Firing.inp (g : Firing) (j : Nat) : List Token :=
  match g.ins.find? (·.1 == j) with
  | some e => e.2
  | none => []

/-- Consume the tokens of the inputs in `l`, n each by `need`. -/
def Fabric.consume (f : Fabric) (n : Fin 32) (now : Nat) (l : List InState) : Fabric :=
  l.foldl (fun g x => g.pop x.a now (f.cells[n].need x.j)) f

/-- The tokens that `consume` takes. -/
def Fabric.consumed (f : Fabric) (n : Fin 32) (now : Nat) (l : List InState) : List (Nat × List Token) :=
  l.map fun x => (x.j, (f.seen x.a now).take (f.cells[n].need x.j))

/-- The cell's time joins the times of tokens (R209). -/
def State.joinCell (s : State) (n : Fin 32) (l : List Token) : State :=
  s.onCell n fun c => { c with pts := l.foldl (fun t k => maxW t k.pts) c.pts }

/-- Cell n fires: it consumes, reserves its output slots, and its operation has the firing (R102, R103, R113, R370). Of a
rotation member `slot` is the slot, with the slot's token. -/
def State.fire (s : State) (n : Fin 32) (l : List InState) (slot : Option ((Fin 8 × Nat) × Token)) : State :=
  let f := s.core.fab
  let now := s.chip.now
  let take := f.takes n now l
  let g : Firing := ⟨n, f.consumed n now take, f.goodPath n now, slot.map (·.1), slot.map (·.2)⟩
  let rest := l.filter fun x => !(take.contains x) && slot.isSome && (f.loopOf x.a).isSome
  let outs := f.outs n now
  let s := s.onFab fun f =>
    let f := (f.consume n now take)
    -- the slot's token leaves the loop input also where a MERGE takes another path: what goes on is its firing's
    let f := rest.foldl (fun f x => f.pop x.a now 1) f
    let f := outs.foldl (fun f e => f.reserve e.1 e.2) f
    { f with fire := some g, fires := f.fires + 1 }
  ((((s.joinCell n g.tokens).onCell n fun c => { c with
    next := now + c.interval
    free := now + 1 }).event 2 1)).act

/-- The data and guard rows of a memory-port cell's next firing. -/
def Core.planAt (c : Core) (n : Fin 32) (now : Nat) : Except CellKind (List Lane) :=
  let f := c.fab
  c.plan n ((f.headRow n now 0).getD 0) ((f.headRow n now 1).getD 0)
    (if f.cells[n].guarded then f.headRow n now 3 else none)

/-- A token that the next firing consumes is poisoned (R146). -/
def Fabric.psnAhead (f : Fabric) (n : Fin 32) (now : Nat) (l : List InState) : Bool :=
  (f.consumed n now (f.takes n now l)).any fun e => e.2.any (·.psn)

/-- What the bank wheel and the banks leave a memory-port cell to do in this cycle (R188, R189). -/
inductive Wheel
  /-- the firing: no memory port, a poisoned firing, a fault, or the last sub-access -/
  | fire
  /-- a sub-access that is not the last -/
  | sub (l : List Lane)
  /-- not its wheel cycle -/
  | off
  /-- an aged request takes a bank it needs (R190, R192) -/
  | aged
deriving DecidableEq, Repr

def Core.wheelFor (c : Core) (n : Fin 32) (now : Nat) (l : List InState) : Wheel :=
  let x := c.fab.cells[n]
  if !x.isPort then .fire
  else if !c.holdsWheel n then .off
  else if c.fab.psnAhead n now l then .fire
  else match c.planAt n now with
    | .error _ => .fire
    | .ok p =>
      let q := subLanes p x.sub
      if (banksOf q).any fun b => c.loc.halfA.any (·.1 == b) then .aged
      else if subCount p ≤ x.sub + 1 then .fire else .sub q

/-- One more lost cycle of BANKSTALL (R192, R372). -/
def State.bankStall (s : State) : State :=
  (s.onSq fun q => { q with ctr := { q.ctr with bank := q.ctr.bank + 1 } }).event 16 1

/-- A sub-access before the last: its lanes are performed, and the cycle is lost (R189, R192). `lap` is a member's slot's
token. -/
def State.subAccess (s : State) (n : Fin 32) (l : List InState) (lanes : List Lane) (lap : Option Token) : State :=
  let f := s.core.fab
  let now := s.chip.now
  let x := f.cells[n]
  let ks := (f.consumed n now (f.takes n now l)).flatMap (·.2)
  let dj := if x.op = 0xA6 then 0 else 1
  let k := ((f.feeding n dj).bind fun a => (f.seen a now).head?).getD (lap.getD (.marker 0))
  (((s.joinCell n ks).doLanes n ((f.headRow n now dj).getD 0) k lanes).onCell n fun x =>
    { x with sub := x.sub + 1 }).bankStall.act

/-- No firing of the cell has begun in this cycle, and its interval has passed (R96, R102). -/
def Cell.ready (c : Cell) (now : Nat) : Bool := decide (c.next ≤ now) && decide (c.free ≤ now)

/-- A cell outside a rotation in this cycle (R102). -/
def State.plainFire (s : State) (n : Fin 32) (l : List InState) : State :=
  let f := s.core.fab
  let now := s.chip.now
  let c := f.cells[n]
  if (f.stopping && l.isEmpty) || !f.fed n now l || !c.ready now then s
  else if !s.energyOk s.core then s.onCore fun c => { c with refused := true }
  else
    let lack := (f.outs n now).filter fun e => !f.room e.1 now e.2
    match s.core.wheelFor n now l with
    | .off => s
    | .aged => if lack.isEmpty then s.bankStall else s
    | .sub p => if lack.isEmpty then s.subAccess n l p none else s.stallOn (lack.map (·.1))
    | .fire => if lack.isEmpty then s.fire n l none else s.stallOn (lack.map (·.1))

/-! ### Rotation members (R171, R384) -/

/-- Loop targets of cell n, through which a slot's token goes on: for a STEER the first of them. -/
def Fabric.loopTargets (f : Fabric) (n : Fin 32) : List (Fin 256) :=
  let l := ([0, 1].flatMap (f.targets n ·)).filter fun a => (f.loopOf a).isSome
  if f.cells[n].isSteer then l.take 1 else l

/-- One token on several targets: all but the first are copies (R100, R113). -/
def copies : List Push → List Push
  | [] => []
  | u :: r => u :: r.map fun v => { v with copy := true }

/-- A slot's token passes member n unmodified: pushed on its loop targets after the operation's latency (R171). -/
def State.bypass (s : State) (n : Fin 32) (loop : List InState) (k : Token) : State :=
  let now := s.chip.now
  s.onFab fun f =>
    let out := f.loopTargets n
    let f := loop.foldl (fun f x => f.pop x.a now 1) f
    let f := out.foldl (fun f a => f.reserve a 1) f
    { f with cells := f.cells.set n { f.cells[n] with
        pipe := f.cells[n].pipe ++ [(now + f.cells[n].lat, copies (out.map fun a => ⟨a, k, false⟩))] } }

/-- A rotation hold or freeze stops a member on the token of slot p: the slot is neither active nor leaving, or it is
save-held (R102, condition 5; R171). -/
def Fabric.memberStopped (f : Fabric) (q : Fin 8) (p : Nat) : Bool :=
  (match f.rstart[q].slots[p]? with
    | some x => x.state != .active && x.state != .leaving
    | none => true) ||
  match f.rots[q].slots[p]? with
    | some x => x.hold
    | none => true

/-- The sub-accesses of a member's firing take consecutive wheel cycles of the cell (R189): those done before count only
where the same slot's token stands there at the next one (log entry 111). -/
def State.freshSub (s : State) (n : Fin 32) (p : Nat) : State :=
  let w := s.core.wheel
  let next := w == s.core.fab.cells[n].subAt.1 + s.core.fab.portCells.length
  if next && s.core.fab.cells[n].subAt.2 == p || !s.core.holdsWheel n then s
  else s.onCell n fun x => { x with sub := 0, got := [] }

/-- A member of rotation q on which a slot's token stands in this cycle: it fires on it, or lets it pass (R171, R384).
`loop` holds its loop inputs with a token, `l` every used input. -/
def State.memberFire (s : State) (n : Fin 32) (q : Fin 8) (l loop : List InState) (k : Token) : State :=
  let now := s.chip.now
  let p := k.slot.toNat
  let s := s.freshSub n p
  let f := s.core.fab
  let lack := (f.outs n now).filter fun e => !f.room e.1 now e.2
  if f.memberStopped q p then (s.bypass n loop k).onCell n fun x => { x with free := now + 1 }
  else if !f.fed n now l || !f.cells[n].ready now then s.bypass n loop k
  else if !s.energyOk s.core then (s.bypass n loop k).onCore fun c => { c with refused := true }
  else match s.core.wheelFor n now l with
    | .aged => (if lack.isEmpty then s.bankStall else s).bypass n loop k
    | .fire =>
      if lack.isEmpty then s.fire n l (some ((q, p), k)) else (s.stallOn (lack.map (·.1))).bypass n loop k
    | .sub u =>
      if lack.isEmpty then
        ((s.subAccess n l u (some k)).onCell n fun x => { x with subAt := (s.core.wheel, p) }).bypass n loop k
      else (s.stallOn (lack.map (·.1))).bypass n loop k
    | .off => s.bypass n loop k

/-- Whether an input stands on the loop of the cell's rotation (R169). -/
def Fabric.onLoop (f : Fabric) (x : InState) : Bool := (f.loopOf x.a).isSome

/-- CELL_FIRING (R102, R106, R171, R384): cell n in this cycle. -/
def execCellFiring (n : Fin 32) (s : State) : Out :=
  let s := s.onFab fun f => { f with fire := none }
  let f := s.core.fab
  let c := f.cells[n]
  let l := f.look n s.chip.now
  let outer := l.filter fun x => !f.onLoop x
  let loop := l.filter fun x => f.onLoop x && decide (1 ≤ x.n)
  let slotTok := loop.head?.bind fun x => (f.seen x.a s.chip.now).head?
  if c.conf.isNone then .next s
  else if c.stopped then
    match slotTok with
    | none => .next s
    | some k => .next (s.bypass n loop k)
  else if f.eoiBad n s.chip.now outer then
    let s := s.stopCell n .eoi
    match slotTok with
    | none => .next s
    | some k => .next (s.bypass n loop k)
  else match c.member with
    | none => .next (s.plainFire n l)
    | some q =>
      match slotTok with
      | none => .next s
      | some k => .next (s.memberFire n q l loop k)

/-! ### TOKEN_PUSH (R103) -/

/-- TOKEN_PUSH: the pushes of cell n that are due in this cycle enter their channels, and the reserved slots are
theirs (R103). -/
def execTokenPush (n : Fin 32) (s : State) : Out :=
  let now := s.chip.now
  let c := s.core.fab.cells[n]
  .next (s.onFab fun f =>
    let f := { f with cells := f.cells.set n { c with pipe := c.pipe.filter (now < ·.1) } }
    ((c.pipe.filter (·.1 ≤ now)).flatMap (·.2)).foldl (fun f u => (f.release u.arc 1).put u.arc now u.tok) f)

/-! ### Results of a firing -/

/-- The sideband of the outputs of a firing (R104, R145, R146, R209): SLOT and GEN of a member's are those of its slot's
token (R168). `bad`: the firing faulted in a rotation (R147). -/
def State.sideOf (s : State) (g : Firing) (bad : Bool) (d : Row) : Token :=
  let k := g.lead.getD (.marker 0)
  let slot := g.lap.getD k
  ⟨d, k.tag, .data, g.psn || bad, slot.slot, slot.gen, s.core.fab.cells[g.cell].pts⟩

/-- A row of tokens enters channel a from an output, converted at the producer end (R135); `copy`: another target of the
output has them before. -/
def Fabric.enterAll (f : Fabric) (t : Option Fmt) (copy : Bool) (a : Fin 256) : List Token → Fabric × List Push
  | [] => (f, [])
  | k :: r =>
    let x := f.enter t a k
    let y := x.1.enterAll t copy a r
    (y.1, ⟨a, x.2, copy⟩ :: y.2)

/-- The same on every target of the output, in order (R100). -/
def Fabric.enterOn (f : Fabric) (t : Option Fmt) (copy : Bool) (ks : List Token) : List (Fin 256) → Fabric × List Push
  | [] => (f, [])
  | a :: r =>
    let x := f.enterAll t copy a ks
    let y := x.1.enterOn t true ks r
    (y.1, x.2 ++ y.2)

/-- The input a firing's routed tokens come from: a MERGE's path (R109, R135). -/
def Firing.from_ (g : Firing) : Nat := (g.path.map mergeInput).getD 0

/-- The tokens of both outputs go into the cell's pipeline, to be pushed after its latency (R103). `path` is the one
target of a STEER. -/
def State.emit (s : State) (g : Firing) (bad : Bool) (o0 o1 : List Row) (path : Option (Fin 256)) : State :=
  let n := g.cell
  let f := s.core.fab
  let one := fun (f : Fabric) (o : Nat) (l : List (Fin 256)) (ds : List Row) =>
    f.enterOn (f.outType n o g.from_) false (ds.map (s.sideOf g bad)) l
  let t0 := match path with
    | some a => [a]
    | none => f.targets n 0
  let a := one f 0 t0 o0
  let b := one a.1 1 (f.targets n 1) o1
  s.onFab fun _ => { b.1 with
    cells := b.1.cells.set n { b.1.cells[n] with
      pipe := b.1.cells[n].pipe ++ [(s.chip.now + b.1.cells[n].lat, a.2 ++ b.2)]
      sub := 0
      got := []
      fires := b.1.cells[n].fires + 1 }
    fire := none }

/-- The reserved slots of a firing that pushes nothing are free again. -/
def Fabric.unreserve (f : Fabric) (g : Firing) : Fabric :=
  let c := f.cells[g.cell]
  if c.isSteer then
    match g.path.bind fun v => (f.targets g.cell.val 0)[v]? with
    | some a => f.release a (c.prod 0)
    | none => f
  else [0, 1].foldl (fun f o => (f.targets g.cell.val o).foldl (fun f a => f.release a (c.prod o)) f) f

/-- A firing that pushes nothing. -/
def State.dropFire (s : State) (g : Firing) : State :=
  (s.onFab fun f => { f.unreserve g with fire := none }).onCell g.cell fun c =>
    { c with sub := 0, got := [], fires := c.fires + 1 }

/-- A firing outside a rotation that raised a cause: it pushes nothing, and the cell stops (R147). -/
def State.failFire (s : State) (g : Firing) (k : CellKind) : State := (s.dropFire g).stopCell g.cell k

/-- A member firing that raised a cause faults its slot, and under POLICY 1 the core takes ROT_SLOT (R172, R177). -/
def State.slotFault (s : State) (q : Fin 8) (p : Nat) (cause : Cause) : State :=
  let s := s.onFab fun f => { f with rots := f.rots.set q { f.rots[q] with
    slots := f.rots[q].slots.modify p fun x =>
      if x.state = .active || x.state = .leaving then { x with state := .faulted, cause := cause } else x } }
  match s.core.fab.rots[q].cfg with
  | some g => if g.trap then s.raiseAsync (cROT q .slot) (.ofNat 6 p) else s
  | none => s

/-- What a cell operation makes of its firing: the rows of both outputs, the cause of a lane (R147), and the event of
each result lane (R149). -/
structure Made where
  o0  : List Row
  o1  : List Row
  bad : Option CellKind
  evs : List Ev

/-- The tokens of a firing go out, and its cell counts the events of its lanes (R149). -/
def State.goodFire (s : State) (g : Firing) (m : Made) (path : Option (Fin 256)) : State :=
  (s.onCell g.cell fun c => if c.st then { c with counts := c.counts.addAll m.evs } else c).emit g false m.o0 m.o1 path

/-- The end of a firing: its tokens go out, or its cause is taken (R147, R177). A member's faulting firing pushes its
outputs with PSN = 1. A poisoned firing raises no cause (R146); where it has no path it pushes nothing, and in a rotation
the slot's token. -/
def State.finishFire (s : State) (g : Firing) (m : Made) (path : Option (Fin 256)) : State :=
  match m.bad, g.slot with
  | none, _ => s.goodFire g m path
  | some k, none =>
    if !g.psn then s.failFire g k else if k = .path then s.dropFire g else s.goodFire g m path
  | some k, some (q, p) =>
    if g.psn then s.goodFire g m path else (s.emit g true m.o0 m.o1 path).slotFault q p (cCELL g.cell k)

/-! ### MARKER_FIRING (R105, R137, R149, R163, R169) -/

/-- The count tokens a cell adds before its marker: ST on o1, SEMIT on o0 (R149, R163). -/
def Cell.markerCounts (c : Cell) (o : Nat) (m : Token) : List Token :=
  if o = 1 && c.st then [c.counts.token m]
  else if o = 0 && c.op = 0xB0 then [{ m with
    data := packLanes 32 [c.semit.1.toNat, 0, 0, 0, c.semit.2.toNat]
    kind := .data }]
  else []

/-- The counts of a cell restart (R149, R160, R163, R229). -/
def Cell.restart (c : Cell) : Cell := { c with fires := 0, counts := .zero, semit := (0, 0), marked := true }

/-- A rotation hold or freeze stops member n on a token that stands on its loop in this cycle (R102, condition 5). -/
def Fabric.stoppedNow (f : Fabric) (n : Fin 32) (now : Nat) : Bool := match f.cells[n].member with
  | some q => (f.look n now).any fun x => f.onLoop x && match (f.seen x.a now).head? with
    | some k => f.memberStopped q k.slot.toNat
    | none => false
  | none => false

/-- MARKER_FIRING (R105, R109, R137, R149, R163, R169): cell n, when every used input outside its loop is closed, it has
begun no firing in this cycle (R96), and no rotation hold or freeze stops it. -/
def execMarkerFiring (n : Fin 32) (s : State) : Out :=
  let f := s.core.fab
  let now := s.chip.now
  let c := f.cells[n]
  let l := (f.look n now).filter fun x => !f.onLoop x
  if c.conf.isNone || c.stopped || l.isEmpty || !l.all InState.closed || decide (now < c.free) || f.stoppedNow n now then
    .next s
  else if !s.energyOk s.core then .next (s.onCore fun c => { c with refused := true })
  else
    let outs := fun o => (f.targets n.val o).filter fun a => (f.loopOf a).isNone
    let fits := [0, 1].all fun o => (outs o).all fun a => f.room a now ((c.markerCounts o (.marker 0)).length + 1)
    if !fits || !s.core.statRoom n.val now then .next s
    else
      let ks := l.filterMap fun x => (f.seen x.a now).head?
      let s := s.joinCell n ks
      let m : Token := { (ks.headD (.marker 0)) with data := 0, kind := .eoi, psn := ks.any (·.psn), pts := s.core.fab.cells[n].pts }
      let sp := s.core.statPushes n.val m
      let s := s.onFab fun f =>
        let f := l.foldl (fun f x => f.pop x.a now 1) f
        let a := f.enterOn (f.outType n 0 0) false (c.markerCounts 0 m ++ [m]) (outs 0)
        let b := a.1.enterOn (f.outType n 1 0) false (c.markerCounts 1 m ++ [m]) (outs 1)
        let out := a.2 ++ b.2 ++ sp
        let f := out.foldl (fun f u => f.reserve u.arc 1) b.1
        { f with
          fires := f.fires + 1
          cells := f.cells.set n { f.cells[n].restart with
            next := now + c.interval
            free := now + 1
            pipe := f.cells[n].pipe ++ [(now + c.lat, out)] } }
      .next (((s.onCore (·.clearCounts n.val)).event 2 1).act)

/-! ### ARGW_EFFECT (R150) -/

/-- The boundary of R150 falls in this cycle. -/
def Fabric.rewriteDue (f : Fabric) (n : Fin 32) : Bool :=
  match f.cells[n].member with
  | some q => f.rstart[q].slots.all fun x => x.state != .active && x.state != .leaving
  | none => if (f.inputs n).isEmpty then true else f.cells[n].marked

/-- ARGW_EFFECT: the rewrites waiting at cell n take effect at the end of the boundary's cycle, the last one in command
order; a MERGE discards them (R150). -/
def execArgwEffect (n : Fin 32) (s : State) : Out :=
  .next (s.onFab fun f =>
    let c := f.cells[n]
    let due := f.rewriteDue n
    { f with cells := f.cells.set n { c with
      marked := false
      const := if due && !c.isMerge then c.rewrite.getLast?.getD c.const else c.const
      rewrite := if due || c.isMerge then [] else c.rewrite } })

end Sys2Proof.Machine
end

