-- ==== Sys2Proof/Machine/LocalMem.lean ====
section
/-! DEFINITION. The sequencer's local memory instructions: loads and stores (R70, R73), full/empty words (R195),
buffer handles (R199), write pointers (R202) and CARM (R201). -/

namespace Sys2Proof.Machine

/-- The checks of a local access of n bytes at A, in their order (R70). -/
def State.localBad (s : State) (A : Word) (n : Nat) : Option Cause :=
  if A.toNat % n ≠ 0 then some cMISALIGNED
  else if s.spadSize ≤ A.toNat then some cLOCAL_BOUNDS
  else none

/-- A local load at A (R70). -/
def State.loadLocal (s : State) (d : GReg) (z : LdSz) (A : Word) : State :=
  match s.localBad A z.bytes with
  | some c => s.raise c
  | none => (s.sqReads A.toNat).setG d 4 (z.extend (rdNat s.core.loc.mem A.toNat z.bytes))

/-- A local store at A (R70). -/
def State.storeLocal (s : State) (r : GReg) (z : StSz) (A : Word) : State :=
  match s.localBad A z.bytes with
  | some c => s.raise c
  | none => (s.sqWrites A.toNat).spadWrite A.toNat (leBytes (s.rg r).toNat z.bytes)

/-- LDL (R70). -/
def execLdl (d a : GReg) (z : LdSz) (o : BitVec 12) (s : State) : Out :=
  .next (s.loadLocal d z (addrOff (s.rg a) o))

/-- STL (R70). -/
def execStl (r a : GReg) (z : StSz) (o : BitVec 12) (s : State) : Out :=
  .next (s.storeLocal r z (addrOff (s.rg a) o))

/-- LDLX (R73). -/
def execLdlx (d a b : GReg) (k : BitVec 2) (z : LdSz) (s : State) : Out :=
  .next (s.loadLocal d z (addrIdx (s.rg a) (s.rg b) k))

/-- STLX (R73). -/
def execStlx (r a b : GReg) (k : BitVec 2) (z : StSz) (s : State) : Out :=
  .next (s.storeLocal r z (addrIdx (s.rg a) (s.rg b) k))

/-! ### Full/empty words (R194–R196) -/

/-- The word was full at the start of the cycle, by word index. -/
def Local.fullAtStart (l : Local) (w : Nat) : Bool := look false w l.festart

/-- An engine read in full/empty mode of bank b that has waited since before `since` and whose condition held at the
start of the cycle: it is served before the sequencer (R196). -/
def Local.olderWaiter (l : Local) (b : Fin 32) (since : Nat) : Bool :=
  l.rqstart.any fun r => match r.acc with
    | .read a _ (w :: ws) => bankOf a == b && decide (r.since < since) && (w :: ws).all l.fullAtStart
    | _ => false

/-- The full/empty wait is over in this cycle: word A had the state it waits for at the start of the cycle, and this
waiter is served (R196). -/
def State.feReady (s : State) (w : Wait) (full : Bool) : Bool :=
  s.core.loc.fullAtStart (w.addr.toNat / 4) == full && !s.core.loc.olderWaiter (bankOf w.addr.toNat) w.since

/-- LDF and LDFP (R195): `empties` tells LDF from LDFP. -/
def State.loadFe (s : State) (k : WaitKind) (empties : Bool) (d a : GReg) (x : Bool) (o : BitVec 12) : State :=
  let w := s.waitAt k (addrOff (s.rg a) o) 0
  match s.localBad w.addr 4 with
  | some c => s.raise c
  | none =>
    if s.feReady w true then
      let v := rdNat s.core.loc.mem w.addr.toNat 4
      let s := (s.served.sqReads w.addr.toNat).setG d 4 (if x then sext v 32 else zextW v)
      if empties then s.onLoc fun l => l.setFull w.addr.toNat false else s
    else s.holds w .fe

/-- LDF (R195). -/
def execLdf (d a : GReg) (x : Bool) (o : BitVec 12) (s : State) : Out := .next (s.loadFe .ldf true d a x o)

/-- LDFP (R195). -/
def execLdfp (d a : GReg) (x : Bool) (o : BitVec 12) (s : State) : Out := .next (s.loadFe .ldfp false d a x o)

/-- The store of STE and STF: the word and its bit in one access (R195). -/
def State.storeFull (s : State) (A : Nat) (v : Word) : State :=
  ((s.sqWrites A).spadWrite A (leBytes v.toNat 4)).onLoc fun l => l.setFull A true

/-- STE: gs is read when the wait ends (R195). -/
def execSte (r a : GReg) (o : BitVec 12) (s : State) : Out :=
  let w := s.waitAt .ste (addrOff (s.rg a) o) 0
  match s.localBad w.addr 4 with
  | some c => .next (s.raise c)
  | none => .next (if s.feReady w false then s.served.storeFull w.addr.toNat (s.rg r) else s.holds w .fe)

/-- STF (R195). -/
def execStf (r a : GReg) (o : BitVec 12) (s : State) : Out :=
  let A := addrOff (s.rg a) o
  match s.localBad A 4 with
  | some c => .next (s.raise c)
  | none => .next (s.storeFull A.toNat (s.rg r))

/-! ### Handles (R197–R199) -/

/-- The record a descriptor of 128 bits gives (R199). -/
def handleBad (n : Nat) : Bool :=
  let d := Handle.ofNat n
  decide (d.base.toNat % 64 ≠ 0) || d.slotsz == 0 || !(inSpan d.nslot.toNat 1 1024)
    || decide (2 ^ 24 < d.base.toNat + 64 * d.slotsz.toNat * d.nslot.toNat) || decide (d.nslot.toNat < d.filled)
    || fld n 47 17 != 0 || fld n 122 6 != 0

/-- The owner fields of HCFG: OCORE is this core's CID, or all are 0 (R199). -/
def Handle.owned (d : Handle) (cid : BitVec 8) : Handle :=
  if d.own then { d with ocore := cid } else { d with oq := 0, os := 0, og := 0, ocore := 0 }

/-- Replace a handle. -/
def State.setHandle (s : State) (h : Fin 32) (d : Handle) : State :=
  s.onLoc fun l => { l with handles := l.handles.set h d }

/-- HCFG (R199). -/
def execHcfg (a : GReg) (h : Fin 32) (s : State) : Out :=
  let A := s.rg a
  match s.localBad A 16 with
  | some c => .next (s.raise c)
  | none =>
    let n := rdNat s.core.loc.mem A.toNat 16
    if s.core.handleBusy h then .next (s.raise cHANDLE_BUSY)
    else if handleBad n then .next (s.raise cHANDLE_CFG)
    else .next (((s.sqReads A.toNat).setHandle h ((Handle.ofNat n).owned s.core.cid)).onLoc fun l =>
      { l with hfill := l.hfill.set h [], hfree := l.hfree.set h [] })

/-- HGET: a half of the record, as at the start of the cycle, landing at issue + 2 (R199). -/
def execHget (d : GReg) (k : Bool) (h : Fin 32) (s : State) : Out :=
  .next (s.setG d 2 (zextW (fld s.core.loc.hstart[h].word.toNat (if k then 64 else 0) 64)))

/-- The advances of PI that filled the next n slots of handle h at CI, and those of CI that freed the next n at PI: the
latest of their logical times (R209, R241). -/
def Local.fillPts (l : Local) (h : Fin 32) (lo n : Nat) : Word := l.handles[h].stampOf lo n l.hfill[h]
def Local.freePts (l : Local) (h : Fin 32) (lo n : Nat) : Word := l.handles[h].stampOf lo n l.hfree[h]

/-- HWAITC and HWAITP: wait until that many slots are there, checked against NSLOT first (R199); the wait that ends joins
the advances that ended it (R209). -/
def State.handleWait (s : State) (k : WaitKind) (a : GReg) (h : Fin 32) (count : Handle → Nat)
    (pts : Handle → Nat → Word) : State :=
  let d := s.core.loc.hstart[h]
  let w := s.waitAt k 0 (s.rg a)
  if !d.configured then s.raise cHANDLE_CFG
  else if d.nslot.toNat < w.val.toNat then s.raise cHANDLE_COUNT
  else if w.val.toNat ≤ count d then s.served.join (pts d w.val.toNat)
  else s.holds w .hw

/-- HWAITC (R199). -/
def execHwaitc (a : GReg) (h : Fin 32) (s : State) : Out :=
  .next (s.handleWait .hwaitc a h Handle.filled fun d n => s.core.loc.fillPts h d.ci.toNat n)

/-- HWAITP (R199). -/
def execHwaitp (a : GReg) (h : Fin 32) (s : State) : Out :=
  .next (s.handleWait .hwaitp a h Handle.free fun d n => s.core.loc.freePts h d.pi.toNat n)

/-- A change of PI and CI applied to the handle as the earlier changes of the cycle left it; one that would leave filled
above NSLOT is not applied and answers none (R199). -/
def Handle.moved (d : Handle) (dpi dci : Int) : Option Handle :=
  let d' := { d with pi := .ofInt 16 (d.pi.toNat + dpi), ci := .ofInt 16 (d.ci.toNat + dci) }
  if d'.filled ≤ d.nslot.toNat then some d' else none

/-- Handle h moves to d': the slots it filled and freed take logical time t (R209, R241); a roll back does neither. -/
def Local.moveTo (l : Local) (h : Fin 32) (d' : Handle) (dpi dci : Int) (t : Word) : Local :=
  let d := l.handles[h]
  { l with
    handles := l.handles.set h d'
    hfill := l.hfill.set h (d.stamp d.pi.toNat dpi.toNat t l.hfill[h])
    hfree := l.hfree.set h (d.stamp d.ci.toNat dci.toNat t l.hfree[h]) }

/-- HADVC, HADVP and HROLL: n against the counts at the start of the cycle, then the change (R199). -/
def State.handleMove (s : State) (a : GReg) (h : Fin 32) (limit : Handle → Nat) (dpi dci : Int) : State :=
  let d := s.core.loc.hstart[h]
  let n := (s.rg a).toNat
  if !d.configured then s.raise cHANDLE_CFG
  else if limit d < n then s.raise cHANDLE_COUNT
  else match s.core.loc.handles[h].moved (dpi * n) (dci * n) with
    | none => s.raise cHANDLE_COUNT
    | some d' => s.onLoc fun l => l.moveTo h d' (dpi * n) (dci * n) s.core.sq.ctr.pts

/-- HADVC (R199). -/
def execHadvc (a : GReg) (h : Fin 32) (s : State) : Out := .next (s.handleMove a h Handle.filled 0 1)

/-- HADVP (R199). -/
def execHadvp (a : GReg) (h : Fin 32) (s : State) : Out := .next (s.handleMove a h Handle.free 1 0)

/-- HROLL (R199). -/
def execHroll (a : GReg) (h : Fin 32) (s : State) : Out := .next (s.handleMove a h Handle.filled (-1) 0)

/-- HPSLOT and HCSLOT: the address of a slot, landing at issue + 2 (R199). -/
def State.handleSlot (s : State) (d a : GReg) (h : Fin 32) (side : Handle → BitVec 16) : State :=
  let r := s.core.loc.hstart[h]
  if !r.configured then s.raise cHANDLE_CFG
  else s.setG d 2 (zextW (r.slotAt ((side r).toNat + (s.rg a).toNat)))

/-- HPSLOT (R199). -/
def execHpslot (d a : GReg) (h : Fin 32) (s : State) : Out := .next (s.handleSlot d a h Handle.pi)

/-- HCSLOT (R199). -/
def execHcslot (d a : GReg) (h : Fin 32) (s : State) : Out := .next (s.handleSlot d a h Handle.ci)

/-- HOWN (R199). -/
def execHown (a : GReg) (h : Fin 32) (s : State) : Out :=
  let v := (s.rg a).toNat
  let d := s.core.loc.handles[h]
  if !s.core.loc.hstart[h].configured then .next (s.raise cHANDLE_CFG)
  else if s.core.handleBusy h then .next (s.raise cHANDLE_BUSY)
  else if bitAt v 0 then
    .next (s.setHandle h { d with
      own := true
      oq := .ofNat 3 (v / 2)
      os := .ofNat 6 (v / 2 ^ 4)
      og := .ofNat 8 (v / 2 ^ 10)
      ocore := s.core.cid })
  else .next (s.setHandle h { d with own := false, oq := 0, os := 0, og := 0, ocore := 0 })

/-! ### Write pointers (R202) and CARM (R201) -/

/-- The logical time of an observation of channel c's write pointer: that of the copy which brought it there, as it stands in
the cycle of the observation; where another has begun in the cycle, as at its start (R202, R209). -/
def State.wpTime (s : State) (c : Fin 8) : Word :=
  let l := s.core.loc
  let t := if l.wp[c].toNat / 2 ^ 48 = l.wpstart[c].toNat / 2 ^ 48 then maxW l.wpptsStart[c] l.wppts[c] else l.wpptsStart[c]
  match s.core.queues[8 + c.val].run with
  | some r => if r.begin_ < s.chip.now then maxW t r.pts else t
  | none => t

/-- WPR: WP as at the start of the cycle, landing at issue + 2; an observation joins the copy's time (R202, R209). -/
def execWpr (d : GReg) (c : Fin 8) (s : State) : Out :=
  .next ((s.setG d 2 s.core.loc.wpstart[c]).join (s.wpTime c))

/-- WPW (R202). -/
def execWpw (a : GReg) (c : Fin 8) (s : State) : Out :=
  let w := s.waitAt .wpw 0 (s.rg a)
  if w.val.toNat ≤ s.core.loc.wpstart[c].toNat then .next (s.served.join (s.wpTime c))
  else .next (s.holds w .hw)

/-- Circuit c is configured with PAT = 1 (R201). -/
def Circ.isNode (c : Circ) : Bool :=
  match c.cfg with
  | some g => g.pat
  | .none => false

/-- CARM (R201). -/
def execCarm (a : GReg) (c : Fin 16) (s : State) : Out :=
  let x := s.core.loc.circ[c]
  if !x.isNode then .next (s.raise cILLEGAL_INSTRUCTION)
  else .next (s.onLoc fun l => { l with
    circ := l.circ.set c { x with armed := .ofNat 16 (min (x.armed.toNat + (s.rg a).toNat) 65535) } })

end Sys2Proof.Machine
end

