-- ==== Sys2Proof/Machine/Translate.lean ====
section
/-! DEFINITION. Translation (R217–R223): page-table entries, the walk, the TLBs, and invalidations. -/

namespace Sys2Proof.Machine

/-! ### The walk (R217–R219) -/

/-- What a walk finds. -/
inductive Walked
  /-- base and size of the page or block, its frame, W, D, CLASS, VER, and the entry's place and value -/
  | page (base size pa : Nat) (e ea : Nat)
  | bad (k : XltKind)
  /-- an uncorrectable error in the entry at this address (R219, R363) -/
  | mem (ea : Nat)
  /-- a budget withholds the read of an entry (R368) -/
  | held
deriving DecidableEq, Repr

/-- Bytes one entry of level l maps (R217). -/
def levelSpan : Nat → Nat
  | 1 => 2 ^ 39
  | 2 => 2 ^ 30
  | 3 => 2 ^ 21
  | _ => 2 ^ 16

/-- The index of an address in a table of level l (R217). -/
def levelIndex (va : Nat) : Nat → Nat
  | 1 => fld va 39 9
  | 2 => fld va 30 9
  | 3 => fld va 21 9
  | _ => fld va 16 5

/-- A physical range lies in the partition's device memory or in a valid window (R203, R219, R353). -/
def Part.present (p : Part) (pa n : Nat) : Bool :=
  match p.place pa with
  | .device => decide (pa + n ≤ p.devBytes)
  | .absent => false
  | _ => true

/-- A window frame forbids CLASS 2, and a host window frame CLASS 1 (R353). -/
def Part.windowClassBad (p : Part) (pa cls : Nat) : Bool :=
  match p.place pa with
  | .host _ => cls == 1 || cls == 2
  | .peer _ => cls == 2
  | _ => false

/-- The checks of a final entry of level l, in the order of R219. -/
def finalEntry (p : Part) (va l e ea : Nat) (store : Bool) : Walked :=
  let size := levelSpan l
  let pa := 2 ^ 12 * fld e 12 36
  if fld e 8 4 != 0 || fld e 48 16 != 0 || fld e 5 2 == 3 || pa % size != 0 || !p.present pa size
      || p.windowClassBad pa (fld e 5 2) then .bad .format
  else if store && !bitAt e 2 then .bad .write
  else .page (va / size * size) size pa e ea

/-- Who walks: the walker of a core's die for that core's context, or the CMP on the hub (R220, R347). -/
abbrev Walker := Option (BitVec 8)

/-- The crossings of a walker's access to a line, and of its reply (R347). -/
def Part.walkHops (q : Part) (who : Walker) (pa : Nat) : List Hop := match who with
  | some c => q.ways (dieOf c) pa
  | Option.none => q.hubWays pa

/-- The budgets permit a die's walker the read of an entry; the CMP's act, of which its walk is a part, is withheld as a whole
(R368; log entry 66). -/
def State.walkPermits (s : State) (p : Fin 64) (who : Walker) (ea : Nat) : Bool :=
  who.isNone || (s.homePermits p ea && s.chip.parts[p].permitsHops (s.chip.parts[p].walkHops who ea ++ s.backHops p ea))

/-- The events of a walker's access to an entry, charged to the context whose walk it is (R348, R367, R370). -/
def State.walkGoes (s : State) (p : Fin 64) (who : Walker) (ea : Nat) : State :=
  (s.atHome p who ea).crosses p who (s.chip.parts[p].walkHops who ea)

/-- The same of the read of an entry (R370). -/
def State.walkPays (s : State) (p : Fin 64) (who : Walker) (ea : Nat) : State := match who with
  | some c => (s.walkGoes p who ea).charge c 13 1
  | none => s.walkGoes p who ea

/-- The walk from a table of level l on: V = 0, a block at level 1 and T = 1 at level 4 are XLT_NOTPRESENT; a nonzero
reserved bit or a table outside the partition's memory is XLT_FORMAT (R219). -/
def State.walkFrom (s : State) (p : Fin 64) (who : Walker) (va : Nat) (store : Bool) (table : Nat) : Nat → Nat →
    Walked × State
  | _, 0 => (.bad .notPresent, s)
  | l, fuel + 1 =>
    let ea := table + 8 * levelIndex va l
    let q := s.chip.parts[p]
    if !q.present ea 8 then (.bad .format, s)
    else if !s.walkPermits p who ea then (.held, s)
    else
      let s := (s.walkPays p who ea).recall p ea
      let e := leNat (s.rdPhys p ea 8)
      if s.poisoned p ea then (.mem ea, s)
      else if !bitAt e 0 then (.bad .notPresent, s)
      else if l = 4 then
        if bitAt e 1 then (.bad .notPresent, s) else (finalEntry q va l e ea store, s)
      else if bitAt e 1 then
        if (l != 3 && fld e 8 4 != 0) || fld e 48 16 != 0 then (.bad .format, s)
        else s.walkFrom p who va store (2 ^ 12 * fld e 12 36 + if l = 3 then 2 ^ 8 * fld e 8 4 else 0) (l + 1) fuel
      else if l = 1 then (.bad .notPresent, s)
      else (finalEntry q va l e ea store, s)

/-! ### Replay measurement: the save of a page (R374) -/

/-- A page of device memory is copied line by line: each line is read at its home, and stored whole at the other's, by an
agent without PTS (R210, R364, R374). -/
def State.copyPage (s : State) (p : Fin 64) (src dst : Nat) : State :=
  (List.range 512).foldl (fun (s : State) i =>
    let s := (s.hubPays p (src + 128 * i)).recall p (src + 128 * i)
    ((s.hubPays p (dst + 128 * i)).homeStore p (dst + 128 * i) (s.rdPhys p (src + 128 * i) 128) 0).st) s

/-- A measurement whose running pass is task t is changed. -/
def State.onMeas (s : State) (t : Option Nat) (f : Measure → Measure) : State :=
  s.onChip fun h => { h with meas := h.meas.map fun m => if t.isSome && m.task == t then f m else m }

/-- Before the first store of pass 0 to a page the page is copied into SAVE; none where SAVE is full (R374). -/
def State.measSave (s : State) (p : Fin 64) (t : Option Nat) (pa : Nat) : Option State :=
  match s.chip.meas.find? fun m => t.isSome && m.task == t with
  | none => some s
  | some m =>
    let page := pa / 65536
    if m.pass ≠ 0 || m.saved.contains page || s.chip.parts[p].place pa != .device then some s
    else if m.saveSize < 65536 * (m.saved.length + 1) then none
    else some ((s.copyPage p (65536 * page) (m.save + 65536 * m.saved.length)).onMeas t fun m =>
      { m with saved := m.saved ++ [page] })

/-- SAVE is full: the CMP ends the measurement (R374). -/
def State.measFull (s : State) (t : Option Nat) : State := s.onMeas t fun m => { m with full := true }

/-- The task for which a walker walks: that of its core, or the measured one whose root the CMP walks from. -/
def State.walkTask (s : State) (p : Fin 64) (who : Walker) (root : Nat) : Option Nat := match who with
  | some c => (s.coreAt c).bind (·.task)
  | none => (s.chip.meas.find? fun m => m.part == p && m.task.isSome && m.root == root).bind (·.task)

/-- The walk sets A, and D for a store, in the final entry: a store with PTS 0; it stops where the class forbids the access
(R219). A poisoned entry is an uncorrectable memory error of the partition (R360). -/
def State.walk (s : State) (p : Fin 64) (who : Walker) (root va : Nat) (store : Bool) (need : Option Nat := none) :
    Walked × State :=
  match s.walkFrom p who va store root 1 4 with
  | (.page b n pa e ea, s) =>
    let e' := (e ||| 8) ||| (if store then 16 else 0)
    if need.isSome && need != some (fld e 5 2) then (.bad .cls, s)
    else if e' = e then (.page b n pa e ea, s)
    else match s.measSave p (s.walkTask p who root) ea with
      | none => (.held, s.measFull (s.walkTask p who root))
      | some s => (.page b n pa e' ea, ((s.walkGoes p who ea).homeStore p ea (leBytes e' 8) 0).st)
  | (.held, _) => (.held, s)
  | (.mem ea, s) => (.mem ea, s.tell p 3 (cMEM 3 (if who.isSome then 6 else 7)) (.ofNat 64 ea) 0)
  | r => r

/-! ### TLBs (R220) -/

/-- The entry a walk fills. -/
def tlbOf (asid : BitVec 16) (base size pa e : Nat) : Tlb :=
  ⟨asid, base, size, pa, bitAt e 2, bitAt e 4, .ofNat 2 (e / 2 ^ 5), bitAt e 7⟩

/-- The entry that maps va under an ASID; a store needs D set, or it walks again (R218, R219). -/
def tlbHit (l : List Tlb) (asid : BitVec 16) (va : Nat) (store : Bool) : Option Tlb :=
  l.find? fun t => t.asid == asid && inSpan va t.base t.size && (!store || !t.w || t.d)

/-- Keep the newest n entries; an older entry of the same page goes. -/
def tlbAdd (l : List Tlb) (t : Tlb) (n : Nat) : List Tlb :=
  (t :: l.filter fun x => !(x.asid == t.asid && x.base == t.base && x.size == t.size)).take n

/-- The outcome of a lookup. -/
inductive Lookup
  | hit (t : Tlb)
  | bad (k : Cause)
  | miss
deriving DecidableEq, Repr

/-- The entry allows the access (R219). -/
def tlbAllows (agent : Nat) (t : Tlb) (store : Bool) : Lookup :=
  if store && !t.w then .bad (cXLT agent .write) else .hit t

/-- The core's or the copy engine's TLB (R220). -/
def Core.tlbFor (c : Core) (cpe : Bool) : List Tlb := if cpe then c.cpeTlb else c.tlb

def Core.fillTlb (c : Core) (cpe : Bool) (t : Tlb) : Core :=
  if cpe then { c with cpeTlb := tlbAdd c.cpeTlb t 32 } else { c with tlb := tlbAdd c.tlb t 64 }

/-- A translation cause of agent 0 as the same kind of another agent; other causes keep their value (R303). -/
def reAgent (agent : Nat) (c : Cause) : Cause := if inSpan c.toNat 0x318 5 then c + .ofNat 10 (5 * agent) else c

/-- The walk is of this context's page on this die (R220). -/
def Walk.onPage (w : Walk) (d : Fin 4) (p : Fin 64) (asid : BitVec 16) (va : Nat) : Bool :=
  w.die == d && w.part == p && w.asid == asid && w.va / 65536 == va / 65536

/-- The cause of a walk that ended says the same of an access of this kind: XLT_WRITE and XLT_CLASS say it of their own
kind of access only. -/
def Walk.tells (w : Walk) (store : Bool) (need : Option Nat) (c : Cause) : Bool :=
  (w.store == store && w.need == need) || (c != cXLT 0 .write && c != cXLT 0 .cls)

/-- The cause with which a walk that served this requester ended. -/
def State.endedWalk (s : State) (cpe : Bool) (va : Nat) (store : Bool) (need : Option Nat) : Option Cause :=
  let c := s.core
  s.chip.walks.findSome? fun w => w.ended.bind fun e =>
    if w.onPage (dieOf c.cid) (s.partOf c) (s.asidOf c) va && w.who.contains (c.cid, cpe) && w.tells store need e then some e
    else none

/-- A new walk takes its place behind those that arrived before it: of one cycle, by ascending core and then by agent
(R220). -/
def addWalk (w : Walk) : List Walk → List Walk
  | [] => [w]
  | x :: r => if x.die == w.die && x.came == w.came && x.who.head?.map (·.1) == w.who.head?.map (·.1)
      && decide (w.agent < x.agent) then w :: x :: r else x :: addWalk w r

/-- One more requester of a walk. -/
def Walk.join (w : Walk) (k : BitVec 8 × Bool) : Walk := if w.who.contains k then w else { w with who := w.who ++ [k] }

/-- A lookup by the core in turn (R220): its TLB, then the die's, then a walk, into which the misses of the die on one page
merge (log entry 28). -/
def State.lookup (s : State) (agent : Nat) (cpe : Bool) (va : Nat) (store : Bool) (need : Option Nat := none) :
    Lookup × State :=
  let asid := s.asidOf s.core
  let d := dieOf s.core.cid
  let me := (s.core.cid, cpe)
  match tlbHit (s.core.tlbFor cpe) asid va store with
  | some t => (tlbAllows agent t store, s)
  | none =>
    match tlbHit s.chip.dies[d].tlb asid va store with
    | some t => (tlbAllows agent t store, (s.event 22 1).onCore (·.fillTlb cpe t))
    | none =>
      match s.endedWalk cpe va store need with
      | some c => (.bad (reAgent agent c), s)
      | none =>
        match s.chip.walks.findIdx? fun w => w.ended.isNone && w.onPage d (s.partOf s.core) asid va with
        | some i =>
          let new := (s.chip.walks[i]?).any fun w => !w.who.contains me
          (.miss, (if new then s.event 22 1 else s).onChip fun h => { h with walks := h.walks.modify i (·.join me) })
        | none =>
          let (k, s) := (s.event 22 1).take
          (.miss, s.onChip fun h => { h with walks := addWalk ⟨d, [me], h.now, agent, s.partOf s.core, asid,
            s.rootOf s.core, va, store, h.now + 1 + Config.latency k, none, need⟩ h.walks })

/-- Walk number w is among the 64 that its die's walker has under way (R220). -/
def Chip.walkRuns (h : Chip) (w : Nat) (d : Fin 4) : Bool :=
  decide ((h.walks.take w).countP (fun x => x.die == d && x.ended.isNone) < 64)

/-- PAGE_WALK (R217–R220): walk w reads its entries at their homes. Its result fills the TLBs of the die and of its
requesters, or stands for one cycle as the cause its waiters take. -/
def execPageWalk (w : Nat) (s : State) : Out :=
  match s.chip.walks[w]? with
  | none => .next s
  | some k =>
    if s.chip.dies[k.die].skips then .next s
    else if k.ended.isSome then .next (s.onChip fun h => { h with walks := h.walks.eraseIdx w })
    else if s.chip.clock k.die < k.ready || !s.chip.walkRuns w k.die then .next s
    else
      let r := s.walk k.part (k.who.head?.map (·.1)) k.root k.va k.store k.need
      let stop := fun (c : Cause) => r.2.onChip fun h =>
        { h with walks := h.walks.modify w fun x => { x with ended := some c } }
      match r.1 with
      | .page b n pa e _ =>
        let t := tlbOf k.asid b n pa e
        .next ((k.who.foldl (fun (s : State) c => s.onCoreAt c.1 (·.fillTlb c.2 t)) r.2).onChip fun h =>
          { h with
            walks := h.walks.eraseIdx w
            dies := h.dies.set k.die { h.dies[k.die] with tlb := tlbAdd h.dies[k.die].tlb t 4096 } })
      | .bad x => .next (stop (cXLT 0 x))
      | .mem _ => .next (stop (cMEM 3 6))
      | .held => .next (k.who.foldl (fun (s : State) c => s.refusedLate c.1) r.2)

/-! ### Invalidations (R221–R223) -/

/-- An entry meets an ASID and a range [lo, hi): it is dropped whole (R222). -/
def Inval.meets (i : Inval) (asid : BitVec 16) (base size : Nat) : Bool :=
  i.asid == asid && decide (base < i.hi) && decide (i.lo < base + size)

def Inval.keep (i : Inval) (l : List Tlb) : List Tlb := l.filter fun t => !i.meets t.asid t.base t.size

/-- The units of a partition: core c (c), the copy engine of core c (256 + c), the TLB and walker of die d (512 + d)
(R222). -/
def invalUnits : List Nat := List.range 516

/-- An access that was looked up before: it holds a dropped translation (R222). -/
def Inval.meetsAt (i : Inval) (asid : BitVec 16) (va : Nat) : Bool := i.meets asid va 1

/-- Unit u of core c (its TLB, or its copy engine's) is what looked up a request of source `src` (R220, R291). -/
def unitOf (u : Nat) (c : BitVec 8) (src : Fin 5) : Bool := u == c.toNat + if src = 3 then 256 else 0

/-- The requests that unit u looked up through a dropped entry are marked (R222). -/
def GReq.marked (r : GReq) (i : Inval) (u : Nat) (c : BitVec 8) (asid : BitVec 16) : GReq :=
  if unitOf u c r.src && i.meetsAt asid r.va then { r with sent := r.sent.map fun x => { x with mark := true } } else r
def SyeReq.marked (r : SyeReq) (i : Inval) (u : Nat) : SyeReq :=
  if r.dev == 0 && unitOf u r.core r.src && i.meetsAt r.asid r.va then { r with mark := true } else r
def WinReq.marked (r : WinReq) (i : Inval) (u : Nat) (asid : BitVec 16) : WinReq :=
  if unitOf u r.core 0 && i.meetsAt asid r.va then { r with mark := true } else r

/-- Requests of windows, changed. -/
def Window.onReqs (w : Window) (f : WinReq → WinReq) : Window :=
  { w with open_ := w.open_.map fun r => { r with reqs := r.reqs.map f } }

def State.markUnit (s : State) (i : Inval) (u : Nat) : State :=
  let s := s.onChip fun h => { h with
    dies := h.dies.mapAll fun d => { d with sye := { d.sye with reqs := d.sye.reqs.map (·.marked i u) } }
    tasks := h.tasks.map fun k => { k with windows := k.windows.map fun e => (e.1, e.2.onReqs (·.marked i u k.asid)) } }
  let cid : BitVec 8 := .ofNat 8 u
  match s.coreAt cid with
  | none => s
  | some c =>
    let a := s.asidOf c
    s.onCoreAt cid fun c => { c with loc := { c.loc with greqs := c.loc.greqs.map (·.marked i u cid a) } }

/-- Marked accesses of unit u are still to be performed (R222). -/
def State.unitOwes (s : State) (i : Inval) (u : Nat) : Bool :=
  (s.chip.dies.toList.any fun d => d.sye.reqs.any fun r => r.mark && unitOf u r.core r.src && i.meetsAt r.asid r.va) ||
  (s.chip.tasks.any fun k => k.windows.any fun e => e.2.open_.any fun r => r.reqs.any fun q =>
    q.mark && q.out.isNone && unitOf u q.core 0 && i.meetsAt k.asid q.va) ||
  ((s.coreAt (.ofNat 8 u)).any fun c => c.loc.greqs.any fun r => unitOf u c.cid r.src && r.sent.any fun x =>
    x.mark && i.meetsAt (s.asidOf c) r.va)

/-- Unit u drops the entries that meet an invalidation; the walks of a die's walker restart (R222). -/
def State.dropUnit (s : State) (i : Inval) (u : Nat) : State :=
  if u < 256 then s.onCoreAt (.ofNat 8 u) fun c => { c with tlb := i.keep c.tlb }
  else if u < 512 then s.onCoreAt (.ofNat 8 u) fun c => { c with cpeTlb := i.keep c.cpeTlb }
  else
    let d : Fin 4 := Fin.ofNat 4 u
    s.onChip fun h => { h with
      dies := h.dies.set d { h.dies[d] with tlb := i.keep h.dies[d].tlb }
      walks := h.walks.filter fun w => !(w.die == d && w.ended.isSome && i.meets w.asid w.va 1) }

/-- The n-th invalidation with its lists of units changed; one that no command and no unit waits for is over. -/
def State.onInval (s : State) (n : Nat) (f : Inval → Inval) : State :=
  s.onChip fun h => { h with invals := (h.invals.modify n f).filter fun i =>
    i.core.isSome || !i.units.isEmpty || !i.owing.isEmpty }

/-- INVALIDATION_ACK (R222, R223): unit u receives the oldest invalidation it has not, drops its entries, has its walks in
flight restart and marks the accesses that were looked up through a dropped entry; it acknowledges once those are
performed or aborted. -/
def execInvalidationAck (u : Nat) (s : State) : Out :=
  let s := match s.chip.invals.findIdx? (·.units.contains u) with
    | none => s
    | some n => match s.chip.invals[n]? with
      | none => s
      | some i => ((s.dropUnit i u).markUnit i u).onInval n fun i => { i with
          units := i.units.filter (· != u)
          owing := i.owing ++ [u] }
  .next (match s.chip.invals.findIdx? (·.owing.contains u) with
    | none => s
    | some n => match s.chip.invals[n]? with
      | none => s
      | some i => if s.unitOwes i u then s else s.onInval n fun i => { i with owing := i.owing.filter (· != u) })

end Sys2Proof.Machine
end

