-- ==== Sys2Proof/Machine/Global.lean ====
section
/-! DEFINITION. Global accesses: what is performed at a home or an SYE (R207, R279, R284, R285, R311), the requests of
the core's agents, and the blocking accesses of the sequencer (R72, R73). -/

namespace Sys2Proof.Machine

/-! ### Atomics (R284) -/

/-- Width of an atomic's word in bits. -/
def atomWidth (f : AtomFmt) : Nat := 8 * f.bytes

/-- MIN and MAX of an atomic (R284): by Val for integers (R54), by R129 for fp32. -/
def atomPick (f : AtomFmt) (m x : Nat) (less : Bool) : Nat :=
  match f with
  | .fp32 => fp32 (if less then minR (fp32Val m) (fp32Val x) else maxR (fp32Val m) (fp32Val x))
  | _ =>
    let W := atomWidth f
    let u := f == .n32 || f == .n64
    if decide (valN x W u < valN m W u) == less then lowN x W else lowN m W

/-- m' (R284). -/
def atomNew (op : AtomOp) (f : AtomFmt) (m x cmp : Nat) : Nat :=
  let W := atomWidth f
  let m := lowN m W
  let x := lowN x W
  match op with
  | .add => match f with
    | .fp32 => fp32 (addR (fp32Val m) (fp32Val x))
    | _ => lowN (m + x) W
  | .min => atomPick f m x true
  | .max => atomPick f m x false
  | .and => lowN (m &&& x) W
  | .or => lowN (m ||| x) W
  | .xor => lowN (m ^^^ x) W
  | .swap => lowN x W
  | .cas => if lowN m W = lowN cmp W then lowN x W else lowN m W
  | .finc => lowN (m + 1) W

/-- STAT[1] of an atomic: the CAS found equality (R284). -/
def atomEq (op : AtomOp) (f : AtomFmt) (m cmp : Nat) : Bool :=
  match op with
  | .cas => lowN m (atomWidth f) == lowN cmp (atomWidth f)
  | _ => false

/-! ### Performing an access at its place -/

/-- What an access answers. -/
structure Done where
  bytes : List Byte
  pts   : Word
  old   : Word
  flag  : Bool
  bad   : Option Cause
  st    : State

/-- The memory-error agent of a translation agent (R303). -/
def errAgent : Nat → Nat
  | 0 => 0
  | 1 | 2 => 1
  | 3 => 2
  | 4 => 3
  | 5 => 4
  | _ => 7

/-- Bytes an operation touches. -/
def GlobOp.size : GlobOp → Nat
  | .load n => n
  | .store bs => bs.length
  | .row l => (l.map fun e => e.1 + e.2.length).foldl max 0
  | .atom _ f _ _ => f.bytes
  | .merge .. => 4

/-- The operation writes. -/
def GlobOp.writes : GlobOp → Bool
  | .load _ => false
  | _ => true

/-- The operation reads. -/
def GlobOp.reads : GlobOp → Bool
  | .store _ | .row _ => false
  | _ => true

/-- For whom an access is performed: partition, task, whether the page is versioned, lease, memory-error agent. -/
structure For where
  part  : Fin 64
  task  : Option Nat
  ver   : Bool
  lease : Nat
  err   : Nat
deriving DecidableEq, Repr

/-- Spans stored into the version of a task; none where its die's space is full (R312). -/
def State.versionSpans (s : State) (f : For) (pa : Nat) : List (Nat × List Byte) → Option State
  | [] => some s
  | e :: r => match s.versionStore (f.task.getD 0) f.part (pa + e.1) e.2 with
    | none => none
    | some s => s.versionSpans f pa r

/-- A store to a versioned page: performed at the home by the store rule, its bytes held in the version (R207, R311).
It faults the task where the home's die has no space (R312). -/
def State.performVer (s : State) (f : For) (pa : Nat) (pts : Word) (l : List (Nat × List Byte)) : Done :=
  let s := s.recall f.part pa
  let x := s.lineAt f.part pa
  let t := storeTime pts x.rts
  match s.versionSpans f pa l with
  | none => ⟨[], pts, 0, false, some (cVERSION_CAPACITY (s.chip.parts[f.part].homeDie pa).val), s⟩
  | some s => ⟨[], t, 0, false, none, s.setLine f.part pa { x with wts := t, rts := t }⟩

/-- One access performed at the home, or at the SYE that is the home (R207, R279, R284, R285). A read of a poisoned line is
an uncorrectable memory error of the partition (R360, R363). -/
def State.perform (s : State) (f : For) (pa : Nat) (pts : Word) (op : GlobOp) : Done :=
  let ofGot := fun (g : Got) => (⟨g.bytes, g.pts, 0, false, none, g.st⟩ : Done)
  if op.reads && s.poisoned f.part pa then
    ⟨[], pts, 0, false, some (cMEM 3 f.err), s.tell f.part 3 (cMEM 3 f.err) (.ofNat 64 pa) 0⟩
  else match op with
    | .load n =>
      ofGot (if f.ver then s.versionLoad (f.task.getD 0) f.part pa n pts f.lease else s.homeLoad f.part pa n pts f.lease)
    | .store bs => if f.ver then s.performVer f pa pts [(0, bs)] else ofGot (s.homeStore f.part pa bs pts)
    | .row l => if f.ver then s.performVer f pa pts l else ofGot (s.homeStoreRow f.part pa l pts)
    | .atom o fm x cmp =>
      let s := s.recall f.part pa
      let m := leNat (s.rdPhys f.part pa fm.bytes)
      let g := s.homeStore f.part pa (leBytes (atomNew o fm m x.toNat cmp.toNat) fm.bytes) pts
      ⟨[], g.pts, zextW m, atomEq o fm m cmp.toNat, none, g.st⟩
    | .merge _ va j x byLevel r mseed mseq node =>
      let s := s.recall f.part pa
      let m := leNat (s.rdPhys f.part pa 4)
      let u := micaApply r m j x byLevel (draw mseed (drawKey va mseq.toNat node.toNat))
      if u.sat && r.ts then
        let g := s.homeLoad f.part pa 4 pts f.lease
        ⟨[], g.pts, zextW u.old, true, some cMICA_SAT, g.st⟩
      else if !byLevel && x = 0 then
        -- a weight of 0 leaves the level unchanged (R228); the access is still the atomic of R207
        let g := s.homeStore f.part pa (leBytes m 4) pts
        ⟨[], g.pts, zextW u.old, false, none, g.st⟩
      else
        let g := s.homeStore f.part pa (leBytes u.word 4) pts
        ⟨[], g.pts, zextW u.old, u.sat, none, g.st⟩

/-! ### Ways and budgets (R347, R348, R351, R367, R368) -/

/-- The Penyan port of an address, where it names a peer: the route table's port of its device (R353). -/
def State.portFor (s : State) (p : Fin 64) (pa : Nat) : Option (Fin 16) :=
  match s.chip.parts[p].place pa with
  | .peer a => some (Fin.ofNat 16 (look 0 (a / 2 ^ 56) s.chip.route))
  | _ => none

/-- Every budget an access counts on is permitted, with a write-back that it calls for (R367, R368); `l2`: its home is an L2
bank. -/
def State.permitted (s : State) (p : Fin 64) (die : Fin 4) (pa : Nat) (atL1 l2 : Bool) : Bool :=
  let q := s.chip.parts[p]
  atL1 || ((!l2 || q.place pa != .device || s.homePermits p pa) && q.permitsHops (q.ways die pa ++ s.backHops p pa) &&
    match s.portFor p pa with
    | some k => q.permits 3 k.val
    | none => true)

/-- The write-back of a line that makes room in the L1 for this one is permitted (R368). -/
def State.evictPermits (s : State) (p : Fin 64) (pa : Nat) : Bool := match s.core.victim (pa / 128) with
  | none => true
  | some v => s.backPermits p v

/-- The events of an access by the core in turn that leaves it, on their budgets and on its energy (R367, R370). -/
def State.pays (s : State) (p : Fin 64) (die : Fin 4) (pa : Nat) (atL1 l2 : Bool) : State :=
  if atL1 then s
  else
    let (k, s) := s.take
    let q := s.chip.parts[p]
    let hops := q.ways die pa
    let s := (s.onPart p fun x => hops.foldl (fun x e => x.spend 2 (hopInst e) 1) x).event 8 hops.length
    let s := match s.portFor p pa with
      | some j => (s.onPart p fun x => x.spend 3 j.val 1).event 9 1
      | none => s
    if !l2 || q.place pa != .device then s
    else
      let s := (s.onPart p fun x => x.spend 1 (q.homeBank pa) 1).event 6 1
      (s.onPart p fun x => x.spend 0 (q.homeChannel pa) (Config.gddr k).2).event 7 (Config.gddr k).1

/-! ### Penyan ports: sending (R351) -/

def State.onLink (s : State) (port : Fin 16) (f : Link → Link) : State :=
  s.onChip fun h => { h with links := h.links.set port (f h.links[port]) }

/-- The partition that owns a Penyan port. -/
def Chip.partOfPort (h : Chip) (port : Fin 16) : Option (Fin 64) :=
  (List.finRange 64).find? fun (p : Fin 64) => h.parts[p].plnk.getLsbD port.val

/-- A port changes; the flits it sends count for its owner (R351, R367). -/
def State.onPort (s : State) (port : Fin 16) (l : Link) : State :=
  let n := l.sent.length - s.chip.links[port].sent.length
  let s := s.onLink port fun _ => l
  match s.chip.partOfPort port with
  | some p => if n = 0 then s else s.onPart p fun q => q.spend 3 port.val n
  | none => s

/-- The 248 bytes of a flit before its CRC (R351). -/
def flitBits (f : Flit) : Nat :=
  f.seq.toNat + 2 ^ 12 * f.vc.val + 2 ^ 14 * bit f.ak + 2 ^ 15 * bit f.nk + 2 ^ 16 * f.aseq.toNat + 2 ^ 32 * f.cred.toNat
    + 2 ^ 64 * f.payload.toNat

/-- One bit of CRC-64 (ECMA-182), most significant bit first. -/
def crcBit (c : Nat) (b : Bool) : Nat :=
  let x := bitAt c 63 != b
  (c * 2) % 2 ^ 64 ^^^ (if x then 0x42F0E1EBA9EA3693 else 0)

def crcBits (c : Nat) : List Bool → Nat
  | [] => c
  | b :: r => crcBits (crcBit c b) r

/-- CRC-64 over bytes in their order (R351, R374). -/
def crc64 (bs : List Byte) : Nat :=
  crcBits 0 (bs.flatMap fun b => (List.range 8).map fun i => b.getLsbD (7 - i))

/-- The CRC of a flit (R351). -/
def flitSum (f : Flit) : BitVec 64 := .ofNat 64 (crc64 (leBytes (flitBits f) 248))
def flitGood (f : Flit) : Bool := f.crc == flitSum f

/-- The flit with its CRC. -/
def flitSeal (f : Flit) : Flit := { f with crc := flitSum f }

/-- A flit of a VC can be sent: the port is up and not retraining, its VC holds a credit, and the replay buffer has room. -/
def Link.canSend (l : Link) (vc : Fin 4) : Bool :=
  l.up && !l.training && l.credits[vc] != 0 && decide (l.buffer.length < 256)

/-- CRED of the next flit: at most 15 credits of each VC (R351). -/
def Link.cred (l : Link) : BitVec 16 :=
  .ofNat 16 ((List.finRange 4).map fun (i : Fin 4) => min l.owed[i] 15 * 16 ^ i.val).sum

/-- A flit is sent, and kept in the replay buffer until an acknowledgement covers it. It returns credits and carries what is
due: the NK of the expected SEQ, or the acknowledgement of every flit accepted (R351). -/
def Link.send (l : Link) (vc : Fin 4) (payload : BitVec 1920) : Link :=
  let f := flitSeal ⟨l.next, vc, !l.nakDue && !l.accepted.isEmpty, l.nakDue, if l.nakDue then l.expect else l.expect - 1, l.cred, payload, 0⟩
  { l with
    next := l.next + 1
    credits := l.credits.set vc (l.credits[vc] - 1)
    owed := l.owed.map fun n => n - 15
    ackDue := l.ackDue && l.nakDue
    nakDue := false
    buffer := l.buffer ++ [f]
    sent := l.sent ++ [f] }

/-- What is due is sent in a flit of its own on VC 3, once the port can send one (R351; log entry 112). -/
def Link.answer (l : Link) : Link := if (l.ackDue || l.nakDue) && l.canSend 3 then l.send 3 0 else l

/-- Replies to the partner leave on VC 1 in their order, as many as the port can send; n bounds them (R351). -/
def Link.reply (l : Link) : Nat → Link
  | 0 => l
  | n + 1 => match l.replies with
    | [] => l
    | x :: r => if l.canSend 1 then (({ l with replies := r } : Link).send 1 x).reply n else l

/-- The budget of the port's owner permits a flit (R368). -/
def State.portMay (s : State) (port : Fin 16) : Bool := match s.chip.partOfPort port with
  | some p => s.chip.parts[p].permits 3 port.val
  | none => true

/-- What is due at a port leaves through it, once it can be sent and its budget permits the flits: replies to the partner, then an
acknowledgement or a NK of its own (R351, R368). -/
def State.portStep (s : State) (port : Fin 16) : State :=
  let l := s.chip.links[port]
  if (l.replies.isEmpty && !l.ackDue && !l.nakDue) || !s.portMay port then s
  else s.onPort port (l.reply l.replies.length).answer

/-- A reply to the partner of a port waits to be sent (R351, R353). -/
def State.replyOn (s : State) (port : Fin 16) : State :=
  let (k, s) := s.take
  s.onLink port fun l => { l with replies := l.replies ++ [Config.flitPayload k] }

/-! ### Mica entries of the sequencer's accesses (R231, R232) -/

/-- The checks of MLD, MLDL and MINC for counters of W bits, in their order, and the entry that covers the word (R232). -/
def State.micaCheck (s : State) (glob : Bool) (A : Word) (W : Nat) (j : Word) (weight : Option Word) :
    Except Cause (Fin 8) :=
  if A.toNat % 4 ≠ 0 then .error cMISALIGNED
  else if !glob && decide (s.spadSize ≤ A.toNat) then .error cLOCAL_BOUNDS
  else if glob && decide (2 ^ 48 ≤ A.toNat) then .error cGLOBAL_RANGE
  else match s.core.loc.regionOf (!glob) A.toNat with
    | none => .error cMICA_REGION
    | some k =>
      if s.core.loc.regions[k].width ≠ W then .error cMICA_WIDTH
      else if 32 / W ≤ j.toNat then .error cMICA_REGION
      else match weight with
        | some x => if 65535 < x.toNat then .error cMICA_WEIGHT else .ok k
        | none => .ok k

/-- What a global form that waits keeps of its operands: the counter, and the width of its type. -/
def micaKeep (W j : Nat) : Nat := 32 * W + j % 32

/-- The checks of a waiting global form, on the entry in force in this cycle (R231, R232). -/
def State.micaNow (s : State) (w : Wait) : Except Cause (Fin 8) :=
  s.micaCheck true w.addr (w.val.toNat / 32) (.ofNat 64 (w.val.toNat % 32)) none

/-- The cause that ends the wait of a global form whose entry has changed since its first attempt. -/
def State.micaEnds (s : State) (r : GReq) : Option Cause := match r.need, s.core.sq.waitOf .global with
  | some 2, some w => match s.micaNow w with
    | .error c => some c
    | .ok _ => none
  | _, _ => none

/-! ### Requests of the core's agents -/

/-- A request is posted: it may be made in the cycle after `now`, or later (log entry 6). -/
def State.ask (s : State) (src : Fin 5) (agent : Nat) (cpe l1 : Bool) (need : Option Nat) (sys : Bool) (va : Nat)
    (what : GlobOp) (pts : Word) : Nat × State :=
  let (k, s) := s.take
  let id := s.core.loc.nreq
  (id, s.onLoc fun l =>
    { l with
      nreq := id + 1
      greqs := l.greqs ++ [⟨id, src, agent, cpe, l1, need, sys, va, what, pts, s.chip.now + 1 + Config.latency k, none, none⟩] })

/-- A request's answer stands ready. -/
def Local.answered (l : Local) (id : Nat) : Option Served := l.served.find? (·.id == id)

/-- The answer is taken. -/
def Local.takeAnswer (l : Local) (id : Nat) : Local := { l with served := l.served.filter (·.id != id) }

/-- The request is performed: it leaves the list, and its answer stands ready. -/
def Local.serve (l : Local) (d : Served) : Local :=
  { l with
    greqs := l.greqs.filter (·.id != d.id)
    served := l.served ++ [d] }

/-- A load that the core's L1 can perform itself, or a store to a line it owns (R207, R208). -/
def Core.l1Hit (c : Core) (pa : Nat) (pts : Word) (store : Bool) : Bool :=
  match c.l1.find? (·.1 == pa / 128) with
  | none => false
  | some (_, l) => l.owned || (!store && decide (pts.toNat ≤ l.rts.toNat))

/-- The PTS with which a request is performed: its agent's as it stands (R207). -/
def Core.reqPts (c : Core) (r : GReq) : Word := c.agentPts r.id (if r.src = 1 then maxW r.pts c.sq.ctr.pts else r.pts)

/-- An update that the sequencer performs uses MSEED and the region entry as they stand (R49, R229, R231). -/
def GlobOp.asIssued (o : GlobOp) (c : Core) : GlobOp := match o with
  | .merge wd va j x b r _ n node =>
    .merge wd va j x b (((c.loc.regionOf false va).map fun k => c.loc.regions[k]).getD r) (.ofNat 32 c.sq.mseed.toNat) n node
  | o => o

def Core.opOf (c : Core) (r : GReq) : GlobOp := if r.src = 1 then r.what.asIssued c else r.what

/-- Request r was performed: its answer stands ready, and its agent has the access's PTS. -/
def State.answerReq (s : State) (r : GReq) (d : Done) : State :=
  d.st.onCore fun c => { c.raiseAgent r.id d.pts with
    loc := c.loc.serve ⟨r.id, d.bytes, d.pts, s.chip.now, d.old, d.flag, d.bad⟩ }

/-- Request r ends with a cause. -/
def State.failReq (s : State) (r : GReq) (c : Cause) : State :=
  s.onLoc fun l => l.serve ⟨r.id, [], r.pts, s.chip.now, 0, false, some c⟩

/-- A request of the core in turn is changed. -/
def State.onReq (s : State) (id : Nat) (f : GReq → GReq) : State :=
  s.onLoc fun l => { l with greqs := l.greqs.map fun x => if x.id == id then f x else x }

/-- The acting core's L1 copy of a line goes: a shared one is dropped, an owned one recalled (R215, R287). -/
def State.dropCopy (s : State) (p : Fin 64) (pa : Nat) : State :=
  if (s.core.owned (pa / 128)).isSome then s.recall p pa else s.onCore (·.dropLine (pa / 128))

/-- Every shared line of the core's L1 is dropped: the edge of an SYE command at SYSTEM scope (R356). -/
def Core.dropShared (c : Core) : Core := { c with l1 := c.l1.filter (·.2.owned) }

/-- The request goes to the SYE of its home's die with the next sequence number of its source (R280, R291). -/
def State.toSye (s : State) (r : GReq) (p : Fin 64) (pa : Nat) : State :=
  let seq := s.core.syeSeq[r.src]
  let d := s.chip.parts[p].homeDie pa
  let s := (s.onCore fun c => { c with syeSeq := c.syeSeq.set r.src (seq + 1) }).onReq r.id fun x => { x with sync := some seq }
  s.onChip fun h => { h with dies := h.dies.set d { h.dies[d] with
    sye := { h.dies[d].sye with
      reqs := h.dies[d].sye.reqs ++ [⟨0, s.core.cid, r.src, seq, r.id, p, s.asidOf s.core, s.core.sq.lease.toNat, r.va, pa,
        false, r.pts, r.what, false⟩] } } }

/-- The number of a requester id: device, core, source (R291). -/
def SyeReq.rid (r : SyeReq) : Nat := 2 ^ 16 * r.dev.toNat + 2 ^ 8 * r.core.toNat + r.src.val
def SyeReply.rid (r : SyeReply) : Nat := 2 ^ 16 * r.dev.toNat + 2 ^ 8 * r.core.toNat + r.src.val

/-- A request of a core of this module, which is device 0 of the fabric (log entry 134). -/
def SyeReq.ours (r : SyeReq) : Bool := r.dev == 0

/-- A kept reply is one of the last 64 of its requester, whose latest request has number `seq` (R291). -/
def SyeReply.fresh (k : SyeReply) (seq : BitVec 16) : Bool := decide ((seq - k.seq).toNat < 64)

/-- Requester `rid` has sent number seq: of its kept replies only the last 64 stay (R291). -/
def State.syeAge (s : State) (rid : Nat) (seq : BitVec 16) : State :=
  s.onChip fun h => { h with dies := h.dies.mapAll fun x => { x with sye := { x.sye with
    kept := x.sye.kept.filter fun k => k.rid != rid || k.fresh seq } } }

/-- The request leaves through a Penyan port as a flit; an SYE command takes a sequence number, or keeps the one it had
(R291, R351, R352). -/
def State.toPeer (s : State) (r : GReq) (t : Tlb) (port : Fin 16) : State :=
  let (k, s) := s.take
  let seq := r.sync.getD s.core.syeSeq[r.src]
  let s := if r.src = 0 && r.sync.isNone then
      (s.onCore fun c => { c with syeSeq := c.syeSeq.set 0 (seq + 1) }).syeAge (2 ^ 8 * s.core.cid.toNat) seq
    else s
  let s := s.onReq r.id fun x => { x with
    sync := if r.src = 0 then some seq else none
    sent := some ⟨port, s.chip.links[port].next, t, x.sent.any (·.mark), false⟩ }
  s.onLink port (·.send 0 (Config.flitPayload k))

/-- The remote address lies in the remote partition's device memory (R353). -/
def peerInside (a n : Nat) : Bool := decide (a % 2 ^ 48 + n ≤ Config.peerSize (a / 2 ^ 48))

/-- The partner has accepted the flit of request r: the access is performed at the peer, an SYE command at its SYE; an
address outside the remote memory has failed there (R72, R351, R353). -/
def State.peerDone (s : State) (r : GReq) (t : Tlb) : State :=
  let p := s.partOf s.core
  let pa := t.pa + (r.va - t.base)
  let c := s.core
  match s.chip.parts[p].place pa with
  | .peer a =>
    if !peerInside a r.what.size then s.failReq r (cXLT r.agent .format)
    else s.answerReq r (s.perform ⟨p, none, false, c.sq.lease.toNat, errAgent r.agent⟩ pa (c.reqPts r) (c.opOf r))
  | _ => s.failReq r (cXLT r.agent .format)

/-- The access of request r whose address translated to entry t is performed, or leaves for the SYE or for a peer (R205,
R278, R279, R280, R291, R311). -/
def State.route1 (s : State) (r : GReq) (t : Tlb) : State :=
  let p := s.partOf s.core
  let pa := t.pa + (r.va - t.base)
  let q := s.chip.parts[p]
  let die := dieOf s.core.cid
  let ver := t.ver && t.cls == 0
  let pts := s.core.reqPts r
  let what := s.core.opOf r
  let lease := s.core.sq.lease.toNat
  let port := s.portFor p pa
  if r.need.isSome && r.need != some t.cls.toNat then s.failReq r (cXLT r.agent .cls)
  else
    let inL1 := r.l1 && t.cls != 1 && !ver && q.place pa == .device && s.core.l1Lines != 0
    let hit := inL1 && s.core.l1Hit pa pts r.what.writes
    let ready := match port with
      | some k => !s.chip.links[k].up || s.chip.links[k].canSend 0
      | none => true
    if !ready then s
    else if !s.permitted p die pa hit (t.cls != 1) || (inL1 && !hit && !s.evictPermits p pa) then s.onCore fun c => { c with refused := true }
    else
      match (if r.what.writes then s.measSave p s.core.task pa else some s) with
      | none => s.measFull s.core.task
      | some s =>
        match port with
        | some k =>
          let c := cLINK k.val 0
          if !s.chip.links[k].up then (s.tell p 4 c 0 0).failReq r c
          else ((s.pays p die pa hit (t.cls != 1)).toPeer r t k).act
        | none =>
          let s := (s.pays p die pa hit (t.cls != 1)).act
          let s := if r.sys then s.dropCopy p pa else s
          if t.cls == 1 || r.src == 0 then s.toSye r p pa
          else
            let f : For := ⟨p, s.core.task, ver, lease, errAgent r.agent⟩
            if inL1 && !(s.poisoned p pa && !hit) then
              match what with
              | .load n =>
                let g := s.l1Load p pa n pts lease
                s.answerReq r ⟨g.bytes, g.pts, 0, false, none, g.st⟩
              | .store bs =>
                let g := s.l1Store p pa bs pts
                s.answerReq r ⟨[], g.pts, 0, false, none, g.st⟩
              | op => s.answerReq r (s.perform f pa pts op)
            else s.answerReq r (s.perform f pa pts what)

/-- A request whose flit a reset of the link has lost: an SYE command is sent again, one more flit of the budget; a plain access
waits for its task's fault (R351, R352). -/
def State.resend (s : State) (r : GReq) (x : PeerSent) : State :=
  let p := s.partOf s.core
  if r.sync.isNone || !s.chip.links[x.port].canSend 0 then s
  else if !s.chip.parts[p].permits 3 x.port.val then s.onCore fun c => { c with refused := true }
  else ((s.onPart p fun q => q.spend 3 x.port.val 1).toPeer r x.tlb x.port).act

/-- One attempt at a request whose time has come: a lookup, then its access (R220); of one that a peer has, whether its
flit is acknowledged (R351). -/
def State.attempt (s : State) (r : GReq) : State :=
  if s.chip.now < r.ready then s
  else match r.sent with
    | some x =>
      let l := s.chip.links[x.port]
      if x.lost then s.resend r x
      else if l.buffer.any fun f => f.seq == x.seq then s
      else (s.peerDone r x.tlb).act
    | none =>
      if r.sync.isSome then s
      else match s.lookup r.agent r.cpe r.va r.what.writes r.need with
        | (.miss, s) => s
        | (.bad c, s) => s.failReq r c
        | (.hit t, s) => s.route1 r t

/-- The first request of each source that is still to be performed: one source's accesses are performed in order
(R50, R211). -/
def firstOfEach : List GReq → List (Fin 5) → List GReq
  | [], _ => []
  | r :: rest, seen => if seen.contains r.src then firstOfEach rest seen else r :: firstOfEach rest (r.src :: seen)

/-! ### What an SYE keeps (R291) -/

def State.onSye (s : State) (d : Fin 4) (f : Sye → Sye) : State :=
  s.onChip fun h => { h with dies := h.dies.set d { h.dies[d] with sye := f h.dies[d].sye } }

/-- The memory-error agent of a source (R291, R303). -/
def srcErr : Fin 5 → Nat
  | 0 => 4
  | 1 => 0
  | 2 => 1
  | 3 => 2
  | _ => 3

/-- Keep a reply, and of its requester's others the last 63 (R291). -/
def Sye.keep (y : Sye) (r : SyeReq) (d : Served) : Sye :=
  let y := { y with kept := y.kept.filter fun k => k.rid != r.rid || k.fresh r.seq }
  let mine := y.kept.filter (·.rid == r.rid)
  { y with kept := y.kept.filter (·.rid != r.rid) ++ (mine ++ [(⟨r.dev, r.core, r.src, r.seq, d⟩ : SyeReply)]).drop (mine.length + 1 - 64) }

/-- The kept reply that answers a request (R291). -/
def Sye.keptFor (y : Sye) (r : SyeReq) : Option SyeReply :=
  y.kept.find? fun k => k.rid == r.rid && k.seq == r.seq && k.fresh r.seq

/-- The request has been served. -/
def Sye.gone (y : Sye) (r : SyeReq) : Sye :=
  { y with
    reqs := y.reqs.filter (· != r)
    last := r.rid
    used := true }

/-- The reply of die d's SYE is kept; of the requester's others the SYEs keep the last 63 between them (R291). -/
def State.syeKeep (s : State) (d : Fin 4) (r : SyeReq) (a : Served) : State :=
  (s.syeAge r.rid r.seq).onSye d (·.keep r a)

/-- One access of the SYE of die d for a request with the PTS of its agent (R207, R280): what it answers. An MMERGE reaches
its L2 home, whose access it counts (R279, R370). -/
def State.syePerform (s : State) (d : Fin 4) (r : SyeReq) (pts : Word) (what : GlobOp) : Served × State :=
  let y := s.chip.dies[d].sye
  match y.keptFor r with
  | some k => (k.rep, s.onSye d (·.gone r))
  | none =>
    let s := s.onPart r.part fun p => p.spend 4 d.val 1
    let s := if r.ours then s.charge r.core 10 1 else s
    let x := s.perform ⟨r.part, none, false, r.lease, srcErr r.src⟩ r.pa pts what
    let a : Served := ⟨r.id, x.bytes, x.pts, s.chip.clock (dieOf r.core), x.old, x.flag, x.bad⟩
    (a, (x.st.onSye d (·.gone r)).syeKeep d r a)

/-- The request that an SYE has granted its turn to for the core in turn. -/
def State.grantOf (s : State) (r : GReq) : Option (Fin 4 × SyeReq) :=
  (List.finRange 4).findSome? fun (d : Fin 4) => (s.chip.dies[d].sye.reqs.find? fun y =>
    y.granted && y.ours && y.core == s.core.cid && y.id == r.id).map fun y => (d, y)

/-- The sequencer's request to an SYE: performed in the issue's cycle where the SYE has granted it its turn; a turn that the
sequencer cannot use passes (R50, R280). -/
def State.takeGrant (s : State) (r : GReq) : State :=
  match s.grantOf r with
  | none => s
  | some (d, y) =>
    if !s.core.sq.may then s.onSye d fun x => { x with reqs := x.reqs.map fun z => if z == y then { z with granted := false } else z }
    else if s.chip.dies[d].skips || s.chip.dies[d].sye.used then s
    else
      let (a, s) := s.syePerform d y (s.core.reqPts r) (s.core.opOf r)
      (s.onCore fun c => { c with loc := c.loc.serve a }).act

/-- GLOBAL_ACCESS_COMPLETE (R72, R204, R207, R220): each agent of the core in turn makes its next access; what is
performed stands ready for it. The sequencer makes its own last, and only where the instruction that waits may issue in
this cycle, so that the access is performed in its issue cycle (R50). -/
def execGlobalAccessComplete (s : State) : Out :=
  let l := firstOfEach s.core.loc.greqs []
  let s := (l.filter (·.src != 1)).foldl State.attempt s
  .next ((l.filter (·.src == 1)).foldl (fun (s : State) r =>
    let s := s.takeGrant r
    if s.core.sq.may && s.core.loc.greqs.any (·.id == r.id) then match s.micaEnds r with
      | some c => s.failReq r c
      | none => s.attempt r
    else s) s)

/-! ### Blocking accesses of the sequencer (R40, R72) -/

/-- Causes of an access that R304 lists as asynchronous: memory errors, a version space that is full, links. -/
def asyncCause (c : Cause) : Bool := inSpan c.toNat 0x2D8 64 || inSpan c.toNat 0x37F 4 || inSpan c.toNat 0x388 120

/-- A blocking access, with a value the wait keeps: at the first issue attempt its checks, then its request; the wait ends
when the access is performed, and then the instruction issues or takes the access's cause (R72, R232). An asynchronous
cause of the access finds the instruction not issued, and a handler that such a cause does not interrupt makes the access
anew (R304, R306). `l1`: LDG and STG go through the L1, which the mica forms do not (R205, R232). -/
def State.blocking (s : State) (l1 : Bool) (bad : Option Cause) (need : Option Nat) (A val : Nat) (op : GlobOp)
    (fin : Wait → Served → State → State) : State :=
  match s.core.sq.waitOf .global with
  | none =>
    match bad with
    | some c => s.raise c
    | none =>
      let (id, s) := s.ask 1 0 false l1 need false A op s.core.sq.ctr.pts
      s.holds ⟨.global, .ofNat 64 A, .ofNat 64 val, .ofNat 64 id, s.chip.now⟩ .gl
  | some w =>
    match s.core.loc.answered w.third.toNat with
    | none => s.holds w .gl
    | some d =>
      let s := s.onLoc fun l => l.takeAnswer w.third.toNat
      match d.bad with
      | some c => if asyncCause c then ((s.raiseAsync c 0).holds w .gl).served else (s.served.join d.pts).raise c
      | none => fin w d (s.served.join d.pts)

/-- The checks of LDG and STG, in their order (R72). -/
def globalBad (A : Word) (n : Nat) : Option Cause :=
  if 2 ^ 48 ≤ A.toNat then some cGLOBAL_RANGE
  else if A.toNat % n ≠ 0 then some cMISALIGNED
  else none

/-- A global load at A (R72): it lands one cycle after the wait ends. -/
def State.loadGlobal (s : State) (d : GReg) (z : LdSz) (A : Word) : State :=
  s.blocking true (globalBad A z.bytes) none A.toNat 0 (.load z.bytes) fun _ g s => s.setG d 1 (z.extend (leNat g.bytes))

/-- A global store at A (R72): gs is read when the wait begins. -/
def State.storeGlobal (s : State) (r : GReg) (z : StSz) (A : Word) : State :=
  s.blocking true (globalBad A z.bytes) none A.toNat 0 (.store (leBytes (s.rg r).toNat z.bytes)) fun _ _ s => s

/-- LDG (R72). -/
def execLdg (d a : GReg) (z : LdSz) (o : BitVec 12) (s : State) : Out :=
  .next (s.loadGlobal d z (addrOff (s.rg a) o))

/-- STG (R72). -/
def execStg (r a : GReg) (z : StSz) (o : BitVec 12) (s : State) : Out :=
  .next (s.storeGlobal r z (addrOff (s.rg a) o))

/-- LDGX (R73). -/
def execLdgx (d a b : GReg) (k : BitVec 2) (z : LdSz) (s : State) : Out :=
  .next (s.loadGlobal d z (addrIdx (s.rg a) (s.rg b) k))

/-- STGX (R73). -/
def execStgx (r a b : GReg) (k : BitVec 2) (z : StSz) (s : State) : Out :=
  .next (s.storeGlobal r z (addrIdx (s.rg a) (s.rg b) k))

end Sys2Proof.Machine
end

