-- ==== Sys2Proof/Machine/Engine.lean ====
section
/-! DEFINITION. What the engines share (R190, R199, R237–R241, R306): heads of queues, ports and slots of a command,
its accesses, its completion and its failure. -/

namespace Sys2Proof.Machine

/-! ### Heads and ports -/

/-- The command that may begin next in queue k: its head, while none is begun, none has completed in this cycle and the queue
has not stopped (R240, R306). -/
def Core.headCmd (c : Core) (k : Fin 22) : Option (Instr × BitVec 18 × Word × Nat × Option (Fin 16)) :=
  let q := c.queues[k]
  if q.run.isSome || q.stop.isSome || c.ended.any (·.queue == k) then none
  else match q.ents with
    | .cmd i node pts order port :: _ => some (i, node, pts, order, port)
    | _ => none

/-- The edge ports that a command takes tokens from (R242, R270, R272, R273, R276). -/
def takesFrom : Instr → List (Fin 16)
  | .drainh _ _ _ p _ | .draina _ _ _ _ p _ _ _ | .drainx _ p _ => [p]
  | .ldb (.port p) _ _ _ _ => [p]
  | .mmul _ _ _ _ _ p _ _ pf _ => p :: match pf with
    | some x => x.port.toList
    | none => []
  | .recur _ _ _ p _ _ _ => [p]
  | _ => []

/-- The edge ports that a command pushes tokens into. -/
def pushesTo : Instr → List (Fin 16)
  | .feedh _ _ _ p _ _ | .feeda _ _ _ _ p _ _ _ | .feedi _ _ p _ _ _ | .feedm _ p _ => [p]
  | .ldb _ _ _ fwd _ => fwd.toList
  | .mmul _ _ _ _ _ _ fwd _ pf _ => fwd.toList ++ match pf with
    | some x => x.fwd.toList
    | none => []
  | .gmul _ _ _ _ _ _ _ _ fwd _ => fwd.toList
  | .rdacc _ _ _ _ _ (.port p _) _ => [p]
  | .recur _ _ _ _ fwd _ _ => fwd.toList
  | _ => []

/-- Every edge port a command names (R112). -/
def portsOf (i : Instr) : List (Fin 16) := takesFrom i ++ pushesTo i

/-- PORT_CONFLICT for port p and a command of queue k (R112, R243, R244): bound for the task or as a command port, held
by another engine, or without the arc the command needs. -/
def Core.portConflict (c : Core) (k : Fin 22) (i : Instr) (p : Fin 16) : Bool :=
  (match c.fab.ports[p].bind with
    | .free => false
    | .held j => classOfQueue j != classOfQueue k
    | _ => true) ||
  ((takesFrom i).contains p && (c.fab.intoPort p).isNone) || ((pushesTo i).contains p && (c.fab.fromPort p).isEmpty)

/-- Condition 4 of R240: no other command holds a port it names, nor has until a completion in this cycle. -/
def Core.portsFree (c : Core) (i : Instr) : Bool := (portsOf i).all fun p =>
  c.fab.ports[p].bind == .free && !(c.ended.any fun e => e.ports.contains p)

/-! ### Declarations (R239–R241) -/

/-- A group that names an unconfigured handle, or a count above NSLOT (R240). -/
def Local.groupBad (l : Local) : Option Grp → Bool
  | some g => !l.hstart[g.h].configured || decide (l.hstart[g.h].nslot.toNat < g.n.val + 1)
  | none => false

/-- Counts that a declaration takes from handle h on the input side. -/
def declIn (d : Decl) (h : Fin 32) : Nat := grpCount h d.a + grpCount h d.b

/-- Counts of handle h that begun commands have reserved, or that have been advanced in this cycle: the handle as at its start
does not show these (R199, R240). -/
def Core.takenIn (c : Core) (h : Fin 32) : Nat := c.reservedIn h + (c.loc.handles[h].ci - c.loc.hstart[h].ci).toNat
def Core.takenOut (c : Core) (h : Fin 32) : Nat := c.reservedOut h + (c.loc.handles[h].pi - c.loc.hstart[h].pi).toNat

/-- Conditions 2 and 3 of R240, on the handles as at the start of the cycle. -/
def Core.slotsReady (c : Core) (d : Decl) : Bool :=
  (match d.a with
    | some g => decide (c.takenIn g.h + declIn d g.h ≤ c.loc.hstart[g.h].filled)
    | none => true) &&
  (match d.b with
    | some g => decide (c.takenIn g.h + declIn d g.h ≤ c.loc.hstart[g.h].filled)
    | none => true) &&
  match d.o with
    | some g => decide (c.takenOut g.h + g.n.val + 1 ≤ c.loc.hstart[g.h].free)
    | none => true

/-- Slot number i of handle h as PI or CI would count it (R197). -/
def Handle.slot (h : Handle) (i : Nat) : Nat := h.slotAt (i % 65536)

/-- The first slots of groups A, B and O of a command that begins now (R240). -/
def Core.slotA (c : Core) (d : Decl) : Nat := match d.a with
  | some g => c.loc.hstart[g.h].ci.toNat + c.takenIn g.h
  | none => 0
def Core.slotB (c : Core) (d : Decl) : Nat := match d.b with
  | some g => c.loc.hstart[g.h].ci.toNat + c.takenIn g.h + grpCount g.h d.a
  | none => 0
def Core.slotO (c : Core) (d : Decl) : Nat := match d.o with
  | some g => c.loc.hstart[g.h].pi.toNat + c.takenOut g.h
  | none => 0

/-- Logical time of the advances that completed a command's declaration: those that filled the slots of its input groups,
and those that freed the slots of its output group (R241). -/
def Core.declPts (c : Core) (d : Decl) : Word :=
  let t := fun (g : Option Grp) (lo : Nat) (f : Fin 32 → Nat → Nat → Word) => match g with
    | some g => f g.h lo (g.n.val + 1)
    | none => 0
  maxW (maxW (t d.a (c.slotA d) c.loc.fillPts) (t d.b (c.slotB d) c.loc.fillPts)) (t d.o (c.slotO d) c.loc.freePts)

/-! ### A begun command -/

/-- A barrier arrival. -/
def isBarr : Instr → Bool
  | .barr .. => true
  | _ => false

/-- A command at its begin in cycle `now` (R240, R241, R209); a BARR starts, as after a FENCE, no earlier in logical time than
the commands completed before it (R292). -/
def Core.newRun (c : Core) (i : Instr) (node : BitVec 18) (pts : Word) (order : Nat) (via : Option (Fin 16)) (now : Nat) :
    Run where
  cmd := i
  node := node
  pts := maxW (maxW (maxW pts (c.declPts (declOf i))) c.floor) (if isBarr i then c.donePts else 0)
  order := order
  via := via
  begin_ := now
  src := .zero
  dst := .zero
  slotA := c.slotA (declOf i)
  slotB := c.slotB (declOf i)
  slotO := c.slotO (declOf i)
  n := 0
  asked := 0
  pre := 0
  stage := 0
  wait := []
  rows := []
  bytes := []
  srow := none
  sdata := []
  smask := []
  irows := []
  pend := []
  bad := none
  idx := 0
  op := none
  hist := []
  sel := .start
  old := 0
  stat := 0
  until_ := now
  done := false

/-- Change the begun command of queue k. -/
def Core.onRun (c : Core) (k : Fin 22) (f : Run → Run) : Core := c.onQueue k fun q => { q with run := q.run.map f }

def State.onRun (s : State) (k : Fin 22) (f : Run → Run) : State := s.onCore (·.onRun k f)

/-- The command of queue k holds its ports from its begin on (R112). -/
def Core.holdPorts (c : Core) (k : Fin 22) (i : Instr) : Core :=
  { c with fab := { c.fab with ports := (portsOf i).foldl (fun (v : Vector Port 16) (p : Fin 16) =>
      v.set p { v[p] with bind := .held k }) c.fab.ports } }

/-- The ports that queue k held are free (R112, R241). -/
def Core.freePorts (c : Core) (k : Fin 22) : Core :=
  { c with fab := { c.fab with ports := c.fab.ports.mapAll fun p => if p.bind = .held k then { p with bind := .free } else p } }

/-- The head of queue k begins as run r (R240). -/
def State.startRun (s : State) (k : Fin 22) (r : Run) : State :=
  ((s.onCore fun c => (c.onQueue k fun q => { q with ents := q.ents.drop 1, run := some r }).holdPorts k r.cmd)).act

/-- The requester of a command's scratchpad accesses (R190). -/
def requesterOf (k : Fin 22) : Requester :=
  if k.val < 8 then .port k
  else if h : k.val < 16 then .cpe ⟨k.val - 8, by omega⟩
  else if k.val = 16 then .mxe
  else .command k

/-- A scratchpad access out of range is a cause of the engine's own; other causes keep their value. -/
def engineCause (own c : Cause) : Cause := if c = cLOCAL_BOUNDS then own else c

/-- A scratchpad request is presented; the command side's have the issue order of their command (R190). -/
def State.requestFor (s : State) (who : Requester) (order : Nat) (acc : Access) (pts : Word) : Nat × State :=
  let id := s.core.loc.nreq
  (id, s.onLoc fun l => { l with nreq := id + 1, reqs := l.reqs ++ [⟨id, who, acc, pts, s.chip.now, 0, order⟩] })

def State.request (s : State) (who : Requester) (acc : Access) (pts : Word) : Nat × State := s.requestFor who 0 acc pts

/-- A request that is still to be performed. -/
def Local.waits (l : Local) (id : Nat) : Bool := l.reqs.any (·.id == id) || l.greqs.any (·.id == id)

/-- Requests of one requester are all performed. -/
def Local.quiet (l : Local) (who : Requester) : Bool := !(l.reqs.any (·.who == who))

/-- Requests of the core in turn at the SYEs are aborted. -/
def State.dropSye (s : State) (ids : List Nat) : State :=
  let cid := s.core.cid
  s.onChip fun h => { h with dies := h.dies.mapAll fun d =>
    { d with sye := { d.sye with reqs := d.sye.reqs.filter fun r => !(r.ours && r.core == cid && ids.contains r.id) } } }

/-- A cause raised by the begun or beginning command of queue k: it stops there, is removed, advances no handle,
releases its ports, and the queue stops (R241, R306). Its accesses not yet performed are dropped. -/
def State.failRun (s : State) (k : Fin 22) (c : Cause) : State :=
  let ids := match s.core.queues[k].run with
    | some r => r.wait
    | none => []
  (((s.onCore fun x =>
    let x := (x.onQueue k fun q => { q with run := none, stop := some c }).freePorts k
    { x with
      removed := true
      loc := { x.loc with
        reqs := x.loc.reqs.filter fun r => !ids.contains r.id
        greqs := x.loc.greqs.filter fun r => !ids.contains r.id
        served := x.loc.served.filter fun r => !ids.contains r.id } }).dropSye ids).raiseAsync c 0).act

/-- The head of queue k raises a cause before it begins. -/
def State.failHead (s : State) (k : Fin 22) (c : Cause) : State :=
  ((s.onCore fun x => { (x.onQueue k fun q => { q with ents := q.ents.drop 1, stop := some c }) with
    removed := true }).raiseAsync c 0).act

/-! ### Completion (R199, R209, R241) -/

/-- A command advances a handle: the change is applied to the state that earlier changes of the cycle left; none where
filled would exceed NSLOT (R199). -/
def State.advance (s : State) (h : Fin 32) (dpi dci : Nat) (pts : Word) : Option State :=
  (s.core.loc.handles[h].moved dpi dci).map fun d => s.onLoc fun l => l.moveTo h d dpi dci pts

/-- The advances of a group. -/
def State.advanceGroup (s : State) (g : Option Grp) (out : Bool) (n : Nat) (pts : Word) : Option State :=
  match g with
  | none => some s
  | some g => if out then s.advance g.h n 0 pts else s.advance g.h 0 n pts

/-- Slots of a group. -/
def grpSlots : Option Grp → Nat
  | some g => g.n.val + 1
  | none => 0

/-- The begun command of queue k completes (R241): CI of A and B, PI of O, by what FEEDH and DRAINH have not advanced slot by
slot; its ports, and its logical time. -/
def State.completeRun (s : State) (k : Fin 22) (r : Run) : State :=
  let d := declOf r.cmd
  match ((s.advanceGroup d.a false (r.leftIn (grpSlots d.a)) r.pts).bind (·.advanceGroup d.b false (grpSlots d.b) r.pts)).bind
      (·.advanceGroup d.o true (r.leftOut (grpSlots d.o)) r.pts) with
  | none => s.failRun k (cENG (classOfQueue k) .handleCount)
  | some s => (s.onCore fun c =>
      { ((c.onQueue k fun q => { q with run := none }).freePorts k) with
        donePts := maxW c.donePts r.pts
        ended := ⟨k, r.order, portsOf r.cmd⟩ :: c.ended
        rotAt := if k = 19 then s.chip.now else c.rotAt }).act

/-! ### The logical time of a core (R209) -/

/-- The largest of a list of logical times. -/
def latest (l : List Word) : Word := l.foldl maxW 0

/-- The maximum over every agent and bank of the core (R209). -/
def Core.finalPts (c : Core) : Word :=
  latest ([c.sq.ctr.pts, c.donePts, c.floor] ++ c.loc.bt.toList ++
    (c.loc.hfill.toList ++ c.loc.hfree.toList).flatMap (·.map (·.2)) ++ c.loc.wppts.toList ++
    c.fab.cells.toList.map (·.pts) ++ c.fab.ports.toList.map (·.pts) ++
    c.queues.toList.filterMap fun (q : Queue) => q.run.map fun (r : Run) => r.pts)

/-! ### FENCE markers (R92, R209) -/

/-- No command issued before `order` is queued or begun, or has been until its completion in this cycle. -/
def Core.allBefore (c : Core) (order : Nat) : Bool :=
  c.ended.all (fun e => decide (order ≤ e.order)) && c.queues.toList.all fun q =>
    (q.ents.all fun e => match e with
      | .cmd _ _ _ o _ => decide (order ≤ o)
      | .fence .. => true) &&
    match q.run with
    | some r => decide (order ≤ r.order)
    | none => true

/-- FENCE markers at the head of queue k complete once every earlier command has, and, at SYSTEM scope, the owned lines of the
L1 are back at their homes: later commands start no earlier in logical time than those completed (R92, R209, R214). A marker
is no command: one at the head of a stopped queue completes too (log entry 132). -/
def Core.passFences (c : Core) (k : Fin 22) : Nat → Core
  | 0 => c
  | n + 1 => match c.queues[k].run, c.queues[k].ents with
    | none, .fence order sc _ :: _ =>
      if c.allBefore order && (sc != .system || c.wb.isEmpty) then
        { (c.onQueue k fun q => { q with ents := q.ents.drop 1 }) with floor := maxW c.floor c.donePts }.passFences k n
      else c
    | _, _ => c

/-- Answers of reads, in the order asked, while they stand ready: (served, still waiting). -/
def Local.readyPrefix (l : Local) : List Nat → List Served
  | [] => []
  | i :: r => match l.answered i with
    | some d => d :: l.readyPrefix r
    | none => []

/-- The first outstanding read of a command, where its answer stands ready. -/
def Local.firstAnswer (l : Local) : List Nat → Option Served
  | [] => none
  | i :: _ => l.answered i

end Sys2Proof.Machine
end

