-- ==== Sys2Proof/Machine/Desc.lean ====
section
/-! DEFINITION. Descriptor patterns (R254, R255): their elements, the rising patterns, and the conditions an element
meets. -/

namespace Sys2Proof.Machine

namespace Desc

/-- Count(d) (R255). -/
def count (d : Desc) : Nat := (d.dims.map (·.ext.toNat)).foldl (· * ·) 1

/-- STR_j as an integer. -/
def stride (x : Dim) : Int := x.str.toInt

/-- The sum over the dimensions of Element(d, n) (R255). -/
def offsetOf : List Dim → Nat → Int
  | [], _ => 0
  | x :: r, n => (n % x.ext.toNat : Nat) * stride x + offsetOf r (n / x.ext.toNat)

/-- Element(d, n): the address of the first byte of element n, with no wrap (R255). -/
def element (d : Desc) (n : Nat) : Int := d.base.toNat + offsetOf d.dims n

/-- The span that Ascending(d) builds up, dimension by dimension; none once a stride is too small. -/
def ascSpan (esize : Nat) : List Dim → Int → Option Int
  | [], span => some span
  | x :: r, span =>
    if x.ext.toNat ≤ 1 then ascSpan esize r span
    else if stride x < span + esize then none
    else ascSpan esize r (span + (x.ext.toNat - 1 : Nat) * stride x)

/-- 2^E. -/
def esize (d : Desc) : Nat := 2 ^ d.e.toNat

/-- Ascending(d) (R255). -/
def ascending (d : Desc) : Bool := (ascSpan d.esize d.dims 0).isSome

/-- Min(2^E, 64): what an access of an element moves at most. -/
def chunk (d : Desc) : Nat := min d.esize 64

/-- STR_0 and EXT_0. -/
def str0 (d : Desc) : Int := match d.dims with
  | x :: _ => stride x
  | [] => 0
def ext0 (d : Desc) : Nat := match d.dims with
  | x :: _ => x.ext.toNat
  | [] => 0

end Desc

/-- An element of `n` bytes at A is legal (R255): a multiple of Min(n, 64), wholly below ScratchpadSize or 2^48. -/
def elementLegal (glob : Bool) (spad : Nat) (A : Int) (n : Nat) : Bool :=
  decide (0 ≤ A) && decide (A % (min n 64 : Nat) = 0) && decide (A + n ≤ (if glob then 2 ^ 48 else spad : Nat))

/-- The word indices that n bytes at A touch. -/
def wordsOf (A n : Nat) : List Nat := (List.range ((A + n + 3) / 4 - A / 4)).map (A / 4 + ·)

/-- An aligned row of 64 bytes as a token's data. -/
def rowOf (bs : List Byte) : Row := .ofNat 512 (leNat bs)

/-- The bytes of a token's data. -/
def rowBytes (d : Row) : List Byte := leBytes d.toNat 64

end Sys2Proof.Machine
end

