-- ==== Sys2Proof/Machine/Feed.lean ====
section
/-! DEFINITION. FEED and DRAIN (R242–R244, R385): running commands push and take at most one token each cycle; every
scratchpad row is one engine request, every global row one request through the core's L1. -/

namespace Sys2Proof.Machine

/-! ### Shared by the engines -/

/-- A budget withholds the progress of an engine in this cycle (R368). -/
def State.held (s : State) : State := s.onCore fun c => { c with refused := true }

/-- Answers are taken. -/
def Local.takeAll (l : Local) (ids : List Nat) : Local := { l with served := l.served.filter fun d => !ids.contains d.id }

/-- Rows that were read and stand ready join the command's rows, up to the first cause; the command's time joins the
banks and lines it read (R209). -/
def State.absorbRows (s : State) (k : Fin 22) (r : Run) : State :=
  let l := (s.core.loc.readyPrefix r.wait).takeWhile (·.bad.isNone)
  if l.isEmpty then s
  else
    let t := l.foldl (fun t d => maxW t d.pts) r.pts
    (s.onLoc fun x => x.takeAll (l.map (·.id))).onRun k fun r => { r with
      pts := t
      wait := r.wait.drop l.length
      rows := r.rows ++ l.map fun d => (rowOf d.bytes, d.pts) }

/-- Writes that were performed leave the list of those outstanding, in order; the number of them, and the first cause.
A write in the scratchpad answers only with a cause; one in global memory always answers. -/
def Local.writesDone (l : Local) : List Nat → List Nat × Word × Option Cause
  | [] => ([], 0, none)
  | i :: r =>
    if l.waits i then ([], 0, none)
    else match l.answered i with
      | none => let x := l.writesDone r; (i :: x.1, x.2.1, x.2.2)
      | some d => match d.bad with
        | some c => ([], 0, some c)
        | none => let x := l.writesDone r; (i :: x.1, maxW d.pts x.2.1, x.2.2)

/-- The begun command of a queue. -/
def State.runOf (s : State) (k : Fin 22) : Option Run := s.core.queues[k].run

/-! ### FEED (R243) -/

/-- Handle and slot size of a declared group. -/
def Core.slotRows (c : Core) : Option Grp → Nat
  | some g => c.loc.handles[g.h].slotsz.toNat
  | none => 1

/-- Row i of the slots of a group whose first slot is `first`. -/
def Core.slotRow (c : Core) (g : Option Grp) (first i : Nat) : Nat := match g with
  | some g =>
    let h := c.loc.handles[g.h]
    h.slot (first + i / h.slotsz.toNat) + 64 * (i % h.slotsz.toNat)
  | none => 0

/-- Rows that a group's slots hold. -/
def Core.groupRows (c : Core) : Option Grp → Nat
  | some g => (g.n.val + 1) * c.loc.handles[g.h].slotsz.toNat
  | none => 0

/-- Where a row of a FEED or DRAIN stands: local, or global; none where the element is not legal (R243, R255). -/
def elementAt (glb : Bool) (spad : Nat) (d : Desc) (base : Nat) (i : Nat) : Option Nat :=
  let A := base + d.element i
  if d.esize = 64 && elementLegal glb spad A 64 then some A.toNat else none

/-- Row i of a running FEED. -/
def State.feedRow (s : State) (r : Run) (i : Nat) : Option Nat := match r.cmd with
  | .feedh _ _ _ _ _ d =>
    let a := s.core.slotRow d.a r.slotA i
    if a + 64 ≤ s.spadSize then some a else none
  | .feeda _ glb _ _ _ base _ _ => elementAt glb s.spadSize r.src base.toNat i
  | _ => none

/-- Rows that a FEED reads, and tokens it pushes before its marker. -/
def Core.feedTotal (c : Core) (r : Run) : Nat := match r.cmd with
  | .feedh _ _ _ _ _ d => c.groupRows d.a
  | .feeda .. => r.src.count
  | .feedi .. => 1
  | _ => 0

/-- Port, TAG, full/empty mode, global side, and whether a marker follows. -/
structure FeedForm where
  port : Fin 16
  tag  : BitVec 24
  fe   : Bool
  glb  : Bool
  eoi  : Bool

def feedForm : Instr → Option FeedForm
  | .feedh _ fe eoi p tag _ => some ⟨p, tag, fe, false, eoi⟩
  | .feeda _ glb fe eoi p _ _ _ => some ⟨p, 0, fe, glb, eoi⟩
  | .feedi _ eoi p _ _ _ => some ⟨p, 0, false, false, eoi⟩
  | .feedm _ p _ => some ⟨p, 0, false, false, true⟩
  | _ => none

/-- The token of FEEDI: w1 and w2 in its low lanes (R243). -/
def feediRow (x y : Half) : Row := .ofNat 512 (x.toNat + 2 ^ 32 * y.toNat)

/-- FEEDH: a slot whose last token was pushed in this cycle is consumed, in the order of R199 (R243). -/
def State.feedSlot (s : State) (k : Fin 22) (r : Run) : Option State := match r.cmd with
  | .feedh _ _ _ _ _ d =>
    match d.a with
    | none => some s
    | some g =>
      if r.n / s.core.slotRows d.a ≤ r.stage then some s
      else (s.advance g.h 0 1 r.pts).map fun s => s.onRun k fun r => { r with stage := r.stage + 1 }
  | _ => some s

/-- A push of a FEED in this cycle: its next token, or its marker after the last (R243, R385). -/
def State.feedOne (s : State) (k : Fin 22) (r : Run) (f : FeedForm) : State :=
  match r.rows with
  | (d, _) :: rest =>
    let a := s.portPush f.port none ⟨d, f.tag, .data, false, 0, 0, r.pts⟩
    if a.1 then a.2.act.onRun k fun r => { r with
        rows := rest
        n := r.n + 1
        done := !f.eoi && r.n + 1 == s.core.feedTotal r }
    else a.2
  | [] =>
    if r.n < s.core.feedTotal r || r.done then s
    else if !f.eoi then s.onRun k fun r => { r with done := true }
    else
      let a := s.portMarker f.port (.marker r.pts)
      if a.1 then a.2.act.onRun k fun r => { r with done := true } else a.2

/-- A FEED asks for its next row: at most four stand between a read and its push. -/
def State.feedAsk (s : State) (k : Fin 22) (r : Run) (f : FeedForm) : State :=
  if s.core.feedTotal r ≤ r.asked || 4 ≤ r.wait.length + r.rows.length || r.bad.isSome then s
  else match s.feedRow r r.asked with
    | none => s.onRun k fun r => { r with bad := some (cPORT f.port .addr) }
    | some A =>
      let x := if f.glb then s.ask 2 1 false true none false A (.load 64) r.pts
        else s.request (requesterOf k) (.read A 64 (if f.fe then wordsOf A 64 else [])) r.pts
      x.2.onRun k fun r => { r with
        asked := r.asked + 1
        wait := r.wait ++ [x.1] }

/-- A FEED stops on the cause of its next row, once every token before it is pushed. -/
def State.feedBad (s : State) (r : Run) (f : FeedForm) : Option Cause :=
  if !r.rows.isEmpty then none
  else match (s.core.loc.firstAnswer r.wait).bind (·.bad) with
    | some c => some (engineCause (cPORT f.port .addr) c)
    | none => if r.wait.isEmpty && decide (r.asked ≤ r.n) then r.bad else none

/-- The FEED of queue k in a cycle. -/
def State.feedStep (s : State) (k : Fin 22) : State :=
  match s.runOf k with
  | none => s
  | some r =>
    match feedForm r.cmd with
    | none => s
    | some f =>
      if !s.energyOk s.core then s.held
      else match s.feedBad r f with
        | some c => s.failRun k c
        | none =>
          let s := s.feedOne k r f
          match s.runOf k with
          | none => s
          | some r => s.feedAsk k r f

/-- A FEEDH or DRAINH stands inside a slot; a pre-emption stops it between slots, the others between tokens (R313). -/
def Core.midSlot (c : Core) (r : Run) : Bool := match r.cmd with
  | .feedh _ _ _ _ _ d => r.n % c.slotRows d.a != 0
  | .drainh _ _ _ _ d => r.n % c.slotRows d.o != 0
  | _ => false

/-- The begun command of queue k moves tokens in this cycle: once a pre-emption has stopped the sources, only on to the end of
its slot, and not past the port's own stop (R313). -/
def State.mayMove (s : State) (k : Fin 22) (port : Fin 16) : Bool :=
  !s.core.fab.stopping || (!s.core.fab.ports[port].quiet && (s.runOf k).any s.core.midSlot)

/-- FEED_PUSH (R243, R313, R385): the FEED of queue q pushes a token or a marker where the arcs have room, and asks for its
next row. -/
def execFeedPush (q : Fin 4) (s : State) : Out :=
  let k := Fin.ofNat 22 q.val
  match (s.runOf k).bind fun r => feedForm r.cmd with
  | none => .next s
  | some f => .next (if s.mayMove k f.port then s.feedStep k else s)

/-- The end of the cycle of a FEED: rows read stand ready; it completes once its last token or marker is pushed. -/
def State.feedEnd (s : State) (k : Fin 22) (r : Run) : State :=
  match s.feedSlot k r with
  | none => s.failRun k (cENG 0 .handleCount)
  | some s => match s.runOf k with
    | none => s
    | some r => if r.done then s.completeRun k r else s.absorbRows k r

/-! ### DRAIN (R244) -/

/-- Row i of a running DRAIN. -/
def State.drainRow (s : State) (r : Run) (i : Nat) : Option Nat := match r.cmd with
  | .drainh _ _ _ _ d =>
    let a := s.core.slotRow d.o r.slotO i
    if a + 64 ≤ s.spadSize then some a else none
  | .draina _ glb _ _ _ base _ _ => elementAt glb s.spadSize r.src base.toNat i
  | _ => none

/-- Tokens that a DRAIN writes. -/
def Core.drainTotal (c : Core) (r : Run) : Nat := match r.cmd with
  | .drainh _ _ _ _ d => c.groupRows d.o
  | .draina .. => r.src.count
  | _ => 0

def drainForm : Instr → Option FeedForm
  | .drainh _ fe eoi p _ => some ⟨p, 0, fe, false, eoi⟩
  | .draina _ glb fe eoi p _ _ _ => some ⟨p, 0, fe, glb, eoi⟩
  | .drainx _ p _ => some ⟨p, 0, false, false, true⟩
  | _ => none

/-- DRAINX discards data tokens (R244). -/
def discards : Instr → Bool
  | .drainx .. => true
  | _ => false

/-- A token that a DRAIN takes: its time joins the port's and the command's (R209). -/
def State.drainGets (s : State) (k : Fin 22) (p : Fin 16) (t : Token) (f : Run → Run) : State :=
  ((s.portTake p t).onRun k fun r => f { r with pts := maxW r.pts t.pts }).act

/-- The stop of a DRAIN at its next take: once the writes of the tokens before it are performed. -/
def State.drainFail (s : State) (k : Fin 22) (r : Run) (c : Cause) : State :=
  if r.rows.isEmpty && r.wait.isEmpty then s.failRun k c else s

/-- A DRAIN takes the token or marker it expects; another raises PORT_EOI (R244). -/
def State.drainOne (s : State) (k : Fin 22) (r : Run) (f : FeedForm) : State :=
  match s.portHead f.port with
  | none => s
  | some t =>
    let total := s.core.drainTotal r
    if r.done then s
    else if discards r.cmd then s.drainGets k f.port t fun r => { r with done := t.kind == .eoi }
    else if r.n < total then
      if t.kind = .eoi then s.drainFail k r (cPORT f.port .eoi)
      else if 4 ≤ r.rows.length then s
      else match s.drainRow r r.n with
        | none => s.drainFail k r (cPORT f.port .addr)
        | some _ => s.drainGets k f.port t fun r => { r with
            rows := r.rows ++ [(t.data, t.pts)]
            n := r.n + 1 }
    else if !f.eoi then s
    else if t.kind = .data then s.drainFail k r (cPORT f.port .eoi)
    else s.drainGets k f.port t fun r => { r with done := true }

/-- A DRAIN presents its next write, of a token taken in an earlier cycle, once the one before is performed (R244,
R385). -/
def State.drainWrite (s : State) (k : Fin 22) (r : Run) (f : FeedForm) : State :=
  match r.rows with
  | [] => s
  | (d, _) :: rest =>
    if !r.wait.isEmpty then s
    else match s.drainRow r r.asked with
      | none => s.failRun k (cPORT f.port .addr)
      | some A =>
        let x := if f.glb then s.ask 2 2 false true none false A (.store (rowBytes d)) r.pts
          else s.request (requesterOf k) (.write [(A, rowBytes d)] f.fe) r.pts
        x.2.onRun k fun r => { r with
          asked := r.asked + 1
          rows := rest
          wait := [x.1] }

/-- The DRAIN of queue k in a cycle: a write, then a take; stopped by a pre-emption it still writes what it took (R313). -/
def State.drainStep (s : State) (k : Fin 22) : State :=
  match s.runOf k with
  | none => s
  | some r =>
    match drainForm r.cmd with
    | none => s
    | some f =>
      if !s.energyOk s.core then s.held
      else
        let s := s.drainWrite k r f
        match s.runOf k with
        | none => s
        | some r => if s.mayMove k f.port then s.drainOne k r f else s

/-- DRAIN_TAKE (R244, R313, R385): the DRAIN of queue q takes one token and writes or checks it. -/
def execDrainTake (q : Fin 4) (s : State) : Out := .next (s.drainStep (Fin.ofNat 22 (4 + q.val)))

/-- DRAINH: the slot whose last write was just performed is produced (R244). -/
def State.drainSlot (s : State) (k : Fin 22) (r : Run) : Option State := match r.cmd with
  | .drainh _ _ _ _ d =>
    match d.o with
    | none => some s
    | some g =>
      if r.asked % s.core.slotRows d.o ≠ 0 then some s
      else (s.advance g.h 1 0 r.pts).map fun s => s.onRun k fun r => { r with stage := r.stage + 1 }
  | _ => some s

/-- A DRAIN is over: every token taken and written, and the marker it expects taken (R244). -/
def Core.drainOver (c : Core) (r : Run) (f : FeedForm) : Bool :=
  r.rows.isEmpty && r.wait.isEmpty && decide (c.drainTotal r ≤ r.n) && (r.done || !f.eoi)

/-- The end of the cycle of a DRAIN: its write was performed, and it may be over. -/
def State.drainEnd (s : State) (k : Fin 22) (r : Run) : State :=
  match drainForm r.cmd with
  | none => s
  | some f =>
    let x := s.core.loc.writesDone r.wait
    match x.2.2 with
    | some c => s.failRun k (engineCause (cPORT f.port .addr) c)
    | none =>
      let r' := { r with
        wait := r.wait.drop x.1.length
        pts := maxW r.pts x.2.1 }
      let s1 := (s.onLoc fun l => l.takeAll x.1).onRun k fun _ => r'
      match (if x.1.isEmpty then some s1 else s1.drainSlot k r') with
      | none => s.failRun k (cENG 1 .handleCount)
      | some s =>
        match s.runOf k with
        | none => s
        | some r => if s.core.drainOver r f then s.completeRun k r else s

end Sys2Proof.Machine
end

