-- ==== Sys2Proof/Machine/Banks.lean ====
section
/-! DEFINITION. The banks (R185, R188–R192, R194, R196): which engine request a bank serves in each half, and what the
access does. -/

namespace Sys2Proof.Machine

/-- The bank of a request. -/
def Access.bank : Access → Fin 32
  | .read a _ _ => bankOf a
  | .write ((a, _) :: _) _ => bankOf a
  | .write [] _ => 0

/-- The access lies below ScratchpadSize, as SPLIT stands in its own cycle (R186). -/
def Access.inside (x : Access) (spad : Nat) : Bool := match x with
  | .read a n _ => decide (a + n ≤ spad)
  | .write l _ => l.all fun e => decide (e.1 + e.2.length ≤ spad)

/-- A waiter of R196. -/
def Access.waiter : Access → Bool
  | .read _ _ (_ :: _) => true
  | _ => false

/-- The words a waiter waits for were full at the start of the cycle; other accesses wait for none. -/
def Local.ready (l : Local) : Access → Bool
  | .read _ _ ws => ws.all l.fullAtStart
  | .write _ _ => true

/-- The fixed priority of R190, the highest first; the command side is one requester. -/
def Requester.rank : Requester → Nat
  | .l1 => 0
  | .rot q => 8 + q.val
  | .mxe => 16
  | .circuit c => 32 + c.val
  | .port k => 64 + k.val
  | .command _ => 128
  | .cpe ch => 256 + ch.val

/-- A request that was refused in 16 cycles (R190). -/
def Req.aged (r : Req) : Bool := decide (16 ≤ r.refused)

/-- A row access of the copy engine. -/
def Requester.isCpe : Requester → Bool
  | .cpe _ => true
  | _ => false

/-- The copy engine shows a row only of the channel whose turn it is (R261). -/
def Local.cpeShows (l : Local) : Requester → Bool
  | .cpe ch => l.cpeTurn == some ch
  | _ => true

/-- The copy engine has performed the row access of channel ch: its turn of the cycle is over, and it is one beat of the budget
(R261, R367, R370). -/
def State.cpeServed (s : State) (ch : Fin 8) : State :=
  ((s.onCore fun c => { c with
    lastCh := ch
    loc := { c.loc with
      cpeUsed := true
      cpeTurn := none } }).onPart (s.partOf s.core) fun q => q.spend 5 s.core.cid.toNat 1).event 11 1

def State.beat (s : State) : Requester → State
  | .cpe ch => s.cpeServed ch
  | _ => s

/-- The requests presented to bank b, of each requester the first in issue order and then the oldest (R190). A waiter is presented while it is the oldest of
the bank's waiters whose words are full (R196); the copy engine presents the row of the channel it serves next, and none once
its row access of the cycle is performed (R261). -/
def Local.presented (l : Local) (b : Fin 32) : List Req :=
  let here := l.reqs.filter fun r => r.acc.bank == b && l.ready r.acc && l.cpeShows r.who
    && !(l.halfA.any fun e => e.1 == b.val && e.2.rank == r.who.rank)
  let here := match here.filter (·.acc.waiter) with
    | [] => here
    | w :: ws =>
      let o := ws.foldl (fun (a x : Req) => if x.since < a.since then x else a) w
      here.filter fun r => !r.acc.waiter || r.id == o.id
  here.filter fun r => !(here.any fun x => x.who.rank == r.who.rank && (decide (x.order < r.order) || (x.order == r.order && decide (x.id < r.id))))

/-- The oldest of the requests, ties broken by the fixed priority (R190). -/
def oldest : List Req → Option Req
  | [] => none
  | r :: l => match oldest l with
    | none => some r
    | some x => if x.since < r.since || (x.since == r.since && decide (x.who.rank < r.who.rank)) then some x else some r

/-- The request of highest priority. -/
def highest : List Req → Option Req
  | [] => none
  | r :: l => match highest l with
    | none => some r
    | some x => if x.who.rank < r.who.rank then some x else some r

/-- The request is no longer waiting. -/
def Local.endReq (l : Local) (r : Req) : Local := { l with
  reqs := l.reqs.filter (·.id != r.id) }

/-- Spans of bytes are stored; in full/empty mode the words they touch become full (R194). -/
def Local.writeSpans (l : Local) (fe : Bool) : List (Nat × List Byte) → Local
  | [] => l
  | (a, bs) :: r =>
    let l := { l with mem := wrBytes l.mem a bs }
    (if fe then (wordsOf a bs.length).foldl (fun l w => l.setFull (4 * w) true) l else l).writeSpans fe r

/-- A request is performed, with its agent's PTS as it stands (R191, R194, R196, R207, R209); one that lies out of range
answers with LOCAL_BOUNDS, which its engine raises as a cause of its own (R186). -/
def State.performReq (s : State) (r : Req) : State :=
  let s := s.beat r.who
  let b := r.acc.bank
  let t := s.core.agentPts r.id r.pts
  if !r.acc.inside s.spadSize then
    (s.onLoc fun l => (l.endReq r).serve ⟨r.id, [], t, s.chip.now, 0, false, some cLOCAL_BOUNDS⟩).act
  else match r.acc with
    | .read a n _ =>
      let u := maxW t s.core.loc.bt[b]
      let s := s.onCore fun c => (c.raiseAgent r.id u)
      ((s.onLoc fun l => (l.endReq r).serve ⟨r.id, rdBytes l.mem a n, u, s.chip.now, 0, false, none⟩).event 4 1).act
    | .write spans fe =>
      let s := s.onLoc fun l => { (l.endReq r).writeSpans fe spans with bt := l.bt.set b (maxW l.bt[b] t) }
      if r.who = .l1 then s else (s.event 4 1).act

/-- The requests of a bank that were presented and not served are refused (R190, R192). -/
def State.refuse (s : State) (ids : List Nat) : State :=
  ids.foldl (fun s _ => s.bankStall)
    (s.onLoc fun l => { l with reqs := l.reqs.map fun r => if ids.contains r.id then { r with refused := r.refused + 1 } else r })

/-- REQUEST_AGED (R190): the oldest aged request of bank b is served in half A, in place of the wheel cell. A waiter is
served in half B only (R196). -/
def execRequestAged (b : Fin 32) (s : State) : Out :=
  match oldest ((s.core.loc.presented b).filter fun r => r.aged && !r.acc.waiter) with
  | none => .next s
  | some r => .next ((s.performReq r).onLoc fun l => { l with halfA := (b.val, r.who) :: l.halfA })

/-- BANK_ENGINE_ACCESS (R190): half B of bank b goes to the sequencer where it uses the bank; else to the oldest aged
request, else to the request of highest priority. -/
def execBankEngineAccess (b : Fin 32) (s : State) : Out :=
  let l := s.core.loc.presented b
  let pick := if s.core.sq.banks.contains b.val then none
    else match oldest (l.filter Req.aged) with
      | some r => some r
      | none => highest l
  match pick with
  | none => .next (s.refuse (l.map (·.id)))
  | some r => .next ((s.performReq r).refuse ((l.filter (·.id != r.id)).map (·.id)))

end Sys2Proof.Machine
end

