-- ==== Sys2Proof/Machine/CellOps.lean ====
section
/-! DEFINITION. The cell operations (07_cell_operations): what each computes from the firing that CELL_FIRING latched. -/

namespace Sys2Proof.Machine

/-! ### Shared rules (R145, R147) -/

/-- Token i of input j of a firing; a constant input has its row in every place (R101), and one without a selector a free
value (log entry 34). -/
def Cell.row (c : Cell) (g : Firing) (j i : Nat) : Row :=
  if c.sel j = 6 then constRow c.const
  else if c.sel j = 0 then Config.unfed j i
  else ((g.inp j)[i]?.map (·.data)).getD 0

/-- The n tokens of input 0; a constant stands in the place of each (R101). -/
def Cell.rows (c : Cell) (g : Firing) (n : Nat) : List Row :=
  if c.sel 0 = 6 || c.sel 0 = 0 then (List.range n).map (c.row g 0) else (g.inp 0).map (·.data)

/-- One result lane: its bits, an overflow that OT traps, its event. -/
structure LaneOut where
  val : Nat
  ovf : Bool
  ev  : Ev

/-- A result that neither overflows nor counts. -/
def LaneOut.pure (v : Nat) : LaneOut := ⟨v, false, .none⟩

/-- A result from its lanes, row by row: the cause OVERFLOW where any lane has it (R152). -/
def madeOf (W : Nat) (l : List (List LaneOut)) : Made :=
  ⟨l.map fun r => packLanes W (r.map (·.val)), [], if l.any (·.any (·.ovf)) then some .overflow else none,
    l.flatten.map (·.ev)⟩

/-- The lanewise operation f over the PROD0 token groups of a firing (R145): W bits in, V bits out. -/
def Cell.lanewise (c : Cell) (g : Firing) (W V : Nat) (f : Nat → Nat → Nat → LaneOut) : Made :=
  madeOf V ((List.range (c.prod 0)).map fun i =>
    (List.range (512 / W)).map fun k =>
      f (fld (c.row g 0 i).toNat (W * k) W) (fld (c.row g 1 i).toNat (W * k) W) (fld (c.row g 2 i).toNat (W * k) W))

/-- The operation of the latched firing, when its cell has operation code `op`. -/
def State.cellOp (s : State) (op : Nat) (f : Cell → Firing → Made) : State :=
  match s.core.fab.fire with
  | none => s
  | some g =>
    let c := s.core.fab.cells[g.cell]
    if c.op = op then s.finishFire g (f c g) none else s

/-! ### Integer operations (R152, R153) -/

/-- Fit(x, W, U, S) with its overflow under OT and its clamp under S (R125, R149, R152). -/
def Cell.fitLane (c : Cell) (x : Int) : LaneOut :=
  let W := fmtBits c.type
  let u := fmtUns c.type
  let out := decide (x < minOf W u) || decide (maxOf W u < x)
  ⟨fitN x W u c.satMode, c.ot && out, if c.satMode && out then .sat else .none⟩

/-- A lanewise operation on Val of its lanes (R152). -/
def Cell.intOp (c : Cell) (g : Firing) (f : Int → Int → Int → LaneOut) : Made :=
  let W := fmtBits c.type
  let v := fun x => valN x W (fmtUns c.type)
  c.lanewise g W W fun a b d => f (v a) (v b) (v d)

/-- A lanewise operation on the bits of its lanes. -/
def Cell.bitOp (c : Cell) (g : Firing) (f : Nat → Nat → Nat) : Made :=
  c.lanewise g (fmtBits c.type) (fmtBits c.type) fun a b _ => .pure (f a b)

/-- The bits of an exact integer that lies in the format's range. -/
def Cell.exact (c : Cell) (x : Int) : LaneOut := .pure (fitN x (fmtBits c.type) (fmtUns c.type) false)

/-- RoundShift(x, n) (R153). -/
def roundShift (x : Int) (n : Nat) : Int := if n = 0 then x else (x + 2 ^ (n - 1)) / 2 ^ n

/-- CELL_ADD (R152). -/
def execCellAdd (s : State) : Out := .next (s.cellOp 0x10 fun c g => c.intOp g fun a b _ => c.fitLane (a + b))
/-- CELL_SUB (R152). -/
def execCellSub (s : State) : Out := .next (s.cellOp 0x11 fun c g => c.intOp g fun a b _ => c.fitLane (a - b))
/-- CELL_MUL (R152). -/
def execCellMul (s : State) : Out := .next (s.cellOp 0x12 fun c g => c.intOp g fun a b _ => c.fitLane (a * b))
/-- CELL_MAC (R152). -/
def execCellMac (s : State) : Out := .next (s.cellOp 0x13 fun c g => c.intOp g fun a b d => c.fitLane (a * b + d))
/-- CELL_MIN (R152). -/
def execCellMin (s : State) : Out := .next (s.cellOp 0x14 fun c g => c.intOp g fun a b _ => c.exact (minI a b))
/-- CELL_MAX (R152). -/
def execCellMax (s : State) : Out := .next (s.cellOp 0x15 fun c g => c.intOp g fun a b _ => c.exact (maxI a b))
/-- CELL_ABS (R152). -/
def execCellAbs (s : State) : Out := .next (s.cellOp 0x16 fun c g => c.intOp g fun a _ _ => c.fitLane a.natAbs)
/-- CELL_AND (R152). -/
def execCellAnd (s : State) : Out := .next (s.cellOp 0x17 fun c g => c.bitOp g (· &&& ·))
/-- CELL_OR (R152). -/
def execCellOr (s : State) : Out := .next (s.cellOp 0x18 fun c g => c.bitOp g (· ||| ·))
/-- CELL_XOR (R152). -/
def execCellXor (s : State) : Out := .next (s.cellOp 0x19 fun c g => c.bitOp g (· ^^^ ·))
/-- CELL_SHL: n is the i1 lane mod W (R152). -/
def execCellShl (s : State) : Out :=
  .next (s.cellOp 0x1A fun c g =>
    let W := fmtBits c.type
    c.lanewise g W W fun a b _ => c.fitLane (valN a W (fmtUns c.type) * 2 ^ (b % W)))
/-- CELL_SHR: logical (R152). -/
def execCellShr (s : State) : Out :=
  .next (s.cellOp 0x1B fun c g => c.bitOp g fun a b => a / 2 ^ (b % fmtBits c.type))
/-- CELL_SAR: arithmetic (R152). -/
def execCellSar (s : State) : Out :=
  .next (s.cellOp 0x1C fun c g =>
    let W := fmtBits c.type
    c.bitOp g fun a b => (signedN a W / 2 ^ (b % W) % 2 ^ W).toNat)
/-- CELL_RSHR (R153). -/
def execCellRshr (s : State) : Out :=
  .next (s.cellOp 0x1D fun c g =>
    let W := fmtBits c.type
    c.lanewise g W W fun a b _ => c.fitLane (roundShift (valN a W (fmtUns c.type)) (b % W)))
/-- CELL_REQ: one rounding by M, sh and Z (R153). -/
def execCellReq (s : State) : Out :=
  .next (s.cellOp 0x1E fun c g => c.intOp g fun a _ _ =>
    c.fitLane (roundShift (a * signedN c.const.toNat 16) (c.aux % 64) + signedN (c.const.toNat / 2 ^ 16) 16))
/-- CELL_PEQ (R152). -/
def execCellPeq (s : State) : Out := .next (s.cellOp 0x1F fun c g => c.intOp g fun a b _ => .pure (bit (a == b)))
/-- CELL_PNE (R152). -/
def execCellPne (s : State) : Out := .next (s.cellOp 0x20 fun c g => c.intOp g fun a b _ => .pure (bit (a != b)))
/-- CELL_PLT (R152). -/
def execCellPlt (s : State) : Out :=
  .next (s.cellOp 0x21 fun c g => c.intOp g fun a b _ => .pure (bit (decide (a < b))))
/-- CELL_PGE (R152). -/
def execCellPge (s : State) : Out :=
  .next (s.cellOp 0x22 fun c g => c.intOp g fun a b _ => .pure (bit (decide (b ≤ a))))

/-! ### Floating-point operations (R154, R127–R130) -/

/-- Significant bits of the floating TYPE. -/
def Cell.prec (c : Cell) : Nat := if c.type = 9 then 8 else 24

/-- Finite. -/
def isFin : RVal → Bool
  | .fin .. => true
  | _ => false

/-- Infinite. -/
def isInf : RVal → Bool
  | .inf _ => true
  | _ => false

/-- An exact result rounded once, with the event of R149: infinite from finite operands, or a nonzero result that
rounds to zero. -/
def Cell.roundLane (c : Cell) (fins : Bool) (v : RVal) : LaneOut :=
  let r := encFp c.prec .nearest v
  let ev := if isNan v then .nan
    else if fins && isInf (decFp c.prec r.1) then .ovf
    else if r.2 = .unf then .unf else .none
  ⟨r.1, false, ev⟩

/-- One operand. -/
def Cell.fp1 (c : Cell) (g : Firing) (f : RVal → RVal) : Made :=
  c.lanewise g (c.prec + 8) (c.prec + 8) fun a _ _ =>
    let x := decFp c.prec a
    c.roundLane (isFin x) (f x)

/-- Two operands. -/
def Cell.fp2 (c : Cell) (g : Firing) (f : RVal → RVal → RVal) : Made :=
  c.lanewise g (c.prec + 8) (c.prec + 8) fun a b _ =>
    let x := decFp c.prec a
    let y := decFp c.prec b
    c.roundLane (isFin x && isFin y) (f x y)

/-- a · b + c with one rounding; the first NaN operand goes on before an invalid product (R128). -/
def fmaR (a b c : RVal) : RVal := nan2 a b (match c with
  | .nan x => .nan x
  | c => addR (mulR a b) c)

/-- FABS and FNEG: the sign bit set, a NaN by R128. -/
def Cell.signOp (c : Cell) (g : Firing) (f : Nat → Nat) : Made :=
  let W := c.prec + 8
  c.lanewise g W W fun a _ _ =>
    let x := decFp c.prec a
    if isNan x then ⟨(encFp c.prec .nearest x).1, false, .nan⟩ else .pure (f a)

/-- A predicate on two numbers. -/
def Cell.fpPred (c : Cell) (g : Firing) (f : RVal → RVal → Bool) : Made :=
  c.lanewise g (c.prec + 8) (c.prec + 8) fun a b _ =>
    let x := decFp c.prec a
    let y := decFp c.prec b
    .pure (bit (!isNan x && !isNan y && f x y))

/-- CELL_FADD (R154). -/
def execCellFadd (s : State) : Out := .next (s.cellOp 0x40 fun c g => c.fp2 g addR)
/-- CELL_FSUB (R154): a NaN subtrahend keeps its sign (R128). -/
def execCellFsub (s : State) : Out :=
  .next (s.cellOp 0x41 fun c g => c.fp2 g fun a b => nan2 a b (addR a (negR b)))
/-- CELL_FMUL (R154). -/
def execCellFmul (s : State) : Out := .next (s.cellOp 0x42 fun c g => c.fp2 g mulR)
/-- CELL_FMA (R154). -/
def execCellFma (s : State) : Out :=
  .next (s.cellOp 0x43 fun c g => c.lanewise g (c.prec + 8) (c.prec + 8) fun a b d =>
    let x := decFp c.prec a
    let y := decFp c.prec b
    let z := decFp c.prec d
    c.roundLane (isFin x && isFin y && isFin z) (fmaR x y z))
/-- CELL_FMIN (R154). -/
def execCellFmin (s : State) : Out := .next (s.cellOp 0x44 fun c g => c.fp2 g minR)
/-- CELL_FMAX (R154). -/
def execCellFmax (s : State) : Out := .next (s.cellOp 0x45 fun c g => c.fp2 g maxR)
/-- CELL_FABS (R154). -/
def execCellFabs (s : State) : Out := .next (s.cellOp 0x46 fun c g => c.signOp g fun a => a % 2 ^ (c.prec + 7))
/-- CELL_FNEG (R154). -/
def execCellFneg (s : State) : Out :=
  .next (s.cellOp 0x47 fun c g => c.signOp g fun a => a ^^^ 2 ^ (c.prec + 7))
/-- CELL_FEXP2 (R154, R130). -/
def execCellFexp2 (s : State) : Out := .next (s.cellOp 0x48 fun c g => c.fp1 g exp2R)
/-- CELL_FLOG2 (R154, R130). -/
def execCellFlog2 (s : State) : Out := .next (s.cellOp 0x49 fun c g => c.fp1 g log2R)
/-- CELL_FRCP (R154, R130). -/
def execCellFrcp (s : State) : Out := .next (s.cellOp 0x4A fun c g => c.fp1 g recipR)
/-- CELL_FRSQ (R154, R130). -/
def execCellFrsq (s : State) : Out := .next (s.cellOp 0x4B fun c g => c.fp1 g rsqrtR)
/-- CELL_FDIV (R154, R130). -/
def execCellFdiv (s : State) : Out := .next (s.cellOp 0x4C fun c g => c.fp2 g divR)
/-- CELL_FPEQ (R154). -/
def execCellFpeq (s : State) : Out :=
  .next (s.cellOp 0x4D fun c g => c.fpPred g fun x y => !ltR false x y && !ltR false y x)
/-- CELL_FPLT (R154). -/
def execCellFplt (s : State) : Out := .next (s.cellOp 0x4E fun c g => c.fpPred g (ltR false))

/-! ### dk8 operations (R155, R131–R133) -/

/-- The bias at which input j's lanes are read (R145); a constant is read at bias 0. -/
def Fabric.biasIn (f : Fabric) (n : Fin 32) (j : Nat) : Int := ((f.inType 40 n j).map (·.bias)).getD 0

/-- An operation of a cell that needs the types of its inputs. -/
def State.cellOpF (s : State) (op : Nat) (f : Fabric → Cell → Firing → Made) : State :=
  s.cellOp op (f s.core.fab)

/-- A dk8 result re-encoded at OBIAS, with its event (R132, R149). -/
def Cell.dkLane (c : Cell) (v : RVal) : LaneOut :=
  let r := encDk8 (biasOf c.obias) .nearest v
  ⟨r.1, false, r.2⟩

/-- CELL_DKMUL (R155). -/
def execCellDkmul (s : State) : Out :=
  .next (s.cellOpF 0x60 fun f c g => c.lanewise g 8 8 fun a b _ =>
    c.dkLane (mulR (decDk8 (f.biasIn g.cell 0) a) (decDk8 (f.biasIn g.cell 1) b)))

/-- One lane of DKDOT: four exact products, one rounding; an exact zero sum is +0 (R155). -/
def dkDot (Ba Bb : Int) (a b : Nat) : RVal :=
  let v := (List.range 4).foldl (fun t k => addR t (mulR (decDk8 Ba (fld a (8 * k) 8)) (decDk8 Bb (fld b (8 * k) 8)))) .zero
  if isZero v then .zero else v

/-- CELL_DKDOT (R155). -/
def execCellDkdot (s : State) : Out :=
  .next (s.cellOpF 0x61 fun f c g => c.lanewise g 32 32 fun a b _ =>
    let v := dkDot (f.biasIn g.cell 0) (f.biasIn g.cell 1) a b
    let r := encFp 24 .nearest v
    ⟨r.1, false, if isNan v then .nan else r.2⟩)

/-- CELL_DKMAX: of two equal Values i0's; a NaN gives 0x80 (R155). -/
def execCellDkmax (s : State) : Out :=
  .next (s.cellOpF 0x62 fun f c g => c.lanewise g 8 8 fun a b _ =>
    let x := decDk8 (f.biasIn g.cell 0) a
    let y := decDk8 (f.biasIn g.cell 1) b
    c.dkLane (nan2 x y (if ltR false x y then y else x)))

/-! ### Conversions (R156) -/

/-- The conversion of a lane of TYPE at the input's bias to DTYPE at OBIAS, in mode TZ (R134, R156). -/
def Cell.cvt (c : Cell) (f : Fabric) (g : Firing) (a : Nat) : LaneOut :=
  let r := cvtLane ⟨c.type, f.biasIn g.cell 0⟩ ⟨c.dtype, biasOf c.obias⟩ (if c.tz then .towardZero else .nearest) a
  ⟨r.1, false, r.2⟩

/-- All lanes of the n tokens of input 0, token after token. -/
def Cell.lanes0 (c : Cell) (g : Firing) (n : Nat) : List Nat := (c.rows g n).flatMap (lanesOf (fmtBits c.type))

/-- The tokens that a conversion consumes: of CVT as many as it makes, of NARROW the ratio of the widths, of WIDEN one
(R156). -/
def Cell.cvtCount (c : Cell) : Nat :=
  if c.op = 0x70 then c.prod 0 else if c.op = 0x71 then fmtBits c.type / fmtBits c.dtype else 1

/-- A list cut into pieces of n. -/
def pieces {α : Type} (n : Nat) : Nat → List α → List (List α)
  | 0, _ => []
  | k + 1, l => l.take n :: pieces n k (l.drop n)

/-- CVT, NARROW and WIDEN: the lanes in order, converted and packed again (R156). -/
def Cell.convert (c : Cell) (f : Fabric) (g : Firing) : Made :=
  let W := fmtBits c.dtype
  madeOf W (pieces (512 / W) (c.prod 0) ((c.lanes0 g c.cvtCount).map (c.cvt f g)))

/-- CELL_CVT (R156). -/
def execCellCvt (s : State) : Out := .next (s.cellOpF 0x70 fun f c g => c.convert f g)
/-- CELL_NARROW (R156). -/
def execCellNarrow (s : State) : Out := .next (s.cellOpF 0x71 fun f c g => c.convert f g)
/-- CELL_WIDEN (R156). -/
def execCellWiden (s : State) : Out := .next (s.cellOpF 0x72 fun f c g => c.convert f g)

/-! ### Lane shuffles (R157) -/

/-- Results without causes and events. -/
def Made.just (o0 o1 : List Row) : Made := ⟨o0, o1, none, []⟩

/-- A shuffle from the lanes of i0 and i1 to those of o0 and o1. -/
def Cell.shuffle (c : Cell) (g : Firing) (f : List Nat → List Nat → List Nat × List Nat) : Made :=
  let W := fmtBits c.type
  let r := f (lanesOf W (c.row g 0 0)) (lanesOf W (c.row g 1 0))
  .just [packLanes W r.1] (if c.prod 1 = 0 then [] else [packLanes W r.2])

/-- CELL_BCAST (R157). -/
def execCellBcast (s : State) : Out :=
  .next (s.cellOp 0x80 fun c g => c.shuffle g fun a _ => (List.replicate a.length (a.getD c.aux 0), []))
/-- CELL_SHUF (R157). -/
def execCellShuf (s : State) : Out :=
  .next (s.cellOp 0x81 fun c g => c.shuffle g fun a x => (x.map fun i => a.getD (i % a.length) 0, []))
/-- Lanes of two rows in turn. -/
def zipLanes (a b : List Nat) : List Nat := (a.zip b).flatMap fun p => [p.1, p.2]

/-- CELL_ZIP (R157). -/
def execCellZip (s : State) : Out :=
  .next (s.cellOp 0x82 fun c g => c.shuffle g fun a b =>
    let z := zipLanes a b
    (z.take a.length, z.drop a.length))
/-- The lanes whose number leaves r modulo 2. -/
def everyOther (r : Nat) (l : List Nat) : List Nat := (List.range (l.length / 2)).map fun i => l.getD (2 * i + r) 0

/-- CELL_UNZIP (R157). -/
def execCellUnzip (s : State) : Out :=
  .next (s.cellOp 0x83 fun c g => c.shuffle g fun a b => (everyOther 0 (a ++ b), everyOther 1 (a ++ b)))
/-- CELL_SLIDE (R157). -/
def execCellSlide (s : State) : Out :=
  .next (s.cellOp 0x84 fun c g => c.shuffle g fun a b => (((a ++ b).drop c.aux).take a.length, []))

/-! ### Reductions (R139, R158) -/

/-- The operation of a tree node. -/
inductive RedOp | add | max | min
deriving DecidableEq, Repr

/-- A partial of the tree: value bits, index, and an integer overflow below it. -/
structure Part3 where
  val : Nat
  idx : Nat
  ovf : Bool

/-- Combine(a, b, Op) on integers (R139, R158). -/
def Cell.combineInt (c : Cell) (op : RedOp) (a b : Part3) : Part3 :=
  let W := fmtBits c.type
  let u := fmtUns c.type
  let x := valN a.val W u
  let y := valN b.val W u
  let ovf := a.ovf || b.ovf
  match op with
  | .add =>
    let r := c.fitLane (x + y)
    ⟨r.val, a.idx, ovf || r.ovf⟩
  | .max => if x < y then { b with ovf := ovf } else { a with ovf := ovf }
  | .min => if y < x then { b with ovf := ovf } else { a with ovf := ovf }

/-- Combine(a, b, Op) on floating values (R139). -/
def Cell.combineFp (c : Cell) (op : RedOp) (a b : Part3) : Part3 :=
  let p := c.prec
  let x := decFp p a.val
  let y := decFp p b.val
  if isNan x then { a with val := (encFp p .nearest x).1 }
  else if isNan y then { b with val := (encFp p .nearest y).1 }
  else match op with
    | .add => { a with val := (encFp p .nearest (addR x y)).1 }
    | .max => if ltR true x y then b else a
    | .min => if ltR true y x then b else a

/-- One level of the tree. -/
def pairUp (f : Part3 → Part3 → Part3) : List Part3 → List Part3
  | a :: b :: r => f a b :: pairUp f r
  | l => l

/-- TreeReduce over at most 2^k lanes (R139). -/
def treeReduce (f : Part3 → Part3 → Part3) : Nat → List Part3 → Part3
  | 0, l => l.headD ⟨0, 0, false⟩
  | k + 1, l => treeReduce f k (if l.length ≤ 1 then l else pairUp f l)

/-- RSUM, RMAX, RMIN (R158). -/
def Cell.reduce (c : Cell) (g : Firing) (op : RedOp) : Made :=
  let l := (c.lanes0 g (c.cons 0)).zipIdx.map fun e => (⟨e.1, e.2, false⟩ : Part3)
  let r := treeReduce (if fmtReal c.type then c.combineFp op else c.combineInt op) 8 l
  ⟨[packLanes (fmtBits c.type) [r.val]], if c.prod 1 = 0 then [] else [packLanes 32 [r.idx]],
    if r.ovf then some .overflow else .none, []⟩

/-- CELL_RSUM (R158). -/
def execCellRsum (s : State) : Out := .next (s.cellOp 0x88 fun c g => c.reduce g .add)
/-- CELL_RMAX (R158). -/
def execCellRmax (s : State) : Out := .next (s.cellOp 0x89 fun c g => c.reduce g .max)
/-- CELL_RMIN (R158). -/
def execCellRmin (s : State) : Out := .next (s.cellOp 0x8A fun c g => c.reduce g .min)

/-! ### Routing operations (R151, R107–R109) -/

/-- The c tokens of i0 on o0, and on o1 where PROD1 asks for them. -/
def Cell.pass (c : Cell) (g : Firing) : Made :=
  let l := (List.range (c.prod 0)).map (c.row g 0)
  .just l (if c.prod 1 = 0 then [] else l)

/-- CELL_PASS (R151). -/
def execCellPass (s : State) : Out := .next (s.cellOp 0x01 fun c g => c.pass g)

/-- CELL_SELECT: lane by lane under the predicate lane's bit 0 (R107, R151). -/
def execCellSelect (s : State) : Out :=
  .next (s.cellOp 0x02 fun c g =>
    c.lanewise g (fmtBits c.type) (fmtBits c.type) fun a b p => .pure (if bitAt p 0 then a else b))

/-- CELL_STEER (R108): the tokens go on the path that the predicate names; none there is CELL_PATH. In a rotation the
faulting token goes on along the loop (R147). -/
def execCellSteer (s : State) : Out :=
  match s.core.fab.fire with
  | none => .next s
  | some g =>
    let f := s.core.fab
    let c := f.cells[g.cell]
    if c.op ≠ 0x03 then .next s
    else
      let l := (List.range (c.prod 0)).map (c.row g 0)
      match g.path.bind fun v => (f.targets g.cell 0)[v]? with
      | some a => .next (s.finishFire g (.just l []) (some a))
      | none => .next (s.finishFire g ⟨l, [], some .path, []⟩ (f.loopTargets g.cell).head?)

/-- CELL_MERGE (R109): the tokens of the path that the predicate names; none there is CELL_PATH. In a rotation the
faulting firing pushes the slot's token on (R147). -/
def execCellMerge (s : State) : Out :=
  .next (s.cellOp 0x04 fun c g =>
    match g.path with
    | some v =>
      let j := mergeInput v
      .just ((List.range (c.prod 0)).map fun i =>
        if j < 2 then c.row g j i else ((g.inp j)[i]?.map (·.data)).getD 0) []
    | none => ⟨List.replicate (c.prod 0) ((g.lap.map (·.data)).getD 0), [], some .path, []⟩)

/-- CELL_DELAY (R151): as PASS on o0; its latency is AUX[1:0] + 1 (R148). -/
def execCellDelay (s : State) : Out := .next (s.cellOp 0x05 fun c g => .just (c.pass g).o0 [])

/-- CELL_SINK (R151): consumes, and pushes nothing. -/
def execCellSink (s : State) : Out := .next (s.cellOp 0x06 fun _ _ => .just [] [])

/-- LEAVE marks an active slot leaving (R151, R172). -/
def State.markLeaving (s : State) (q : Fin 8) (p : Nat) : State :=
  s.onFab fun f => { f with rots := f.rots.set q { f.rots[q] with
    slots := f.rots[q].slots.modify p fun x => if x.state = .active then { x with state := .leaving } else x } }

/-- CELL_LEAVE (R151, R172). -/
def execCellLeave (s : State) : Out :=
  match s.core.fab.fire with
  | none => .next s
  | some g =>
    let c := s.core.fab.cells[g.cell]
    if c.op ≠ 0x07 then .next s
    else
      let t := s.finishFire g (c.pass g) none
      match g.slot with
      | some (q, p) => .next (if bitAt (c.row g 2 0).toNat 0 then t.markLeaving q p else t)
      | none => .next t

/-! ### Memory ports (R159–R162, R233) -/

/-- The guard of a firing (R111). -/
def Cell.guardRow (c : Cell) (g : Firing) : Option Row := if c.guarded then ((g.inp 3).head?).map (·.data) else .none

/-- A memory-port firing: its last sub-access, or none where it is poisoned or faults (R146, R147, R189). `dj` is the
input with the data or weights, and `out` what it pushes. -/
def State.portOp (s : State) (op dj : Nat) (out : State → Cell → Firing → List Row) : State :=
  match s.core.fab.fire with
  | none => s
  | some g =>
    let c := s.core.fab.cells[g.cell]
    if c.op ≠ op then s
    else if g.psn then s.finishFire g (.just (out s { c with got := [] } g) []) none
    else match s.core.plan g.cell (c.row g 0 0) (c.row g 1 0) (c.guardRow g) with
      | .error k => s.finishFire g ⟨out s { c with got := [] } g, [], some k, []⟩ none
      | .ok p =>
        let l := subLanes p c.sub
        let k := ((g.inp dj).head?).getD (g.lap.getD (.marker 0))
        let t := s.doLanes g.cell (c.row g dj 0) k l
        t.finishFire g (.just (out t t.core.fab.cells[g.cell] g) []) none

/-- The token a load pushes. -/
def outGot (_ : State) (c : Cell) (_ : Firing) : List Row := [c.gotRow]
/-- The ordering token of a store: a copy of its data input, where PROD0 asks for it. -/
def outCopy (j : Nat) (_ : State) (c : Cell) (g : Firing) : List Row := List.replicate (c.prod 0) (c.row g j 0)

/-- CELL_LDX (R159). -/
def execCellLdx (s : State) : Out := .next (s.portOp 0xA0 1 outGot)
/-- CELL_LDV (R159). -/
def execCellLdv (s : State) : Out := .next (s.portOp 0xA1 1 outGot)
/-- CELL_LDS (R159, R160). -/
def execCellLds (s : State) : Out := .next (s.portOp 0xA2 1 outGot)
/-- CELL_STX (R159, R175). -/
def execCellStx (s : State) : Out := .next (s.portOp 0xA4 1 (outCopy 1))
/-- CELL_STV (R159, R175). -/
def execCellStv (s : State) : Out := .next (s.portOp 0xA5 1 (outCopy 1))
/-- CELL_STS (R159, R160). -/
def execCellSts (s : State) : Out := .next (s.portOp 0xA6 0 (outCopy 0))
/-- CELL_MADD (R162, R233). -/
def execCellMadd (s : State) : Out := .next (s.portOp 0xA8 1 (outCopy 1))
/-- CELL_MEST (R162, R233). -/
def execCellMest (s : State) : Out := .next (s.portOp 0xA9 1 outGot)
/-- CELL_MLVL (R162, R233). -/
def execCellMlvl (s : State) : Out := .next (s.portOp 0xAA 1 outGot)

/-! ### Emission (R163, R164) -/

/-- The whole emission is on: not poisoned, and guard lane 0 bit 0 where there is a guard (R111, R146). -/
def Cell.emits (c : Cell) (g : Firing) : Bool :=
  !g.psn && match c.guardRow g with
    | some r => bitAt r.toNat 0
    | .none => true

/-- A lane that SEMIT counts (R163). -/
def Cell.semitHit (c : Cell) (bias : Int) (a : Nat) : Bool :=
  let v := decLane ⟨c.type, bias⟩ a
  match c.aux with
  | 0 => !isZero v
  | 1 => isNan v
  | 2 =>
    if c.type = 8 then a == 0x7F || a == 0xFF
    else if fmtReal c.type then a % 2 ^ (c.prec + 7) == 255 * 2 ^ (c.prec - 1) - 1
    else
      let W := fmtBits c.type
      let u := fmtUns c.type
      decide (valN a W u = minOf W u) || decide (valN a W u = maxOf W u)
  | _ => isZero v

/-- CELL_SEMIT: counted lanes and examined lanes (R163). -/
def execCellSemit (s : State) : Out :=
  match s.core.fab.fire with
  | none => .next s
  | some g =>
    let f := s.core.fab
    let c := f.cells[g.cell]
    if c.op ≠ 0xB0 then .next s
    else
      let l := c.lanes0 g (c.cons 0)
      let t := if c.emits g then
        s.onCell g.cell fun c => { c with
          semit := (satAdd32 c.semit.1 (l.countP (c.semitHit (f.biasIn g.cell 0))), satAdd32 c.semit.2 l.length) }
        else s
      .next (t.finishFire g (.just [] []) none)

/-- CELL_CEMIT: the command packet; a guarded-off or poisoned firing pushes four zero words (R164). -/
def execCellCemit (s : State) : Out :=
  .next (s.cellOp 0xB1 fun c g =>
    let d := c.row g 0 0
    .just [if c.emits g then packLanes 32 [c.const.toNat, lane32 d 0, lane32 d 1, lane32 d 2] else 0] [])

end Sys2Proof.Machine
end

