-- ==== Sys2Proof/Machine/Circuits.lean ====
section
/-! DEFINITION. Circuits (R200, R201): the way of a token from an edge port of one core to one of another, and the
passes of the memory nodes. -/

namespace Sys2Proof.Machine

/-! ### Ends and transit (R200) -/

/-- Row and column of a core's cluster on its die's 4 × 4 grid (R200). -/
def clusterPlace (cid : BitVec 8) : Nat × Nat := (fld cid.toNat 2 4 / 4, fld cid.toNat 2 4 % 4)

/-- The links from die i to die j (R347). -/
def crossings (i j : Fin 4) : Nat := (ucieRoute i j).length

/-- Transit between two cores (R200). -/
def circuitTransit (a b : BitVec 8) : Nat :=
  let p := clusterPlace a
  let q := clusterPlace b
  if dieOf a = dieOf b then
    if p = q then 4 else 6 + 2 * (((p.1 : Int) - q.1).natAbs + ((p.2 : Int) - q.2).natAbs)
  else 6 + 2 * (p.1 + p.2 + (q.1 + q.2)) + 24 * crossings (dieOf a) (dieOf b)

/-- The physical core of logical core i (R340). -/
def Task.coreOf (t : Task) (i : Nat) : Option (BitVec 8) := t.cores[i % t.cores.length]?

/-- The context of logical core i of task t stands on this core. -/
def Core.isLogical (c : Core) (t i : Nat) : Bool := c.task == some t && c.sq.lcid.toNat == i

/-- Logical core i of task t is resident (R340). -/
def State.residentAt (s : State) (t i : Nat) : Option Core := (s.core :: s.others).find? (·.isLogical t i)

/-- The context of logical core i of task t: resident on its core, or saved (R341). -/
def State.logical (s : State) (t i : Nat) : Option Core := match s.residentAt t i with
  | some c => some c
  | none => (s.chip.tasks[t]?).bind fun k => (k.saved.find? (·.lcid == i)).map (·.core)

/-- Change the context of logical core i of task t: resident on its core, or saved. -/
def State.onLogical (s : State) (t i : Nat) (f : Core → Core) : State :=
  if (s.residentAt t i).isSome then s.onCores fun c => if c.isLogical t i then f c else c
  else s.onTask t fun k => { k with saved := k.saved.map fun v => if v.lcid = i then { v with core := f v.core } else v }

/-- The circuit of core x that record g of a core with LCID `me` names as its peer end (R200). -/
def Core.peerEnd (x : Core) (me : Nat) (g : CircCfg) : Option (Fin 16) :=
  (List.finRange 16).find? fun k => match x.loc.circ[k].cfg with
    | some h => h.out != g.out && h.port == g.peerPort && h.peerPort == g.port && h.peer.toNat == me
    | none => false

/-- The receiving end of a circuit: its task, its logical core, its circuit, and its physical core; none while its
logical core is not resident (R200, R341). -/
structure Far where
  task : Nat
  lcid : Nat
  k    : Fin 16
  cid  : Option (BitVec 8)
deriving DecidableEq, Repr

/-- The other end of circuit c of the core in turn, resident or saved. -/
def State.farOf (s : State) (c : Fin 16) : Option Far :=
  match s.core.loc.circ[c].cfg, s.core.task with
  | some g, some t => (s.logical t g.peer.toNat).bind fun x => (x.peerEnd s.core.sq.lcid.toNat g).map fun k =>
      ⟨t, g.peer.toNat, k, (s.residentAt t g.peer.toNat).map (·.cid)⟩
  | _, _ => none

/-- The resident peer of circuit c of the core in turn; none while its logical core is not resident (R341). -/
def State.peerOf (s : State) (c : Fin 16) : Option Far := (s.farOf c).filter (·.cid.isSome)

/-- The circuit at the receiving end. -/
def State.farCirc (s : State) (e : Far) : Option Circ := (s.logical e.task e.lcid).map fun x => x.loc.circ[e.k]

/-- The receiving end has a free place (R200). -/
def State.credit (s : State) (e : Far) : Bool := match s.farCirc e with
  | some x => decide (x.rx.length < 8)
  | none => false

/-- Change circuit c of the core in turn. -/
def State.onCirc (s : State) (c : Fin 16) (f : Circ → Circ) : State :=
  s.onLoc fun l => { l with circ := l.circ.set c (f l.circ[c]) }

/-- The type of a circuit record. -/
def CircCfg.type (g : CircCfg) : Fmt := ⟨g.fmt.toNat, biasOf g.bias⟩

/-- The type of the receiving end. -/
def State.endType (s : State) (e : Far) : Option Fmt := ((s.farCirc e).bind (·.cfg)).map (·.type)

/-- A data token at the sending end of circuit c is converted where two types differ, and counted where the record enables
statistics (R135, R137). -/
def State.circuitToken (s : State) (c : Fin 16) (from_ to_ : Option Fmt) (k : Token) : State × Token :=
  match from_, to_ with
  | some x, some y =>
    if k.kind = .data && Fabric.differs x y then
      let r := cvtRow x y k.data
      (match s.core.loc.circ[c].cfg with
        | some g => if g.stat then s.onCirc c fun z => { z with counts := z.counts.addAll r.2 } else s
        | none => s, { k with data := r.1 })
    else (s, k)
  | _, _ => (s, k)

/-- Transit to the receiving end: none of its own where the CMP carries the token (R200, R341). -/
def State.farTransit (s : State) (e : Far) : Nat := match e.cid with
  | some x => circuitTransit s.core.cid x
  | none => 0

/-- A token of type `from_` at the sending end: converted to the type of the record there, and from it to that of the
other end (R135, R200; log entry 94). -/
def State.circuitConvert (s : State) (c : Fin 16) (e : Far) (from_ : Option Fmt) (k : Token) : State × Token :=
  let own := (s.core.loc.circ[c].cfg).map (·.type)
  let r := s.circuitToken c from_ own k
  r.1.circuitToken c own (s.endType e) r.2

/-- The crossings of a token's way (R347); the CMP's own copies cross none. -/
def State.farHops (s : State) (e : Far) : List Hop := match e.cid with
  | some x => ucieHops (dieOf s.core.cid) (dieOf x)
  | none => []

/-- The budget permits the flits of a token's way (R367, R368). -/
def State.wayOpen (s : State) (e : Far) : Bool := s.chip.parts[s.partOf s.core].permitsHops (s.farHops e)

/-- The cycle of the receiving end's die in which a token arrives there (R200); one that the CMP carries stands there at
once. -/
def State.arrival (s : State) (e : Far) (transit : Nat) : Nat := match e.cid with
  | some x => s.clockOf x + transit
  | none => 0

/-- A token goes on its way to the receiving end (R200, R341): one circuit transfer of energy, and a flit on each link that it
crosses (R348, R367, R370). -/
def State.circuitSend (s : State) (c : Fin 16) (e : Far) (transit : Nat) (from_ : Option Fmt) (k : Token) : State :=
  let r := s.circuitConvert c e from_ k
  let hops := s.farHops e
  let t := r.1.onLogical e.task e.lcid fun x => { x with loc := { x.loc with
    circ := x.loc.circ.set e.k { x.loc.circ[e.k] with rx := x.loc.circ[e.k].rx ++ [(s.arrival e transit, r.2)] } } }
  ((((t.onPart (s.partOf s.core) fun q => hops.foldl (fun q h => q.spend 2 (hopInst h) 1) q).event 8 hops.length).event
    12 1)).act

/-- A marker passes the counting point of an out port: its count tokens and a marker go onto the statistics arcs
(R137). -/
def State.circuitStat (s : State) (n : Nat) (k : Token) : State :=
  let now := s.chip.now
  (s.onFab fun f => (s.core.statPushes n k).foldl (fun f u => f.put u.arc now u.tok) f).onCore (·.clearCounts n)

/-! ### Memory nodes (R201) -/

/-- The address of element i of a pass; none where it is not legal (R201, R255). -/
def Pass.row (p : Pass) (spad i : Nat) : Option Nat := elementAt false spad p.desc 0 i

/-- The node stops with PORT_ADDR or PORT_EOI (R201). -/
def State.stopNode (s : State) (c : Fin 16) (p : Fin 16) (k : PortKind) : State :=
  ((s.onCirc c fun x => { x with stopped := true }).raiseAsync (cPORT p k) 0).act

/-- The logical time of an edge port. -/
def State.portPts (s : State) (p : Fin 16) : Word := s.core.fab.ports[p].pts

def State.joinPort (s : State) (p : Fin 16) (t : Word) : State :=
  s.onFab fun f => { f with ports := f.ports.set p { f.ports[p] with pts := maxW f.ports[p].pts t } }

/-- CIRCUIT_PASS_BEGIN (R201): with an armed count and no pass running, the count falls by 1 and the node latches its
descriptor. An out node begins none once a pre-emption has stopped the sources (R313). -/
def execCircuitPassBegin (c : Fin 16) (s : State) : Out :=
  let x := s.core.loc.circ[c]
  match x.cfg with
  | none => .next s
  | some g =>
    if !g.pat || x.stopped || x.armed == 0 || x.pass.isSome || (g.out && s.core.fab.stopping) then .next s
    else .next ((s.onCirc c fun y => { y with
      armed := y.armed - 1
      pass := some ⟨s.core.loc.sd[g.sd], 0, [], 0, []⟩ }).act)

/-- The answers of an out node's reads join its rows; a read out of range stops it. -/
def State.nodeAbsorb (s : State) (c : Fin 16) (g : CircCfg) (p : Pass) : State :=
  match s.core.loc.firstAnswer p.wait with
  | none => s
  | some d =>
    let s := s.onLoc fun l => l.takeAll [d.id]
    match d.bad with
    | some _ => s.stopNode c g.port .addr
    | none => (s.joinPort g.port d.pts).onCirc c fun x => { x with pass := x.pass.map fun p => { p with
        wait := p.wait.drop 1
        rows := p.rows ++ [(rowOf d.bytes, d.pts)] } }

/-- An out node reads its next block: at most four stand between a read and its token. -/
def State.nodeRead (s : State) (c : Fin 16) (g : CircCfg) (p : Pass) : State :=
  if p.desc.count ≤ p.asked || 4 ≤ p.wait.length + p.rows.length then s
  else match p.row s.spadSize p.asked with
    | none => if p.rows.isEmpty && p.wait.isEmpty then s.stopNode c g.port .addr else s
    | some A =>
      let x := s.request (.circuit c) (.read A 64 []) (s.portPts g.port)
      x.2.onCirc c fun y => { y with pass := y.pass.map fun p => { p with
        asked := p.asked + 1
        wait := p.wait ++ [x.1] } }

/-- An out node sends its next block, or the marker after its last, under credit (R200, R201). -/
def State.nodeSend (s : State) (c : Fin 16) (g : CircCfg) (p : Pass) (e : Far) (transit : Nat) : State :=
  if !s.credit e || (p.rows.isEmpty && decide (p.n < p.desc.count)) then s
  else if !s.wayOpen e then s.held
  else match p.rows with
    | (d, _) :: rest =>
      (s.circuitSend c e transit (some g.type) ⟨d, 0, .data, false, 0, 0, s.portPts g.port⟩).onCirc c fun x => { x with
        pass := x.pass.map fun p => { p with
          n := p.n + 1
          rows := rest } }
    | [] =>
      let n := 32 + g.port.val
      if !s.core.statRoom n s.chip.now then s
      else
        let k := Token.marker (s.portPts g.port)
        ((s.circuitSend c e transit none k).circuitStat n k).onCirc c fun x => { x with pass := none }

/-- The same to a resident peer. -/
def State.nodeGo (s : State) (c : Fin 16) (g : CircCfg) (p : Pass) : State := match s.peerOf c with
  | some e => s.nodeSend c g p e (s.farTransit e)
  | none => s

/-- The pass of a circuit in progress. -/
def State.passOf (s : State) (c : Fin 16) : Option Pass := s.core.loc.circ[c].pass

/-- An out node in a cycle; a pre-emption stops it at a token boundary (R313). -/
def State.outNode (s : State) (c : Fin 16) (g : CircCfg) : State :=
  match s.passOf c with
  | none => s
  | some p =>
    let s := s.nodeAbsorb c g p
    if s.core.loc.circ[c].stopped || s.core.fab.stopping then s
    else match s.passOf c with
      | none => s
      | some p =>
        let s := s.nodeGo c g p
        match s.passOf c with
        | none => s
        | some p => s.nodeRead c g p

/-- The head of the receiving end's buffer, where it has arrived. -/
def Circ.head (x : Circ) (now : Nat) : Option Token := match x.rx with
  | e :: _ => if e.1 ≤ now then some e.2 else Option.none
  | [] => Option.none

/-- The head is taken: its place is free again. -/
def State.takeRx (s : State) (c : Fin 16) : State := (s.onCirc c fun x => { x with rx := x.rx.drop 1 }).act

/-- An in node in a cycle: it takes the next token once the write before it is performed, in arrival order, and the
marker after its last block (R201). -/
def State.inNode (s : State) (c : Fin 16) (g : CircCfg) : State :=
  match s.passOf c with
  | none => s
  | some p =>
    let w := s.core.loc.writesDone p.wait
    match w.2.2 with
    | some _ => s.stopNode c g.port .addr
    | none =>
      let s := s.onCirc c fun x => { x with pass := x.pass.map fun p => { p with wait := p.wait.drop w.1.length } }
      match s.core.loc.circ[c].head s.chip.now with
      | none => s
      | some k =>
        if p.wait.length ≠ w.1.length then s
        else if p.n < p.desc.count then
          if k.kind = .eoi then s.stopNode c g.port .eoi
          else match p.row s.spadSize p.n with
            | none => s.stopNode c g.port .addr
            | some A =>
              let s := (s.takeRx c).joinPort g.port k.pts
              let x := s.request (.circuit c) (.write [(A, rowBytes k.data)] false) (s.portPts g.port)
              x.2.onCirc c fun y => { y with pass := y.pass.map fun p => { p with
                n := p.n + 1
                wait := [x.1] } }
        else if k.kind = .data then s.stopNode c g.port .eoi
        else (((s.takeRx c).joinPort g.port k.pts)).onCirc c fun x => { x with pass := none }

/-! ### Plain ends (R200) -/

/-- An out port sends the token at the head of its arc, under credit; a marker also passes the counting point
(R137, R200). -/
def State.portSend (s : State) (c : Fin 16) (g : CircCfg) (e : Far) (transit : Nat) : State :=
  match s.portHead g.port with
  | none => s
  | some k =>
    let n := 32 + g.port.val
    if !s.credit e || (k.kind = .eoi && !s.core.statRoom n s.chip.now) then s
    else if !s.wayOpen e then s.held
    else
      let t := (s.core.fab.intoPort g.port).bind s.core.fab.chanType
      let s := (s.portTake g.port k).circuitSend c e transit t k
      if k.kind = .eoi then s.circuitStat n k else s

/-- An out port in a cycle. -/
def State.outPort (s : State) (c : Fin 16) (g : CircCfg) : State := match s.peerOf c with
  | some e => s.portSend c g e (s.farTransit e)
  | none => s

/-- An in port pushes the token at the head of its buffer onto its arcs, once each has a free slot (R102, R200). -/
def State.inPort (s : State) (c : Fin 16) (g : CircCfg) : State :=
  match s.core.loc.circ[c].head s.chip.now with
  | none => s
  | some k =>
    let r := if k.kind = .eoi then s.portMarker g.port k else s.portPush g.port (some g.type) k
    if r.1 then (r.2.takeRx c).joinPort g.port k.pts else r.2

/-- CIRCUIT_TRANSFER (R200, R201): the end of circuit c on the core in turn moves at most one token; a port
that a pre-emption marker has passed moves none (R314). -/
def execCircuitTransfer (c : Fin 16) (s : State) : Out :=
  let x := s.core.loc.circ[c]
  match x.cfg with
  | none => .next s
  | some g =>
    if x.stopped || s.core.fab.ports[g.port].quiet then .next s
    else .next (match g.pat, g.out with
      | true, true => s.outNode c g
      | true, false => s.inNode c g
      | false, true => s.outPort c g
      | false, false => s.inPort c g)

/-! ### CMP_CIRCUIT_CARRY (R341) -/

/-- Act with the saved context of logical core i of task t in turn. -/
def State.atSaved (s : State) (t i : Nat) (f : State → State) : State :=
  match (s.chip.tasks[t]?).bind fun k => k.saved.find? (·.lcid == i) with
  | none => s
  | some v =>
    let u := f { s with
      core := v.core
      others := s.core :: s.others }
    match u.others with
    | [] => s
    | old :: rest =>
      let back := { u with
        core := old
        others := rest }
      back.onTask t fun k => { k with
        saved := k.saved.map fun (w : Saved) => if w.lcid = i then { w with core := u.core } else w }

/-- The sending end of circuit c on the core in turn gives the CMP its next token or marker, where exactly one of the
two ends is resident; `here`: the sender is (R341). -/
def State.carry (s : State) (here : Bool) (c : Fin 16) : State :=
  match s.core.loc.circ[c].cfg, s.farOf c with
  | some g, some e =>
    if !g.out || s.core.loc.circ[c].stopped || e.cid.isSome == here then s
    else
      let t := match g.pat, s.passOf c with
        | true, some p => s.nodeSend c g p e 0
        | true, none => s
        | false, _ => s.portSend c g e 0
      if s.farCirc e = t.farCirc e then t else t.onLogical e.task e.lcid fun x => { x with active := true }
  | _, _ => s

/-- What the hub counts for a context whose accounts of the cycle are closed reaches ENERGY and the counters in that cycle (R371,
R372). -/
def Core.lateEvents (c : Core) (w : Vector (BitVec 16) 16) : Core :=
  { (List.finRange 23).foldl (fun (x : Core) k => if c.events[k] = 0 then x else x.charge w k c.events[k]) c with
    events := Vector.replicate 23 0 }

/-- Energy of what is counted and not yet accounted, in pJ (R370). -/
def Core.joules (c : Core) (w : Vector (BitVec 16) 16) : Nat :=
  (List.finRange 16).foldl (fun a (k : Fin 16) => a + w[k].toNat * c.events[k.castLE (by omega : 16 ≤ 23)]) 0

/-- Every sending end of the core in turn; the accounts of a resident one have its budget as well (R367). -/
def State.carryAll (s : State) (here : Bool) : State :=
  let t := (List.finRange 16).foldl (fun s c => s.carry here c) s
  let w := t.chip.weights
  let t := if here then t.onPart (t.partOf t.core) fun p => p.spend 6 t.core.cid.toNat (t.core.joules w) else t
  (t.onCore fun c => if here && c.refused && !s.core.refused then c.event 18 1 else c).onCore (·.lateEvents w)

/-- CMP_CIRCUIT_CARRY (R341): in one of every 64 cycles the CMP moves one token of each circuit between its resident end
and the saved record of the other. -/
def execCmpCircuitCarry (task : Nat) (s : State) : Out :=
  match s.chip.tasks[task]? with
  | none => .next s
  | some k =>
    if s.chip.now % 64 ≠ 0 then .next s
    else
      let here := ((s.core :: s.others).filter fun c => c.task == some task && !c.fab.stopping).map (·.cid)
      let s := here.foldl (fun s x => s.atCore x (·.carryAll true)) s
      .next ((k.saved.map (·.lcid)).foldl (fun s i => s.atSaved task i (·.carryAll false)) s)

end Sys2Proof.Machine
end

