-- ==== Sys2Proof/Machine/Control.lean ====
section
/-! DEFINITION. Control flow (04_control_and_loops): branches, calls, hardware loops, repeats, PIN, FENCE, EXIT and
ABORT. A meaning says what follows its issue in `Sq.after`; the issue itself moves the pc. -/

namespace Sys2Proof.Machine

/-! ### Text and classes (R34, R38) -/

/-- TEXTSIZE in bytes (R21). -/
def Core.textSize (c : Core) : Nat := 4 * c.text.length

/-- The word of text at a byte address. -/
def Core.textAt (c : Core) (a : Nat) : Option Half := c.text[a / 4]?

/-- Classes of the opcode map (R38). -/
inductive Class | plain | memory | branch | loop | system | command | reserved
deriving DecidableEq, Repr

/-- The class of a major opcode (R38). -/
def classOf (maj : Nat) : Class :=
  if inSpan maj 0x01 14 then .plain
  else if inSpan maj 0x10 8 then .memory
  else if maj == 0x18 then .system
  else if inSpan maj 0x20 3 then .branch
  else if inSpan maj 0x23 3 then .loop
  else if inSpan maj 0x28 2 then .command
  else if inSpan maj 0x2A 3 then .system
  else .reserved

/-- A legal target of REP: P = 0 and plain, memory or DX (R85). -/
def repTargetOk (w : Half) : Bool :=
  !pairBit w && (classOf (majorOf w) == .plain || classOf (majorOf w) == .memory || majorOf w == 0x28)

/-! ### Branches and calls (R78, R79) -/

/-- BR (R78). -/
def execBr (c : CReg) (n : Bool) (o : BitVec 21) (s : State) : Out :=
  .next (if s.rc c ^^ n then s.goes (.jump (s.core.sq.brTarget o) 2) else s)

/-- CALL (R78). -/
def execCall (o : BitVec 21) (s : State) : Out :=
  .next ((s.setG 31 1 (zextW s.core.sq.link.toNat)).goes (.jump (s.core.sq.brTarget o) 2))

/-- JR (R79). -/
def execJr (a : GReg) (s : State) : Out := .next (s.goes (.jump (s.rg a) 3))

/-- JALR: the target is the old ga (R79). -/
def execJalr (d a : GReg) (s : State) : Out :=
  .next ((s.setG d 1 (zextW s.core.sq.link.toNat)).goes (.jump (s.rg a) 3))

/-! ### Hardware loops (R80) -/

/-- The end word lies below the body start (R80). -/
def Sq.loopBad (q : Sq) (e : BitVec 12) : Bool := decide ((q.lpEnd e).toNat < q.link.toNat)

/-- LOOP with count n (R80). -/
def State.armLoop (s : State) (l : Fin 3) (n : Half) (e : BitVec 12) : State :=
  let q := s.core.sq
  if q.loopBad e then s.raise cILLEGAL_INSTRUCTION
  else
    let s := ((s.post 1 (.loop (l.castLE (by decide)) n)).post 1 (.loop (Fin.ofNat 9 (l.val + 3)) q.link)).post 1
      (.loop (Fin.ofNat 9 (l.val + 6)) (q.lpEnd e))
    if n = 0 then s.goes (.jump (zextW (q.lpEnd e + 4).toNat) 2) else s

/-- LOOP with the count in a register (R80). -/
def execLoopReg (l : Fin 3) (a : GReg) (e : BitVec 12) (s : State) : Out :=
  .next (s.armLoop l (.ofNat 32 (s.rg a).toNat) e)

/-- LOOP with an immediate count (R80). -/
def execLoopImm (l : Fin 3) (i : BitVec 10) (e : BitVec 12) (s : State) : Out :=
  .next (s.armLoop l (.ofNat 32 i.toNat) e)

/-! ### Repeats (R84–R87) -/

/-- SEL and STEP of lane i (R86). -/
def laneSel (reps : Word) (i : Nat) : Nat := fld reps.toNat (16 * i + 11) 5
def laneStep (reps : Word) (i : Nat) : Int := signedN (fld reps.toNat (16 * i) 11) 11

/-- The field a lane names: its lowest bit and width; none where unused (R86). -/
def laneField : Nat → Option (Nat × Nat)
  | 1 => some (20, 5)
  | 2 => some (15, 5)
  | 3 => some (10, 5)
  | 4 => some (5, 5)
  | 5 => some (0, 5)
  | 6 => some (0, 12)
  | 7 => some (0, 15)
  | 8 => some (0, 20)
  | 9 => some (0, 6)
  | 10 => some (15, 10)
  | _ => none

/-- A lane holds a reserved SEL (R86). -/
def lanesBad (reps : Word) : Bool := (List.range 3).any fun i => decide (10 < laneSel reps i)

/-- The target of a REP: the word after its issue (R84). -/
def Sq.repTarget (q : Sq) : Half := q.link

/-- A REP that raises ILLEGAL_INSTRUCTION: an end field that is not the offset to the target, a reserved lane, or an
illegal target (R84–R86). A target beyond the text is the fetch's matter (log entry 123). -/
def Core.repBad (c : Core) (e : BitVec 12) : Bool :=
  let q := c.sq
  q.lpEnd e != q.repTarget || lanesBad q.reps ||
    match c.textAt q.repTarget.toNat with
    | some w => !repTargetOk w
    | none => false

/-- REP with count n: REPC, REPS.DONE and PINS.RA take effect at once (R87). -/
def State.startRep (s : State) (n : BitVec 16) (e : BitVec 12) : State :=
  if s.core.repBad e then s.raise cILLEGAL_INSTRUCTION
  else s.onSq fun q => { q with
    repc := n
    reps := .ofNat 64 (setFld q.reps.toNat 48 16 0)
    pins := if n = 0 then q.pins else setRa q.pins true
    after := .rep n }

/-- REP with the count in a register: Min(ga, 65535) (R84). -/
def execRepReg (a : GReg) (e : BitVec 12) (s : State) : Out :=
  .next (s.startRep (.ofNat 16 (min (s.rg a).toNat 65535)) e)

/-- REP with an immediate count (R84). -/
def execRepImm (i : BitVec 10) (e : BitVec 12) (s : State) : Out := .next (s.startRep (.ofNat 16 i.toNat) e)

/-- One lane applied to the word of repetition j (R87). -/
def stepLane (reps : Word) (j i w : Nat) : Nat :=
  match laneField (laneSel reps i) with
  | none => w
  | some (lo, n) => setFld w lo n (((fld w lo n : Int) + j * laneStep reps i) % 2 ^ n).toNat

/-- The stepped word of repetition j: lanes 0, 1, 2 in this order (R87). -/
def stepWord (reps : Word) (j : Nat) (w : Half) : Half :=
  .ofNat 32 (stepLane reps j 2 (stepLane reps j 1 (stepLane reps j 0 w.toNat)))

/-- REPETITION (R87, R88): the lanes are checked as they stand, and the word at PC is stepped; the stepped word then
issues as a lone word. A repetition that waits keeps the word of its first attempt. -/
def execRepetition (s : State) : Out :=
  let q := s.core.sq
  match s.core.textAt q.pc.toNat with
  | none => .next s
  | some w =>
    if q.wait.isSome && q.latch.isSome then .next s
    else if lanesBad q.reps then .next (s.raise cILLEGAL_INSTRUCTION)
    else .next (s.onSq fun q => { q with latch := some (stepWord q.reps q.repDone w) })

/-! ### PIN (R89, R90) -/

/-- The words of the pinned range: from the link value to the end word (R89). -/
def Sq.pinLen (q : Sq) (e : BitVec 12) : Nat := if (q.lpEnd e).toNat < q.link.toNat then 0
  else ((q.lpEnd e).toNat - q.link.toNat) / 4 + 1

/-- PIN's range is illegal (R89). -/
def Sq.pinBad (q : Sq) (e : BitVec 12) : Bool :=
  !inSpan (q.pinLen e) 1 64 || decide (2 ^ 24 ≤ q.link.toNat / 4)

/-- PINS after a PIN; RA stays (R90). -/
def pinsWord (start len : Nat) (ra : Bool) : Half :=
  .ofNat 32 (start % 2 ^ 24 + 2 ^ 24 * (len - 1) + 2 ^ 30 + 2 ^ 31 * bit ra)

/-- PIN (R89, R90, R75). -/
def execPin (e : BitVec 12) (s : State) : Out :=
  let q := s.core.sq
  if q.pinBad e then .next (s.raise cILLEGAL_INSTRUCTION)
  else if s.core.textSize ≤ (q.lpEnd e).toNat then
    .next (s.trapAt cFETCH_BOUNDS (.ofNat 32 (max q.link.toNat s.core.textSize)) 0)
  else .next (s.onSq fun q => { q with
    pins := pinsWord (q.link.toNat / 4) (q.pinLen e) q.ra
    after := .held ((q.pinLen e + 7) / 8) })

/-! ### FENCE, EXIT, ABORT (R92–R94) -/

/-- The markers of a FENCE: one in every queue (R92). -/
def Core.putFence (c : Core) (sc : Scope) (now : Nat) : Core :=
  { c with
    queues := c.queues.mapAll fun q => { q with ents := q.ents ++ [.fence c.order sc now] }
    order := c.order + 1 }

/-- FENCE: a marker in every queue, once each has room; at SYSTEM scope the L1 is emptied at its issue (R92, R214). Its wait names
the first queue that lacks room (R318). -/
def execFence (sc : Scope) (s : State) : Out :=
  let w := s.waitAt .queue 0 0
  if !s.core.queues.toList.all Queue.hasRoom then
    .next (s.holds { w with third := .ofNat 64 (s.core.queues.toList.findIdx fun q => !q.hasRoom) } .cq)
  else
    let s := s.served.onCore (·.putFence sc s.chip.now)
    .next (if sc = .system then s.emptyL1 (s.partOf s.core) else s)

/-- EXIT: no word after it issues (R93). -/
def execExit (s : State) : Out := .next (s.onSq fun q => { q with ending := some .exit, after := .stop })

/-- ABORT: what has not begun is discarded (R94). -/
def execAbort (s : State) : Out :=
  .next (((s.onCore fun c => { c with queues := c.queues.mapAll fun q => { q with ents := [] } }).onSq fun q =>
    { q with ending := some .abort, after := .stop }))

/-! ### What is illegal where it stands (R36) -/

/-- A decoded word that raises ILLEGAL_INSTRUCTION where it stands, with the state it meets (R36, R80, R84–R86, R89,
R201). -/
def Core.illegalHere (c : Core) : Instr → Bool
  | .loopReg _ _ e => c.sq.loopBad e
  | .loopImm _ _ e => c.sq.loopBad e
  | .repReg _ e => c.repBad e
  | .repImm _ e => c.repBad e
  | .pin e => c.sq.pinBad e
  | .carm _ k => !c.loc.circ[k].isNode
  | _ => false

end Sys2Proof.Machine
end

