-- ==== Sys2Proof/Machine/Commands.lean ====
section
/-! DEFINITION. The issue of stream commands (R236–R239, R242, R245, R246, R256, R257, R269, R281, R343, R221): the
checks made at issue, the wait for room, and the entry into the queue. The rotation instructions post the same entries
(R178–R180). -/

namespace Sys2Proof

/-- The phase a command names. -/
def PhaseSel.phase : PhaseSel → Option Nat
  | .one p => some p.toNat
  | .all => none

end Sys2Proof

namespace Sys2Proof.Machine

/-! ### Checks at issue -/

/-- Checks 2–6 of R179, in their order: the rotation's record, the phase, the handle, the offset and its reach. -/
def State.rotCheck (s : State) (q : Fin 8) (phase : Option Nat) (h : Option (Fin 32)) (off : Option (Nat × (Nat → Nat))) :
    Option Cause :=
  match s.core.fab.rots[q].cfg with
  | none => some (cROT q .unconf)
  | some g =>
    let badPhase := match phase with
      | some p => decide (g.depth ≤ p)
      | none => false
    let badHandle := match h with
      | some k =>
        let d := s.core.loc.handles[k]
        !d.configured || (d.own && d.ocore != s.core.cid)
      | none => false
    if badPhase then some (cROT q .phase)
    else if badHandle then some (cROT q .handle)
    else match off with
      | none => none
      | some (a, n) =>
        if a % 64 ≠ 0 then some cMISALIGNED
        else if s.spadSize < a + n g.depth then some cLOCAL_BOUNDS
        else none

/-- Bytes of a save record of depth D (R184). -/
def recordSize (D : Nat) : Nat := 0x440 + 64 * D

/-- An ASID of the partition (R358). -/
def Part.ownsAsid (p : Part) (a : BitVec 16) : Bool :=
  inSpan a.toNat (fld p.pasid.toNat 0 16) (fld p.pasid.toNat 16 16 + 1)

/-- The checks of INVR and INVA that raise causes of their own (R221). -/
def State.xltCheck (s : State) (sel : AsidSel) (done : BitVec 24) : Option Cause :=
  if s.spadSize ≤ done.toNat then some cLOCAL_BOUNDS
  else match sel with
    | .self => none
    | .asid a => if s.chip.parts[s.partOf s.core].ownsAsid a then none else some (cXLT 0 .asid)

/-- The checks at issue that depend on the state (R237, R245, R246, R221). -/
def State.cmdCheck (s : State) : Instr → Option Cause
  | .argw n _ _ => if s.core.fab.cells[n].conf.isNone then some cILLEGAL_COMMAND else none
  | .radmc q h _ _ => s.rotCheck q none (some h) none
  | .rretc q x => s.rotCheck q x.phase none none
  | .rholdc q x => s.rotCheck q x.phase none none
  | .rrelc q x => s.rotCheck q x.phase none none
  | .rsavec q _ off => s.rotCheck q none none (some (off.toNat, recordSize))
  | .rloadc q _ _ off => s.rotCheck q none none (some (off.toNat, fun _ => 64))
  | .rmapc q off => s.rotCheck q none none (some (off.toNat, fun _ => 64))
  | .invr _ _ sel done => s.xltCheck sel done
  | .inva sel done => s.xltCheck sel done
  | _ => none

/-! ### Entry into a queue (R237, R238) -/

/-- A command takes the last place of its queue. -/
def Core.enqueue (c : Core) (k : Fin 22) (i : Instr) (node : BitVec 18) (pts : Word) (port : Option (Fin 16)) : Core :=
  let c := c.onQueue k fun q => { q with ents := q.ents ++ [.cmd i node pts c.order port] }
  { c with order := c.order + 1 }

/-- The sequencer enters a command into its queue, or waits for room (R40, R237, R238). The wait keeps a command that a
DX built (R41), and the queue it waits for (R318). -/
def State.post1 (s : State) (k : Fin 22) (i : Instr) (w : Wait) : State :=
  if s.core.queues[k].hasRoom then
    s.served.onCore fun c => c.enqueue k i (c.sq.node 48) c.sq.ctr.pts none
  else s.holds { w with third := .ofNat 64 k.val } .cq

/-- The sequencer issues a stream command, whose wait is `w` (R237, R238). ILLEGAL_COMMAND of a DX reports its idx
(R305). -/
def State.issueWith (s : State) (i : Instr) (w : Wait) : State :=
  if !i.wf then s.trapAt cILLEGAL_COMMAND s.core.sq.pc s.core.sq.index
  else match s.cmdCheck i with
    | some c => s.trapAt c s.core.sq.pc (if c = cILLEGAL_COMMAND then s.core.sq.index else 0)
    | none =>
      match queueOf i with
      | none => s
      | some k => s.post1 k i w

/-- A CMD form (R238). -/
def State.issueCmd (s : State) (i : Instr) : State := s.issueWith i (s.waitAt .queue 0 0)

/-! ### Wide local accesses (R383) -/

/-- The rows an access of n bytes at A touches. -/
def rowsTouched (A n : Nat) : List Nat := (List.range ((A + n - 1) / 64 + 1 - A / 64)).map (A / 64 + ·)

/-- The largest number of rows of one bank that an access touches (R383). -/
def rowsPerBank (A n : Nat) : Nat := ((rowsTouched A n).length + 31) / 32

/-- A read of n bytes at A performed at issue as one access: the banks it uses now and in the cycles that follow
(R383), and its logical time (R209). -/
def State.sqReadsWide (s : State) (A n : Nat) : State :=
  let rows := rowsTouched A n
  let banks := (rows.map (· % 32)).eraseDups
  (s.onSq fun q => { q with
    ctr := { q.ctr with pts := banks.foldl (fun t b => maxW t s.core.loc.bt[bankOf (64 * b)]) q.ctr.pts }
    banks := banks ++ q.banks
    wide := if rowsPerBank A n ≤ 1 then q.wide else banks.map fun b => (b, rowsPerBank A n - 1) }).event 4 rows.length

/-- The withheld cycles after a wide access (R383). -/
def State.wideHeld (s : State) (A n : Nat) : State :=
  if rowsPerBank A n ≤ 1 then s else s.goes (.held (rowsPerBank A n - 1))

/-! ### SDLD (R254, R257) -/

/-- A descriptor from its 144 bytes (R254). -/
def Desc.ofNat (n : Nat) : Desc where
  base := .ofNat 48 n
  e := .ofNat 4 (n / 2 ^ 64)
  ndim := .ofNat 3 (n / 2 ^ 68)
  g := bitAt n 71
  dims := (List.range (fld n 68 3 + 1)).map fun j => ⟨.ofNat 32 (fld n (128 * j + 128) 32), .ofNat 40 (fld n (128 * j + 192) 40)⟩

/-- The 1152 bits of a record (R254). -/
def Desc.word (d : Desc) : Nat :=
  d.base.toNat + 2 ^ 64 * d.e.toNat + 2 ^ 68 * d.ndim.toNat + 2 ^ 71 * bit d.g +
    ((List.range 8).map fun j => match d.dims[j]? with
      | some x => (x.ext.toNat + 2 ^ 64 * x.str.toNat) * 2 ^ (128 * j + 128)
      | none => 0).sum

/-- A malformed record (R254). -/
def descBad (n : Nat) : Bool :=
  fld n 48 16 != 0 || fld n 72 56 != 0 || decide (12 < fld n 64 4) || (!bitAt n 71 && decide (2 ^ 24 ≤ fld n 0 48)) ||
    (List.range 8).any fun j =>
      if j ≤ fld n 68 3 then fld n (128 * j + 160) 32 != 0 || fld n (128 * j + 232) 24 != 0
      else fld n (128 * j + 128) 128 != 0

/-- SDLD: one read of the record at issue; the register takes it from issue + 1 (R257). -/
def State.issueSdld (s : State) (k : Fin 16) (off : BitVec 24) : State :=
  if !(Instr.sdld k off).wf then s.trapAt cILLEGAL_COMMAND s.core.sq.pc s.core.sq.index
  else if s.spadSize < off.toNat + 144 then s.raise cLOCAL_BOUNDS
  else
    let n := rdNat s.core.loc.mem off.toNat 144
    if descBad n then s.trapAt cILLEGAL_COMMAND s.core.sq.pc s.core.sq.index
    else (s.sqReadsWide off.toNat 144).post 1 (.sd k (Desc.ofNat n))

/-- SDLD (R256, R257). -/
def execSdld (k : Fin 16) (off : BitVec 24) (s : State) : Out := .next (s.issueSdld k off)

/-! ### The commands that enter a queue -/

/-- FEEDH (R242, R243). -/
def execFeedh (q : Fin 4) (fe eoi : Bool) (port : Fin 16) (tag : BitVec 24) (d : Decl) (s : State) : Out :=
  .next (s.issueCmd (.feedh q fe eoi port tag d))

/-- FEEDA (R242, R243). -/
def execFeeda (q : Fin 4) (glb fe eoi : Bool) (port : Fin 16) (base : BitVec 48) (sd : Fin 16) (d : Decl) (s : State) : Out :=
  .next (s.issueCmd (.feeda q glb fe eoi port base sd d))

/-- FEEDI (R242, R243). -/
def execFeedi (q : Fin 4) (eoi : Bool) (port : Fin 16) (x y : Half) (d : Decl) (s : State) : Out :=
  .next (s.issueCmd (.feedi q eoi port x y d))

/-- FEEDM (R242, R243). -/
def execFeedm (q : Fin 4) (port : Fin 16) (d : Decl) (s : State) : Out :=
  .next (s.issueCmd (.feedm q port d))

/-- DRAINH (R242, R244). -/
def execDrainh (q : Fin 4) (fe eoi : Bool) (port : Fin 16) (d : Decl) (s : State) : Out :=
  .next (s.issueCmd (.drainh q fe eoi port d))

/-- DRAINA (R242, R244). -/
def execDraina (q : Fin 4) (glb fe eoi : Bool) (port : Fin 16) (base : BitVec 48) (sd : Fin 16) (d : Decl) (s : State) : Out :=
  .next (s.issueCmd (.draina q glb fe eoi port base sd d))

/-- DRAINX (R242, R244). -/
def execDrainx (q : Fin 4) (port : Fin 16) (d : Decl) (s : State) : Out :=
  .next (s.issueCmd (.drainx q port d))

/-- COPY (R256). -/
def execCopy (q : Fin 8) (fe : Bool) (rc : Option (BitVec 24)) (ssd dsd : Fin 16) (hist : Option Hist) (d : Decl) (s : State) : Out :=
  .next (s.issueCmd (.copy q fe rc ssd dsd hist d))

/-- HCOPY (R256). -/
def execHcopy (q : Fin 8) (fe : Bool) (rc : Option (BitVec 24)) (ssd dsd : Fin 16) (hist : Hist) (d : Decl) (s : State) : Out :=
  .next (s.issueCmd (.hcopy q fe rc ssd dsd hist d))

/-- GATHER (R256). -/
def execGather (q : Fin 8) (fe : Bool) (rc : Option (BitVec 24)) (ssd dsd : Fin 16) (idx : BitVec 24) (d : Decl) (s : State) : Out :=
  .next (s.issueCmd (.gather q fe rc ssd dsd idx d))

/-- SCATTER (R256). -/
def execScatter (q : Fin 8) (fe : Bool) (rc : Option (BitVec 24)) (ssd dsd : Fin 16) (idx : BitVec 24) (d : Decl) (s : State) : Out :=
  .next (s.issueCmd (.scatter q fe rc ssd dsd idx d))

/-- SELACC (R256). -/
def execSelacc (q : Fin 8) (rc : BitVec 24) (ssd : Fin 16) (dsd : Option (Fin 16)) (k : BitVec 6) (d : Decl) (s : State) : Out :=
  .next (s.issueCmd (.selacc q rc ssd dsd k d))

/-- LDB (R269, R270). -/
def execLdb (src : LdbSrc) (ty : MxTy) (bias : BitVec 8) (fwd : Option (Fin 16)) (d : Decl) (s : State) : Out :=
  .next (s.issueCmd (.ldb src ty bias fwd d))

/-- MMUL (R269, R271). -/
def execMmul (row0 n : BitVec 7) (z sw : Bool) (ty : MxTy) (port : Fin 16) (fwd : Option (Fin 16)) (eoi : Bool) (pf : Option Prefetch) (d : Decl) (s : State) : Out :=
  .next (s.issueCmd (.mmul row0 n z sw ty port fwd eoi pf d))

/-- GMUL (R269). -/
def execGmul (row0 n : BitVec 7) (z sw : Bool) (ty : MxTy) (bias : BitVec 8) (sd : Fin 16) (idx : BitVec 24) (fwd : Option (Fin 16)) (d : Decl) (s : State) : Out :=
  .next (s.issueCmd (.gmul row0 n z sw ty bias sd idx fwd d))

/-- RDACC (R269, R273). -/
def execRdacc (row0 n : BitVec 7) (z : Bool) (fmt : RdFmt) (bias : BitVec 8) (dst : RdDst) (d : Decl) (s : State) : Out :=
  .next (s.issueCmd (.rdacc row0 n z fmt bias dst d))

/-- RECUR (R269, R274). -/
def execRecur (q : Fin 8) (ty : MxTy) (bias : BitVec 8) (port : Fin 16) (fwd : Option (Fin 16)) (eoi : Bool) (d : Decl) (s : State) : Out :=
  .next (s.issueCmd (.recur q ty bias port fwd eoi d))

/-- ATOM (R281, R282). -/
def execAtom (op : AtomOp) (fmt : AtomFmt) (sc : SyeScope) (va : BitVec 48) (opr : BitVec 24) (s : State) : Out :=
  .next (s.issueCmd (.atom op fmt sc va opr))

/-- MMERGE (R281, R282). -/
def execMmerge (wd : MicaWid) (sc : SyeScope) (va : BitVec 48) (j : BitVec 5) (lvl : BitVec 8) (opr : BitVec 24) (s : State) : Out :=
  .next (s.issueCmd (.mmerge wd sc va j lvl opr))

/-- ATOMW (R281, R288). -/
def execAtomw (op : AtomOp) (fmt : AtomFmt) (sc : SyeScope) (va : BitVec 48) (opr : BitVec 24) (win : Fin 64) (s : State) : Out :=
  .next (s.issueCmd (.atomw op fmt sc va opr win))

/-- MMERGEW (R281, R288). -/
def execMmergew (wd : MicaWid) (sc : SyeScope) (va : BitVec 48) (j : BitVec 5) (lvl : BitVec 8) (opr : BitVec 24) (win : Fin 64) (s : State) : Out :=
  .next (s.issueCmd (.mmergew wd sc va j lvl opr win))

/-- WEND (R281, R289). -/
def execWend (sc : SyeScope) (nc : BitVec 12) (opr : BitVec 24) (win : Fin 64) (s : State) : Out :=
  .next (s.issueCmd (.wend sc nc opr win))

/-- BARR (R281, R292). -/
def execBarr (sc : SyeScope) (bid : Fin 64) (opr : BitVec 24) (s : State) : Out :=
  .next (s.issueCmd (.barr sc bid opr))

/-- SNAP (R245). -/
def execSnap (off : BitVec 24) (d : Decl) (s : State) : Out :=
  .next (s.issueCmd (.snap off d))

/-- ARGW (R245). -/
def execArgw (cell : Fin 32) (value : Half) (d : Decl) (s : State) : Out :=
  .next (s.issueCmd (.argw cell value d))

/-- RADMC (R246). -/
def execRadmc (q : Fin 8) (h : Fin 32) (own : Bool) (id : Half) (s : State) : Out :=
  .next (s.issueCmd (.radmc q h own id))

/-- RRETC (R246). -/
def execRretc (q : Fin 8) (x : PhaseSel) (s : State) : Out :=
  .next (s.issueCmd (.rretc q x))

/-- RHOLDC (R246). -/
def execRholdc (q : Fin 8) (x : PhaseSel) (s : State) : Out :=
  .next (s.issueCmd (.rholdc q x))

/-- RRELC (R246). -/
def execRrelc (q : Fin 8) (x : PhaseSel) (s : State) : Out :=
  .next (s.issueCmd (.rrelc q x))

/-- RSAVEC (R246). -/
def execRsavec (q : Fin 8) (m : SaveMode) (off : Half) (s : State) : Out :=
  .next (s.issueCmd (.rsavec q m off))

/-- RLOADC (R246). -/
def execRloadc (q : Fin 8) (kf m : Bool) (off : Half) (s : State) : Out :=
  .next (s.issueCmd (.rloadc q kf m off))

/-- RMAPC (R246). -/
def execRmapc (q : Fin 8) (off : Half) (s : State) : Out :=
  .next (s.issueCmd (.rmapc q off))

/-- LAUNCH (R343). -/
def execLaunch (doff : BitVec 24) (queue : Fin 256) (s : State) : Out :=
  .next (s.issueCmd (.launch doff queue))

/-- REPLAY (R343). -/
def execReplay (gva : BitVec 48) (queue : Fin 256) (s : State) : Out :=
  .next (s.issueCmd (.replay gva queue))

/-- INVR (R221). -/
def execInvr (page : Half) (pages : BitVec 16) (sel : AsidSel) (done : BitVec 24) (s : State) : Out :=
  .next (s.issueCmd (.invr page pages sel done))

/-- INVA (R221). -/
def execInva (sel : AsidSel) (done : BitVec 24) (s : State) : Out :=
  .next (s.issueCmd (.inva sel done))


/-! ### The rotation instructions (R178–R180): checks, then an entry in the ROT queue -/

/-- A rotation instruction with operand `v`, read at its first issue attempt, posts its operation in command form
(R41, R180). -/
def State.postRot (s : State) (v : Word) (bad : Word → Option Cause) (i : Word → Instr) : State :=
  let w := s.waitAt .queue v 0
  match bad w.addr with
  | some c => s.raise c
  | none => s.post1 19 (i w.addr) w

/-- The register of a slot operand. -/
def SlotSel.operand (s : State) : SlotSel → Word
  | .one r => s.rg r
  | .all => 0

/-- The phase an operand names. -/
def SlotSel.phaseAt (v : Word) : SlotSel → Option Nat
  | .one _ => some v.toNat
  | .all => none

/-- The phase in command form; a checked phase is below 64. -/
def SlotSel.cmd (v : Word) : SlotSel → PhaseSel
  | .one _ => .one (.ofNat 32 v.toNat)
  | .all => .all

/-- RADM: the id is gb[31:0] (R174). -/
def execRadm (h : Fin 32) (b : GReg) (w : Bool) (q : Fin 8) (s : State) : Out :=
  .next (s.postRot (s.rg b) (fun _ => s.rotCheck q none (some h) none) fun v => .radmc q h w (.ofNat 32 v.toNat))

/-- RRET (R176). -/
def execRret (x : SlotSel) (q : Fin 8) (s : State) : Out :=
  .next (s.postRot (SlotSel.operand s x) (fun v => s.rotCheck q (SlotSel.phaseAt v x) none none)
    fun v => .rretc q (SlotSel.cmd v x))

/-- RHOLD (R176). -/
def execRhold (x : SlotSel) (q : Fin 8) (s : State) : Out :=
  .next (s.postRot (SlotSel.operand s x) (fun v => s.rotCheck q (SlotSel.phaseAt v x) none none)
    fun v => .rholdc q (SlotSel.cmd v x))

/-- RREL (R176). -/
def execRrel (x : SlotSel) (q : Fin 8) (s : State) : Out :=
  .next (s.postRot (SlotSel.operand s x) (fun v => s.rotCheck q (SlotSel.phaseAt v x) none none)
    fun v => .rrelc q (SlotSel.cmd v x))

/-- RSAVE (R181). -/
def execRsave (a : GReg) (m : SaveMode) (q : Fin 8) (s : State) : Out :=
  .next (s.postRot (s.rg a) (fun v => s.rotCheck q none none (some (v.toNat, recordSize)))
    fun v => .rsavec q m (.ofNat 32 v.toNat))

/-- RLOAD (R182). -/
def execRload (a : GReg) (m kf : Bool) (q : Fin 8) (s : State) : Out :=
  .next (s.postRot (s.rg a) (fun v => s.rotCheck q none none (some (v.toNat, fun _ => 64)))
    fun v => .rloadc q kf m (.ofNat 32 v.toNat))

/-- RMAP (R183). -/
def execRmap (a : GReg) (q : Fin 8) (s : State) : Out :=
  .next (s.postRot (s.rg a) (fun v => s.rotCheck q none none (some (v.toNat, fun _ => 64)))
    fun v => .rmapc q (.ofNat 32 v.toNat))

/-- The slot entry as RSTAT reads it (R170). -/
def SlotState.code : SlotState → Nat
  | .empty => 0
  | .active => 1
  | .held => 2
  | .faulted => 3
  | .leaving => 4

def Slot.word (x : Slot) (psn : Bool) : Word :=
  .ofNat 64 (x.state.code + bit x.pend * 2 ^ 3 + bit psn * 2 ^ 4 + 2 ^ 8 * x.gen.toNat + 2 ^ 16 * x.cause.toNat
    + 2 ^ 32 * x.id.toNat)

/-- The lowest empty phase, and how many are empty. -/
def lowEmpty (l : List Slot) : Nat :=
  match l.findIdx? (·.state == .empty) with
  | some p => p
  | none => 64

/-- A save or load is executing, or an injection is pending (R180). -/
def Rot.busy (r : Rot) : Bool := r.save.isSome || r.loading || !r.inj.isEmpty

/-- The summary of RSTAT (R180). -/
def Rot.summary (r : Rot) : Word :=
  match r.cfg with
  | .none => 0
  | some g =>
    .ofNat 64 (g.depth + 2 ^ 7 * bit g.trap + 2 ^ 8 * r.slots.countP (·.state == .empty) + 2 ^ 15 * lowEmpty r.slots
      + 2 ^ 22 * bit r.frozen + 2 ^ 23 * bit r.busy + 2 ^ 32 * r.lateDrop.toNat + 2 ^ 48 * r.refused.toNat)

/-- RSTAT: a slot entry or the summary as at the start of the cycle, landing at issue + 2 (R180). -/
def execRstat (d : GReg) (x : SlotSel) (q : Fin 8) (s : State) : Out :=
  match s.rotCheck q (x.phase s) none none with
  | some c => .next (s.raise c)
  | none =>
    let r := s.core.fab.rstart[q]
    .next (s.setG d 2 (match x.phase s with
      | some p => (r.slots.getD p .zero).word false
      | none => r.summary))

end Sys2Proof.Machine
end

