-- ==== Sys2Proof/Machine/CopyEngine.lean ====
section
/-! DEFINITION. The copy engine (R258–R264): checks at begin, elements in element order, one row access each cycle,
write pointers, records, histogram and selection. -/

namespace Sys2Proof.Machine

/-! ### The commands in one form -/

/-- What a copy command asks for. -/
structure CpeForm where
  ch   : Fin 8
  fe   : Bool
  rc   : Option Nat
  ssd  : Fin 16
  /-- none with ND -/
  dsd  : Option (Fin 16)
  hist : Option Hist
  /-- GATHER and SCATTER: the offset of the index words -/
  idx  : Option Nat
  scat : Bool
  /-- SELACC: k -/
  sel  : Option Nat

def cpeForm : Instr → Option CpeForm
  | .copy q fe rc ssd dsd h _ => some ⟨q, fe, rc.map (·.toNat), ssd, some dsd, h, none, false, none⟩
  | .hcopy q fe rc ssd dsd h _ => some ⟨q, fe, rc.map (·.toNat), ssd, some dsd, some h, none, false, none⟩
  | .gather q fe rc ssd dsd i _ => some ⟨q, fe, rc.map (·.toNat), ssd, some dsd, none, some i.toNat, false, none⟩
  | .scatter q fe rc ssd dsd i _ => some ⟨q, fe, rc.map (·.toNat), ssd, some dsd, none, some i.toNat, true, none⟩
  | .selacc q rc ssd dsd k _ => some ⟨q, false, some rc.toNat, ssd, dsd, none, none, false, some (k.toNat + 1)⟩
  | _ => none

/-- Bytes of the completion record (R262). -/
def CpeForm.recSize (f : CpeForm) : Nat := match f.sel with
  | some k => 64 + 8 * k
  | none => if f.hist.isSome then 192 else 64

/-- The number of elements: GATHER's indices are counted by the destination (R258). -/
def CpeForm.count (f : CpeForm) (r : Run) : Nat := if f.idx.isSome && !f.scat then r.dst.count else r.src.count

/-- Chunks of at most 64 bytes that one element takes, and all of them. -/
def Run.perElem (r : Run) : Nat := r.src.esize / r.src.chunk
def CpeForm.chunks (f : CpeForm) (r : Run) : Nat := f.count r * r.perElem

/-! ### Begin (R258, R260) -/

/-- The shape checks (R258). -/
def CpeForm.shapeOk (f : CpeForm) (r : Run) : Bool :=
  let S := r.src
  let D := r.dst
  (match f.idx, f.dsd with
    | none, none => true
    | none, some _ => S.e == D.e && S.count == D.count
    | some _, _ =>
      if f.scat then D.ndim == 0 && decide ((D.esize : Int) ≤ D.str0) && S.e == D.e
      else S.ndim == 0 && S.e == D.e) &&
  (f.scat || f.dsd.isNone || D.ascending) &&
  (f.sel.isNone || S.e == 2) &&
  (match f.hist with
    | some h => decide (8 * S.esize % fmtBits h.fmt.val = 0)
    | none => true) &&
  decide (S.count ≤ 2 ^ 40) && decide (D.count ≤ 2 ^ 40)

/-- The cause a copy command raises at begin (R258). -/
def CpeForm.beginBad (f : CpeForm) (r : Run) (spad : Nat) : Option Cause :=
  if !f.shapeOk r then some (cENG 2 .shape)
  else match f.rc with
    | some a => if spad ≤ a + f.recSize then some (cENG 2 .addr) else none
    | none => none

/-- WP of a channel with its address replaced. -/
def wpAt (w : Word) (A : Nat) : Word := .ofNat 64 (2 ^ 48 * (w.toNat / 2 ^ 48) + A % 2 ^ 48)

def State.setWp (s : State) (ch : Fin 8) (w : Word) (t : Word) : State :=
  s.onLoc fun l => { l with
    wp := l.wp.set ch w
    wppts := l.wppts.set ch t }

/-- A command begins: SEQ rises by 1 and WP takes the lowest destination address (R202, R260). -/
def State.cpeStart (s : State) (f : CpeForm) (r : Run) : State :=
  s.setWp f.ch (wpAt (s.core.loc.wp[f.ch] + 2 ^ 48) (if f.dsd.isSome then r.dst.base.toNat else 0)) r.pts

/-! ### Elements (R259) -/

/-- Source and destination addresses of element n with index x (R259). -/
def CpeForm.srcAt (f : CpeForm) (r : Run) (n x : Nat) : Int :=
  if f.idx.isSome && !f.scat then r.src.base.toNat + x * r.src.str0 else r.src.element n
def CpeForm.dstAt (f : CpeForm) (r : Run) (n x : Nat) : Int :=
  if f.scat then r.dst.base.toNat + x * r.dst.str0 else r.dst.element n

/-- EXT_0 of the indexed descriptor. -/
def CpeForm.indexLimit (f : CpeForm) (r : Run) : Nat := if f.scat then r.dst.ext0 else r.src.ext0

/-- What one chunk is: an index row still to be read, a cause, or its addresses on both sides. -/
inductive Chunk
  | index (row : Nat)
  | bad (k : EngKind)
  | here (A B : Nat)
deriving DecidableEq, Repr

/-- Chunk m of a running command: the checks of its element in their order, then its place (R255, R259). -/
def CpeForm.chunkAt (f : CpeForm) (r : Run) (spad m : Nat) : Chunk :=
  let n := m / r.perElem
  let off := m % r.perElem * r.src.chunk
  let go := fun (x : Nat) =>
    let A := f.srcAt r n x
    let B := f.dstAt r n x
    if !elementLegal r.src.g spad A r.src.esize || (f.dsd.isSome && !elementLegal r.dst.g spad B r.src.esize) then
      Chunk.bad .addr
    else .here (A.toNat + off) (B.toNat + off)
  match f.idx with
  | none => go 0
  | some i =>
    let a := i + 4 * n
    if spad < a + 4 then .bad .addr
    else match r.irows.find? (·.1 == a / 64) with
      | none => .index (a / 64)
      | some e =>
        let x := leNat ((e.2.drop (a % 64)).take 4)
        if f.indexLimit r ≤ x then .bad .index else go x

/-- The words that the chunks from m on read in a source row, while they stay in it: those one waiter waits for (R196,
R259); or the index row that has to be read first. A chunk with a cause reads none, and ends them. -/
def CpeForm.words (f : CpeForm) (r : Run) (spad row : Nat) : Nat → Nat → List Nat → Nat ⊕ List Nat
  | 0, _, acc => .inr acc
  | fuel + 1, m, acc =>
    if f.scat && (f.srcAt r (m / r.perElem) 0 + (m % r.perElem * r.src.chunk : Nat)) / 64 ≠ (row : Int) then .inr acc
    else match f.chunkAt r spad m with
      | .index k => .inl k
      | .bad _ => .inr acc
      | .here A _ =>
        if A / 64 ≠ row then .inr acc
        else f.words r spad row fuel (m + 1) (acc ++ (wordsOf A r.src.chunk).filter fun w => !acc.contains w)

/-- What a channel needs before its next chunk, or that it can take it: the address of the chunk on both sides. -/
inductive CpeNeed
  | index (row : Nat)
  | source (row : Nat) (words : List Nat)
  | put
  | take (A B : Nat)
  | bad (k : EngKind)
  | over
  /-- a pre-emption has stopped it between two elements (R313) -/
  | rest
deriving DecidableEq, Repr

/-- The next chunk of a running command (R259, R261). -/
def CpeForm.need (f : CpeForm) (r : Run) (spad : Nat) : CpeNeed :=
  if f.chunks r ≤ r.n || r.bad.isSome then (if r.pend.isEmpty then .over else .put)
  else match f.chunkAt r spad r.n with
    | .index k => .index k
    | .bad k => .bad k
    | .here A B =>
      let fe := f.fe && !r.src.g
      if r.srow != some (A / 64) || (fe && !(wordsOf A r.src.chunk).all r.smask.contains) then
        match (if fe then f.words r spad (A / 64) (f.chunks r - r.n) r.n [] else .inr []) with
        | .inl k => .index k
        | .inr ws => .source (A / 64) ws
      else match r.pend with
        | (b, _) :: _ => if b / 64 ≠ B / 64 then .put else .take A B
        | [] => .take A B

/-- The same; a pre-emption stops the command between two elements, once the writes of the elements before are performed
(R313). -/
def State.cpeNeed (s : State) (f : CpeForm) (r : Run) : CpeNeed :=
  if s.core.fab.stopping && r.n % r.perElem = 0 && r.bad.isNone then (if r.pend.isEmpty then .rest else .put)
  else f.need r s.spadSize

/-! ### Histogram and selection (R138, R263, R264) -/

/-- The bin of a value (R138). -/
def binOf (ebase : Int) (dk : Option (Int × Nat)) (v : RVal) : Nat := match v with
  | .fin _ n d =>
    if n = 0 then 0
    else
      let e := match dk with
        | some (B, z) => B - z
        | none => log2Q n d
      (clampI (e - ebase) 0 29).toNat + 1
  | _ => 31

/-- The bin of a lane. -/
def binLane (h : Hist) (bits : Nat) : Nat :=
  let f : Fmt := ⟨h.fmt.val, biasOf h.bias⟩
  let p := fld bits 0 7
  binOf (biasOf h.ebase) (if f.code = 8 && p ≠ 0 then some (f.bias, dkZ p) else none) (decLane f bits)

/-- Bytes counted into the bins, lane by lane (R263). -/
def countBins (h : Hist) (bins : List Nat) (bs : List Byte) : List Nat :=
  let W := fmtBits h.fmt.val
  let v := leNat bs
  ((List.range (8 * bs.length / W)).map fun i => fld v (W * i) W).foldl
    (fun b x => b.modify (binLane h x) fun c => min (c + 1) (2 ^ 32 - 1)) bins

/-- log2 e rounded to fp32 (R264). -/
def selL : RVal := fp32Val 0x3FB8AA3B

/-- Rounds to fp32 and reads the value back. -/
def rnd (v : RVal) : RVal := fp32Val (fp32 v)

/-- Round(Exp2(Round(Round(a − b) · L))) (R264). -/
def selExp (a b : RVal) : RVal := rnd (exp2R (rnd (mulR (rnd (addR a (negR b))) selL)))

/-- Insert a candidate: by value descending, then by number ascending; keep k (R264). -/
def Sel.insert (x : Half) (n : Nat) : List (Half × Nat) → List (Half × Nat)
  | [] => [(x, n)]
  | e :: l => if ltR true (fp32Val e.1.toNat) (fp32Val x.toNat) then (x, n) :: e :: l else e :: Sel.insert x n l

/-- One element of SELACC (R264). -/
def Sel.step (q : Sel) (k n : Nat) (x : Half) : Sel :=
  let v := fp32Val x.toNat
  let m := fp32Val q.m.toNat
  let s := fp32Val q.s.toNat
  if isNan v then { q with nans := q.nans + 1 }
  else
    let q := if ltR true m v then
        { q with
          s := .ofNat 32 (if q.m = 0xFF800000 then 0x3F800000 else fp32 (addR (rnd (mulR s (selExp m v))) (.fin false 1 1)))
          m := x }
      else if x = 0xFF800000 then q
      else if x = q.m then { q with s := .ofNat 32 (fp32 (addR s (.fin false 1 1))) }
      else { q with s := .ofNat 32 (fp32 (addR s (selExp v m))) }
    { q with top := (Sel.insert x n q.top).take k }

/-! ### Taking chunks -/

/-- A chunk is taken from the source row: it joins the destination row, the bins and the selection. -/
def CpeForm.take (f : CpeForm) (r : Run) (A B : Nat) : Run :=
  let bs := (r.sdata.drop (A % 64)).take r.src.chunk
  { r with
    n := r.n + 1
    irows := match f.idx with
      | some i => r.irows.filter fun e => decide ((i + 4 * ((r.n + 1) / r.perElem)) / 64 ≤ e.1)
      | none => r.irows
    pend := if f.dsd.isSome then r.pend ++ [(B, bs)] else []
    hist := match f.hist with
      | some h => countBins h (if r.hist.isEmpty then List.replicate 32 0 else r.hist) bs
      | none => []
    sel := match f.sel with
      | some k => r.sel.step k r.n (.ofNat 32 (leNat bs))
      | none => r.sel }

/-- An element of a global side that crosses a page boundary: its last page is translated before any of it moves, so
that a cause of it leaves no part of the element written (R259, R219). -/
def State.lastPage (s : State) (g : Bool) (A : Int) (n : Nat) (store : Bool) : Lookup × State :=
  let a := A.toNat
  if !g || a / 65536 = (a + n - 1) / 65536 then (.hit ⟨0, 0, 0, 0, false, false, 0, false⟩, s)
  else s.lookup 3 true (a + n - 1) store

/-- Both sides of the element at its first chunk: ready, a cause, or a walk to wait for. -/
def State.pagesReady (s : State) (f : CpeForm) (r : Run) (A B : Nat) : Lookup × State :=
  if r.n % r.perElem ≠ 0 then s.lastPage false 0 1 false
  else match s.lastPage r.src.g A r.src.esize false with
    | (.hit _, s) => s.lastPage (r.dst.g && f.dsd.isSome) B r.src.esize true
    | x => x

/-- Channel k takes chunks until it needs a row access, at most `fuel`. -/
def State.cpeTakes (s : State) (k : Fin 22) (f : CpeForm) : Nat → State
  | 0 => s
  | fuel + 1 =>
    match s.runOf k with
    | none => s
    | some r =>
      if !r.wait.isEmpty then s
      else match s.cpeNeed f r with
      | .take A B =>
        match s.pagesReady f r A B with
        | (.hit _, s) => (s.onRun k fun r => f.take r A B).cpeTakes k f fuel
        | (.bad c, s) => s.onRun k fun r => { r with bad := some c }
        | (.miss, s) => s
      | .bad e => s.onRun k fun r => { r with bad := some (cENG 2 e) }
      | _ => s

/-! ### Records (R262) -/

/-- The record's bytes from 0x40 on. -/
def CpeForm.recTail (f : CpeForm) (r : Run) : List Byte := match f.sel with
  | some k => (List.range k).flatMap fun i => match r.sel.top[i]? with
    | some (x, n) => leBytes x.toNat 4 ++ leBytes n 4
    | none => leBytes 0xFF800000 4 ++ leBytes 0xFFFFFFFF 4
  | none => if f.hist.isSome then (List.range 32).flatMap fun i => leBytes (r.hist.getD i 0) 4 else []

/-- The record from its second word to 0x40. -/
def CpeForm.recHead (f : CpeForm) (r : Run) : List Byte :=
  let v := fun (x : Nat) => if f.sel.isSome then x else 0
  leBytes (v r.sel.nans) 4 ++ leBytes (if f.dsd.isSome then f.chunks r * r.src.chunk else 0) 8
    ++ leBytes (v r.sel.m.toNat) 4 ++ leBytes (v r.sel.s.toNat) 4 ++ List.replicate 40 0

/-- Bytes in pieces of 64. -/
def pieces64 : Nat → List Byte → List (List Byte)
  | 0, _ => []
  | n + 1, l => if l.isEmpty then [] else l.take 64 :: pieces64 n (l.drop 64)

/-- The writes of the record: its rows as plain writes, STATUS last as STF (R262). -/
def CpeForm.recWrites (f : CpeForm) (r : Run) (seq : Nat) : List (Nat × List Byte × Bool) := match f.rc with
  | none => []
  | some a =>
    (a + 4, f.recHead r, false) ::
      ((pieces64 8 (f.recTail r)).zipIdx.map fun e => (a + 64 + 64 * e.2, e.1, false)) ++
      [(a, leBytes (1 + (if f.hist.isSome then 2 else 0) + 2 ^ 16 * seq) 4, true)]

/-- SEQ of the channel's current copy. -/
def State.seqOf (s : State) (ch : Fin 8) : Nat := s.core.loc.wp[ch].toNat / 2 ^ 48

/-! ### Row accesses (R261) -/

/-- The next row access of a command, if it needs one and none is outstanding. -/
inductive CpeRow
  | read (glob : Bool) (row : Nat) (words : List Nat) (index : Bool)
  | put
  | record (a : Nat) (bs : List Byte) (fe : Bool)

def State.cpeRow (s : State) (f : CpeForm) (r : Run) : Option CpeRow :=
  if !r.wait.isEmpty then none
  else match s.cpeNeed f r with
    | .index row => some (.read false row [] true)
    | .source row words => some (.read r.src.g row words false)
    | .put => some .put
    | .over =>
      if r.bad.isSome then none
      else (f.recWrites r (s.seqOf f.ch))[r.stage]?.map fun e => .record e.1 e.2.1 e.2.2
    | _ => none

/-- Channel k posts its row access. -/
def State.cpePost (s : State) (k : Fin 22) (f : CpeForm) (r : Run) : CpeRow → State
  | .read glob row ws index =>
    let x := if glob then s.ask 3 3 true false none false (64 * row) (.load 64) r.pts
      else s.request (.cpe f.ch) (.read (64 * row) 64 ws) r.pts
    x.2.onRun k fun r => if index then { r with
        wait := [x.1]
        pre := 1
        irows := r.irows ++ [(row, [])] }
      else { r with
        wait := [x.1]
        pre := 2
        srow := some row
        smask := ws
        sdata := [] }
  | .put =>
    match r.pend with
    | [] => s
    | (b, _) :: _ =>
      let row := b / 64
      let x := if r.dst.g then
          s.ask 3 3 true false none false (64 * row) (.row (r.pend.map fun e => (e.1 - 64 * row, e.2))) r.pts
        else s.request (.cpe f.ch) (.write r.pend f.fe) r.pts
      x.2.onRun k fun r => { r with
        wait := [x.1]
        pre := 3 }
  | .record a bs fe =>
    let x := s.request (.cpe f.ch) (.write [(a, bs)] fe) r.pts
    x.2.onRun k fun r => { r with
      wait := [x.1]
      pre := 4 }

/-- The row access that channel ch has ready. -/
def State.cpeReady (s : State) (ch : Fin 8) : Option (CpeForm × Run × CpeRow) :=
  (s.runOf (Fin.ofNat 22 (8 + ch.val))).bind fun r => (cpeForm r.cmd).bind fun f =>
    (s.cpeRow f r).map fun x => (f, r, x)

/-- The channels in the order of service: from the one after the channel served last (R261). -/
def channelOrder (last : Fin 8) : List (Fin 8) := (List.range 8).map fun i => Fin.ofNat 8 (last.val + 1 + i)

/-- A row access of global memory: it takes the copy engine's cycle where it is made, one of the scratchpad where its bank
serves it (R261). -/
def CpeRow.glob (x : CpeRow) (r : Run) : Bool := match x with
  | .read g _ _ _ => g
  | .put => r.dst.g
  | .record .. => false

/-- Channel ch posts the row of the scratchpad that it needs. -/
def State.cpeAsks (s : State) (ch : Fin 8) : State := match s.cpeReady ch with
  | some (f, r, x) => if x.glob r then s else (s.cpePost (Fin.ofNat 22 (8 + ch.val)) f r x).act
  | none => s

/-- The channel has a row ready: one of the scratchpad whose words are full, or one of global memory. -/
def State.cpeHasRow (s : State) (ch : Fin 8) : Bool :=
  (s.core.loc.reqs.any fun r => r.who == .cpe ch && s.core.loc.ready r.acc) || (s.cpeReady ch).any fun x => x.2.2.glob x.2.1

/-- The budgets permit the copy engine a row access in this cycle (R367, R368). -/
def State.cpePermits (s : State) : Bool :=
  s.energyOk s.core && s.chip.parts[s.partOf s.core].permits 5 s.core.cid.toNat

/-- The copy engine's turn of the cycle: the next channel after the one served last that has a row ready; a bank that refuses it
leaves it the turn (R261; log entry 128). -/
def State.cpeNext (s : State) : State :=
  if s.core.loc.cpeUsed then s
  else
    let turn := (channelOrder s.core.lastCh).find? s.cpeHasRow
    if turn.isSome && !s.cpePermits then (s.onLoc fun l => { l with cpeTurn := none }).held
    else s.onLoc fun l => { l with cpeTurn := turn }

/-- CPE_ROW_ACCESS (R261): every channel shows the row it needs; the channel whose turn it is makes its access to global memory,
or its bank serves it. -/
def execCpeRowAccess (s : State) : Out :=
  let s := ((List.finRange 8).foldl State.cpeAsks s).cpeNext
  match s.core.loc.cpeTurn with
  | none => .next s
  | some ch => match s.cpeReady ch with
    | some (f, r, x) =>
      if x.glob r then .next ((s.cpePost (Fin.ofNat 22 (8 + ch.val)) f r x).cpeServed ch).act else .next s
    | none => .next s

/-! ### The end of the cycle -/

/-- WP follows the writes of a rising destination (R260). -/
def State.wpFollow (s : State) (f : CpeForm) (l : List (Nat × List Byte)) (t : Word) : State :=
  if f.scat then s
  else match l.getLast? with
    | some e => s.setWp f.ch (wpAt s.core.loc.wp[f.ch] (e.1 + e.2.length)) t
    | none => s

/-- The outstanding access of channel k was performed, or answered with a cause (R259); `pre` says which it was: 1 index
words, 2 source, 3 destination, 4 record. -/
def State.cpeAbsorb (s : State) (k : Fin 22) (f : CpeForm) (r : Run) : State :=
  match r.wait with
  | [] => s
  | id :: _ =>
    let l := s.core.loc
    if l.waits id then s
    else
      let d := l.answered id
      let s := s.onLoc (·.takeAll [id])
      let t := maxW r.pts ((d.map (·.pts)).getD 0)
      let bs := (d.map (·.bytes)).getD []
      match d.bind (·.bad) with
      | some c => s.onRun k fun r => { r with
          wait := []
          pts := t
          pend := if r.pre = 3 then [] else r.pend
          bad := some (engineCause (cENG 2 .addr) c) }
      | none =>
        (if r.pre = 3 then s.wpFollow f r.pend t else s).onRun k fun r => { r with
          wait := []
          pts := t
          irows := if r.pre = 1 then r.irows.map fun e => if e.2.isEmpty then (e.1, bs) else e else r.irows
          sdata := if r.pre = 2 then bs else r.sdata
          pend := if r.pre = 3 then [] else r.pend
          stage := if r.pre = 4 then r.stage + 1 else r.stage }

/-- A scatter's WP once it has completed: one that a cause has removed moves none (R260, R329). -/
def State.scatterWp (s : State) (k : Fin 22) (f : CpeForm) (r : Run) : State :=
  if f.scat && f.count r ≠ 0 && s.core.queues[k].stop.isNone then
    s.setWp f.ch (wpAt s.core.loc.wp[f.ch]
      (r.dst.base.toNat + ((r.dst.ext0 - 1 : Nat) * r.dst.str0).toNat + r.dst.esize)) r.pts
  else s

/-- Once a pre-emption stops it, a command between two elements takes back the row read that the next is to have, of its index
or its source, where no bank has served it (R196, R313). -/
def State.cpeRecall (s : State) (k : Fin 22) (r : Run) : State :=
  if !s.core.fab.stopping || (r.pre ≠ 1 && r.pre ≠ 2) || r.n % r.perElem ≠ 0
      || !(s.core.loc.reqs.any fun q => r.wait.contains q.id) then s
  else (s.onLoc fun l => { l with reqs := l.reqs.filter fun q => !r.wait.contains q.id }).onRun k fun r => if r.pre = 1 then
      { r with
        wait := []
        irows := r.irows.dropLast }
    else { r with
      wait := []
      srow := none
      sdata := []
      smask := [] }

/-- The end of the cycle of a copy command: what was performed, the chunks it can take, and its end. -/
def State.cpeEnd (s : State) (k : Fin 22) (r : Run) : State :=
  match cpeForm r.cmd with
  | none => s
  | some f =>
    let s := s.cpeRecall k r
    let s := (s.cpeAbsorb k f ((s.runOf k).getD r)).cpeTakes k f 64
    match s.runOf k with
    | none => s
    | some r =>
      let s := s.onLoc fun l => { l with wppts := l.wppts.set f.ch r.pts }
      if !r.wait.isEmpty then s
      else match s.cpeNeed f r with
        | .over => match r.bad with
          | some c => s.failRun k c
          | none =>
            if (f.recWrites r (s.seqOf f.ch)).length ≤ r.stage then (s.completeRun k r).scatterWp k f r else s
        | _ => s

/-- Before the cycle is sampled: the write of channel ch that was performed since the end of its last one moves WP, so that an
observation sees it; and the pointer's time is the copy's (R202, R260). -/
def State.cpePerformed (s : State) (ch : Fin 8) : State :=
  let k := Fin.ofNat 22 (8 + ch.val)
  match (s.runOf k).bind fun r => (cpeForm r.cmd).map fun f => (f, r) with
  | none => s
  | some (f, r) =>
    let s := if r.pre = 3 then s.cpeAbsorb k f r else s
    s.onLoc fun l => { l with wppts := l.wppts.set ch (((s.runOf k).map (·.pts)).getD r.pts) }

end Sys2Proof.Machine
end

