-- ==== Sys2Proof/Machine/Creg.lean ====
section
/-! DEFINITION. RDC and WRC (R46–R49): every control register the spec names. -/

namespace Sys2Proof.Machine

/-- The value RDC returns: as at the start of the issue cycle; none for an unassigned number (R46–R48). -/
def State.creg (s : State) (c : Nat) : Option Word :=
  let q := s.core.sq
  let h := fun (x : Half) => some (zextW x.toNat)
  if c = 0x000 then some (zextW s.core.cid.toNat)
  else if c = 0x001 then h q.lcid
  else if c = 0x002 then h q.nlc
  else if c = 0x003 then some q.pbase
  else if c = 0x008 then some q.seen.cycle
  else if c = 0x009 then some (zextW s.chip.time)
  else if c = 0x00A then some s.chip.dies[dieOf s.core.cid].stretch
  else if c = 0x010 then some (zextW q.repc.toNat)
  else if c = 0x011 then some q.reps
  else if c = 0x012 then h q.pins
  else if c = 0x018 then h q.cause
  else if c = 0x019 then h q.trappc
  else if c = 0x01A then h q.trapslot
  else if c = 0x01B then h q.tvec
  else if c = 0x01C then h q.tcfg
  else if c = 0x020 then h q.dgen
  else if c = 0x021 then some q.dref
  else if c = 0x028 then some q.mseed
  else if c = 0x030 then some q.seen.pts
  else if c = 0x031 then some (zextW q.lease.toNat)
  else if c = 0x038 then h q.split
  else if c = 0x040 then some q.seen.bank
  else if c = 0x041 then some q.seen.hw
  else if c = 0x042 then some q.seen.fe
  else if c = 0x043 then some q.seen.gl
  else if c = 0x044 then some q.seen.cq
  else if c = 0x045 then some q.seen.bg
  else if c = 0x050 then some q.seen.energy
  else if h : 0x058 ≤ c ∧ c < 0x05C then some q.seen.pmc[c - 0x058]
  else if h : 0x05C ≤ c ∧ c < 0x060 then some (zextW q.pms[c - 0x05C].toNat)
  else if h : 0x060 ≤ c ∧ c < 0x068 then some q.bka[c - 0x060]
  else if h : 0x068 ≤ c ∧ c < 0x070 then some (zextW q.bkc[c - 0x068].toNat)
  else none

/-- The numbers assigned by R46. -/
def cregAssigned (c : Nat) : Bool :=
  inSpan c 0x000 4 || inSpan c 0x008 3 || inSpan c 0x010 3 || inSpan c 0x018 5 || inSpan c 0x020 2 || c == 0x028
    || inSpan c 0x030 2 || c == 0x038 || inSpan c 0x040 6 || c == 0x050 || inSpan c 0x058 24

/-- RDC, landing at issue + 2 (R48). -/
def execRdc (d : GReg) (c : BitVec 12) (s : State) : Out :=
  match s.creg c.toNat with
  | none => .next (s.raise cILLEGAL_CREG)
  | some v => .next (s.setG d 2 v)

/-- The write of a control register takes effect at issue + 2 (R49). -/
def State.setCr (s : State) (n : Nat) (v : Word) : State := s.post 2 (.creg n v)

/-- WRC to a register without a row of its own: an RO register keeps its value (R49). -/
def execWrc (a : GReg) (c : BitVec 12) (s : State) : Out :=
  if cregAssigned c.toNat then .next (s.setCr c.toNat (s.rg a)) else .next (s.raise cILLEGAL_CREG)

/-- WRC SPLIT: an L1MB of 5–7 changes nothing; a new size resizes the scratchpad where it lands (R186, R187). -/
def execWrcSplit (a : GReg) (s : State) : Out :=
  .next (if 5 ≤ (s.rg a).toNat % 8 then s else s.setCr 0x038 (s.rg a))

/-- WRC PINS: V = 1 refills the buffer, whose contents always equal text; RA = 1 with REPC ≠ 0 starts a repeat (R88,
R90). -/
def execWrcPins (a : GReg) (s : State) : Out := .next (s.setCr 0x012 (s.rg a))

/-- WRC LEASE: below 8 stores 8, above 256 stores 256 (R207). -/
def execWrcLease (a : GReg) (s : State) : Out :=
  .next (s.setCr 0x031 (zextW (min 256 (max 8 ((s.rg a).toNat % 2 ^ 16)))))

/-- WRC BKCn (R320). -/
def execWrcBkc (a : GReg) (n : Fin 8) (s : State) : Out := .next (s.setCr (0x068 + n.val) (s.rg a))

end Sys2Proof.Machine
end

