-- ==== Sys2Proof/Machine/MxeArith.lean ====
section
/-! DEFINITION. The arithmetic of the matrix engine (R266, R268, R273, R275): each column's sum is exact and rounded
once. -/

namespace Sys2Proof.Machine

/-! ### Dense views of sparse stores -/

/-- The n values from number k on, of a store whose first entry is at k or above. -/
def dense {α : Type} (d : α) : Nat → Nat → Sparse α → List α
  | 0, _, _ => []
  | n + 1, k, [] => d :: dense d n (k + 1) []
  | n + 1, k, (j, v) :: r => if j = k then v :: dense d n (k + 1) r else d :: dense d n (k + 1) ((j, v) :: r)

/-- The n values from number lo on. -/
def denseAt {α : Type} (d : α) (lo n : Nat) (l : Sparse α) : List α := dense d n lo (l.dropWhile (·.1 < lo))

/-- Replace the values from number lo on. -/
def putRange {α : Type} [DecidableEq α] (d : α) (lo : Nat) (vs : List α) (l : Sparse α) : Sparse α :=
  l.takeWhile (·.1 < lo) ++ (vs.zipIdx.map fun e => (lo + e.2, e.1)).filter (·.2 ≠ d)
    ++ l.dropWhile (·.1 < lo + vs.length)

/-! ### The MXE's registers (R265) -/

/-- The active tile, or the inactive one. -/
def Mxe.tile (m : Mxe) (active : Bool) : Sparse Byte := if m.act == active then m.b1 else m.b0
/-- BV, BT and BB of the active or the inactive buffer. -/
def Mxe.valid (m : Mxe) (active : Bool) : Bool := if m.act == active then m.bv.2 else m.bv.1
def Mxe.ty (m : Mxe) (active : Bool) : MxTy := if m.act == active then m.bt.2 else m.bt.1
def Mxe.bias (m : Mxe) (active : Bool) : BitVec 8 := if m.act == active then m.bb.2 else m.bb.1

/-- 64 bytes enter the inactive buffer (R270). -/
def Mxe.fill (m : Mxe) (off : Nat) (bs : List Byte) : Mxe :=
  if m.act then { m with b0 := putRange 0 off bs m.b0 } else { m with b1 := putRange 0 off bs m.b1 }

/-- BV of the inactive buffer (R270). -/
def Mxe.setValid (m : Mxe) (b : Bool) : Mxe :=
  { m with bv := if m.act then (b, m.bv.2) else (m.bv.1, b) }

/-- The inactive buffer holds a tile (R270). -/
def Mxe.loaded (m : Mxe) (t : MxTy) (bias : BitVec 8) : Mxe :=
  if m.act then { m.setValid true with
      bt := (t, m.bt.2)
      bb := (bias, m.bb.2) }
  else { m.setValid true with
      bt := (m.bt.1, t)
      bb := (m.bb.1, bias) }

/-- Row i of the accumulators. -/
def Mxe.row (m : Mxe) (i : Nat) : List Nat := (denseAt 0 (256 * i) 256 m.acc).map (·.toNat)

def Mxe.setRow (m : Mxe) (i : Nat) (vs : List Nat) : Mxe := { m with acc := putRange 0 (256 * i) (vs.map (.ofNat 32 ·)) m.acc }

/-- OV[i]. -/
def Mxe.setOv (m : Mxe) (i : Nat) (b : Bool) : Mxe := { m with ov := .ofNat 128 (setFld m.ov.toNat i 1 (bit b)) }

/-! ### Formats (R266, R269) -/

def mxCode : MxTy → Nat
  | .i8 => 0
  | .dk8 => 8
  | .bf16 => 9

def rdCode : RdFmt → Nat
  | .i8 => 0
  | .i32 => 2
  | .dk8 => 8
  | .bf16 => 9
  | .fp32 => 10

/-- K, and bits of an element (R266). -/
def mxK : MxTy → Nat
  | .bf16 => 64
  | _ => 128
def mxBits : MxTy → Nat
  | .bf16 => 16
  | _ => 8

/-! ### Sums (R268) -/

/-- Signed I_k: the product of two dk8 values in units of 2^−12 · 10^(B1 + B2 − 12) (R133). -/
def mxDkInt (x y : Nat) : Int :=
  let p := fld x 0 7
  let q := fld y 0 7
  if p = 0 || q = 0 then 0
  else
    let m : Int := (dkM p * dkM q * 10 ^ (12 - dkZ p - dkZ q) : Nat)
    if bitAt x 7 != bitAt y 7 then -m else m

/-- S · 2^−12 · 10^(B − 12) as an exact value. -/
def mxDkSum (S B : Int) : RVal :=
  let t := pow10 (B - 12)
  .fin (decide (S < 0)) (S.natAbs * t.1) (2 ^ 12 * t.2)

/-- A finite value in units of 2^−k. -/
def fixOf (k : Nat) : RVal → Int
  | .fin s n d => if s then -((n * 2 ^ k / d : Nat) : Int) else (n * 2 ^ k / d : Nat)
  | _ => 0

/-- The exact sum of finite values with the sign of an exact zero: −0 where every term is −0, else +0 (R129). -/
def sumFin (k : Nat) (l : List RVal) : RVal :=
  let S := (l.map (fixOf k)).sum
  if S = 0 then .fin (!l.isEmpty && l.all fun v => v == .fin true 0 1 || (isZero v && negOf v)) 0 1
  else .fin (decide (S < 0)) S.natAbs (2 ^ k)

/-- acc plus the products of pairs of bf16 values, before the one rounding (R268). -/
def mxBfDot (acc : Option RVal) (l : List (Nat × Nat)) : RVal :=
  let vs := l.map fun e => (decFp 8 e.1, decFp 8 e.2)
  let ps := vs.map fun e => mulR e.1 e.2
  let terms := acc.toList ++ ps
  match acc with
  | some (.nan b) => .nan b
  | _ =>
    match (vs.flatMap fun e => [e.1, e.2]).find? isNan with
    | some v => v
    | none =>
      if ps.any isNan then .defNan
      else
        let up := terms.contains (.inf false)
        let dn := terms.contains (.inf true)
        if up && dn then .defNan
        else if up then .inf false
        else if dn then .inf true
        else sumFin 300 terms

/-- acc plus the products of pairs of dk8 values at the sum of their biases B (R268). -/
def mxDkDot (acc : Option RVal) (B : Int) (l : List (Nat × Nat)) : RVal :=
  let s := fun (_ : Unit) => mxDkSum (l.map fun e => mxDkInt e.1 e.2).sum B
  let nan := l.any fun e => e.1 == 0x80 || e.2 == 0x80
  match acc with
  | some (.nan b) => .nan b
  | some v => if nan then .defNan else match v with
    | .inf x => .inf x
    | _ => addR v (s ())
  | none => if nan then .defNan else s ()

/-- One column of a firing: the new accumulator bits, and the i32 overflow (R268). `B`: the sum of the biases. -/
def fireCol (t : MxTy) (B : Int) (first : Bool) (acc : Nat) (l : List (Nat × Nat)) : Nat × Bool :=
  match t with
  | .i8 =>
    let s : Int := (if first then 0 else signedN acc 32) + (l.map fun e => signedN e.1 8 * signedN e.2 8).sum
    (fitN s 32 false false, decide (s < -2 ^ 31) || decide (2 ^ 31 - 1 < s))
  | .dk8 => (fp32 (mxDkDot (some (if first then .fin true 0 1 else fp32Val acc)) B l), false)
  | .bf16 => (fp32 (mxBfDot (some (if first then .fin true 0 1 else fp32Val acc)) l), false)

/-- Elements of W bits of a run of bytes. -/
def elemsOf (W : Nat) (bs : List Byte) : List Nat :=
  let v := leNat bs
  (List.range (8 * bs.length / W)).map fun i => fld v (W * i) W

/-- Column j of a tile's K rows, beside the elements of a row (R266). -/
def pairsWith (tile : Array Nat) (a : List Nat) (j : Nat) : List (Nat × Nat) :=
  a.zipIdx.map fun e => (e.1, tile.getD (256 * e.2 + j) 0)

/-- The elements of a tile. -/
def tileElems (t : MxTy) (b : Sparse Byte) : Array Nat := (elemsOf (mxBits t) (denseAt 0 0 32768 b)).toArray

/-- A row of A fires into accumulator row i against the active tile (R268). `ba`: the bias of the row. -/
def Mxe.fireRow (m : Mxe) (t : MxTy) (ba : Int) (first : Bool) (i : Nat) (bytes : List Byte) : Mxe :=
  let tile := tileElems t (m.tile true)
  let a := elemsOf (mxBits t) bytes
  let B := if t = .dk8 then ba + biasOf (m.bias true) else 0
  let cols := (m.row i).zipIdx.map fun e => fireCol t B first e.1 (pairsWith tile a e.2)
  let m := m.setRow i (cols.map (·.1))
  if t = .i8 then m.setOv i ((!first && bitAt m.ov.toNat i) || cols.any (·.2)) else m

/-- The state that RECUR computes: h·P + x·U, rounded once to the format (R275). `ob`: OBIAS. -/
def Mxe.recur (m : Mxe) (t : MxTy) (ob xb : Int) (h x : Row) : Row :=
  let K := mxK t / 2
  let W := mxBits t
  let P := tileElems t (m.tile true)
  let U := tileElems t (m.tile false)
  let hs := (lanesOf W h).take K
  let xs := (lanesOf W x).take K
  packLanes W ((List.range K).map fun j =>
    let l := pairsWith P hs j ++ pairsWith U xs j
    let v := if t = .dk8 then mxDkDot none (ob + biasOf (m.bias true)) l else mxBfDot none l
    (encLane ⟨mxCode t, if t = .dk8 then ob else xb⟩ .nearest v).1)

/-- An accumulator row in an output format, as bytes (R273). -/
def rdRow (f : RdFmt) (bias : BitVec 8) (vs : List Nat) : List Byte :=
  let src : Fmt := ⟨if f == .i8 || f == .i32 then 2 else 10, 0⟩
  let dst : Fmt := ⟨rdCode f, biasOf bias⟩
  let n := fmtBits dst.code / 8
  vs.flatMap fun v => leBytes (if src.code = dst.code then v else (cvtLane src dst .nearest v).1) n

end Sys2Proof.Machine
end

