-- ==== Sys2Proof/Machine/Rotation.lean ====
section
/-! DEFINITION. Rotations (08_rotations): the tap and its phase (R168), injection, capture and exit at the tap
(R173, R174, R181, R182), and the entries of the ROT queue (R174–R183, R246, R325). -/

namespace Sys2Proof.Machine

/-! ### The tap (R168) -/

/-- Change a rotation. -/
def State.onRot (s : State) (q : Fin 8) (f : Rot → Rot) : State :=
  s.onFab fun b => { b with rots := b.rots.set q (f b.rots[q]) }

/-- D of a rotation; 0 where no record configures it. -/
def Rot.depth (r : Rot) : Nat := match r.cfg with
  | some g => g.depth
  | .none => 0

/-- TP(t) (R168). -/
def Core.tp (c : Core) (q : Fin 8) : Nat := c.wheel % c.fab.rots[q].depth

/-- The loop inputs of the tap, ascending. -/
def Fabric.tapInputs (f : Fabric) (q : Fin 8) : List (Fin 256) := match f.rots[q].cfg with
  | some g => ((f.inputs g.tap).filter fun e => f.loopOf e.2 == some q).map (·.2)
  | none => []

/-- The token that stands at the tap in cycle `now`. -/
def Fabric.tapToken (f : Fabric) (q : Fin 8) (now : Nat) : Option Token :=
  (f.tapInputs q).findSome? fun a => (f.seen a now).head?

/-- The token at the tap leaves the loop. -/
def Fabric.takeTap (f : Fabric) (q : Fin 8) (now : Nat) : Fabric :=
  (f.tapInputs q).foldl (fun f a => if (f.seen a now).isEmpty then f else f.pop a now 1) f

/-- A token appears at the tap in cycle `now`, ahead of those still on their way (R174). -/
def Fabric.putTap (f : Fabric) (q : Fin 8) (now : Nat) (k : Token) : Fabric :=
  (f.tapInputs q).foldl (fun (f : Fabric) (a : Fin 256) =>
    { f with arcs := f.arcs.set a { f.arcs[a] with fifo := (now, k) :: f.arcs[a].fifo } }) f

/-- Whether a channel or a pipeline push belongs to the loop of rotation q. -/
def Fabric.inLoop (f : Fabric) (q : Fin 8) (a : Fin 256) : Bool := f.loopOf a == some q

/-- Every token of the loop is discarded (R181). -/
def Fabric.clearLoop (f : Fabric) (q : Fin 8) : Fabric :=
  { f with
    arcs := (List.finRange 256).foldl (fun (v : Vector Arc 256) (a : Fin 256) =>
      if f.inLoop q a then v.set a { v[a] with
        fifo := []
        reserved := 0
        back := [] } else v) f.arcs
    cells := f.cells.mapAll fun c => { c with pipe := c.pipe.map fun e => (e.1, e.2.filter fun (u : Push) => !f.inLoop q u.arc) } }

/-- A slot that is not save-held. -/
def Slot.free (x : Slot) : Bool := !x.hold

/-! ### Acts at the tap -/

/-- SLOT_INJECT (R174, R182): the token pending for the phase at the tap appears there in the first cycle allowed. RECUR's
injections are RECUR_INJECT's. -/
def State.injectAt (s : State) (q : Fin 8) (recur : Bool) : State :=
  let r := s.core.fab.rots[q]
  let p := s.core.tp q
  match r.inj.find? fun x => x.phase == p && x.recur == recur && !x.fwd && decide (x.from_ ≤ s.chip.now) with
  | none => s
  | some x =>
    ((s.onFab fun f => f.putTap q s.chip.now x.tok).onRot q fun r => { r with
      inj := r.inj.filter (· != x)
      slots := r.slots.modify p fun y => { y with pend := false } }).act

/-- SLOT_INJECT (R174, R182). -/
def execSlotInject (q : Fin 8) (s : State) : Out :=
  if s.core.fab.rots[q].cfg.isNone then .next s else .next (s.injectAt q false)

/-- Bytes of a captured phase in the save record: entry and TAG word, and the token (R184). -/
def Captured.entryBytes (x : Captured) : List Byte := leBytes x.ent.toNat 8 ++ leBytes x.tag.toNat 4 ++ leBytes 0 4
def Captured.tokenBytes (x : Captured) : List Byte := leBytes ((x.tok.map (·.data.toNat)).getD 0) 64

/-- What the tap shows of phase p (R181). -/
def Rot.captured (r : Rot) (p : Nat) (k : Option Token) : Captured :=
  ⟨p, ((r.slots[p]?).getD .zero).word ((k.map (·.psn)).getD false), (k.map (·.tag)).getD 0, k⟩

/-- The capture of phase p joins a save; a store into the record is an engine request (R181, R190). -/
def State.captureSlot (s : State) (q : Fin 8) (v : Save) : State :=
  let p := s.core.tp q
  let r := s.core.fab.rots[q]
  let k := s.core.fab.tapToken q s.chip.now
  let x := r.captured p k
  let t := (k.map (·.pts)).getD 0
  let s := s.onRot q fun r => { r with
    slots := r.slots.modify p fun y => { y with hold := true }
    save := some { v with
      pts := maxW v.pts t
      ents := v.ents ++ [x] } }
  if v.preempt then s
  else
    let s := s.onRun 19 fun r => { r with pts := maxW r.pts t }
    let pts := (s.core.queues[(19 : Fin 22)].run.map (·.pts)).getD 0
    let a := s.request (.rot q) (.write [(v.off + 0x40 + 16 * p, x.entryBytes)] false) pts
    let b := a.2.request (.rot q) (.write [(v.off + 0x440 + 64 * p, x.tokenBytes)] false) pts
    b.2.onRun 19 fun r => { r with wait := r.wait ++ [a.1, b.1] }

/-- SLOT_CAPTURE (R181): in each of the D cycles after x the slot at the tap is captured and save-held. -/
def execSlotCapture (q : Fin 8) (s : State) : Out :=
  let r := s.core.fab.rots[q]
  match r.save with
  | none => .next s
  | some v => if v.start < s.chip.now && v.ents.length < r.depth then .next (s.captureSlot q v).act else .next s

/-- The header of a save record (R184). -/
def Save.header (v : Save) (r : Rot) : List Byte :=
  let pol := match r.cfg with
    | some g => bit g.trap
    | none => 0
  leBytes (r.depth + 2 ^ 7 * pol + 2 ^ 8) 4 ++ leBytes (v.ents.countP fun x => x.ent.toNat % 8 != 0) 4
    ++ leBytes v.pts.toNat 8 ++ List.replicate 48 0

/-- MODE at the end of a save (R181). -/
def State.saveMode (s : State) (q : Fin 8) (m : SaveMode) : State :=
  let s := s.onRot q fun r => { r with save := none }
  match m with
  | .keep => s.onRot q fun r => { r with frozen := true }
  | .thaw => s.onRot q fun r => { r with frozen := false, slots := r.slots.map fun x => { x with hold := false } }
  | .clear => (s.onFab (·.clearLoop q)).onRot q fun r => { r with
      frozen := false
      slots := r.slots.map fun x => { x with state := .empty, pend := false, cause := 0, id := 0, hold := false } }

/-- The header is presented once every other store of the record has been performed, from x + D + 1 on (R181). -/
def State.presentHeader (s : State) (q : Fin 8) : State :=
  let r := s.core.fab.rots[q]
  match r.save, s.core.queues[(19 : Fin 22)].run with
  | some v, some u =>
    if v.preempt || v.hdr.isSome || v.ents.length < r.depth || u.wait.any s.core.loc.waits
        || !decide (v.start + r.depth < s.chip.now) then s
    else
      let a := s.request (.rot q) (.write [(v.off, v.header r)] false) u.pts
      (a.2.onRot q fun r => { r with save := some { v with hdr := some a.1 } }).onRun 19 fun r => { r with
        wait := r.wait ++ [a.1] }
  | _, _ => s

/-- A store of an RSAVE that a change of SPLIT has put out of range (R186). -/
def State.saveBad (s : State) : Option Cause :=
  s.core.queues[(19 : Fin 22)].run.bind fun u => u.wait.findSome? fun i => (s.core.loc.answered i).bind (·.bad)

/-- ROT_SAVE_COMPLETE (R181): once the header is written its first word becomes full, and MODE applies; the RSAVE
completes. A store out of range raises ENG_ADDR, and the save goes no further: the slots it has captured stay save-held (R186,
R241; log entry 127). A capture of a pre-emption is kept for the context record (R314). -/
def execRotSaveComplete (q : Fin 8) (s : State) : Out :=
  let r := s.core.fab.rots[q]
  match r.save with
  | none => .next s
  | some v =>
    if v.preempt then
      if v.ents.length < r.depth then .next s
      else .next (s.onRot q fun r => { r with
        taken := v.ents
        wasFrozen := r.frozen
        frozen := true
        save := none })
    else match s.saveBad, v.hdr with
      | some c, _ => .next ((s.onRot q fun r => { r with save := none }).failRun 19 (engineCause (cENG 6 .addr) c))
      | none, none => .next s
      | none, some id =>
        if s.core.loc.waits id then .next s
        else
          let s := (s.onLoc fun l => l.setFull v.off true).saveMode q v.mode
          match s.core.queues[(19 : Fin 22)].run with
          | some u => .next (s.completeRun 19 u)
          | none => .next s

/-- SLOT_EXIT (R172, R173): a slot that was leaving at the start of the cycle and stands at the tap enters the exit
port's buffer where it has room; the slot is empty, with its GEN kept. A token injected in this cycle stands at the tap. -/
def execSlotExit (q : Fin 8) (s : State) : Out :=
  let f := s.core.fab
  match f.rots[q].cfg with
  | none => .next s
  | some g =>
    let p := s.core.tp q
    match f.rstart[q].slots[p]?, f.rots[q].slots[p]?, f.tapToken q s.chip.now with
    | some x, some y, some k =>
      if x.state = .leaving && !y.pend && !y.hold && decide (f.ports[g.exit].buf.length < 4) then
        .next (((s.onFab fun f =>
          { f.takeTap q s.chip.now with ports := f.ports.set g.exit { f.ports[g.exit] with
              buf := f.ports[g.exit].buf ++ [k]
              pts := maxW f.ports[g.exit].pts k.pts } }).onRot q fun r => { r with
          slots := r.slots.modify p fun y => { y with state := .empty, cause := 0, id := 0 } }).act)
      else .next s
    | _, _, _ => .next s

/-- The type of a rotation's tokens at the tap. -/
def Fabric.tapType (f : Fabric) (q : Fin 8) : Option Fmt := match f.rots[q].cfg with
  | some g => ((f.inputs g.tap).find? fun e => f.loopOf e.2 == some q).bind fun e => f.inType 40 g.tap e.1
  | none => none

/-- EXIT_PORT_PUSH (R173): the head of the exit port's buffer goes onto every arc that leaves the port, once each has a
free slot. -/
def execExitPortPush (q : Fin 8) (s : State) : Out :=
  match s.core.fab.rots[q].cfg with
  | none => .next s
  | some g =>
    match s.core.fab.ports[g.exit].buf with
    | [] => .next s
    | k :: r =>
      if (s.core.fab.fromPort g.exit).isEmpty || s.core.fab.ports[g.exit].quiet then .next s
      else
        let a := s.portPush g.exit (s.core.fab.tapType q) k
        if a.1 then .next ((a.2.onFab fun f => { f with ports := f.ports.set g.exit { f.ports[g.exit] with buf := r } }).act)
        else .next a.2

/-! ### The ROT queue (R174–R183, R246, R325) -/

/-- The entry that executes: head of the ROT queue, in a cycle after the one before it completed, under the energy
budget (R240, R325, R368). -/
def State.rotHead (s : State) : Option (Instr × Run) :=
  if s.core.fab.stopping then none
  else match s.core.headCmd 19 with
  | none => none
  | some (i, node, pts, order, via) =>
    if s.energyOk s.core && decide (s.core.rotAt < s.chip.now) then some (i, s.core.newRun i node pts order via s.chip.now) else none

/-- The head begins and completes in this cycle. -/
def State.rotDone (s : State) (r : Run) : State :=
  match (s.startRun 19 r).core.queues[(19 : Fin 22)].run with
  | some u => (s.startRun 19 r).completeRun 19 u
  | none => s

/-- A change of the slots that `x` names. -/
def State.onSlots (s : State) (q : Fin 8) (x : PhaseSel) (f : Slot → Slot) : State :=
  s.onRot q fun r => { r with slots := match x with
    | .one p => r.slots.modify p.toNat f
    | .all => r.slots.map f }

/-- The lowest empty phase that is not save-held, as at the start of the cycle (R172, R174). -/
def Fabric.freePhase (f : Fabric) (q : Fin 8) : Option Nat :=
  (f.rstart[q].slots.zip f.rots[q].slots).findIdx? fun e => e.1.state == .empty && e.2.state == .empty && !e.2.hold

/-- The bank accesses of an entry that reads these rows at its execution cycle (R174, R182, R183, R190). What it reads stands
at that cycle, so the requests carry no data and the entry does not wait for one that a bank refuses (log entry 45). -/
def State.rotRows (s : State) (q : Fin 8) (rows : List Nat) : State :=
  (rows.filter fun a => decide (a + 64 ≤ s.spadSize)).foldl
    (fun s a => (s.request (.rot q) (.write [(a, [])] false) 0).2) s

/-- The latest time of the banks of some rows (R209). -/
def Local.rowsPts (l : Local) (rows : List Nat) : Word := latest (rows.map fun a => l.bt[bankOf a])

/-- The slot number that an RADM of handle h takes: its first consumer slot that no begun command has reserved, once there is
one that is filled (R174, R240). -/
def Core.radmSlot (c : Core) (h : Fin 32) : Option Nat :=
  if c.takenIn h + 1 ≤ c.loc.hstart[h].filled then some (c.loc.hstart[h].ci.toNat + c.takenIn h) else none

/-- The energy budget withholds the head of the ROT queue, which has what it declares (R240, R368). -/
def State.rotHeld (s : State) : Bool :=
  !s.energyOk s.core && decide (s.core.rotAt < s.chip.now) && match s.core.headCmd 19 with
  | some (.radmc _ h _ _, _) => (s.core.radmSlot h).isSome
  | x => x.isSome

/-- An RADM that finds no empty phase is refused (R174). -/
def State.refuseRadm (s : State) (q : Fin 8) : State :=
  s.onRot q fun r => { r with refused := .ofNat 16 (min (r.refused.toNat + 1) 65535) }

/-- RADM executes on slot n of its handle (R174): the token is the slot's first 64 bytes as they stand in this cycle. -/
def State.admitSlot (s : State) (q : Fin 8) (h : Fin 32) (own : Bool) (id : Half) (n : Nat) (u : Run) : State :=
  let a := s.core.loc.handles[h].slot n
  match s.core.fab.freePhase q with
  | none => (s.refuseRadm q).completeRun 19 u
  | some p =>
    let pts := maxW (maxW u.pts (s.core.loc.rowsPts [a])) (s.core.loc.fillPts h n 1)
    let tok : Row := .ofNat 512 (rdNat s.core.loc.mem a 64)
    if s.spadSize < a + 64 then s.failRun 19 (cENG 6 .addr) else
    let gen := (((s.core.fab.rots[q].slots[p]?).map (·.gen)).getD 0) + 1
    match s.advance h 0 1 pts with
    | none => s.failRun 19 (cENG 6 .handleCount)
    | some s =>
      let s := if own then s.onLoc fun l => { l with handles := l.handles.set h { l.handles[h] with
          own := true
          oq := .ofNat 3 q.val
          os := .ofNat 6 p
          og := gen
          ocore := s.core.cid } } else s
      let s := s.onRot q fun r => { r with
        slots := r.slots.modify p fun x => { x with state := .active, pend := true, gen := gen, cause := 0, id := id }
        inj := r.inj ++ [⟨p, ⟨tok, .ofNat 24 id.toNat, .data, false, .ofNat 6 p, gen, pts⟩, s.chip.now + 2, false, false⟩] }
      s.completeRun 19 { u with pts := pts }

/-- Rows of the entries of a record of D slots. -/
def entryRows (D : Nat) : Nat := (16 * D + 63) / 64

/-- HDR0 of a record is one that RLOAD takes (R182, R184). -/
def headerOk (h0 : Nat) : Bool := fld h0 8 8 == 1 && inSpan (fld h0 0 7) 1 64

/-- D of the record at an offset, as it stands; 0 where RLOAD does not take it (R182). -/
def State.recordDepth (s : State) (off : Nat) : Nat :=
  let h0 := rdNat s.core.loc.mem off 4
  if headerOk h0 && decide (off + recordSize (fld h0 0 7) ≤ s.spadSize) then fld h0 0 7 else 0

/-- The rows of a record of D slots: its header, its entries, its tokens. -/
def recordRows (off D : Nat) : List Nat :=
  [off] ++ (List.range (entryRows D)).map (fun i => off + 0x40 + 64 * i) ++ (List.range D).map fun i => off + 0x440 + 64 * i

/-- The head of the ROT queue that reads the scratchpad begins in its execution cycle, with the accesses of its banks: an RADM
once its handle has a slot for it, an RLOAD, an RMAP (R174, R182, R183, R190, R325). -/
def State.rotBegin (s : State) : State := match s.rotHead with
  | some (.radmc q h _ _, r) => match s.core.radmSlot h with
    | none => s
    | some n =>
      let t := s.startRun 19 { r with idx := n }
      if (s.core.fab.freePhase q).isNone then t else t.rotRows q [s.core.loc.handles[h].slot n]
  | some (.rloadc q _ _ off, r) => (s.startRun 19 r).rotRows q (recordRows off.toNat (s.recordDepth off.toNat))
  | some (.rmapc q off, r) => (s.startRun 19 r).rotRows q [off.toNat]
  | _ => s

/-- ROT_ADMIT (R174, R325): an RADM entry executes in the cycle in which it begins. -/
def execRotAdmit (s : State) : Out :=
  let s := s.rotBegin
  match s.core.queues[(19 : Fin 22)].run with
  | none => .next s
  | some u =>
    match u.cmd with
    | .radmc q h own id => .next (s.admitSlot q h own id u.idx u)
    | _ => .next s

/-- ROT_RETIRE (R172, R176). -/
def execRotRetire (s : State) : Out :=
  match s.rotHead with
  | some (.rretc q x, r) =>
    .next ((s.onSlots q x fun y =>
      if y.state = .active || y.state = .held || y.state = .faulted then { y with state := .leaving, cause := 0 } else y).rotDone r)
  | _ => .next s

/-- ROT_HOLD (R172, R176). -/
def execRotHold (s : State) : Out :=
  match s.rotHead with
  | some (.rholdc q x, r) =>
    .next ((s.onSlots q x fun y => if y.state = .active then { y with state := .held } else y).rotDone r)
  | _ => .next s

/-- ROT_RELEASE (R172, R176, R181): RREL of every slot also ends FROZEN and the save-hold. -/
def execRotRelease (s : State) : Out :=
  match s.rotHead with
  | some (.rrelc q x, r) =>
    let s := s.onSlots q x fun y => if y.state = .held then { y with state := .active } else y
    let s : State := match x with
      | .all => s.onRot q fun r => { r with frozen := false, slots := r.slots.map fun y => { y with hold := false } }
      | .one _ => s
    .next (s.rotDone r)
  | _ => .next s

/-- ROT_SAVE (R181): an RSAVE entry begins once no injection of its rotation is pending; the record's first word becomes
empty. -/
def execRotSave (s : State) : Out :=
  match s.rotHead with
  | some (.rsavec q m off, r) =>
    if !s.core.fab.rots[q].inj.isEmpty then .next s
    else if s.spadSize < off.toNat + recordSize s.core.fab.rots[q].depth then .next (s.failHead 19 (cENG 6 .addr))
    else .next (((s.startRun 19 r).onLoc fun l => l.setFull off.toNat false).onRot q fun r => { r with
      save := some ⟨m, off.toNat, s.chip.now, 0, [], none, false⟩ })
  | _ => .next s

/-- A slot of a save record (R170, R184). -/
structure RecSlot where
  i    : Nat
  ent  : Nat
  tag  : Nat
  data : Nat

/-- STATE of an entry's code. -/
def stateOf : Nat → SlotState
  | 1 => .active
  | 2 => .held
  | 3 => .faulted
  | 4 => .leaving
  | _ => .empty

/-- The slot an entry restores, PEND set (R182). -/
def RecSlot.slot (x : RecSlot) : Slot :=
  ⟨stateOf (x.ent % 8), true, .ofNat 8 (x.ent / 2 ^ 8), .ofNat 10 (x.ent / 2 ^ 16), .ofNat 32 (x.ent / 2 ^ 32), false⟩

/-- Two equal numbers stand in a list. -/
def hasTwice : List Nat → Bool
  | [] => false
  | a :: r => r.contains a || hasTwice r

/-- new(i) of the kept slots: by the installed map, or compacting; none is ROT_MAP (R182). -/
def Rot.placesFor (r : Rot) (kept : List RecSlot) (byMap : Bool) : Option (List (RecSlot × Nat)) :=
  let l := if byMap then
      match r.map with
      | .none => .none
      | some m => some (kept.map fun x => (x, (m[x.i]?.map (·.toNat)).getD 0xFF))
    else some (kept.zipIdx)
  match l with
  | .none => .none
  | some l =>
    let l := l.filter fun e => !(byMap && e.2 == 0xFF)
    if (l.any fun e => decide (r.depth ≤ e.2)) || hasTwice (l.map (·.2)) then .none else some l

/-- Slot i of the record at an offset (R184). -/
def recordSlot (m : List Host.Cell) (off i : Nat) : RecSlot :=
  ⟨i, rdNat m (off + 0x40 + 16 * i) 8, rdNat m (off + 0x48 + 16 * i) 3, rdNat m (off + 0x440 + 64 * i) 64⟩

/-- The slots that RLOAD has read come into the rotation at its execution cycle, PEND set (R182). -/
def State.installSlots (s : State) (q : Fin 8) (l : List (RecSlot × Nat)) (hp : Word) : State :=
  s.onRot q fun rot => { rot with
    map := none
    frozen := false
    loading := true
    slots := (List.range rot.slots.length).map fun p =>
      match l.find? (·.2 == p) with
      | some e => e.1.slot
      | none => { (rot.slots.getD p .zero) with hold := false }
    inj := rot.inj ++ l.map fun (e : RecSlot × Nat) => ⟨e.2, ⟨.ofNat 512 e.1.data, .ofNat 24 e.1.tag, .data, bitAt e.1.ent 4,
      .ofNat 6 e.2, .ofNat 8 (e.1.ent / 2 ^ 8), hp⟩, s.chip.now + 2, false, false⟩ }

/-- An RLOAD executes (R182): its checks in their order, on the record and the slots as they stand; a slot that leaves in this
cycle is empty in the next (R173). Then the slots it restores. -/
def State.loadRot (s : State) (q : Fin 8) (kf byMap : Bool) (off : Nat) (u : Run) : State :=
  let rot := s.core.fab.rots[q]
  let D := s.recordDepth off
  let recs := (List.range D).map (recordSlot s.core.loc.mem off)
  if D = 0 || recs.any (fun x => decide (5 ≤ x.ent % 8)) then s.failRun 19 (cROT q .record)
  else if s.core.fab.rstart[q].slots.any Slot.live || rot.slots.any Slot.live || rot.busy then s.failRun 19 (cROT q .notEmpty)
  else match rot.placesFor (recs.filter fun x => x.ent % 8 != 0 && (kf || x.ent % 8 != 3)) byMap with
    | none => s.failRun 19 (cROT q .map)
    | some p => (s.installSlots q p (.ofNat 64 (rdNat s.core.loc.mem (off + 8) 8))).onRun 19 fun r => { r with
        pts := maxW u.pts (s.core.loc.rowsPts (recordRows off D))
        stage := 1 }

/-- A begun RLOAD: it executes in the cycle in which it begins (R182, R325), and completes when its last injection has been
made. -/
def State.loadGo (s : State) (q : Fin 8) (kf byMap : Bool) (off : Nat) (u : Run) : State :=
  if u.stage = 0 then s.loadRot q kf byMap off u
  else if s.core.fab.rots[q].inj.isEmpty then (s.onRot q fun r => { r with loading := false }).completeRun 19 u
  else s

/-- ROT_LOAD (R182, R325): an RLOAD entry executes, and completes. -/
def execRotLoad (s : State) : Out :=
  let s := s.rotBegin
  match s.core.queues[(19 : Fin 22)].run with
  | none => .next s
  | some u =>
    match u.cmd with
    | .rloadc q kf m off => .next (s.loadGo q kf m off.toNat u)
    | _ => .next s

/-- ROT_MAP (R183, R325): an RMAP entry reads its 64 bytes and installs them. -/
def execRotMap (s : State) : Out :=
  let s := s.rotBegin
  match s.core.queues[(19 : Fin 22)].run with
  | none => .next s
  | some u =>
    match u.cmd with
    | .rmapc q off =>
      let a := off.toNat
      if s.spadSize < a + 64 then .next (s.failRun 19 (cENG 6 .addr))
      else .next ((s.onRot q fun x => { x with map := some (rdBytes s.core.loc.mem a 64) }).completeRun 19
        { u with pts := maxW u.pts (s.core.loc.rowsPts [a]) })
    | _ => .next s

/-! ### The capture of a pre-emption (R168, R314) -/

/-- Once the sequencer has stopped, each rotation without a pending injection or a save begins its capture, whose x is
the cycle before this one (R168). -/
def Core.startCaptures (c : Core) (now : Nat) : Core :=
  if !c.fab.stopping then c
  else { c with fab := { c.fab with rots := c.fab.rots.mapAll fun r =>
      if r.cfg.isSome && r.taken.isEmpty && r.save.isNone && r.inj.isEmpty then
        { r with save := some ⟨.keep, 0, now - 1, 0, [], none, true⟩ }
      else r } }

/-- Every rotation has been captured (R314). -/
def Core.rotsCaptured (c : Core) : Bool := c.fab.rots.toList.all fun r => r.cfg.isNone || !r.taken.isEmpty

end Sys2Proof.Machine
end

