-- ==== Sys2Proof/Machine/MatrixEngine.lean ====
section
/-! DEFINITION. The matrix engine (R265–R276): what its commands check at begin, the row firing, the taking and pushing
of tokens, the gather unit, and RECUR. -/

namespace Sys2Proof.Machine

/-- The queue of the matrix engine. -/
def mxeQ : Fin 22 := 16

/-- Change the matrix engine's registers. -/
def State.onMxe (s : State) (f : Mxe → Mxe) : State := s.onCore fun c => { c with mxe := f c.mxe }

/-- The type of the arc that reaches a port. -/
def Fabric.portType (f : Fabric) (p : Fin 16) : Option Fmt := (f.intoPort p).bind f.chanType

/-- The arc that reaches a port has this format. -/
def Fabric.arcIs (f : Fabric) (p : Fin 16) (code : Nat) : Bool := match f.portType p with
  | some t => t.code == code
  | none => false

/-- Every arc that leaves a port has this format. -/
def Fabric.arcsOut (f : Fabric) (p : Fin 16) (code : Nat) : Bool := (f.fromPort p).all fun a => match f.chanType a with
  | some t => t.code == code
  | none => false

/-! ### Begin -/

/-- Slots of an input group hold a tile (R270). -/
def Core.slotHolds (c : Core) : Option Grp → Bool
  | some g => decide (512 ≤ c.loc.handles[g.h].slotsz.toNat)
  | none => false

/-- RECUR's checks (R274). -/
def Core.recurOk (c : Core) (q : Fin 8) (ty : MxTy) (bias : BitVec 8) (port : Fin 16) (fwd : Option (Fin 16)) : Bool :=
  let f := c.fab
  let members := (List.finRange 32).filter fun n => f.cells[n].conf.isSome && f.cells[n].member == some q
  let loop := f.live.filter fun a => f.loopOf a == some q
  let code := mxCode ty
  f.rots[q].cfg.isSome && (members.all fun n => f.cells[n].op == 0x01 || f.cells[n].op == 0x05) &&
  (loop.all fun a => match f.chanType a with
    | some t => t.code == code && (code != 8 || t.bias == biasOf bias)
    | none => false) &&
  c.mxe.valid true && c.mxe.valid false && c.mxe.ty true == ty && c.mxe.ty false == ty &&
  f.arcIs port code && (match fwd with
    | some p => f.arcsOut p code
    | none => true) &&
  (ty != .dk8 || match f.portType port with
    | some t => biasOf bias + biasOf (c.mxe.bias true) == t.bias + biasOf (c.mxe.bias false)
    | none => false)

/-- ACT is exchanged at begin (R271). -/
def Mxe.swap (m : Mxe) (sw : Bool) : Mxe := { m with act := m.act != sw }

/-- The active tile serves rows of this format (R271). -/
def Mxe.serves (m : Mxe) (t : MxTy) : Bool := m.valid true && m.ty true == t

/-- The cause a matrix command raises at begin, ACT already exchanged (R270–R274). -/
def State.mxeBad (s : State) (r : Run) : Option Cause := match r.cmd with
  | .ldb (.spad off) _ _ _ _ => if s.spadSize < off.toNat + 32768 then some (cENG 3 .addr) else none
  | .ldb .slot _ _ _ d => if s.core.slotHolds d.a then none else some (cENG 3 .shape)
  | .mmul _ _ _ _ ty port _ _ pf d =>
    let slots := match pf with
      | some x => x.port.isSome || s.core.slotHolds d.b
      | none => true
    if s.core.mxe.serves ty && s.core.fab.arcIs port (mxCode ty) && slots then none else some (cENG 3 .shape)
  | .gmul _ _ _ _ ty _ sd _ _ _ =>
    let d := s.core.loc.sd[sd]
    if s.core.mxe.serves ty && d.ndim == 0 && d.e == 7 then none else some (cENG 3 .shape)
  | .rdacc _ n _ fmt _ dst _ => match dst with
    | .spad off => if s.spadSize < off.toNat + (n.toNat + 1) * (256 * fmtBits (rdCode fmt) / 8) + 4 then some (cENG 3 .addr)
      else none
    | .port p _ => if s.core.fab.arcsOut p (rdCode fmt) then none else some (cENG 3 .shape)
  | .recur q ty bias port fwd _ _ => if s.core.recurOk q ty bias port fwd then none else some (cENG 3 .shape)
  | _ => none

/-- The matrix command that began as r: the exchange of ACT, its checks, its latches (R270, R271). -/
def State.mxeBegin (s : State) (r : Run) : State :=
  let sw := match r.cmd with
    | .mmul _ _ _ sw _ _ _ _ _ _ | .gmul _ _ _ sw _ _ _ _ _ _ => sw
    | _ => false
  let s := s.onMxe (·.swap sw)
  match s.mxeBad r with
  | some c => s.failRun mxeQ c
  | none => match r.cmd with
    | .ldb .. => s.onMxe (·.setValid false)
    | .mmul _ _ _ _ _ _ _ _ (some _) _ => s.onMxe (·.setValid false)
    | .gmul _ _ _ _ _ _ sd _ _ _ => s.onRun mxeQ fun r => { r with src := s.core.loc.sd[sd] }
    | _ => s

/-! ### Forwarding -/

/-- The targets of a forward port that lack n free slots (R267). -/
def State.lackFwd (s : State) (p : Option (Fin 16)) (n : Nat) : List (Fin 256) := match p with
  | some p => (s.core.fab.fromPort p).filter fun a => !s.core.fab.room a s.chip.now n
  | none => []

/-- A token goes onto the arcs of a forward port, unchanged (R267, R270); `t` is the type the command gives it, from which the
arc converts where its own differs (R135). -/
def State.forward (s : State) (p : Option (Fin 16)) (t : Fmt) (k : Token) : State := match p with
  | some p => (s.portPush p (some t) k).2
  | none => s

/-! ### Row firing (R267, R268) -/

/-- Rows are in place: the firing of row n of a command into accumulator row ROW0 + n (R267). -/
def State.fireMx (s : State) (ty : MxTy) (ba : Int) (z : Bool) (row0 : Nat) (r : Run) (a b : Row) (t : Word) : State :=
  let now := s.chip.now
  (((s.onMxe fun m => m.fireRow ty ba z (row0 + r.n) (rowBytes a ++ rowBytes b)).onRun mxeQ fun r => { r with
    n := r.n + 1
    pts := maxW r.pts t
    until_ := now + 6 }).event (if ty = .bf16 then 1 else 0) 1).act

/-- MMUL in a cycle: two data tokens at the head of its port's arc fire one row; a marker before the last row raises
PORT_EOI (R267, R271). -/
def State.mmulFire (s : State) (r : Run) (row0 n : Nat) (z : Bool) (ty : MxTy) (port : Fin 16) (fwd : Option (Fin 16)) :
    State :=
  if n < r.n then s
  else
    let l := match s.core.fab.intoPort port with
      | some a => (s.core.fab.seen a s.chip.now).take 2
      | none => []
    if l.any (·.kind == .eoi) then s.failRun mxeQ (cPORT port .eoi)
    else match l with
      | [a, b] =>
        let lack := s.lackFwd fwd 2
        if !lack.isEmpty then s.stallOn lack
        else
          let ba := ((s.core.fab.portType port).map (·.bias)).getD 0
          let s := (s.portTake port a).portTake port b
          let t := maxW (maxW r.pts a.pts) b.pts
          let out := fun (s : State) (k : Token) => s.forward fwd ⟨mxCode ty, ba⟩ { k with pts := t }
          let s := out (out s a) b
          s.fireMx ty ba z row0 r a.data b.data t
      | _ => s

/-- The address of the row that index x names; none where it is not legal (R271). -/
def Run.gatherRow (r : Run) (spad x : Nat) : Option Nat :=
  let A : Int := r.src.base.toNat + x * r.src.str0
  if 0 ≤ A && A % 64 = 0 && A + 128 ≤ (if r.src.g then 2 ^ 48 else spad : Nat) then some A.toNat else none

/-- The gather unit in a cycle: it reads the index of the next row, then the row, into the empty latch (R271). -/
def State.gatherStep (s : State) (r : Run) (n idx : Nat) : State :=
  let a := idx + 4 * r.asked
  if r.stage = 0 then
    if !r.rows.isEmpty || n < r.asked then s
    else if s.spadSize < a + 4 then s.failRun mxeQ (cENG 3 .addr)
    else
      let x := s.request .mxe (.read a 4 []) r.pts
      x.2.onRun mxeQ fun r => { r with
        wait := [x.1]
        stage := 1 }
  else if r.stage = 1 then
    match s.core.loc.firstAnswer r.wait with
    | none => s
    | some d =>
      let s := s.onLoc (·.takeAll [d.id])
      let x := leNat d.bytes
      match d.bad with
      | some c => s.failRun mxeQ (engineCause (cENG 3 .addr) c)
      | none =>
        if r.src.ext0 ≤ x then s.failRun mxeQ (cENG 3 .index)
        else match r.gatherRow s.spadSize x with
          | none => s.failRun mxeQ (cENG 3 .addr)
          | some A =>
            let t := maxW r.pts d.pts
            let ask := fun (s : State) (A : Nat) =>
              if r.src.g then s.ask 4 4 false false none false A (.load 64) t else s.request .mxe (.read A 64 []) t
            let u := ask s A
            let v := ask u.2 (A + 64)
            v.2.onRun mxeQ fun r => { r with
              pts := t
              wait := [u.1, v.1]
              stage := 2 }
  else
    match s.core.loc.readyPrefix r.wait with
    | [u, v] =>
      let s := s.onLoc (·.takeAll [u.id, v.id])
      match u.bad, v.bad with
      | some c, _ | none, some c => s.failRun mxeQ (engineCause (cENG 3 .addr) c)
      | none, none => s.onRun mxeQ fun r => { r with
          pts := maxW r.pts (maxW u.pts v.pts)
          wait := []
          rows := [(rowOf u.bytes, u.pts), (rowOf v.bytes, v.pts)]
          asked := r.asked + 1
          stage := 0 }
    | _ => s

/-- GMUL in a cycle: a full latch fires; then the gather unit goes on (R267, R271). -/
def State.gmulFire (s : State) (r : Run) (row0 n : Nat) (z : Bool) (ty : MxTy) (bias : BitVec 8) (idx : Nat)
    (fwd : Option (Fin 16)) : State :=
  let s := match r.rows with
    | [a, b] =>
      let lack := s.lackFwd fwd 2
      if !lack.isEmpty then s.stallOn lack
      else
        let tok := fun (d : Row) => (⟨d, 0, .data, false, 0, 0, r.pts⟩ : Token)
        let out := fun (s : State) (d : Row) => s.forward fwd ⟨mxCode ty, biasOf bias⟩ (tok d)
        let s := out (out s a.1) b.1
        (s.fireMx ty (biasOf bias) z row0 r a.1 b.1 r.pts).onRun mxeQ fun r => { r with rows := [] }
    | _ => s
  match s.runOf mxeQ with
  | none => s
  | some r => s.gatherStep r n idx

/-- MXE_ROW_FIRING (R267, R268, R271): the executing command fires one row, where its conditions hold. -/
def execMxeRowFiring (s : State) : Out :=
  if s.core.fab.stopping then .next s
  else match s.runOf mxeQ with
  | none => .next s
  | some r =>
    match r.cmd with
    | .mmul row0 n z _ ty port fwd _ _ _ =>
      .next (if s.energyOk s.core then s.mmulFire r row0.toNat n.toNat z ty port fwd else s.held)
    | .gmul row0 n z _ ty bias _ idx fwd _ =>
      .next (if s.energyOk s.core then s.gmulFire r row0.toNat n.toNat z ty bias idx.toNat fwd else s.held)
    | _ => .next s

/-! ### Tiles (R270, R272) -/

/-- Where the tokens of a tile come from. -/
inductive TileSrc
  | port (p : Fin 16)
  /-- from this offset on -/
  | spad (a : Nat)
deriving DecidableEq, Repr

/-- One token of a tile enters the inactive buffer and is forwarded, but for one that was before its prefetch restarted; the 512th
completes the tile (R270, R313; log entry 116). -/
def State.tileToken (s : State) (r : Run) (ty : MxTy) (bias : BitVec 8) (fwd : Option (Fin 16)) (k : Token) : State :=
  let t := maxW r.pts k.pts
  let s := ((s.forward (if r.idx ≤ r.pre then fwd else none) ⟨mxCode ty, biasOf bias⟩ { k with pts := t }).onMxe fun m => m.fill (64 * r.pre) (rowBytes k.data)).onRun mxeQ fun r =>
    { r with
      pre := r.pre + 1
      pts := t }
  (if r.pre + 1 = 512 then s.onMxe fun m => m.loaded ty bias else s).act

/-- The next token of a tile in a cycle (R270); a marker from a port raises PORT_EOI. A prefetch that has restarted takes the tokens
it had from its port out of the buffer they stand in, one in a cycle (R313; log entry 116). -/
def State.tileTake (s : State) (r : Run) (src : TileSrc) (ty : MxTy) (bias : BitVec 8) (fwd : Option (Fin 16)) : State :=
  let lack := if r.idx ≤ r.pre then s.lackFwd fwd 1 else []
  if 512 ≤ r.pre then s
  else match src with
    | .port p => if r.pre < r.idx then (s.onRun mxeQ fun r => { r with pre := r.pre + 1 }).act else match s.portHead p with
      | none => s
      | some k =>
        if k.kind = .eoi then s.failRun mxeQ (cPORT p .eoi)
        else if !lack.isEmpty then s.stallOn lack
        else (s.portTake p k).tileToken r ty bias fwd k
    | .spad _ => match s.core.loc.firstAnswer r.wait with
      | none => s
      | some d => match d.bad with
        | some c => (s.onLoc (·.takeAll [d.id])).failRun mxeQ (engineCause (cENG 3 .addr) c)
        | none =>
          if !lack.isEmpty then s.stallOn lack
          else ((s.onLoc (·.takeAll [d.id])).onRun mxeQ fun r => { r with wait := r.wait.drop 1 }).tileToken
            { r with pts := maxW r.pts d.pts } ty bias fwd ⟨rowOf d.bytes, 0, .data, false, 0, 0, d.pts⟩

/-- A tile in scratchpad is read ahead: at most four rows stand between a read and its token. -/
def State.tileAsk (s : State) (src : TileSrc) : State :=
  match s.runOf mxeQ, src with
  | some r, .spad a =>
    if 512 ≤ r.asked || 4 ≤ r.wait.length then s
    else
      let x := s.request .mxe (.read (a + 64 * r.asked) 64 []) r.pts
      x.2.onRun mxeQ fun r => { r with
        asked := r.asked + 1
        wait := r.wait ++ [x.1] }
  | _, _ => s

def State.tileStep (s : State) (r : Run) (src : TileSrc) (ty : MxTy) (bias : BitVec 8) (fwd : Option (Fin 16)) : State :=
  (s.tileTake r src ty bias fwd).tileAsk src

/-- The source of LDB, and of a prefetch. -/
def State.ldbSrc (s : State) (r : Run) (src : LdbSrc) (d : Decl) : TileSrc := match src with
  | .spad off => .spad off.toNat
  | .port p => .port p
  | .slot => .spad (s.core.slotRow d.a r.slotA 0)

def State.prefetchSrc (s : State) (r : Run) (x : Prefetch) (d : Decl) : TileSrc := match x.port with
  | some p => .port p
  | none => .spad (s.core.slotRow d.b r.slotB 0)

/-- MMUL takes its marker after its rows, and forwards it (R271). -/
def State.mmulMarker (s : State) (r : Run) (n : Nat) (port : Fin 16) (fwd : Option (Fin 16)) (eoi : Bool) : State :=
  if !eoi || r.done || r.n ≤ n then s
  else match s.portHead port with
    | none => s
    | some k =>
      if k.kind = .data then s.failRun mxeQ (cPORT port .eoi)
      else
        let t := maxW r.pts k.pts
        let x := match fwd with
          | some p => s.portMarker p { k with pts := t }
          | none => (true, s)
        if x.1 then ((x.2.portTake port k).onRun mxeQ fun r => { r with
            pts := t
            done := true }).act
        else x.2

/-! ### RDACC (R273) -/

/-- The next accumulator row is read out, its OV joins the status, and with Z it is cleared. -/
def State.rdLoad (s : State) (r : Run) (row0 n : Nat) (z : Bool) (fmt : RdFmt) (bias : BitVec 8) : State :=
  if !r.bytes.isEmpty || n < r.n then s
  else
    let i := row0 + r.n
    let m := s.core.mxe
    let s := if z then s.onMxe fun m => (m.setRow i (List.replicate 256 0)).setOv i false else s
    s.onRun mxeQ fun r => { r with
      bytes := rdRow fmt bias (m.row i)
      stat := if bitAt m.ov.toNat i then 1 else r.stat
      n := r.n + 1 }

/-- RDACC to scratchpad in a cycle: one row write after another, then the status word (R273). -/
def State.rdSpad (s : State) (r : Run) (n off : Nat) : State :=
  if !r.wait.isEmpty || r.done then s
  else if !r.bytes.isEmpty then
    let x := s.request .mxe (.write [(off + 64 * r.asked, r.bytes.take 64)] false) r.pts
    x.2.onRun mxeQ fun r => { r with
      wait := [x.1]
      asked := r.asked + 1
      bytes := r.bytes.drop 64 }
  else if n < r.n then
    let x := s.request .mxe (.write [(off + 64 * r.asked, leBytes (1 + 2 * r.stat.toNat) 4)] true) r.pts
    x.2.onRun mxeQ fun r => { r with
      wait := [x.1]
      done := true }
  else s

/-- RDACC to a port in a cycle: one token, or the marker after the last (R273). -/
def State.rdPort (s : State) (r : Run) (n : Nat) (p : Fin 16) (eoi : Bool) (fmt : RdFmt) (bias : BitVec 8) : State :=
  if r.done then s
  else if !r.bytes.isEmpty then
    let x := s.portPush p (some ⟨rdCode fmt, biasOf bias⟩) ⟨rowOf (r.bytes.take 64), 0, .data, false, 0, 0, r.pts⟩
    if x.1 then (x.2.onRun mxeQ fun r => { r with
        bytes := r.bytes.drop 64
        done := !eoi && r.bytes.length ≤ 64 && decide (n < r.n) }).act
    else x.2
  else if n < r.n then
    let x := s.portMarker p (.marker r.pts)
    if x.1 then (x.2.onRun mxeQ fun r => { r with done := true }).act else x.2
  else s

/-- MXE_PORT_TOKEN (R270–R273): the executing command takes one token of a tile, takes its marker, or writes or pushes
one row of a result. -/
def execMxePortToken (s : State) : Out :=
  if s.core.fab.stopping then .next s
  else match s.runOf mxeQ with
  | none => .next s
  | some r =>
    if !s.energyOk s.core then .next s.held
    else match r.cmd with
      | .ldb src ty bias fwd d => .next (s.tileStep r (s.ldbSrc r src d) ty bias fwd)
      | .mmul _ n _ _ _ port fwd eoi pf d =>
        let s := s.mmulMarker r n.toNat port fwd eoi
        match pf, s.runOf mxeQ with
        | some x, some r => .next (s.tileStep r (s.prefetchSrc r x d) x.ty x.bias x.fwd)
        | _, _ => .next s
      | .rdacc row0 n z fmt bias dst _ =>
        let s := s.rdLoad r row0.toNat n.toNat z fmt bias
        match s.runOf mxeQ with
        | none => .next s
        | some r => match dst with
          | .spad off => .next (s.rdSpad r n.toNat off.toNat)
          | .port p eoi => .next (s.rdPort r n.toNat p eoi fmt bias)
      | _ => .next s

/-! ### RECUR (R274–R276) -/

/-- The marker at the head of PORT ends RECUR once no slot has PEND = 1; with M it is forwarded (R275). -/
def State.recurMarker (s : State) (q : Fin 8) (port : Fin 16) (fwd : Option (Fin 16)) (eoi : Bool) (k : Token) : State :=
  if s.core.fab.rots[q].slots.any (·.pend) then s
  else
    let x := match fwd with
      | some p => if eoi then s.portMarker p k else (true, s)
      | none => (true, s)
    if x.1 then ((x.2.portTake port k).onRun mxeQ fun r => { r with
        pts := maxW r.pts k.pts
        done := true }).act
    else x.2

/-- The slot at the tap and the token at the head of PORT's arc step once (R275). -/
def State.recurStep (s : State) (q : Fin 8) (ty : MxTy) (bias : BitVec 8) (port : Fin 16) (fwd : Option (Fin 16)) (r : Run)
    (h x : Token) : State :=
  let p := s.core.tp q
  let rot := s.core.fab.rots[q]
  let xb := ((s.core.fab.portType port).map (·.bias)).getD 0
  let y := s.core.mxe.recur ty (biasOf bias) xb h.data x.data
  let g := ((rot.slots[p]?).map (·.gen)).getD 0
  let k : Token := ⟨y, h.tag, .data, false, .ofNat 6 p, g, maxW r.pts (maxW h.pts x.pts)⟩
  ((((s.portTake port x).onFab fun f => f.takeTap q s.chip.now).onRot q fun rot => { rot with
    slots := rot.slots.modify p fun y => { y with pend := true }
    inj := rot.inj ++ [⟨p, k, s.chip.now + 8, true, fwd.isSome⟩] }).onRun mxeQ fun r => { r with
    pts := maxW r.pts x.pts
    n := r.n + 1 }).act

/-- RECUR_CAPTURE (R275): the slot at the tap is captured with a matching token at the head of PORT's arc. -/
def execRecurCapture (s : State) : Out :=
  if s.core.fab.stopping then .next s
  else match s.runOf mxeQ with
  | none => .next s
  | some r =>
    match r.cmd with
    | .recur q ty bias port fwd eoi _ =>
      if !s.energyOk s.core then .next s.held
      else match s.portHead port with
        | none => .next s
        | some x =>
          if r.done then .next s
          else if x.kind = .eoi then .next (s.recurMarker q port fwd eoi x)
          else
            let p := s.core.tp q
            match s.core.fab.rstart[q].slots[p]?, s.core.fab.rots[q].slots[p]?, s.core.fab.tapToken q s.chip.now with
            | some a, some b, some h =>
              if a.state = .active && !a.pend && !b.hold && !b.pend && x.tag == h.tag then
                .next (s.recurStep q ty bias port fwd r h x)
              else .next s
            | _, _, _ => .next s
    | _ => .next s

/-- The oldest result that has still to be pushed on the forward port, in its first cycle or a later one (R275). -/
def State.recurForward (s : State) (q : Fin 8) (ty : MxTy) (bias : BitVec 8) (p : Fin 16) : State :=
  match s.core.fab.rots[q].inj.find? (·.fwd) with
  | none => s
  | some i =>
    if s.chip.now < i.from_ then s
    else if !s.energyOk s.core then s.held
    else
      let x := s.portPush p (some ⟨mxCode ty, biasOf bias⟩) i.tok
      if x.1 then x.2.onRot q fun r => { r with inj := r.inj.map fun j => if j = i then { j with
          fwd := false
          from_ := s.chip.now } else j }
      else x.2

/-- RECUR_INJECT (R275): a result is pushed on the forward port, and a result that is ready is injected at the tap. -/
def execRecurInject (s : State) : Out :=
  match s.runOf mxeQ with
  | none => .next s
  | some r =>
    match r.cmd with
    | .recur q ty bias _ fwd _ _ =>
      let s := match fwd with
        | some p => s.recurForward q ty bias p
        | none => s
      .next (s.injectAt q true)
    | _ => .next s

/-! ### The end of the cycle -/

/-- The end of the cycle of a matrix command: it completes once its last update has landed and its last token, marker
or write is done (R270–R275). -/
def State.mxeEnd (s : State) (r : Run) : State :=
  let now := s.chip.now
  match r.cmd with
  | .ldb .. => if 512 ≤ r.pre then s.completeRun mxeQ r else s
  | .mmul _ n _ _ _ _ _ eoi pf _ =>
    if n.toNat < r.n && r.until_ ≤ now && (!eoi || r.done) && (pf.isNone || decide (512 ≤ r.pre)) then s.completeRun mxeQ r
    else s
  | .gmul _ n _ _ _ _ _ _ _ _ => if n.toNat < r.n && r.until_ ≤ now then s.completeRun mxeQ r else s
  | .rdacc _ _ _ _ _ dst _ => match dst with
    | .port .. => if r.done then s.completeRun mxeQ r else s
    | .spad _ =>
      let w := s.core.loc.writesDone r.wait
      match w.2.2 with
      | some c => s.failRun mxeQ (engineCause (cENG 3 .addr) c)
      | none =>
        let r' := { r with wait := r.wait.drop w.1.length }
        let s := s.onRun mxeQ fun _ => r'
        if r'.done && r'.wait.isEmpty then s.completeRun mxeQ r' else s
  | .recur .. => if r.done then s.completeRun mxeQ r else s
  | _ => s

end Sys2Proof.Machine
end

