-- ==== Sys2Proof/Machine/Sync.lean ====
section
/-! DEFINITION. The synchronisation engine (R278–R293): a core's SYE commands, the SYE of a die, ordered windows and
barriers. -/

namespace Sys2Proof.Machine

/-- The SYE queue. -/
def syeQ : Fin 22 := 17

/-! ### The commands in one form (R281, R282) -/

structure SyeForm where
  sc   : SyeScope
  opr  : Nat
  va   : Nat
  win  : Option (Fin 64)
  /-- WEND: NC -/
  nc   : Option Nat
  bid  : Option (Fin 64)
  /-- an atomic with its format -/
  atom : Option (AtomOp × AtomFmt)
  /-- MMERGE: width, counter, level -/
  mrg  : Option (MicaWid × Nat × Nat)

def syeForm : Instr → Option SyeForm
  | .atom op fm sc va opr => some ⟨sc, opr.toNat, va.toNat, none, none, none, some (op, fm), none⟩
  | .atomw op fm sc va opr w => some ⟨sc, opr.toNat, va.toNat, some w, none, none, some (op, fm), none⟩
  | .mmerge wd sc va j lvl opr => some ⟨sc, opr.toNat, va.toNat, none, none, none, none, some (wd, j.toNat, lvl.toNat)⟩
  | .mmergew wd sc va j lvl opr w =>
    some ⟨sc, opr.toNat, va.toNat, some w, none, none, none, some (wd, j.toNat, lvl.toNat)⟩
  | .wend sc nc opr w => some ⟨sc, opr.toNat, 0, some w, some (nc.toNat + 1), none, none, none⟩
  | .barr sc bid opr => some ⟨sc, opr.toNat, 0, none, none, some bid, none, none⟩
  | _ => none

/-- The command reads an operand block (R283). -/
def SyeForm.reads (f : SyeForm) : Bool := match f.atom with
  | some (.finc, _) | none => false
  | some _ => true

/-- CLASS of the page the command needs (R279). -/
def SyeForm.cls (f : SyeForm) : Nat := if f.mrg.isSome then 2 else 1

/-! ### Windows (R288–R290) -/

/-- Window w of a task. -/
def Task.window (t : Task) (w : Fin 64) : Window := look .start w.val t.windows

def State.setWindow (s : State) (t : Nat) (w : Fin 64) (x : Window) : State :=
  s.onTask t fun k => { k with windows := put .start w.val x k.windows }

/-- A node's current round: the WENDs it has sent (R288). -/
def Window.roundOf (x : Window) (node : BitVec 18) : Nat := look 0 node.toNat x.wends

/-- A round has the WENDs of NC nodes (R289). -/
def Round.closed (r : Round) : Bool := match r.nc with
  | some n => decide (n ≤ r.ends.length)
  | none => false

/-- The node's round in a window is not yet open: round r + 2 waits for round r (R290). -/
def Window.tooFar (x : Window) (node : BitVec 18) : Bool := decide (x.round + 2 ≤ x.roundOf node)

/-- The open round of a node; none where it has closed (R289). -/
def Window.openRound (x : Window) (node : BitVec 18) : Option (Nat × Round) :=
  let i := x.roundOf node - x.round
  if x.roundOf node < x.round then none
  else
    let r := x.open_.getD i .empty
    if r.closed then none else some (i, r)

/-- A window with its i-th open round replaced. -/
def Window.setRound (x : Window) (i : Nat) (r : Round) : Window :=
  { x with open_ := ((x.open_ ++ List.replicate (i + 1 - x.open_.length) Round.empty).set i r) }

/-! ### Begin (R240, R285, R286, R290, R292) -/

/-- The begin conditions of an SYE command beyond R240 (R290, R292). -/
def State.syeMayBegin (s : State) (i : Instr) (node : BitVec 18) (order : Nat) : Bool :=
  match syeForm i, s.taskOf s.core with
  | some f, some t =>
    (match f.win with
      | some w => !(t.window w).tooFar node
      | none => true) && (f.bid.isNone || s.core.allBefore order)
  | _, _ => true

/-- The merge of an MMERGE, from the region entry as it stands at begin; none is ENG_MICA (R285). -/
def State.mergeOf (s : State) (f : SyeForm) (node : BitVec 18) : Option (Fin 8 × GlobOp) :=
  match f.mrg with
  | none => none
  | some (wd, j, lvl) => (s.core.loc.regionOf false f.va).bind fun k =>
      let r := s.core.loc.regions[k]
      if r.width ≠ wd.bits || 32 / wd.bits ≤ j then none
      else some (k, .merge wd f.va j lvl true r (.ofNat 32 s.core.sq.mseed.toNat) 0 node)

/-- An SYE command that began as r: its checks, and the read of its operands (R285, R286). -/
def State.syeBegin (s : State) (r : Run) : State :=
  match syeForm r.cmd with
  | none => s
  | some f =>
    if s.spadSize < f.opr + 32 then s.failRun syeQ (cENG 4 .addr)
    else if f.reads then
      let x := s.requestFor (.command syeQ) r.order (.read f.opr 16 []) r.pts
      x.2.onRun syeQ fun r => { r with wait := [x.1] }
    else if f.mrg.isSome then
      match s.mergeOf f r.node with
      | none => s.failRun syeQ (cENG 4 .mica)
      | some (k, op) => s.onRun syeQ fun r => { r with
          idx := k.val
          op := some op
          stage := 1 }
    else match f.bid, s.core.task with
      | some b, some t =>
        (s.onTask t fun k =>
          let x := look .start b.val k.barriers
          let x := { x with arr := x.arr ++ [⟨s.core.sq.lcid.toNat, s.core.cid, f.opr, r.pts, dieOf s.core.cid, f.sc == .system, r.order⟩] }
          { k with barriers := put .start b.val x k.barriers }).onRun syeQ fun r => { r with stage := 5 }
      | _, _ => s.onRun syeQ fun r => { r with
          op := f.atom.map fun e => .atom e.1 e.2 0 0
          stage := 1 }

/-! ### Progress -/

/-- The sequence number of the next merge of a node: of the SQ's queue, or of the emitting cell (R285, R288). -/
def Core.mergeSeq (c : Core) (node : BitVec 18) : BitVec 16 :=
  let n := node.toNat % 64
  if h : n < 32 then c.fab.cells[n].mseq else c.sq.mmerge

/-- A merge that passed its begin checks takes its number (R285). -/
def Core.nextMerge (c : Core) (node : BitVec 18) : Core :=
  let n := node.toNat % 64
  if h : n < 32 then { c with fab := { c.fab with
      cells := c.fab.cells.set n { c.fab.cells[n] with mseq := c.fab.cells[n].mseq + 1 } } }
  else { c with sq := { c.sq with mmerge := c.sq.mmerge + 1 } }

/-- The access with its sequence number. -/
def GlobOp.numbered (o : GlobOp) (n : BitVec 16) : GlobOp := match o with
  | .merge wd va j x b r ms _ node => .merge wd va j x b r ms n node
  | o => o

/-- A translation cause: the command did not pass its begin checks (R285, R286). -/
def isXlt (c : Cause) : Bool := inSpan c.toNat 0x318 35

/-- The operands arrived (R283). -/
def State.syeOperands (s : State) (r : Run) (f : SyeForm) : State :=
  match s.core.loc.firstAnswer r.wait with
  | none => s
  | some d =>
    let s := s.onLoc (·.takeAll [d.id])
    match d.bad with
    | some c => s.failRun syeQ (engineCause (cENG 4 .addr) c)
    | none => s.onRun syeQ fun r => { r with
        wait := []
        pts := maxW r.pts d.pts
        op := f.atom.map fun e => .atom e.1 e.2 (.ofNat 64 (leNat (d.bytes.take 8))) (.ofNat 64 (leNat (d.bytes.drop 8)))
        stage := 1 }

/-- An access leaves for its home (R287); at SYSTEM scope the L1 copy is dropped first. -/
def State.sySend (s : State) (r : Run) (f : SyeForm) (op : GlobOp) : State :=
  let x := s.ask 0 5 false false (some f.cls) (f.sc == .system) f.va (op.numbered (s.core.mergeSeq r.node)) r.pts
  x.2.onRun syeQ fun r => { r with
    wait := [x.1]
    stage := 2 }

/-- The result block of a command (R283): STAT's bit 0, flag, windowed bit, and the round or generation. -/
def statWord (flag win : Bool) (n : Nat) : Half := .ofNat 32 (1 + 2 * bit flag + 4 * bit win + 2 ^ 16 * (n % 2 ^ 16))

/-- A result block takes its place in issue order among those that the command side has not begun (R190). -/
def Core.addBlock (c : Core) (b : Block) : Core := { c with blocks := ins c.blocks }
where
  ins : List Block → List Block
    | [] => [b]
    | x :: l => if x.wait.isNone && decide (b.order < x.order) then b :: x :: l else x :: ins l

/-- The reply of an ATOM or MMERGE (R285, R287); one of SYSTEM scope is an edge after which no shared copy serves (R356). -/
def State.syeReply (s : State) (r : Run) (f : SyeForm) : State :=
  match s.core.loc.firstAnswer r.wait with
  | none => s
  | some d =>
    let s := (s.onLoc (·.takeAll [d.id])).onRun syeQ fun r => { r with
      wait := []
      pts := maxW r.pts d.pts }
    let began := match d.bad with
      | some c => !isXlt c
      | none => true
    let s := if f.mrg.isSome && began then s.onCore (·.nextMerge r.node) else s
    let s := if f.sc == .system then s.onCore Core.dropShared else s
    match d.bad with
    | some c => s.failRun syeQ (if c = cMICA_SAT then cENG 4 .mica else c)
    | none =>
      (s.onCore (·.addBlock ⟨f.opr, some d.old, statWord d.flag false 0, maxW r.pts d.pts,
        if f.mrg.isSome && d.flag then some (Fin.ofNat 8 r.idx) else none, none, true, false, r.order⟩)).onRun syeQ fun r => { r with stage := 3 }

/-- The unit that keeps a gang's windows, and the root of its barriers: the die of logical core 0 (R288, R292). -/
def Task.rootDie (k : Task) : Fin 4 := match k.coreOf 0 with
  | some c => dieOf c
  | none => 0

/-- A windowed request or WEND is accepted: the command is done, and the window's SYE keeps the acceptance as its reply
(R291). -/
def State.syeAccepted (s : State) (k : Task) (va pa : Nat) (r : Run) : State :=
  let c := s.core
  let seq := c.syeSeq[0]
  let q : SyeReq := ⟨0, c.cid, 0, seq, 0, k.part, k.asid, c.sq.lease.toNat, va, pa, false, r.pts, .load 0, false⟩
  let d := k.rootDie
  let hops := ucieHops (dieOf c.cid) d ++ ucieHops d (dieOf c.cid)
  let s := ((s.onCore fun c => { c with syeSeq := c.syeSeq.set 0 (seq + 1) }).syeKeep d q
    ⟨0, [], r.pts, s.chip.now, 0, false, none⟩).onPart k.part fun q => hops.foldl (fun q e => q.spend 2 (hopInst e) 1) q
  ((s.event 8 hops.length).onRun syeQ fun r => { r with done := true }).act

/-- A windowed request, or a WEND, reaches its window: accepted, or ENG_WINDOW (R288–R290). At SYSTEM scope the acting core's
L1 copy of the line goes first (R215). -/
def State.syeAccept (s : State) (r : Run) (f : SyeForm) (w : Fin 64) (pa : Nat) : State :=
  match s.core.task, s.taskOf s.core with
  | some t, some k =>
    let x := k.window w
    let me := s.core.sq.lcid.toNat
    let seq := s.core.mergeSeq r.node
    -- a merge that passed its begin checks takes its number, whatever the window does with it (R285)
    let s := if f.mrg.isSome then s.onCore (·.nextMerge r.node) else s
    match x.openRound r.node with
    | none => s.failRun syeQ (cENG 4 .window)
    | some (i, q) =>
      match f.nc with
      | some nc =>
        if q.nc.isSome && q.nc != some nc then s.failRun syeQ (cENG 4 .window)
        else
          let x := x.setRound i { q with
            ends := q.ends ++ [⟨r.node, me, s.core.cid, f.opr, r.pts, f.sc == .system, r.order⟩]
            nc := some nc }
          (s.setWindow t w { x with wends := put 0 r.node.toNat (x.roundOf r.node + 1) x.wends }).syeAccepted k 0 0 r
      | none =>
        let n := q.reqs.countP (·.node == r.node)
        if 64 ≤ n then s.failRun syeQ (cENG 4 .window)
        else
          let op := (r.op.getD (.load 0)).numbered seq
          let s := if f.sc == .system then s.dropCopy k.part pa else s
          (s.setWindow t w (x.setRound i { q with
            reqs := q.reqs ++ [⟨r.node, n, me, s.core.cid, f.opr, r.pts, s.core.sq.lease.toNat, f.va, pa, false, op,
              f.sc == .system, if f.mrg.isSome then some (Fin.ofNat 8 r.idx) else none, r.order, none, none⟩] })).syeAccepted k f.va pa r
  | _, _ => s

/-- A windowed command: its translation, then the window (R286, R288); its flits need their budget (R368). -/
def State.syeWindow (s : State) (r : Run) (f : SyeForm) (w : Fin 64) : State :=
  let d := dieOf s.core.cid
  let root := ((s.taskOf s.core).map (·.rootDie)).getD d
  if !s.chip.parts[s.partOf s.core].permitsHops (ucieHops d root ++ ucieHops root d) then s.held
  else if f.nc.isSome then s.syeAccept r f w 0
  else match s.lookup 5 false f.va true (some f.cls) with
    | (.miss, s) => s
    | (.bad c, s) => s.failRun syeQ c
    | (.hit t, s) =>
      if t.cls.toNat ≠ f.cls then s.failRun syeQ (cXLT 5 .cls) else s.syeAccept r f w (t.pa + (f.va - t.base))

/-- The SYE command in a cycle. -/
def State.syeStep (s : State) : State :=
  match s.runOf syeQ with
  | none => s
  | some r =>
    match syeForm r.cmd with
    | none => s
    | some f =>
      if !s.energyOk s.core then s.held
      else if r.done then s
      else match r.stage, f.win, r.op with
        | 0, _, _ => s.syeOperands r f
        | 1, some w, _ => s.syeWindow r f w
        | 1, none, some op => s.sySend r f op
        | 2, _, _ => s.syeReply r f
        | _, _, _ => s

/-! ### Result blocks (R283, R287, R289) -/

/-- The write of a block that comes next: OLD as a plain write, then STAT as STF. -/
def Block.write (b : Block) : Access := match b.old with
  | some v => .write [(b.opr + 0x10, leBytes v.toNat 8)] false
  | none => .write [(b.opr + 0x18, leBytes b.stat.toNat 4)] true

/-- The first block is written: SAT of a merge is set, one of SYSTEM scope is an edge (R356), and the command it belongs to is
done (R285, R287). -/
def State.blockDone (s : State) (b : Block) : State :=
  let s := s.onCore fun c => { c with blocks := c.blocks.drop 1 }
  let s := match b.sat with
    | some k => s.onLoc (·.setSat k)
    | none => s
  let s := if b.sys then s.onCore Core.dropShared else s
  if b.fin then s.onRun syeQ fun r => { r with done := true } else s

/-- The command side goes on with the first block: a write that was performed, then the next (R190). -/
def State.blockStep (s : State) : State :=
  match s.core.blocks with
  | [] => s
  | b :: rest =>
    let post := fun (s : State) (b : Block) (rest : List Block) =>
      let x := s.requestFor (.command syeQ) b.order b.write b.pts
      x.2.onCore fun c => { c with blocks := { b with wait := some x.1 } :: rest }
    match b.wait with
    | none => post s b rest
    | some id =>
      if s.core.loc.waits id then s
      else match s.core.loc.answered id with
        | some _ =>
          let s := (s.onLoc (·.takeAll [id])).onCore fun c => { c with blocks := rest }
          if b.fin then s.failRun syeQ (cENG 4 .addr) else s.raiseAsync (cENG 4 .addr) 0
        | none => match b.old with
          | some _ => post s { b with old := none } rest
          | none => s.blockDone b

/-- The end of the cycle of the SYE command. -/
def State.syeEnd (s : State) (r : Run) : State := if r.done then s.completeRun syeQ r else s

/-! ### The SYE of a die (R280, R291) -/

/-- The requester that ordered-window applications stand for, after every other (R280). -/
def windowRid : Nat := 2 ^ 32

/-- The first waiting request of the requester with the least id of those that satisfy p. -/
def Sye.least (y : Sye) (p : Nat → Bool) : Option SyeReq :=
  (y.reqs.filter fun r => p r.rid).foldl (fun (a : Option SyeReq) r => match a with
    | none => some r
    | some x => if r.rid < x.rid then some r else some x) none

/-- Round-robin: the next requester after the one served last (R280). -/
def Sye.nextReq (y : Sye) : Option SyeReq := match y.least fun i => decide (y.last < i) with
  | some r => some r
  | none => y.least fun _ => true

/-- Ordered windows have the turn: no waiting requester stands between the one served last and them (R280). -/
def Sye.windowTurn (y : Sye) : Bool :=
  !y.used && (y.least fun i => decide (y.last < i)).isNone && !(y.last == windowRid && !y.reqs.isEmpty)

/-- A request that its partition's budgets permit, those of its way too where it came from the hub, or that a kept reply answers
(R291, R368). -/
def State.syeMay (s : State) (d : Fin 4) (r : SyeReq) : Bool :=
  (s.chip.parts[r.part].permits 4 d.val || (s.chip.dies[d].sye.keptFor r).isSome) &&
    (r.ours || s.chip.parts[r.part].permitsHops (s.chip.parts[r.part].hubWays r.pa))

/-- What an SYE may serve. -/
def State.syePresents (s : State) (d : Fin 4) : Sye :=
  let y := s.chip.dies[d].sye
  { y with reqs := y.reqs.filter (s.syeMay d) }

/-- A reply reaches its core, whose agent has the access's time (R207); or a reply to a peer, whose request came from the hub, goes
back there and waits at the port of its device (R347, R351, R353). -/
def State.deliver (s : State) (r : SyeReq) (d : Served) : State :=
  if !r.ours then
    (s.crosses r.part none (s.chip.parts[r.part].hubWays r.pa)).replyOn (Fin.ofNat 16 (look 0 r.dev.toNat s.chip.route))
  else s.onCoreAt r.core fun c =>
    if c.loc.greqs.any (·.id == r.id) then
      let c := c.raiseAgent r.id d.pts
      { c with
        loc := c.loc.serve d
        active := true }
    else c

/-- The PTS of a request's agent as it stands (R207); a peer has none, and 0 stands for it (R210). -/
def State.syePts (s : State) (r : SyeReq) : Word :=
  if r.ours then ((s.coreAt r.core).map fun c => c.agentPts r.id r.pts).getD r.pts else r.pts

/-- A budget refuses a waiting request; a peer has no cycle that counts. -/
def State.refusedReq (s : State) (r : SyeReq) : State := if r.ours then s.refusedLate r.core else s

/-- The sequencer that comes next in the round is granted the SYE's next turn, which it takes in its issue (R50, R280). -/
def State.syeGrant (s : State) (d : Fin 4) : State :=
  let y := s.chip.dies[d].sye
  if y.reqs.any (·.granted) then s
  else match (s.syePresents d).nextReq with
    | none => s
    | some r =>
      if r.src ≠ 1 || !r.ours then s
      else s.onSye d fun y => { y with
        reqs := y.reqs.map fun z => if z == r then { z with granted := true } else z
        last := r.rid }

/-- SYE_ACCESS (R280, R291): die d's SYE performs one access of the next requester, round-robin; a request that matches a
kept reply receives that reply again. The sequencers' accesses are performed in their issues, each by a turn granted
beforehand (log entry 15). -/
def execSyeAccess (d : Fin 4) (s : State) : Out :=
  if s.chip.dies[d].skips then .next s
  else
    let s := (s.chip.dies[d].sye.reqs.filter fun r => !s.syeMay d r).foldl State.refusedReq s
    let y := s.syePresents d
    match (if y.used then none else ({ y with reqs := y.reqs.filter fun r => r.src != 1 || !r.ours } : Sye).nextReq) with
    | none => .next (s.syeGrant d)
    | some r =>
      let x := s.syePerform d r (s.syePts r) r.what
      .next ((x.2.deliver r x.1).syeGrant d)

/-! ### WINDOW_ROUND_CLOSE (R289) -/

/-- The next request to apply: the least (node, s) that has not been applied (R289). -/
def Round.nextReq (r : Round) : Option WinReq :=
  (r.reqs.filter (·.out.isNone)).foldl (fun (a : Option WinReq) x => match a with
    | none => some x
    | some y => if x.node.toNat < y.node.toNat || (x.node == y.node && decide (x.s < y.s)) then some x else some y) none

/-- n events of class k charged to logical core i of task t, resident or saved (R370, R371). -/
def State.chargeLogical (s : State) (t i : Nat) (k : Fin 23) (n : Nat) : State := match s.residentAt t i with
  | some c => s.charge c.cid k n
  | none => s.onLogical t i (·.charge s.chip.weights k n)

/-- Flits of a gang's own traffic cross links, for logical core i (R347, R348). -/
def State.gangCrosses (s : State) (t i : Nat) (p : Fin 64) (l : List Hop) : State :=
  (s.crosses p none l).chargeLogical t i 8 l.length

/-- The physical die of logical core i. -/
def Task.dieOfCore (k : Task) (i : Nat) : Fin 4 := match k.coreOf i with
  | some c => dieOf c
  | none => 0

/-- The crossings of a window's application at die d for logical core i: from the window's unit to the home and back, and of
the result to its core (R347). -/
def Task.windowHops (k : Task) (d : Fin 4) (i : Nat) : List Hop :=
  ucieHops k.rootDie d ++ ucieHops d k.rootDie ++ ucieHops k.rootDie (k.dieOfCore i)

/-- Request q of the oldest round of a window is changed. -/
def State.onWinReq (s : State) (t : Nat) (w : Fin 64) (q : WinReq) (f : WinReq → WinReq) : State :=
  s.onTask t fun k => match (k.window w).open_ with
    | [] => k
    | r :: _ => { k with windows := put .start w.val ((k.window w).setRound 0 { r with
        reqs := r.reqs.map fun y => if y.node == q.node && y.s == q.s then f y else y }) k.windows }

/-- Application q has answered. -/
def State.appliedReq (s : State) (t : Nat) (k : Task) (w : Fin 64) (q : WinReq) (x : Done) : State :=
  (x.st.onWinReq t w q fun y => { y with
    out := some ⟨0, [], x.pts, s.chip.clock (k.dieOfCore q.lcid), x.old, x.flag, x.bad⟩ }).onLogical t q.lcid fun c =>
      { c with active := true }

/-- The logical time with which a request of a round is applied: every request of the round and every application before it
precedes it (R289, R294). -/
def Round.applyPts (r : Round) : Word := (r.reqs.map fun q => maxW q.pts ((q.out.map (·.pts)).getD 0)).foldl maxW 0

/-- The events of one more access that application q makes at the home of its line, of the context that asked for it (R367,
R370). An MMERGEW reaches the L2 home, as an MMERGE does (R279). -/
def State.applyPays (s : State) (t : Nat) (k : Task) (q : WinReq) : State := match q.what with
  | .merge .. =>
    let (n, s) := s.take
    let x := s.chip.parts[k.part]
    let s := s.onPart k.part fun y => (y.spend 1 (x.homeBank q.pa) 1).spend 0 (x.homeChannel q.pa) (Config.gddr n).2
    (s.chargeLogical t q.lcid 6 1).chargeLogical t q.lcid 7 (Config.gddr n).1
  | _ => s

/-- Its budgets permit an application at die d (R368). -/
def State.applyPermits (s : State) (k : Task) (d : Fin 4) (q : WinReq) (hops : List Hop) : Bool :=
  s.chip.parts[k.part].permits 4 d.val && s.chip.parts[k.part].permitsHops (hops ++ s.backHops k.part q.pa) &&
    match q.what with
    | .merge .. => s.homePermits k.part q.pa
    | _ => true

/-- An application whose home is a peer's SYE: it leaves through the port as a flit, and is performed once the partner has
accepted that; an address outside the remote memory fails there (R351, R353). -/
def State.applyPeer (s : State) (t : Nat) (k : Task) (w : Fin 64) (r : Round) (q : WinReq) (port : Fin 16) : State :=
  let p := k.part
  let x := s.chip.parts[p]
  let l := s.chip.links[port]
  let hops := x.ways k.rootDie q.pa ++ ucieHops k.rootDie (k.dieOfCore q.lcid)
  let go := fun (s : State) =>
    let (n, s) := s.take
    ((s.onPart p fun y => y.spend 3 port.val 1).onWinReq t w q fun y => { y with sent := some (port, l.next, false) }).onLink port
      (·.send 0 (Config.flitPayload n))
  if !l.up then s.appliedReq t k w q ⟨[], q.pts, 0, false, some (cLINK port.val 0), s.tell p 4 (cLINK port.val 0) 0 0⟩
  else match q.sent with
    | some (_, seq, false) =>
      if l.buffer.any fun f => f.seq == seq then s
      else match x.place q.pa with
        | .peer a =>
          if peerInside a q.what.size then
            s.appliedReq t k w q (s.perform ⟨p, none, false, q.lease, 4⟩ q.pa r.applyPts q.what)
          else s.appliedReq t k w q ⟨[], q.pts, 0, false, some (cXLT 5 .format), s⟩
        | _ => s.appliedReq t k w q ⟨[], q.pts, 0, false, some (cXLT 5 .format), s⟩
    | some (_, _, true) =>
      if !l.canSend 0 then s else if x.permits 3 port.val then go s else s.refusedLate q.core
    | none =>
      if !l.canSend 0 then s
      else if !x.permits 3 port.val || !x.permitsHops hops then s.refusedLate q.core
      else go ((s.gangCrosses t q.lcid p hops).chargeLogical t q.lcid 9 1)

/-- One application at the home of its line, in that die's SYE (R279, R284, R285, R289), or in a peer's (R353). -/
def State.applyReq (s : State) (t : Nat) (k : Task) (w : Fin 64) (r : Round) (q : WinReq) : State :=
  match s.portFor k.part q.pa with
  | some port => s.applyPeer t k w r q port
  | none =>
    let d := s.chip.parts[k.part].homeDie q.pa
    let hops := k.windowHops d q.lcid
    if s.chip.dies[d].skips || !(s.syePresents d).windowTurn then s
    else if !s.applyPermits k d q hops then s.refusedLate q.core
    else match s.measSave k.part (some t) q.pa with
      | none => s.measFull (some t)
      | some s =>
        let s := ((s.onPart k.part fun p => p.spend 4 d.val 1).onSye d fun y => { y with
          used := true
          last := windowRid }).chargeLogical t q.lcid 10 1
        let s := (s.gangCrosses t q.lcid k.part hops).applyPays t k q
        s.appliedReq t k w q (s.perform ⟨k.part, none, false, q.lease, 4⟩ q.pa r.applyPts q.what)

/-- Requests in the order of their application. -/
def sortReqs : List WinReq → List WinReq
  | [] => []
  | r :: l => ins r (sortReqs l)
where
  ins (r : WinReq) : List WinReq → List WinReq
    | [] => [r]
    | x :: l => if r.node.toNat * 64 + r.s ≤ x.node.toNat * 64 + x.s then r :: x :: l else x :: ins r l

/-- A request's result block goes to its core; a merge that its entry traps raises ENG_MICA there (R285, R289). -/
def State.tellReq (s : State) (t round : Nat) (q : WinReq) : State :=
  match q.out with
  | none => s
  | some d => s.onLogical t q.lcid fun c => match d.bad with
      | some b => { c with sq := { c.sq with raised := c.sq.raised ++
          [⟨if b = cMICA_SAT then cENG 4 .mica else b, 0, s.clockOf c.cid⟩] } }
      | none => c.addBlock ⟨q.opr, some d.old, statWord d.flag true round, d.pts, if d.flag then q.reg else none, none, false,
          q.sys, q.order⟩

/-- The closing PTS of a round (R289). -/
def Round.pts (r : Round) : Word :=
  let a := (r.reqs.map fun q => maxW q.pts ((q.out.map (·.pts)).getD 0)).foldl maxW 0
  (r.ends.map (·.pts)).foldl maxW a

/-- No core of the task still has a result block of a window to write. -/
def State.blocksOver (s : State) (t : Nat) : Bool :=
  ((s.core :: s.others).filter (·.task == some t)).all (·.blocks.all (·.fin)) &&
    match s.chip.tasks[t]? with
    | some k => k.saved.all fun v => v.core.blocks.all (·.fin)
    | none => true

/-- WINDOW_ROUND_CLOSE (R289): the oldest open round of window w, closed by the WENDs of NC nodes, has its next request
applied; after the last its result blocks go out, and after those each WEND's STAT. -/
def execWindowRoundClose (t : Nat) (w : Fin 64) (s : State) : Out :=
  match s.chip.tasks[t]? with
  | none => .next s
  | some k =>
    let x := k.window w
    match x.open_ with
    | [] => .next s
    | r :: rest =>
      if !r.closed then .next s
      else match r.nextReq with
        | some q => .next (s.applyReq t k w r q)
        | none =>
          if !r.told then
            .next (((sortReqs r.reqs).foldl (fun s q => s.tellReq t x.round q) s).setWindow t w
              (x.setRound 0 { r with told := true }))
          else if !s.blocksOver t then .next s
          else if !s.chip.parts[k.part].permitsHops (r.ends.flatMap fun e => ucieHops k.rootDie (k.dieOfCore e.lcid)) then
            .next (r.ends.foldl (fun s e => s.refusedLate e.core) s)
          else
            let s := r.ends.foldl (fun s e =>
              (s.gangCrosses t e.lcid k.part (ucieHops k.rootDie (k.dieOfCore e.lcid))).onLogical t e.lcid fun c =>
                c.addBlock ⟨e.opr, none, statWord false true x.round, r.pts, none, none, false, e.sys, e.order⟩) s
            .next (s.setWindow t w { x with
              round := x.round + 1
              open_ := rest })

/-! ### Barriers (R292, R293) -/

/-- Logical cores of a gang that run on a die. -/
def Task.coresOn (k : Task) (d : Fin 4) : Nat :=
  (List.range k.nlc).countP fun i => match k.coreOf i with
    | some c => dieOf c == d
    | none => false

/-- Every logical core of die d has arrived. -/
def Task.dieArrived (k : Task) (x : Barrier) (d : Fin 4) : Bool := x.arr.countP (·.die == d) == k.coresOn d

/-- The barrier b of task t, changed. -/
def State.onBarrier (s : State) (t : Nat) (b : Fin 64) (f : Barrier → Barrier) : State :=
  s.onTask t fun k => { k with barriers := put .start b.val (f (look .start b.val k.barriers)) k.barriers }

/-- The core for which the tokens of a generation are sent: the last that arrived. -/
def Barrier.lastCore (x : Barrier) : Option (BitVec 8) := x.arr.getLast?.map (·.core)

/-- A barrier token takes its way where the budgets permit its flits; else it waits (R347, R367, R368, R370). -/
def State.barrierSend (s : State) (p : Fin 64) (x : Barrier) (l : List Hop) (f : State → State) : State :=
  if s.chip.parts[p].permitsHops l then f (s.crosses p x.lastCore l)
  else match x.lastCore with
    | some c => s.refusedLate c
    | none => s

/-- BARRIER_ARRIVAL (R292): the unit of die d sends its one arrival upward once all its cores have arrived. -/
def execBarrierArrival (t : Nat) (b : Fin 64) (d : Fin 4) (s : State) : Out :=
  match s.chip.tasks[t]? with
  | none => .next s
  | some k =>
    let x := look .start b.val k.barriers
    if k.coresOn d = 0 || d = k.rootDie || x.up.contains d || !k.dieArrived x d then .next s
    else .next (s.barrierSend k.part x (ucieHops d k.rootDie) (·.onBarrier t b fun x => { x with up := x.up ++ [d] }))

/-- A core's BARR is released: its STAT is written, and its time rises to every arrival's (R292, R293). -/
def Core.release (c : Core) (gen : Nat) (pts : Word) (a : Arrival) : Core :=
  let c := c.onRun syeQ fun r => { r with
    pts := maxW r.pts pts
    stage := 3 }
  { c.addBlock ⟨a.opr, none, statWord false false gen, pts, none, none, true, false, a.order⟩ with active := true }

/-- The other dies of a gang, and the way of a release down to them. -/
def Task.otherDies (k : Task) : List (Fin 4) := (List.finRange 4).filter fun d => d != k.rootDie && k.coresOn d != 0
def Task.downHops (k : Task) : List Hop := k.otherDies.flatMap fun d => ucieHops k.rootDie d

/-- The root of a barrier has the arrivals of its cores and of every other die (R292). -/
def Task.allArrived (k : Task) (x : Barrier) : Bool :=
  !x.arr.isEmpty && k.dieArrived x k.rootDie && k.otherDies.all x.up.contains

/-- The release of a generation is written to every core of the gang; one of SYSTEM scope empties its L1 (R292, R293). -/
def State.releaseGang (s : State) (t : Nat) (b : Fin 64) (k : Task) (pts : Word) : State :=
  let x := look .start b.val k.barriers
  let s := s.crosses k.part x.lastCore k.downHops
  let s := x.arr.foldl (fun (s : State) (a : Arrival) =>
    let s := s.onLogical t a.lcid fun c => c.release x.gen pts a
    match s.residentAt t a.lcid with
    | some c => if a.sys then s.atCore c.cid fun s => s.emptyL1 k.part else s
    | none => s) s
  s.onBarrier t b fun x => ⟨x.gen + 1, [], [], false⟩

/-- The largest PTS of a generation's arrivals (R293). -/
def Barrier.pts (x : Barrier) : Word := latest (x.arr.map (·.pts))

/-! ### Peer barrier groups (R354; log entry 129) -/

/-- The peer barrier group that a generation waits for: firmware's, where a BARR of it is of SYSTEM scope. -/
def Part.groupOf (q : Part) (b : Fin 64) (x : Barrier) : Option PeerGroup :=
  let g := look .none b.val q.groups
  if g.gangs != 0 && x.arr.any (·.sys) then some g else Option.none

def State.onGroup (s : State) (p : Fin 64) (b : Nat) (f : PeerGroup → PeerGroup) : State :=
  s.onPart p fun q => { q with groups := put .none b (f (look .none b q.groups)) q.groups }

/-- The gangs of partition p that have told barrier b's group of their arrival. -/
def State.toldGangs (s : State) (p : Fin 64) (b : Fin 64) : List (Nat × Task) :=
  (s.chip.tasks.zipIdx.filter fun e => e.1.part == p && (look .start b.val e.1.barriers).told).map fun e => (e.2, e.1)

/-- A token leaves on VC 3 of a port, once that can send it and its budget permits the flit (R351, R367, R368). -/
def State.tokenMay (s : State) (p : Fin 64) (port : Fin 16) : Bool :=
  s.chip.links[port].canSend 3 && s.chip.parts[p].permits 3 port.val
def State.tokenSend (s : State) (port : Fin 16) : State :=
  let (i, s) := s.take
  s.onPort port (s.chip.links[port].send 3 (Config.flitPayload i))

/-- A gang that is complete tells the hub's boundary element of its arrival, which on a device that does not collect the arrivals
hands it on at once (R292, R347, R354). -/
def State.groupTell (s : State) (t : Nat) (b : Fin 64) (k : Task) (x : Barrier) (g : PeerGroup) : State :=
  let tell := fun (s : State) => s.onBarrier t b fun x => { x with told := true }
  match g.up with
  | none => s.barrierSend k.part x (toHub k.rootDie) tell
  | some port =>
    if s.tokenMay k.part port then s.barrierSend k.part x (toHub k.rootDie) fun s =>
      tell ((match x.lastCore with
        | some c => s.charge c 9 1
        | none => s).tokenSend port)
    else if s.chip.links[port].canSend 3 then match x.lastCore with
      | some c => s.refusedLate c
      | none => s
    else s

/-- Every gang of the group has arrived: those of this device are released, each with the largest time of all their arrivals, and
the release is to leave through every port behind which other devices stand (R354). -/
def State.releaseGroup (s : State) (p : Fin 64) (b : Fin 64) : State :=
  let told := s.toldGangs p b
  let pts := latest (told.map fun e => (look .start b.val e.2.barriers).pts)
  (told.foldl (fun (s : State) e =>
    let x := look .start b.val e.2.barriers
    (s.crosses p x.lastCore (fromHub e.2.rootDie)).releaseGang e.1 b e.2 pts) s).onGroup p b.val fun g => { g with
      came := if g.up.isNone then 0 else g.came
      free := if g.up.isNone then g.free else g.free - 1
      send := g.send ||| g.down }

/-- A gang that is complete in a group: its arrival is told; the release comes once all of the group's have, or from the device
that collects them (R354). -/
def State.groupStep (s : State) (t : Nat) (b : Fin 64) (k : Task) (x : Barrier) (g : PeerGroup) : State :=
  let told := s.toldGangs k.part b
  let down := told.flatMap fun e => fromHub e.2.rootDie ++ e.2.downHops
  if !x.told then s.groupTell t b k x g
  else if (if g.up.isNone then decide (told.length + g.came < g.gangs) else g.free == 0) || g.send != 0 then s
  else if s.chip.parts[k.part].permitsHops down then s.releaseGroup k.part b
  else s.barrierSend k.part x down id

/-- What the boundary elements of a partition's group hand on in a cycle: an arrival from another device towards the one that
collects them, and a release to the next port (R354). A release that finds no gang here is handed on alone. -/
def State.groupHandsOn (s : State) (p : Fin 64) (b : Nat) : State :=
  let g := look .none b s.chip.parts[p].groups
  let s := match g.up with
    | some port => if g.came != 0 && s.tokenMay p port then (s.tokenSend port).onGroup p b fun g => { g with came := g.came - 1 } else s
    | none => s
  let here := (s.chip.tasks.any fun k => k.part == p && (look .start b k.barriers).told)
  let s := if g.up.isSome && g.free != 0 && !here && g.send == 0 then
      s.onGroup p b fun g => { g with
        free := g.free - 1
        send := g.down }
    else s
  match (List.finRange 16).find? fun (i : Fin 16) => (look .none b s.chip.parts[p].groups).send.getLsbD i.val && s.tokenMay p i with
  | some i => (s.tokenSend i).onGroup p b fun g => { g with send := g.send &&& ~~~(.ofNat 16 (2 ^ i.val)) }
  | none => s

/-- The peer barrier groups in a cycle of the module. -/
def State.groupsHandOn (s : State) : State :=
  (List.finRange 64).foldl (fun (s : State) (p : Fin 64) =>
    s.chip.parts[p].groups.foldl (fun s e => s.groupHandsOn p e.1) s) s

/-- BARRIER_RELEASE (R292, R293, R354): the root has the arrivals of its cores and of every other die, and sends the release
down; in a peer barrier group once every gang of the group has arrived. -/
def execBarrierRelease (t : Nat) (b : Fin 64) (s : State) : Out :=
  match s.chip.tasks[t]? with
  | none => .next s
  | some k =>
    let x := look .start b.val k.barriers
    if !k.allArrived x then .next s
    else match s.chip.parts[k.part].groupOf b x with
      | some g => .next (s.groupStep t b k x g)
      | none =>
        if s.chip.parts[k.part].permitsHops k.downHops then .next (s.releaseGang t b k x.pts)
        else .next (s.barrierSend k.part x k.downHops id)

end Sys2Proof.Machine
end

