-- ==== Sys2Proof/Machine/Dict.lean ====
section
/-! DEFINITION. The decode dictionary (R247–R253): entries, their check, the expansion of DX, DLOAD, DFENCE, DREAD. -/

namespace Sys2Proof.Machine

/-! ### Holes (R247) -/

/-- A hole: source, lowest template bit, width, left shift (R247). -/
structure Hole where
  kind : Nat
  pos  : Nat
  wid  : Nat
  sh   : Nat
deriving DecidableEq, Repr

/-- The 20 bits of descriptor j. -/
def holeBits (map j : Nat) : Nat := fld map (20 * j) 20

/-- Descriptor j of a hole map (R247). -/
def holeOf (map j : Nat) : Hole :=
  let h := holeBits map j
  ⟨fld h 0 2, fld h 2 7, fld h 9 5 + 1, fld h 14 4⟩

/-- The holes of a map that have a source. -/
def holesOf (map : Nat) : List Hole := ((List.range 3).map (holeOf map)).filter (·.kind ≠ 0)

/-- The template bits under the holes. -/
def underHoles (map : Nat) : Nat := (holesOf map).foldl (fun m h => m ||| (2 ^ h.wid - 1) * 2 ^ h.pos) 0

/-! ### Malformed records (R248) -/

/-- Two holes share a bit. -/
def holesMeet (a b : Hole) : Bool := decide (a.pos < b.pos + b.wid) && decide (b.pos < a.pos + a.wid)

/-- Some two of the holes share a bit. -/
def anyMeet : List Hole → Bool
  | [] => false
  | h :: r => r.any (holesMeet h) || anyMeet r

/-- Item 3 of R248. -/
def holesBad (map rest : Nat) : Bool :=
  ((List.range 3).any fun j =>
    let h := holeOf map j
    fld (holeBits map j) 18 2 != 0 || (h.kind == 0 && holeBits map j != 0)
      || (h.kind != 0 && (decide (128 < h.pos + h.wid) || (decide (h.pos < 32) && decide (13 < h.pos + h.wid)))))
    || anyMeet (holesOf map) || fld map 60 3 != 0 || rest != 0

/-- Template bits whose value 1 a check of their class can need, or on which the check of another field turns: the other
bits of a hole pass every check best at 0. -/
def switchBits : Nat → List Nat
  | 0 | 1 => [4, 8, 9, 105, 115, 125]
  | 2 => [8, 9, 38, 44, 105, 115, 125]
  | 3 => [8, 32, 33, 37, 49, 53, 64, 65, 73, 82, 105, 115, 125]
  | 4 => [0, 1, 2, 3, 4, 5, 6, 7, 8, 9]
  | 5 => [105, 115, 125]
  | 6 => [32, 33, 34]
  | 8 => [120]
  | _ => []

/-- Bits lo to hi − 1, each by itself. -/
def eachBit (lo hi : Nat) : List Nat := (List.range (hi - lo)).map fun i => 2 ^ (lo + i)

/-- The template bits that a hole's value can set, each group by itself and in any combination: a g register's any from SH on, a
DX field's five, and of a sign-extended one the sign with all bits above it (R249). -/
def Hole.groups (h : Hole) : List Nat :=
  let lo := h.pos + h.sh
  let top := h.pos + h.wid
  if h.kind = 1 then eachBit lo top
  else if h.kind = 2 then eachBit lo (min top (lo + 5))
  else eachBit lo (min top (lo + 4)) ++ if lo + 4 < top then [2 ^ top - 2 ^ (lo + 4)] else []

/-- A group of more than one bit: a sign. -/
def manyBits (m : Nat) : Bool := m &&& (m - 1) != 0

/-- Some choice of these groups of bits, the others as in `c`, makes a command that passes its issue checks. -/
def someFilling (ok : Nat → Bool) : List Nat → Nat → Bool
  | [], c => ok c
  | m :: r, c => someFilling ok r c || someFilling ok r (c + m)

/-- Some n-bit number that continues the prefix p, has the bits of v outside the mask m and lies in [lo, hi]. -/
def someIn (v m lo hi : Nat) : Nat → Nat → Bool
  | 0, p => decide (lo ≤ p) && decide (p ≤ hi)
  | n + 1, p =>
    if (p + 1) * 2 ^ (n + 1) ≤ lo || hi < p * 2 ^ (n + 1) then false
    else if bitAt m n then someIn v m lo hi n (2 * p) || someIn v m lo hi n (2 * p + 1)
    else someIn v m lo hi n (2 * p + bit (bitAt v n))

/-- Some ASID that agrees with `a` outside the mask is one of the partition's (R221, R358). -/
def Part.someAsid (q : Part) (a : BitVec 16) (mask : Nat) : Bool :=
  let lo := fld q.pasid.toNat 0 16
  someIn a.toNat mask lo (lo + fld q.pasid.toNat 16 16) 16 0

/-- Rotation q is configured, the phase is one of its, and the offset is aligned and its reach inside the largest scratchpad
(R179, R246). -/
def Core.rotFits (c : Core) (q : Fin 8) (phase off : Nat) (reach : Nat → Nat) : Bool := match c.fab.rots[q].cfg with
  | some g => decide (phase < g.depth) && decide (off % 64 = 0) && decide (off + reach g.depth ≤ 2 ^ 24)
  | none => false

/-- The command passes the checks of R237 and of its class that no later state could let it pass (R248); `free`: the bits that
holes set or clear one by one. -/
def Core.commandOk (c : Core) (q : Part) (free n : Nat) : Bool :=
  match decodeCommand (.ofNat 128 n) with
  | .error _ => false
  | .ok i => match i with
    | .argw k _ _ => c.fab.cells[k].conf.isSome
    | .radmc r _ _ _ => c.rotFits r 0 0 fun _ => 0
    | .rretc r x | .rholdc r x | .rrelc r x => c.rotFits r (x.phase.getD 0) 0 fun _ => 0
    | .rsavec r _ off => c.rotFits r 0 off.toNat recordSize
    | .rloadc r _ _ off | .rmapc r off => c.rotFits r 0 off.toNat fun _ => 64
    | .sdld _ off => decide (off.toNat + 144 ≤ 2 ^ 24)
    | .invr _ _ (.asid a) _ | .inva (.asid a) _ => q.someAsid a (fld free 64 16)
    | _ => true

/-- Settings of ARGW's node code that a hole leaves open, as further switch bits. -/
def cellBits (t : Nat) : List Nat := if fld t 21 4 == 5 && fld t 13 8 == 1 then [32, 33, 34, 35, 36] else []

/-- Item 5 of R248: an issue check fails whatever values the holes take, of those that their KIND and SH give (R249). -/
def Core.neverIssues (c : Core) (q : Part) (t map : Nat) : Bool :=
  let groups := (holesOf map).flatMap Hole.groups
  let switch := (switchBits (fld t 21 4) ++ cellBits t).foldl (fun m b => m ||| 2 ^ b) 0
  let asid := if fld t 21 4 = 8 then (2 ^ 16 - 1) * 2 ^ 64 else 0
  let tried := groups.filter fun m => m &&& switch != 0 || (manyBits m && m &&& asid != 0)
  let free := (groups.filter fun m => !manyBits m).foldl (· ||| ·) 0
  !someFilling (c.commandOk q free) tried t

/-- A record with V = 1 is malformed (R248). -/
def Core.recordBad (c : Core) (q : Part) (t map rest : Nat) : Bool :=
  bitAt t 31 || fld t 25 6 != 0x29 || decide (8 < fld t 21 4) || decide (classQueues (fld t 21 4) ≤ fld t 10 3)
    || holesBad map rest || t &&& underHoles map != 0 || c.neverIssues q t map

/-- Record i of an image at A: template, map and the reserved bytes (R248). -/
def imageRecord (m : List Host.Cell) (A i : Nat) : Nat × Nat × Nat :=
  (rdNat m (A + 32 * i) 16, rdNat m (A + 32 * i + 16) 8, rdNat m (A + 32 * i + 24) 8)

/-- A record is malformed; one with V = 0 is not examined (R248). -/
def Core.imageBad (c : Core) (q : Part) (r : Nat × Nat × Nat) : Bool := bitAt r.2.1 63 && c.recordBad q r.1 r.2.1 r.2.2

/-- The entry a record installs (R248). -/
def entryOf (r : Nat × Nat × Nat) : DictEnt := if bitAt r.2.1 63 then ⟨.ofNat 128 r.1, .ofNat 64 r.2.1⟩ else .invalid

/-- Entry idx as it stands. -/
def Local.entry (l : Local) (idx : Nat) : DictEnt := look .invalid idx l.dict

/-- Install records into entries FIRST and on. -/
def installAll (d : Sparse DictEnt) (i : Nat) : List (Nat × Nat × Nat) → Sparse DictEnt
  | [] => d
  | r :: rest => installAll (put .invalid i (entryOf r) d) (i + 1) rest

/-! ### DX (R249, R250, R252) -/

/-- The value of a hole's field (R249). -/
def State.holeValue (s : State) (kind f : Nat) : Nat :=
  if kind = 1 then (s.rg (Fin.ofNat 32 f)).toNat
  else if kind = 2 then f % 32
  else (sext f 5).toNat

/-- One hole filled (R249). -/
def State.fill (s : State) (map : Nat) (c : Nat) (j f : Nat) : Nat :=
  let h := holeOf map j
  if h.kind = 0 then c else setFld c h.pos h.wid (s.holeValue h.kind f * 2 ^ h.sh % 2 ^ h.wid)

/-- The built command (R249). -/
def State.expand (s : State) (e : DictEnt) (h0 h1 h2 : BitVec 5) : Nat :=
  let m := e.map.toNat
  s.fill m (s.fill m (s.fill m e.template.toNat 0 h0.toNat) 1 h1.toNat) 2 h2.toNat

/-- How many words of the window, from L + 4 on, were expanded before the DLOAD took effect: not architectural (R252, log
entry 6). -/
def oldRun (key : Nat) : Nat := Config.latency key % 9

/-- A DX word at address A is exposed to a DLOAD and was expanded before it took effect (R252). -/
def Exposure.before (x : Exposure) (A : Nat) : Bool :=
  inSpan A (x.addr + 4) 29 && decide (A < x.addr + 4 + 4 * oldRun x.key)

/-- The DLOADs a DX word was expanded before, and every later one (R252). -/
def pending (A : Nat) : List Exposure → List Exposure
  | [] => []
  | x :: r => if x.before A then x :: r else pending A r

/-- The entry as it stood before the first of these DLOADs that replaced it. -/
def entryBefore (idx : Nat) : List Exposure → Option DictEnt
  | [] => none
  | x :: r =>
    match x.old.find? (·.1 == idx) with
    | some e => some e.2
    | none => entryBefore idx r

/-- The entry a DX expands from; a repetition is not exposed (R252). -/
def State.dxEntry (s : State) (idx : Nat) : DictEnt :=
  let q := s.core.sq
  match (if q.latch.isSome then none else entryBefore idx (pending q.wordAddr.toNat q.expo)) with
  | some e => e
  | none => s.core.loc.entry idx

/-- The resident context is a pass of a replay measurement (R374). -/
def State.measured (s : State) : Bool := match s.taskOf s.core with
  | some t => t.meas
  | none => false

/-- The built command c issues as a CMD form (R238, R249); its wait keeps it (R41). The header of a
measured pass enters the signature (R374). -/
def State.issueBuilt (s : State) (idx : BitVec 10) (c : Nat) (since : Nat) : State :=
  let s := s.onSq fun q => { q with index := idx }
  match decodeCommand (.ofNat 128 c) with
  | .error _ => s.trapAt cILLEGAL_COMMAND s.core.sq.pc idx
  | .ok i =>
    let s := match i with
      | .sdld k off => s.issueSdld k off
      | i => s.issueWith i ⟨.queue, .ofNat 64 c, .ofNat 64 (c / 2 ^ 64), 0, since⟩
    if s.core.sq.after = .seq then
      (s.event 20 1).onCore fun x => if s.measured then { x with sig := x.sig ++ [.ofNat 64 (c % 2 ^ 32)] } else x
    else s

/-- DX (R249). -/
def execDx (idx : Fin 1024) (h0 h1 h2 : BitVec 5) (s : State) : Out :=
  let n : BitVec 10 := .ofNat 10 idx.val
  match s.core.sq.waitOf .queue with
  | some w => .next (s.issueBuilt n (w.addr.toNat + 2 ^ 64 * w.val.toNat) w.since)
  | none =>
    let e := s.dxEntry idx.val
    if !bitAt e.map.toNat 63 then .next (s.trapAt cDICT_UNDEFINED s.core.sq.pc n)
    else .next (s.issueBuilt n (s.expand e h0 h1 h2) s.chip.now)

/-! ### DLOAD, DFENCE, DREAD (R251, R253) -/

/-- DREF: OFF, CNT and M (R253). -/
def drefWord (off cnt : Nat) (m : Bool) : Word := .ofNat 64 (off % 2 ^ 24 + 2 ^ 24 * (cnt % 2 ^ 11) + 2 ^ 63 * bit m)

/-- The first malformed record of a list that begins at FIRST. -/
def Core.firstBad (c : Core) (q : Part) (i : Nat) : List (Nat × Nat × Nat) → Option Nat
  | [] => none
  | r :: rest => if c.imageBad q r then some i else c.firstBad q (i + 1) rest

/-- DLOAD: one access at issue (R251). -/
def execDload (a b : GReg) (s : State) : Out :=
  let A := (s.rg a).toNat
  let first := fld (s.rg b).toNat 0 10
  let count := fld (s.rg b).toNat 10 11
  let q := s.core.sq
  if count = 0 || 1024 < first + count then .next (s.trapAt cDICT_RANGE q.pc (.ofNat 10 first))
  else if A % 32 ≠ 0 then .next (s.raise cMISALIGNED)
  else if s.spadSize < A + 32 * (first + count) then .next (s.raise cLOCAL_BOUNDS)
  else
    let recs := (List.range count).map fun i => imageRecord s.core.loc.mem A (first + i)
    match s.core.firstBad s.chip.parts[s.partOf s.core] first recs with
    | some i => .next (s.trapAt cDICT_BADENTRY q.pc (.ofNat 10 i))
    | none =>
      let old := (List.range count).map fun i => (first + i, s.core.loc.entry (first + i))
      let (key, s) := s.take
      let s := (s.sqReadsWide (A + 32 * first) (32 * count)).wideHeld (A + 32 * first) (32 * count)
      let s := s.onLoc fun l => { l with dict := installAll l.dict first recs }
      .next (s.onSq fun q => { q with
        dgen := q.dgen + 1
        dref := if first = 0 && count = 1024 then drefWord A 1024 false else q.dref ||| .ofNat 64 (2 ^ 63)
        expo := q.expo ++ [⟨q.wordAddr.toNat, key, old⟩] })

/-- DFENCE: every exposure ends (R252). -/
def execDfence (s : State) : Out := .next (s.onSq fun q => { q with expo := [] })

/-- Word k of an entry, as DREAD returns it (R251). -/
def DictEnt.part (e : DictEnt) (k : Nat) : Word :=
  if k = 0 then .ofNat 64 e.template.toNat else if k = 1 then .ofNat 64 (e.template.toNat / 2 ^ 64) else e.map

/-- DREAD, landing at issue + 2 (R251). -/
def execDread (d a : GReg) (k : Fin 3) (s : State) : Out :=
  let i := (s.rg a).toNat
  if 1024 ≤ i then .next (s.raise cDICT_RANGE) else .next (s.setG d 2 ((s.core.loc.entry i).part k.val))

end Sys2Proof.Machine
end

