-- ==== Sys2Proof/Machine/System.lean ====
section
/-! DEFINITION. Traps and the sequencer's own steps: TRAP, BRK, ERET (R307), illegal words (R39, R237), the entry of an
asynchronous cause (R306), the landing of writes (R41) and the tick of logical time (R206). -/

namespace Sys2Proof.Machine

/-! ### TRAP, BRK, ERET (R307) -/

/-- TRAP completes and raises TRAPn; TRAPPC is its link value (R307). -/
def execTrap (n : Fin 32) (s : State) : Out := .next (s.trapAt (cTRAP n) s.core.sq.link 0)

/-- BRK: no word of the issue executes (R307). -/
def execBrk (s : State) : Out := .next (s.raise cBRK)

/-- ERET: outside a handler it faults the task (R307). -/
def execEret (s : State) : Out :=
  let q := s.core.sq
  if q.inHandler then .next s.leaveHandler
  else .next (s.onCore fun c => c.faultTask cERET_STATE 0 ⟨q.pc, q.slot.bit, false, 0, 0⟩)

/-- A word that is no instruction (R39): a command header's rejection is ILLEGAL_COMMAND (R237). -/
def execIllegalInstruction (w : Half) (s : State) : Out :=
  if majorOf w = 0x29 then .next (s.trapAt cILLEGAL_COMMAND s.core.sq.pc s.core.sq.index)
  else .next (s.raise cILLEGAL_INSTRUCTION)

/-! ### Asynchronous causes (R304, R306) -/

/-- The sequencer abandons its named wait: the request it posted is aborted (R306, R313). -/
def State.abandonWait (s : State) : State :=
  match s.core.sq.waitOf .global with
  | none => s.served
  | some w =>
    let id := w.third.toNat
    let cid := s.core.cid
    let s := s.served.onLoc fun l => { (l.takeAnswer id) with greqs := l.greqs.filter (·.id != id) }
    s.onChip fun h => { h with dies := h.dies.mapAll fun d =>
      { d with sye := { d.sye with reqs := d.sye.reqs.filter fun r => !(r.core == cid && r.id == id) } } }

/-- The least of some causes, and the others in rising order. -/
def sortCauses : List Cause → List Cause
  | [] => []
  | c :: r => insert c (sortCauses r)
where
  /-- place a cause among rising ones -/
  insert (c : Cause) : List Cause → List Cause
    | [] => [c]
    | x :: r => if c.toNat ≤ x.toNat then c :: x :: r else x :: insert c r

/-- The address of W: a bad register-indirect target stands before its fetch (R34, R306). -/
def Sq.nextAddr (q : Sq) : Half := q.target.getD q.pc

/-- What an entry for an asynchronous cause saves (R305, R306). -/
def Sq.asyncInfo (q : Sq) (phase : BitVec 6) : TrapInfo := ⟨q.nextAddr, false, true, phase, 0⟩

/-- One asynchronous cause reaches its boundary (R306): to the CMP where TCFG does not enable it or EXIT or ABORT has
issued; held while the handler runs; a second one then faults the task with the lower of the two. -/
def State.takeAsync (s : State) (c : Cause) (phase : BitVec 6) : State :=
  let q := s.core.sq
  let fatal := fun (a b : Cause) => s.abandonWait.onCore fun k => k.faultTask a b (q.asyncInfo phase)
  if !q.enables c || q.ending.isSome then fatal c 0
  else if q.inHandler then
    match q.heldCause with
    | none => s.onSq fun q => { q with heldCause := some (c, phase) }
    | some (d, _) => if c.toNat ≤ d.toNat then fatal c d else fatal d c
  else s.abandonWait.onCore fun k => k.enterHandler c (q.asyncInfo phase)

/-- The causes raised first among those before this cycle: all of one cycle (R306). -/
def Sq.due (q : Sq) (now : Nat) : List Raised :=
  match q.raised.filter (·.at_ < now) with
  | [] => []
  | r :: rest => (r :: rest).filter (·.at_ == r.at_)

/-- An asynchronous cause waits for a boundary (R306, R310). -/
def Sq.asyncPending (q : Sq) (now : Nat) : Bool :=
  (q.heldCause.isSome && !q.inHandler) || !(q.due now).isEmpty

/-- ASYNC_CAUSE_ENTRY (R306): a held cause is taken at the first boundary after ERET; else the causes of one cycle are:
one alone by the rule above, several fault the task with the lowest and the next lowest. -/
def execAsyncCauseEntry (s : State) : Out :=
  let q := s.core.sq
  match q.heldCause, q.inHandler with
  | some (c, ph), false => .next ((s.onSq fun q => { q with heldCause := none }).takeAsync c ph)
  | _, _ =>
    let due := q.due s.chip.now
    let s := s.onSq fun q => { q with raised := q.raised.filter fun r => !due.contains r }
    match due, sortCauses (due.map (·.cause)) with
    | [r], _ => .next (s.takeAsync r.cause r.phase)
    | _, a :: b :: _ => .next (s.abandonWait.onCore fun k => k.faultTask a b (q.asyncInfo 0))
    | _, _ => .next s

/-! ### Landing (R41) and logical time (R206) -/

/-- WRITE_LANDS (R41, R42, R187): every write due lands; owned lines that a resize dropped are written back. -/
def execWriteLands (s : State) : Out :=
  let s := s.onCore (·.landDue s.chip.now)
  .next (s.writeBack (s.partOf s.core))

/-- Every agent of the core adds 1 to its PTS (R206). -/
def Core.tickPts (c : Core) : Core :=
  { c with
    sq := { c.sq with ctr := { c.sq.ctr with pts := c.sq.ctr.pts + 1 } }
    fab := { c.fab with
      cells := c.fab.cells.mapAll fun x => { x with pts := x.pts + 1 }
      ports := c.fab.ports.mapAll fun x => { x with pts := x.pts + 1 } }
    queues := c.queues.mapAll fun q => { q with run := q.run.map fun r => { r with pts := r.pts + 1 } } }

/-- PTS_TICK (R206): in the last cycle of every 256, as CYCLE counts. -/
def execPtsTick (s : State) : Out :=
  if s.core.sq.ctr.cycle.toNat % 256 = 255 then .next (s.onCore Core.tickPts) else .next s

end Sys2Proof.Machine
end

