-- ==== Sys2Proof/Machine/Engines.lean ====
section
/-! DEFINITION. Commands begin (R240) and complete (R241); the STAT (R245), LAUNCH (R343) and XLT (R222) engines; command
ports (R164, R238); and the retirement of a core's part of a task (R93, R94). -/

namespace Sys2Proof.Machine

/-! ### STAT (R245) -/

def statQ : Fin 22 := 18

/-- A STAT command begins: SNAP samples the counter block; ARGW's rewrite reaches its cell (R245). -/
def State.statBegin (s : State) (r : Run) : State := match r.cmd with
  | .snap off _ =>
    if s.spadSize < off.toNat + 0x410 then s.failRun statQ (cENG 5 .addr)
    else s.onRun statQ fun r => { r with bytes := s.core.counterBlock s.chip.now }
  | .argw n v _ => (s.onCell n fun c => { c with rewrite := c.rewrite ++ [v] }).onRun statQ fun r => { r with done := true }
  | _ => s

/-- The end of the cycle of a STAT command: SNAP writes its rows one after another. -/
def State.statEnd (s : State) (r : Run) : State :=
  if r.done then s.completeRun statQ r
  else match r.cmd with
    | .snap off _ =>
      let w := s.core.loc.writesDone r.wait
      match w.2.2 with
      | some c => s.failRun statQ (engineCause (cENG 5 .addr) c)
      | none =>
        if w.1.length ≠ r.wait.length then s
        else if r.bytes.isEmpty then s.completeRun statQ { r with wait := [] }
        else if !s.energyOk s.core then s.held
        else
          let x := s.requestFor (.command statQ) r.order (.write [(off.toNat + 64 * r.n, r.bytes.take 64)] false) r.pts
          x.2.onRun statQ fun r => { r with
            wait := [x.1]
            n := r.n + 1
            bytes := r.bytes.drop 64 }
    | _ => s

/-! ### XLT (R222) -/

def xltQ : Fin 22 := 21

/-- The completion word of an invalidation. -/
def xltDone : Instr → Nat
  | .invr _ _ _ done | .inva _ done => done.toNat
  | _ => 0

/-- An invalidation executes: it goes to every unit of the partition (R221, R222). -/
def State.xltBegin (s : State) (r : Run) : State :=
  let asid := fun (x : AsidSel) => match x with
    | .asid a => a
    | .self => s.asidOf s.core
  let send := fun (a : BitVec 16) (lo hi : Nat) => s.onChip fun h => { h with
    invals := h.invals ++ [⟨some s.core.cid, a, lo, hi, invalUnits, []⟩] }
  match r.cmd with
  | .invr page n x _ => send (asid x) (65536 * page.toNat) (65536 * (page.toNat + n.toNat + 1))
  | .inva x _ => send (asid x) 0 (2 ^ 48)
  | _ => s

/-- XLT_COMPLETE (R222): every unit has acknowledged, and the completion word is written as STF does. -/
def execXltComplete (s : State) : Out :=
  match s.runOf xltQ with
  | none => .next s
  | some r =>
    if r.stage ≠ 0 then .next s
    else match s.chip.invals.find? (·.core == some s.core.cid) with
      | none => .next s
      | some i =>
        if !i.units.isEmpty || !i.owing.isEmpty then .next s
        else if !s.energyOk s.core then .next s.held
        else
          let s := s.onChip fun h => { h with invals := h.invals.filter (· != i) }
          let x := s.requestFor (.command xltQ) r.order (.write [(xltDone r.cmd, leBytes 1 4)] true) r.pts
          .next (x.2.onRun xltQ fun r => { r with
            wait := [x.1]
            stage := 1 }).act

def State.xltEnd (s : State) (r : Run) : State :=
  if r.stage = 0 then s
  else
    let w := s.core.loc.writesDone r.wait
    match w.2.2 with
    | some c => s.failRun xltQ (engineCause (cENG 8 .addr) c)
    | none => if w.1.length = r.wait.length then s.completeRun xltQ r else s

/-! ### LAUNCH (R343, R346) -/

def launchQ : Fin 22 := 20

/-- The queue takes appends of commands: DEV = 1, in the issuing task's partition (R343). -/
def State.devQueue (s : State) (j : Fin 256) : Bool :=
  let q := s.chip.queues[j]
  q.dev && q.part == some (s.partOf s.core)

/-- n rows of 64 bytes of global memory as the CMP reads them for a context: the walk, then the home (R219, R346). A poisoned
line is an uncorrectable memory error of the partition (R360, R363). -/
def State.readVirt (s : State) (p : Fin 64) (root va : Nat) : Nat → Except Cause (List Byte) × State
  | 0 => (.ok [], s)
  | n + 1 =>
    match s.walk p none root va false with
    | (.page b _ pa _ _, s) =>
      let A := pa + (va - b)
      let s := (s.hubPays p A).recall p A
      if s.poisoned p A then (.error (cMEM 3 7), s.tell p 3 (cMEM 3 7) (.ofNat 64 A) 0)
      else
        let x := s.rdPhys p A 64
        match s.readVirt p root (va + 64) n with
        | (.ok r, s) => (.ok (x ++ r), s)
        | e => e
    | (.bad k, s) => (.error (cXLT 6 k), s)
    | (.mem _, s) => (.error (cMEM 3 7), s)
    | (.held, s) => (.error (cXLT 6 .notPresent), s)

/-- A little-endian list of 64-bit words. -/
def wordsIn (bs : List Byte) : List Word := (List.range (bs.length / 8)).map fun i => .ofNat 64 (leNat ((bs.drop (8 * i)).take 8))

/-- The snapshot of a graph record: NODES, and the parameter words; none where NODES is illegal or a reserved bit is not 0
(R345, R346). -/
def graphHead (bs : List Byte) : Option (Nat × List Word) :=
  let n := leNat (bs.take 4)
  if inSpan n 1 256 && ((bs.drop 4).take 60).all (· == 0) then some (n, wordsIn ((bs.drop 64).take 512)) else none

/-- A LAUNCH command begins (R343). -/
def State.launchBegin (s : State) (r : Run) : State := match r.cmd with
  | .launch doff j =>
    if s.spadSize < doff.toNat + 64 then s.failRun launchQ (cENG 7 .addr)
    else if !s.devQueue j then s.failRun launchQ (cENG 7 .index)
    else
      let x := s.requestFor (.command launchQ) r.order (.read doff.toNat 64 []) r.pts
      x.2.onRun launchQ fun r => { r with wait := [x.1] }
  | .replay _ j => if !s.devQueue j then s.failRun launchQ (cENG 7 .index) else s
  | _ => s

/-- A REPLAY's record is translated in its begin, or in a later cycle (R346). -/
def State.replayStart (s : State) (gva : Nat) : State :=
  match s.lookup 6 false gva false with
  | (.miss, s) => s
  | (.bad c, s) => s.failRun launchQ c
  | (.hit _, s) => s.onRun launchQ fun r => { r with stage := 1 }

/-- The snapshot of a REPLAY that its record's translation let begin: the CMP reads NODES and the parameter words at the end of
the cycle, after every store performed in it (R346). -/
def State.replaySnap (s : State) : State :=
  match s.runOf launchQ with
  | none => s
  | some r => match r.cmd, r.stage with
    | .replay gva j, 1 =>
      let p := s.partOf s.core
      match s.readVirt p (s.rootOf s.core) gva.toNat 9 with
      | (.error k, s) => s.failRun launchQ k
      | (.ok bs, s) => match graphHead bs with
        | none => s.failRun launchQ (cENG 7 .shape)
        | some (n, gpw) => (s.onChip fun h => { h with
            replays := h.replays ++ [(j, ⟨gva.toNat, p, some s.core.cid, gpw, n, 0, false⟩)] }).onRun launchQ fun r => { r with
              stage := 2 }
    | _, _ => s

/-- The LAUNCH command in a cycle. -/
def State.launchStep (s : State) : State :=
  match s.runOf launchQ with
  | none => s
  | some r =>
    if !s.energyOk s.core then s.held
    else match r.cmd with
      | .replay gva _ => if r.stage = 0 then s.replayStart gva.toNat else s
      | _ => s

/-- The end of the cycle of a LAUNCH command: the descriptor stands ready for the dispatcher, which appends it. -/
def State.launchEnd (s : State) (r : Run) : State :=
  if r.done then s.completeRun launchQ r
  else match r.cmd with
    | .launch .. => match s.core.loc.firstAnswer r.wait with
      | none => s
      | some d =>
        let s := s.onLoc (·.takeAll [d.id])
        match d.bad with
        | some c => s.failRun launchQ (engineCause (cENG 7 .addr) c)
        | none => s.onRun launchQ fun r => { r with
            wait := []
            bytes := d.bytes
            pts := maxW r.pts d.pts
            stage := 2 }
    | _ => s

/-! ### COMMAND_BEGIN (R240) -/

/-- A copy command begins: its descriptors, its checks, its write pointer (R258, R260). -/
def State.cpeBegin (s : State) (k : Fin 22) (r : Run) : State :=
  match cpeForm r.cmd with
  | none => s
  | some f =>
    let r := { r with
      src := s.core.loc.sd[f.ssd]
      dst := (f.dsd.map fun x => s.core.loc.sd[x]).getD .zero }
    let s := (s.onRun k fun _ => r).cpeStart f r
    match f.beginBad r s.spadSize with
    | some c => s.failRun k c
    | none => s

/-- What a command does in its begin cycle. -/
def State.beginAct (s : State) (k : Fin 22) (r : Run) : State := match r.cmd with
  | .feeda _ _ _ _ _ _ sd _ | .draina _ _ _ _ _ _ sd _ => s.onRun k fun r => { r with src := s.core.loc.sd[sd] }
  | .feedi _ _ _ x y _ => s.onRun k fun r => { r with rows := [(feediRow x y, r.pts)], asked := 1 }
  | .copy .. | .hcopy .. | .gather .. | .scatter .. | .selacc .. => s.cpeBegin k r
  | .ldb .. | .mmul .. | .gmul .. | .rdacc .. | .recur .. => s.mxeBegin r
  | .atom .. | .mmerge .. | .atomw .. | .mmergew .. | .wend .. | .barr .. => s.syeBegin r
  | .snap .. | .argw .. => s.statBegin r
  | .launch .. | .replay .. => s.launchBegin r
  | .invr .. | .inva .. => s.xltBegin r
  | _ => s

/-- The checks made when a command reaches the head of its queue (R112, R240). -/
def Core.headBad (c : Core) (k : Fin 22) (i : Instr) : Option Cause :=
  let d := declOf i
  if c.loc.groupBad d.a || c.loc.groupBad d.b || c.loc.groupBad d.o then some (cENG (classOfQueue k) .decl)
  else ((portsOf i).find? (c.portConflict k i)).map fun p => cPORT p .conflict

/-- The head of queue k meets conditions 1–4 of R240 and those of its own class. -/
def State.mayBegin (s : State) (k : Fin 22) : Option (Instr × BitVec 18 × Word × Nat × Option (Fin 16)) :=
  (s.core.headCmd k).bind fun h =>
    if s.core.slotsReady (declOf h.1) && s.core.portsFree h.1 && s.syeMayBegin h.1 h.2.1 h.2.2.2.1 then some h else none

/-- Heads that fail their checks are removed, and their queues stop. -/
def State.failHeads (s : State) : List (Fin 22) → State
  | [] => s
  | k :: l => match s.core.headCmd k with
    | some h => match s.core.headBad k h.1 with
      | some c => (s.failHead k c).failHeads l
      | none => s.failHeads l
    | none => s.failHeads l

/-- COMMAND_BEGIN (R240): of the queues of a class, the ready command issued first begins; at most one a cycle. The ROT
class executes its entries by the steps of their own. -/
def execCommandBegin (cls : Fin 9) (s : State) : Out :=
  let ks := queuesOf cls.val
  if s.core.fab.stopping then .next s
  else if cls = 6 then
    let s := s.onCore fun c => ks.foldl (fun c k => c.passFences k 33) c
    .next (if s.rotHeld then s.held else s)
  else
    let s := (s.onCore fun c => ks.foldl (fun c k => c.passFences k 33) c).failHeads ks
    let ready := if s.core.begun.contains cls then [] else ks.filterMap fun k => (s.mayBegin k).map fun h => (k, h)
    match ready.foldl (fun (a : Option (Fin 22 × (Instr × BitVec 18 × Word × Nat × Option (Fin 16)))) x => match a with
        | none => some x
        | some y => if x.2.2.2.2.1 < y.2.2.2.2.1 then some x else some y) none with
    | none => .next s
    | some (k, (i, node, pts, order, via)) =>
      if !s.energyOk s.core then .next s.held
      else
        let r := s.core.newRun i node pts order via s.chip.now
        .next (((s.startRun k r).onCore fun c => { c with begun := cls :: c.begun }).beginAct k r)

/-! ### COMMAND_COMPLETE (R241) -/

/-- COMMAND_COMPLETE (R241): at the end of a cycle the begun command of queue k takes what was performed for it, and
completes once its last act is done. -/
def execCommandComplete (k : Fin 22) (s : State) : Out :=
  let s := if k = syeQ then s.blockStep else s
  match s.runOf k with
  | none => .next s
  | some r => .next (match r.cmd with
    | .feedh .. | .feeda .. | .feedi .. | .feedm .. => s.feedEnd k r
    | .drainh .. | .draina .. | .drainx .. => s.drainEnd k r
    | .copy .. | .hcopy .. | .gather .. | .scatter .. | .selacc .. => s.cpeEnd k r
    | .ldb .. | .mmul .. | .gmul .. | .rdacc .. | .recur .. => s.mxeEnd r
    | .atom .. | .mmerge .. | .atomw .. | .mmergew .. | .wend .. | .barr .. => s.syeEnd r
    | .snap .. | .argw .. => s.statEnd r
    | .launch .. | .replay .. => s.launchEnd r
    | .invr .. | .inva .. => s.xltEnd r
    | _ => s)

/-! ### COMMAND_PORT_ISSUE (R164, R238) -/

/-- The cause of a packet's issue as its port or engine raises it (R238). -/
def portCause (p : Fin 16) (cls : Nat) (c : Cause) : Cause :=
  if c = cILLEGAL_COMMAND then cPORT p .illegalCommand
  else if c = cLOCAL_BOUNDS || c = cMISALIGNED then cENG cls .addr
  else if c = cXLT 0 .asid then cENG cls .index
  else c

/-- The cell whose packets reach a port. -/
def Fabric.packetCell (f : Fabric) (p : Fin 16) : Nat := match (f.intoPort p).bind f.ends with
  | some e => e.src
  | none => 0

/-- The spans of n bytes at a, row by row. -/
def rowSpans (a n : Nat) : List (Nat × Nat) :=
  (List.range ((a + n - 1) / 64 + 1 - a / 64)).map fun i =>
    let lo := max a (64 * (a / 64 + i))
    (lo, min (a + n) (64 * (a / 64 + i + 1)) - lo)

/-- The reads of a port's packet are these. -/
def State.setPortWait (s : State) (p : Fin 16) (l : List Nat) : State :=
  s.onFab fun f => { f with ports := f.ports.set p { f.ports[p] with wait := l } }

/-- SDLD in a packet: its record is read by engine requests of the command side, row by row, and the packet is issued once they
are performed (R190, R238, R257). -/
def State.portSdld (s : State) (p : Fin 16) (t : Token) (k : Fin 16) (off : Nat) (take : State → State) : State :=
  let l := s.core.fab.ports[p].wait
  if s.spadSize < off + 144 then (take s).raiseAsync (cENG 2 .addr) 0
  else if l.isEmpty then
    let x := (rowSpans off 144).foldl (fun (x : List Nat × State) e =>
      let y := x.2.requestFor (.command 17) s.core.order (.read e.1 e.2 []) t.pts
      (x.1 ++ [y.1], y.2)) ([], s)
    x.2.setPortWait p x.1
  else
    let d := s.core.loc.readyPrefix l
    if d.length < l.length then s
    else
      let s := take ((s.onLoc (·.takeAll l)).setPortWait p [])
      let n := leNat (d.flatMap (·.bytes))
      if d.any (·.bad.isSome) then s.raiseAsync (cENG 2 .addr) 0
      else if descBad n then s.raiseAsync (cPORT p .illegalCommand) 0
      else s.post 1 (.sd k (Desc.ofNat n))

/-- A packet at the head of command port p is issued, discarded, or held while its queue is full (R164, R238). -/
def State.portIssue (s : State) (p : Fin 16) (t : Token) : State :=
  let w := fun (i : Nat) => lane32 t.data i
  let take := fun (s : State) => (s.portTake p t).act
  if t.kind = .eoi || (w 0 = 0 && w 1 = 0 && w 2 = 0 && w 3 = 0) then take s
  else match decCommand (w 0) (w 1) (w 2) (w 3) with
    | .error _ => (take s).raiseAsync (cPORT p .illegalCommand) 0
    | .ok i =>
      if !i.wf then (take s).raiseAsync (cPORT p .illegalCommand) 0
      else match i with
        | .sdld k off => s.portSdld p t k off.toNat take
        | _ => match queueOf i with
          | none => (take s).raiseAsync (cPORT p .illegalCommand) 0
          | some k => match s.cmdCheck i with
            | some c => (take s).raiseAsync (portCause p (classOfQueue k) c) 0
            | none =>
              if !s.core.queues[k].hasRoom then s
              else (take s).onCore fun c => c.enqueue k i (c.sq.node (c.fab.packetCell p)) t.pts (some p)

/-- COMMAND_PORT_ISSUE (R164, R238): command port p issues the packet at its head, after an ABORT too (log entry 132). -/
def execCommandPortIssue (p : Fin 16) (s : State) : Out :=
  match s.core.fab.ports[p].bind, s.portHead p with
  | .command, some t => .next (s.portIssue p t)
  | _, _ => .next s

/-! ### CORE_RETIRE (R93, R94, R306) -/

/-- Every engine queue is empty and every issued command has completed. -/
def Core.queuesEmpty (c : Core) : Bool := c.queues.toList.all fun q => q.ents.isEmpty && q.run.isNone

/-- The cause of a stopped queue that still holds entries (R306). -/
def Core.stoppedQueue (c : Core) : Option Cause :=
  c.queues.toList.findSome? fun q => match q.stop with
    | some k => if q.ents.isEmpty then none else some k
    | none => none

/-- Every issued instruction has completed and its writes have landed. -/
def Core.settled (c : Core) : Bool := c.sq.flight.isEmpty && c.sq.wait.isNone && c.sq.held == 0

/-- What is left of a logical core's part of a task (R93, R338). -/
def Core.over (c : Core) (how : Option Ending) : Retired :=
  ⟨c.sq.lcid.toNat, how, c.sq.ctr.cycle, c.finalPts, c.sq.ctr.pmc, c.sig⟩

/-- The core's part of the task retires: the hub hears of it, with its final CYCLE and PTS (R93, R338). -/
def State.retire (s : State) (e : Ending) : State :=
  let c := s.core
  let s := s.onCore fun c => { c with retired := some e, active := true }
  match c.task with
  | some t => s.onTask t fun k => { k with
      retired := k.retired ++ [c.over (some e)] }
  | none => s

/-- CORE_RETIRE (R93, R94, R306): after EXIT or ABORT, once its conditions hold. A cause held for the handler is dropped (log
entry 124). What a command port has issued since an ABORT completes first (log entry 132). -/
def execCoreRetire (s : State) : Out :=
  let c := s.core
  if c.retired.isSome || c.fault.isSome || c.task.isNone || !c.sq.raised.isEmpty then .next s
  else match c.sq.ending with
    | none => .next s
    | some .exit =>
      match c.stoppedQueue with
      | some k => .next (s.onCore fun c => c.faultTask k 0 (c.sq.asyncInfo 0))
      | none => if c.settled && c.queuesEmpty && c.fabricEnded s.chip.now then .next (s.retire .exit) else .next s
    | some .abort => if c.settled && c.queuesEmpty then .next (s.retire .abort) else .next s

end Sys2Proof.Machine
end

