-- ==== Sys2Proof/Machine/Image.lean ====
section
/-! DEFINITION. The load module (R31) and the configuration image (R117, R118, R140, R165, R200), and the checks of the
image loader (R119, R135, R137, R144, R149, R166, R200, R233, R335). Where a module fails several checks, the reason is
the lowest that applies to the lowest logical core (log entry 30). -/

namespace Sys2Proof.Machine

/-! ### The load module (R31) -/

/-- Field of n bytes at offset o of a module. -/
def fieldAt (bs : List Byte) (o n : Nat) : Nat := leNat ((bs.drop o).take n)

/-- A record of the core table (R31). -/
structure CoreRec where
  textOff   : Nat
  textSize  : Nat
  imageSize : Nat
  imageOff  : Nat
  dictOff   : Nat
  dictCount : Nat
  dataSize  : Nat
  dataOff   : Nat
  dataSpad  : Nat
  bssSpad   : Nat
  bssSize   : Nat
  rsvd      : Nat
deriving DecidableEq, Repr

/-- CORES, and the record of logical core k. -/
def modCores (bs : List Byte) : Nat := fieldAt bs 8 4
def coreRec (bs : List Byte) (k : Nat) : CoreRec :=
  let o := fieldAt bs 0x10 8 + 64 * k
  ⟨fieldAt bs o 8, fieldAt bs (o + 8) 4, fieldAt bs (o + 0xC) 4, fieldAt bs (o + 0x10) 8, fieldAt bs (o + 0x18) 8,
    fieldAt bs (o + 0x20) 4, fieldAt bs (o + 0x24) 4, fieldAt bs (o + 0x28) 8, fieldAt bs (o + 0x30) 4,
    fieldAt bs (o + 0x34) 4, fieldAt bs (o + 0x38) 4, fieldAt bs (o + 0x3C) 4⟩

/-- The scratchpad offset of .dict: the 64-byte boundary after .bss (R22). -/
def CoreRec.dictSpad (r : CoreRec) : Nat := (r.bssSpad + r.bssSize + 63) / 64 * 64

/-- A part of n bytes at offset o lies within the module after its header; an empty part lies anywhere (R335). -/
def partOk (size o n : Nat) : Bool := n == 0 || (decide (64 ≤ o) && decide (o + n ≤ size))

/-- The record of one core is well formed (R31, R335). A section that ends above 16 MiB is refused, an empty one too that is placed
beyond (log entry 35). -/
def CoreRec.ok (r : CoreRec) (size : Nat) : Bool :=
  r.textSize % 4 == 0 && r.imageSize % 32 == 0 && decide (r.dictCount ≤ 1024) && r.rsvd == 0
    && partOk size r.textOff r.textSize && partOk size r.imageOff r.imageSize
    && partOk size r.dictOff (32 * r.dictCount) && partOk size r.dataOff r.dataSize
    && decide (r.dataSpad + r.dataSize ≤ 2 ^ 24) && decide (r.bssSpad + r.bssSize ≤ 2 ^ 24)
    && (r.dictCount == 0 || decide (r.dictSpad + 32 * r.dictCount ≤ 2 ^ 24))

/-- The module is well formed (R31, R335): otherwise reason 19. Of the string table only its first byte counts (log entry
125). -/
def moduleOk (bs : List Byte) : Bool :=
  let size := fieldAt bs 0x30 8
  let n := modCores bs
  fieldAt bs 0 4 == 0x4E4C4F4D && fieldAt bs 4 2 == 1 && fieldAt bs 6 2 == 0 && inSpan n 1 4096
    && decide (fieldAt bs 0xC 4 ≤ 64) && fieldAt bs 0x38 8 == 0 && partOk size (fieldAt bs 0x10 8) (64 * n)
    && partOk size (fieldAt bs 0x18 8) (16 * fieldAt bs 0x20 8)
    && (fieldAt bs 0x20 8 == 0 || partOk size (fieldAt bs 0x28 8) 1)
    && (List.range n).all fun k => (coreRec bs k).ok size

/-! ### Records of .image (R117) -/

/-- A 32-byte record: TYPE, TARGET, header bits [31:16], and bytes 4–31. -/
structure ImgRec where
  ty   : Nat
  tgt  : Nat
  rsv  : Nat
  body : Nat
deriving DecidableEq, Repr

def imgRec (bs : List Byte) : ImgRec :=
  let x := leNat bs
  ⟨fld x 0 8, fld x 8 8, fld x 16 16, fld x 32 224⟩

/-- The records of an image of n × 32 bytes. -/
def imgRecs (bs : List Byte) : Nat → List ImgRec
  | 0 => []
  | n + 1 => imgRec (bs.take 32) :: imgRecs (bs.drop 32) n

/-- Reason 1: TYPE, TARGET or a reserved field (R117–R119, R140, R165, R200). -/
def ImgRec.bad (r : ImgRec) : Bool :=
  r.rsv != 0 || match r.ty with
    | 1 => decide (32 ≤ r.tgt) || fld r.body 0 96 != 0 || fld r.body (96 + 80) 16 != 0
    | 2 => decide (128 ≤ r.tgt) || fld r.body 29 3 != 0 || fld r.body 47 177 != 0
    | 3 => decide (16 ≤ r.tgt) || fld r.body 7 1 != 0 || fld r.body 28 4 != 0 || fld r.body 36 4 != 0
        || fld r.body 55 169 != 0
    | 4 => decide (8 ≤ r.tgt) || fld r.body 7 1 != 0 || fld r.body 13 3 != 0 || fld r.body 20 4 != 0
        || fld r.body 25 7 != 0 || fld r.body 64 160 != 0
    | _ => true

/-- The ARC record (R118). -/
def arcOf (b : Nat) : ArcCfg where
  src := Fin.ofNat 64 (fld b 0 6)
  srco := bitAt b 6
  stat := bitAt b 7
  dst := Fin.ofNat 64 (fld b 8 6)
  dsti := Fin.ofNat 4 (fld b 14 2)
  depth := fld b 16 7
  xin := bitAt b 23
  fmt := .ofNat 4 (fld b 24 4)
  sx := bitAt b 28
  bias := .ofNat 8 (fld b 32 8)
  sarc := Fin.ofNat 128 (fld b 40 7)

/-- The CIRCUIT record (R200). -/
def circOf (b : Nat) : CircCfg where
  port := Fin.ofNat 16 (fld b 0 4)
  out := bitAt b 4
  pat := bitAt b 5
  stat := bitAt b 6
  sd := Fin.ofNat 16 (fld b 8 4)
  peerPort := Fin.ofNat 16 (fld b 12 4)
  peer := .ofNat 12 (fld b 16 12)
  fmt := .ofNat 4 (fld b 32 4)
  bias := .ofNat 8 (fld b 40 8)
  sarc := Fin.ofNat 128 (fld b 48 7)

/-- The ROTATION record (R165), before its latency is known. -/
def rotOf (b : Nat) : RotCfg where
  depth := fld b 0 7
  tap := Fin.ofNat 32 (fld b 8 5)
  exit := Fin.ofNat 16 (fld b 16 4)
  trap := bitAt b 24
  members := .ofNat 32 (fld b 32 32)
  lat := 0

/-- A core's configuration: its fabric and its circuits. -/
structure Config1 where
  fab  : Fabric
  circ : Vector Circ 16
deriving DecidableEq, Repr

def Config1.empty : Config1 := ⟨.empty, Vector.replicate 16 .none⟩

/-- One record configures its target. -/
def Config1.add (x : Config1) (r : ImgRec) : Config1 :=
  let f := x.fab
  match r.ty with
  | 1 =>
    let w : Quad := .ofNat 128 (fld r.body 96 128)
    let c := { Cell.none with
      conf := some w
      const := .ofNat 32 (w.toNat / 2 ^ 96) }
    { x with fab := { f with cells := f.cells.set (Fin.ofNat 32 r.tgt) c } }
  | 2 => { x with fab := { f with arcs := f.arcs.set (Fin.ofNat 256 r.tgt) { Arc.none with cfg := some (arcOf r.body) } } }
  | 3 => { x with circ := x.circ.set (Fin.ofNat 16 r.tgt) { Circ.none with cfg := some (circOf r.body) } }
  | 4 => { x with fab := { f with rots := f.rots.set (Fin.ofNat 8 r.tgt) { Rot.none with cfg := some (rotOf r.body) } } }
  | _ => x

/-- Reason 10: something is configured twice. -/
def anyTwice (l : List ImgRec) : Bool :=
  (l.map fun r => (r.ty, r.tgt)).eraseDups.length != l.length

/-! ### What the operations accept (R143, R151–R164) -/

/-- Assigned operation codes (R143). -/
def opAssigned (o : Nat) : Bool :=
  inSpan o 0x01 7 || inSpan o 0x10 19 || inSpan o 0x40 15 || inSpan o 0x60 3 || inSpan o 0x70 3 || inSpan o 0x80 5
    || inSpan o 0x88 3 || inSpan o 0xA0 3 || inSpan o 0xA4 3 || inSpan o 0xA8 3 || inSpan o 0xB0 2

namespace Cell

/-- The data inputs an operation reads. -/
def reads (c : Cell) : List Nat :=
  let o := c.op
  if o = 0x02 || o = 0x04 || o = 0x06 || o = 0x13 || o = 0x43 then [0, 1, 2]
  else if o = 0x03 || o = 0x07 then [0, 2]
  else if o = 0x01 || o = 0x05 || o = 0x16 || o = 0x1E || inSpan o 0x46 6 || inSpan o 0x70 3 || o = 0x80
      || c.isRed || c.isLoad || o = 0xA6 || o = 0xA9 || o = 0xAA || inSpan o 0xB0 2 then [0]
  else [0, 1]

def isRouting (c : Cell) : Bool := inSpan c.op 0x01 7
def isInt (c : Cell) : Bool := inSpan c.op 0x10 19
def isFloat (c : Cell) : Bool := inSpan c.op 0x40 15
def isDk (c : Cell) : Bool := inSpan c.op 0x60 3
def isConv (c : Cell) : Bool := inSpan c.op 0x70 3

/-- The operation fits with S (R152, R158). -/
def fits (c : Cell) : Bool :=
  inSpan c.op 0x10 4 || c.op == 0x16 || c.op == 0x1A || c.op == 0x1D || c.op == 0x1E
    || (c.op == 0x88 && decide (c.type < 8))

/-- ST = 1 is legal (R149). -/
def mayStat (c : Cell) : Bool :=
  (c.isInt && (c.satMode || c.ot)) || c.isFloat || c.isDk || c.isConv || c.op == 0x1E || c.op == 0x1D

/-- TYPE and DTYPE are accepted (R151–R164). -/
def typeOk (c : Cell) : Bool :=
  let o := c.op
  let t := c.type
  let ratio := if o = 0x72 then fmtBits c.dtype / fmtBits t else fmtBits t / fmtBits c.dtype
  if o = 0x02 then decide (t ≤ 10)
  else if c.isRouting then t == 0
  else if o = 0x1E then t == 2 || t == 3 || t == 6 || t == 7
  else if c.isInt then decide (t < 8)
  else if c.isFloat then t == 9 || t == 10
  else if c.isDk then t == 8
  else if c.isConv then
    decide (t ≤ 10) && decide (c.dtype ≤ 10) && if o = 0x70 then fmtBits t == fmtBits c.dtype
      else ratio == 2 || ratio == 4 || ratio == 8
  else if c.isShuf then decide (t ≤ 10)
  else if c.isRed then decide (t < 8) || t == 9 || t == 10
  else if o = 0xA0 || o = 0xA4 then t == 2 || t == 6 || t == 10
  else if c.isLoad || c.isStore then decide (t ≤ 13)
  else if c.isMica then inSpan t 11 3
  else if o = 0xB0 then decide (t ≤ 10)
  else t == 0

/-- The format that input j requires: a test of the channel's format code. -/
def inputOk (c : Cell) (j f : Nat) : Bool :=
  let o := c.op
  let int := decide (f < 8)
  if o = 0x02 then (if j = 2 then int && fmtBits f == fmtBits c.type else f == c.type)
  else if o = 0x03 || o = 0x04 || o = 0x07 then (if j = 2 then int else true)
  else if c.isRouting then true
  else if o = 0x81 && j = 1 then int && fmtBits f == fmtBits c.type
  else if o = 0xA2 then true
  else if o = 0xA6 then f == c.type
  else if o = 0xA4 || o = 0xA5 then (if j = 0 then f == 6 else f == c.type)
  else if c.isLoad || c.isMica then f == 6
  else if o = 0xB1 then true
  else f == c.type

/-- Consume and produce counts are the operation's (R145, R151–R164). Where an entry gives the counts, they hold for a
constant too; the count of a constant that a lanewise operation reads may also be 0, as it is never consumed (R101, R142). An
input that the operation does not read has count 0 (log entry 34). CONS0 of a MERGE is the count of every path (R109). `has
k`: output k has a target. -/
def countsOk (c : Cell) (has : Nat → Bool) : Bool :=
  let o := c.op
  let all := fun (l : List Nat) (n : Nat) => l.all fun j => c.cons j == n
  let lanewise := fun (n : Nat) => c.reads.all fun j => c.cons j == n || (c.sel j == 6 && c.cons j == 0)
  let p0 := c.prod 0
  let p1 := c.prod 1
  let unread := [0, 1, 2].all fun j => c.reads.contains j || c.cons j == 0
  let small := [c.cons 0, c.cons 1, c.cons 2, p0, p1].all fun n => decide (n ≤ 4)
  let targets := (p0 == 0 || has 0) && (p1 == 0 || has 1)
  small && unread && targets && (c.st == false || (p1 == 0 && has 1)) &&
    if o = 0x01 then inSpan p0 1 4 && all [0] p0 && (p1 == 0 || p1 == p0)
    else if o = 0x02 || o = 0x07 then all c.reads 1 && p0 == 1 && p1 == 0
    else if o = 0x03 then inSpan p0 1 4 && all [0] p0 && all [2] 1 && p1 == 0
    else if o = 0x04 then inSpan p0 1 4 && all [0, 1] p0 && all [2] 1 && p1 == 0
    else if o = 0x05 || o = 0x70 then inSpan p0 1 4 && all [0] p0 && p1 == 0
    else if o = 0x06 then p0 == 0 && p1 == 0
    else if o = 0x71 then all [0] (fmtBits c.type / fmtBits c.dtype) && p0 == 1 && p1 == 0
    else if o = 0x72 then all [0] 1 && p0 == fmtBits c.dtype / fmtBits c.type && p1 == 0
    else if o = 0x82 || o = 0x83 then all [0, 1] 1 && p0 == 1 && p1 == 1
    else if c.isShuf then all c.reads 1 && p0 == 1 && p1 == 0
    else if c.isRed then (c.cons 0 == 1 || c.cons 0 == 2 || c.cons 0 == 4) && p0 == 1 && decide (p1 ≤ 1)
    else if c.isStore || o = 0xA8 then all c.reads 1 && decide (p0 ≤ 1) && p1 == 0
    else if c.isLoad || c.isMica then all [0] 1 && p0 == 1 && p1 == 0
    else if o = 0xB0 then inSpan (c.cons 0) 1 4 && p0 == 0 && p1 == 0 && has 0
    else if o = 0xB1 then all [0] 1 && p0 == 1 && p1 == 0
    else inSpan p0 1 4 && lanewise p0 && p1 == 0

/-- AUX and CONST hold what the operation allows (R151, R153, R157, R159–R164). -/
def subfieldsOk (c : Cell) : Bool :=
  let o := c.op
  let a := c.aux
  let k := c.const.toNat
  let N := 512 / fmtBits c.type
  (if o = 0x05 then decide (a < 4)
    else if o = 0x1E then decide (a < 64)
    else if o = 0x80 then decide (a < N)
    else if o = 0x84 then decide (a ≤ N)
    else if o = 0xB0 then decide (a < 4)
    else o == 0xA2 || o == 0xA6 || a == 0) &&
  (if o = 0x04 then fld k 16 16 == 0
    else if o = 0xA2 || o = 0xA6 then fld k 29 3 == 0 && (fld k 24 5 == 0 || inSpan (fld k 24 5) 6 19)
    else if c.isPort then fld k 24 8 == 0 && (!c.hmode || fld k 0 24 == 0)
    else if o = 0xB1 then fld k 31 1 == 0 && fld k 25 6 == 0x29 && decide (fld k 21 4 ≤ 8)
    else true)

/-- The operation has side effects (R111). -/
def sideEffects (c : Cell) : Bool := c.isPort || inSpan c.op 0xB0 2

/-- The fields an operation does not use are 0, and its subfields are in range (R144, R149). OBIAS belongs to the
operations whose output is dk8 (R140), but for those that pass tokens or store copies (log entry 20). -/
def fieldsOk (c : Cell) : Bool :=
  let o := c.op
  let memH := o == 0xA0 || o == 0xA1 || o == 0xA4 || o == 0xA5
  let bias := o == 0x60 || o == 0x62 || (c.isConv && c.dtype == 8)
    || ((c.isLoad || c.isShuf || o == 0x02) && c.type == 8)
  (c.isConv || c.dtype == 0) && (!c.guarded || c.sideEffects) && (!c.st || c.mayStat) && (!c.satMode || c.fits) && (!c.ot || c.fits)
    && (!c.tz || c.isConv) && (!c.hmode || memH) && (c.hmode || c.hidx == 0) && (bias || c.obias == 0)
    && ([0, 1, 2].all fun j => c.reads.contains j || c.sel j == 0) && c.subfieldsOk

end Cell

namespace Config1

/-! ### Shape (reasons 2–6, 9, 11) -/

/-- Configured cells. -/
def cells (x : Config1) : List (Fin 32) := (List.finRange 32).filter fun n => x.fab.cells[n].conf.isSome

/-- Records of the arcs, ascending. -/
def arcs (x : Config1) : List (Fin 256 × ArcCfg) := x.fab.live.filterMap fun a => x.fab.arcs[a].cfg.map fun g => (a, g)

/-- Records of the circuits, ascending. -/
def circuits (x : Config1) : List (Fin 16 × CircCfg) :=
  (List.finRange 16).filterMap fun c => x.circ[c].cfg.map fun g => (c, g)

/-- Records of the rotations, ascending. -/
def rots (x : Config1) : List (Fin 8 × RotCfg) :=
  (List.finRange 8).filterMap fun q => x.fab.rots[q].cfg.map fun g => (q, g)

/-- A node code names a configured cell. -/
def isCell (x : Config1) (n : Nat) : Bool := decide (n < 32) && x.fab.cells[Fin.ofNat 32 n].conf.isSome

/-- Reason 3 for an arc. -/
def endBad (x : Config1) (g : ArcCfg) : Bool :=
  let s := g.src.val
  let d := g.dst.val
  let c := x.fab.cells[Fin.ofNat 32 d]
  decide (48 ≤ s) || decide (48 ≤ d) || (decide (s < 32) && !x.isCell s) || (decide (d < 32) && !x.isCell d)
    || (decide (32 ≤ s) && (g.srco || decide (32 ≤ d))) || (decide (32 ≤ d) && (g.dsti != 0 || g.xin))
    || (decide (d < 32) && if g.xin then !c.isMerge || decide (2 ≤ g.dsti.val)
      else if g.dsti = 3 then !c.guarded else c.sel g.dsti.val != 1)

/-- An arc that ends at input j of cell n: 0–2, 3 the guard. -/
def fedBy (x : Config1) (n : Fin 32) (j : Nat) : Bool :=
  x.arcs.any fun e => e.2.dst.val == n.val && e.2.dsti.val == j && !e.2.xin

/-- Reason 3 for a cell: a selector 0x01 or a guard that no arc names. -/
def unfed (x : Config1) (n : Fin 32) : Bool :=
  let c := x.fab.cells[n]
  ([0, 1, 2].any fun j => c.sel j == 1 && !x.fedBy n j) || (c.guarded && !x.fedBy n 3)

/-- Reason 5: more than four targets, or two arcs into one input or port. -/
def fanBad (x : Config1) : Bool :=
  ((List.range 48).any fun n => decide (4 < (x.fab.targets n 0).length) || decide (4 < (x.fab.targets n 1).length)) ||
    (let l := x.arcs.map fun e => (e.2.dst.val, e.2.dsti.val, e.2.xin)
     l.eraseDups.length != l.length)

/-- Reason 6 for a cell. -/
def linkBad (x : Config1) (n : Fin 32) : Bool := [0, 1, 2].any fun j =>
  let k := x.fab.cells[n].sel j
  decide (7 ≤ k) || (inSpan k 2 4 && match neighbour n.val k with
    | some m => x.fab.cells[m].conf.isNone
    | none => true)

/-- Reason 9. -/
def fmtBad (f : BitVec 4) (b : BitVec 8) : Bool := decide (14 ≤ f.toNat) || (f != 8 && b != 0)

/-- An arc number is the extra path j of cell n (R109). -/
def isExtra (x : Config1) (n : Fin 32) (j : Nat) (a : Fin 256) : Bool := match x.fab.arcs[a].cfg with
  | some g => g.dst.val == n.val && g.xin && g.dsti.val == j
  | none => false

/-- Reason 11. -/
def pathsBad (x : Config1) : Bool :=
  (x.cells.any fun n => [0, 1].any fun j => match x.fab.cells[n].extraArc (4 + j) with
    | some a => !x.isExtra n j a
    | none => false) ||
  x.arcs.any fun e => e.2.xin && x.fab.cells[Fin.ofNat 32 e.2.dst.val].extraArc (4 + e.2.dsti.val) != some e.1

/-! ### Types (reasons 12, 13, 20) -/

/-- The types of what enters channel a at its producer: a cell's output (of a MERGE one for each path), a circuit's end,
or a rotation's tap. Engines give theirs at run time. -/
def producerTypes (x : Config1) (a : Fin 256) : List Fmt := match x.fab.ends a with
  | none => []
  | some e =>
    if e.src < 32 then x.fab.outTypes (Fin.ofNat 32 e.src) e.srco
    else match x.circuits.find? fun c => c.2.port.val == e.src - 32 && !c.2.out with
      | some c => [c.2.type]
      | none => match x.rots.find? fun r => r.2.exit.val == e.src - 32 with
        | some r => (x.fab.tapType r.1).toList
        | none => []

/-- Reason 12 for an arc, and for the link of a MERGE, whose paths are converted to the link's type; a statistics arc carries
count tokens only. -/
def joinBad (x : Config1) (a : Fin 256) : Bool := !(x.arcs.any fun e => e.1 == a && e.2.sx) && match x.fab.chanType a with
  | some c => (x.producerTypes a).any fun p => Fabric.unjoinable p c
  | none => false

/-- The type at the sending end of a circuit: the arc's into its port, or the node's own record. -/
def sentType (x : Config1) (g : CircCfg) : Option Fmt :=
  if g.pat then some g.type else (x.fab.intoPort g.port).bind x.fab.chanType

/-- Reason 13 for a cell. -/
def typesBad (x : Config1) (n : Fin 32) : Bool :=
  let c := x.fab.cells[n]
  !c.typeOk || c.reads.any fun j => (x.fab.inType 40 n j).any fun t => !c.inputOk j t.code

/-- The arc named by SARC is a statistics arc of the counting point (R137). -/
def sarcOk (x : Config1) (k : Fin 128) (src : Nat) (srco : Bool) : Bool :=
  match x.fab.arcs[k.castLE (by decide : 128 ≤ 256)].cfg with
  | some g => g.sx && g.src.val == src && g.srco == srco
  | none => false

/-- Reason 20 (R137). -/
def statBad (x : Config1) (sentDiffers : CircCfg → Bool) : Bool :=
  let named := (x.arcs.filter (·.2.stat)).map (·.2.sarc.val) ++ (x.circuits.filter (·.2.stat)).map (·.2.sarc.val)
  (x.arcs.any fun e =>
    (e.2.stat && (!x.sarcOk e.2.sarc e.2.src.val e.2.srco || match x.producerTypes e.1, x.fab.chanType e.1 with
      | [], _ => false
      | l, some c => l.all fun p => !Fabric.differs p c
      | _, _ => false)) ||
    (!e.2.stat && e.2.sarc != 0) || (e.2.sx && (e.2.fmt != 6 || e.2.stat || !named.contains e.1.val))) ||
  x.circuits.any fun e =>
    (e.2.stat && (!e.2.out || !x.sarcOk e.2.sarc (32 + e.2.port.val) false || !sentDiffers e.2)) ||
      (!e.2.stat && e.2.sarc != 0)

/-! ### Cells (reasons 14–16) -/

/-- An edge port that the image binds for the task. -/
def portBound (x : Config1) (p : Nat) : Bool :=
  (x.circuits.any fun e => e.2.port.val == p) || x.rots.any fun e => e.2.exit.val == p

/-- Targets of the wrong kind: SEMIT's must belong to the statistics network, CEMIT's one target is an edge port
(R137, R144, R164). -/
def targetsBad (x : Config1) (n : Fin 32) : Bool :=
  let c := x.fab.cells[n]
  let dst := (x.fab.targets n.val 0).filterMap fun a => (x.fab.ends a).map (·.dst)
  if c.op = 0xB0 then dst.any fun d => decide (32 ≤ d) && x.portBound (d - 32)
  else if c.op = 0xB1 then match dst with
    | [d] => decide (d < 32)
    | _ => true
  else false

/-- Reason 14 for a cell. -/
def countsBad (x : Config1) (n : Fin 32) : Bool :=
  !x.fab.cells[n].countsOk (fun k => !(x.fab.targets n.val k).isEmpty) || x.targetsBad n

/-- Rotations whose bitmap holds cell n. -/
def memberOf (x : Config1) (n : Nat) : List (Fin 8) := (x.rots.filter fun e => e.2.members.getLsbD n).map (·.1)

/-- Reason 16 for a cell. -/
def memberBad (x : Config1) (n : Fin 32) : Bool :=
  let c := x.fab.cells[n]
  (c.guarded && !c.sideEffects) || (!c.rm && c.rq != 0) || x.memberOf n.val != c.member.toList
    || (c.op == 0x07 && !c.rm)

/-! ### Cycles and rotations (reasons 7, 8, 17) -/

/-- Channels between cells: (producer, consumer, channel). -/
def edges (x : Config1) : List (Nat × Nat × Fin 256) :=
  (List.finRange 256).filterMap fun a => match x.fab.ends a with
    | some e =>
      if e.src < 32 && e.dst < 32 && (decide (a.val < 128) || x.isCell e.dst) then some (e.src, e.dst, a) else none
    | none => none

/-- Cells reached from those given, in at most `fuel` more rounds. -/
def reach (es : List (Nat × Nat × Fin 256)) : Nat → List Nat → List Nat
  | 0, l => l
  | fuel + 1, l => reach es fuel ((l ++ (es.filter fun e => l.contains e.1).map (·.2.1)).eraseDups)

/-- Both ends belong to one rotation. -/
def inside (x : Config1) (e : Nat × Nat × Fin 256) : Bool := (x.memberOf e.1).any fun q => (x.memberOf e.2.1).contains q

/-- Reason 7: a cycle runs over a channel that is not inside one rotation (R119). -/
def cycleBad (x : Config1) : Bool :=
  let es := x.edges
  es.any fun e => !x.inside e && (reach es 32 [e.2.1]).contains e.1

/-- The channels inside a rotation. -/
def loopEdges (x : Config1) (q : Fin 8) : List (Nat × Nat × Fin 256) :=
  x.edges.filter fun e => (x.memberOf e.1).contains q && (x.memberOf e.2.1).contains q

/-- Cycles from a token's departure at its producer to its sight at the consumer: L plus T (R103, R167). -/
def hop (x : Config1) (e : Nat × Nat × Fin 256) : Nat := x.fab.cells[Fin.ofNat 32 e.1].lat + x.fab.transit e.2.2

/-- One more round of least and greatest times from the tap; the channels into the tap are left out. -/
def times (x : Config1) (tap : Nat) (es : List (Nat × Nat × Fin 256)) : Nat → Sparse (Option (Nat × Nat)) →
    Sparse (Option (Nat × Nat))
  | 0, t => t
  | fuel + 1, t => times x tap es fuel (es.foldl (fun (t' : Sparse (Option (Nat × Nat))) e =>
      if e.2.1 = tap then t'
      else match look none e.1 t with
        | none => t'
        | some (a, b) =>
          let h := x.hop e
          put none e.2.1 (match look none e.2.1 t' with
            | none => some (a + h, b + h)
            | some (c, d) => some (min c (a + h), max d (b + h))) t') t)

/-- Least and greatest time once round the loop of rotation q, and the cells whose two times differ. -/
def lap (x : Config1) (q : Fin 8) (g : RotCfg) : Option (Nat × Nat) × Bool :=
  let es := x.loopEdges q
  let t := x.times g.tap.val es 32 [(g.tap.val, some (0, 0))]
  ((es.filter (·.2.1 == g.tap.val)).foldl (fun (r : Option (Nat × Nat)) e => match look none e.1 t with
    | none => r
    | some (a, b) =>
      let h := x.hop e
      match r with
      | none => some (a + h, b + h)
      | some (c, d) => some (min c (a + h), max d (b + h))) none,
   t.any fun e => match e.2 with
     | some (a, b) => a != b
     | none => false)

/-- Reason 8: arms of unequal latency inside a rotation. -/
def armsBad (x : Config1) (q : Fin 8) (g : RotCfg) : Bool := match x.lap q g with
  | (some (a, b), d) => a != b || d
  | (none, d) => d

/-- The natural latency L (R167). -/
def latency (x : Config1) (q : Fin 8) (g : RotCfg) : Nat := ((x.lap q g).1.map (·.1)).getD 0

/-- Reason 17 (R166, R233). -/
def rotBad (x : Config1) (q : Fin 8) (g : RotCfg) : Bool :=
  let ms := (List.finRange 32).filter fun n => g.members.getLsbD n.val
  let es := x.loopEdges q
  let from_ := reach es 32 [g.tap.val]
  !inSpan g.depth 1 64 || ms.isEmpty || (ms.any fun n => x.fab.cells[n].conf.isNone) || !ms.contains g.tap
    || (ms.any fun n => !(from_.contains n.val && (reach es 32 (es.filterMap fun e =>
          if e.1 = n.val then some e.2.1 else none)).contains g.tap.val))
    || decide (g.depth < x.latency q g)
    || (es.any fun e => match x.fab.ends e.2.2 with
      | some k => (x.fab.cells[Fin.ofNat 32 k.dst]).cons (if k.dsti < 3 then k.dsti else 0) != 1
          || (x.fab.cells[Fin.ofNat 32 k.src]).prod k.srco != 1
      | none => false)
    || (ms.any fun n =>
      let c := x.fab.cells[n]
      c.op == 0xA2 || c.op == 0xA6 || c.op == 0xB0 || c.op == 0xA8 || c.st)
    || (x.circuits.any fun e => e.2.port == g.exit) || x.rots.any fun e => e.1 != q && e.2.exit == g.exit

/-! ### Circuits (reason 18) -/

/-- Reason 18 for circuit c of logical core k in a gang of configurations (R200). Statistics arcs are no arc of a
memory node's port. -/
def circBad (all : List Config1) (x : Config1) (k : Nat) (g : CircCfg) : Bool :=
  let p := g.port
  let peer := (all[g.peer.toNat]?).bind fun y => (y.circuits.find? fun e =>
    e.2.peer.toNat == k && e.2.port == g.peerPort && e.2.peerPort == p && e.2.out != g.out)
  (match peer with
    | none => true
    | some e => e.2.pat && g.pat) ||
  (if g.pat then (x.fab.intoPort p).isSome || !(x.fab.fromPort p).isEmpty
    else if g.out then (x.fab.intoPort p).isNone else (x.fab.fromPort p).isEmpty) ||
  decide (1 < (x.circuits.filter fun e => e.2.port == p).length)

/-- The record at the other end. -/
def peerOf (all : List Config1) (k : Nat) (g : CircCfg) : Option CircCfg :=
  (all[g.peer.toNat]?).bind fun y => (y.circuits.find? fun e =>
    e.2.peer.toNat == k && e.2.port == g.peerPort && e.2.out != g.out).map (·.2)

/-- Reason 12 for a circuit: its two ends, and its arc. -/
def circJoinBad (all : List Config1) (x : Config1) (k : Nat) (g : CircCfg) : Bool :=
  (match peerOf all k g with
    | some h => Fabric.unjoinable g.type h.type
    | none => false) ||
  match g.out, x.sentType g with
  | true, some t => Fabric.unjoinable t g.type
  | _, _ => false

/-- A conversion stands at a circuit's sending end: before its record's type, or before the other end's. -/
def circDiffers (all : List Config1) (x : Config1) (k : Nat) (g : CircCfg) : Bool :=
  match x.sentType g, peerOf all k g with
  | some t, some h => Fabric.differs t g.type || Fabric.differs g.type h.type
  | _, _ => true

/-! ### The checks in order -/

/-- The reason for which the configuration of logical core k is rejected: the lowest that applies. -/
def reject (all : List Config1) (k : Nat) (recs : List ImgRec) (x : Config1) : Option Nat :=
  let cs := x.cells
  let first := fun (l : List (Nat × Bool)) => (l.find? (·.2)).map (·.1)
  first [
    (1, recs.any ImgRec.bad),
    (2, cs.any fun n => !opAssigned x.fab.cells[n].op),
    (3, (x.arcs.any fun e => x.endBad e.2) || cs.any x.unfed),
    (4, x.arcs.any fun e => !inSpan e.2.depth 1 64),
    (5, x.fanBad),
    (6, cs.any x.linkBad),
    (7, x.cycleBad),
    (8, x.rots.any fun e => x.armsBad e.1 e.2),
    (9, (x.arcs.any fun e => fmtBad e.2.fmt e.2.bias) || x.circuits.any fun e => fmtBad e.2.fmt e.2.bias),
    (10, anyTwice recs),
    (11, x.pathsBad),
    (12, ((List.finRange 256).any fun a => x.joinBad a) || x.circuits.any fun e => circJoinBad all x k e.2),
    (13, cs.any x.typesBad),
    (14, cs.any x.countsBad),
    (15, cs.any fun n => !x.fab.cells[n].fieldsOk),
    (16, cs.any x.memberBad),
    (17, x.rots.any fun e => x.rotBad e.1 e.2),
    (18, x.circuits.any fun e => circBad all x k e.2),
    (20, x.statBad (circDiffers all x k))]

/-- The latencies and the slots of the rotations, and the bindings of the ports, once the checks are passed
(R112, R167, R170). -/
def finish (x : Config1) : Config1 :=
  let rots := (List.finRange 8).foldl (fun (v : Vector Rot 8) (q : Fin 8) => match v[q].cfg with
    | some g => v.set q { v[q] with
        cfg := some { g with lat := x.latency q g }
        slots := List.replicate g.depth .zero }
    | none => v) x.fab.rots
  let bindOf := fun (p : Fin 16) => match x.circuits.find? fun e => e.2.port == p with
    | some e => PortBind.circuit e.1
    | none => match x.rots.find? fun e => e.2.exit == p with
      | some e => .exit e.1
      | none => match (x.fab.intoPort p).bind x.fab.ends with
        | some e => if e.src < 32 && x.fab.cells[Fin.ofNat 32 e.src].op == 0xB1 then .command else .free
        | none => .free
  { x with fab := { x.fab with
      rots := rots
      rstart := rots
      ports := (List.finRange 16).foldl (fun (v : Vector Port 16) (p : Fin 16) => v.set p { v[p] with bind := bindOf p }) x.fab.ports } }

end Config1

/-! ### The configurations of a gang -/

/-- The records of logical core k. -/
def recsOf (bs : List Byte) (k : Nat) : List ImgRec :=
  let r := coreRec bs k
  imgRecs ((bs.drop r.imageOff).take r.imageSize) (r.imageSize / 32)

/-- The configuration a list of records makes; records of no known type make nothing. -/
def configOf (l : List ImgRec) : Config1 := l.foldl Config1.add .empty

/-- Checks of the configurations of a gang: the reason of the lowest core that fails (R119). -/
def gangReject (bs : List Byte) : Option Nat :=
  let rs := (List.range (modCores bs)).map (recsOf bs)
  let cs := rs.map configOf
  (rs.zip cs).zipIdx.findSome? fun e => Config1.reject cs e.2 e.1.1 e.1.2

/-! ### Task start (R22, R32, R120, R193, R253) -/

/-- Words that hold a placed byte: full at task start; with no byte none (R193). -/
def placedWords (o n : Nat) : Sparse Bool :=
  if n = 0 then [] else (List.range ((o + n + 3) / 4 - o / 4)).map fun i => (o / 4 + i, true)

/-- The words of .text. -/
def halvesOf : Nat → List Byte → List Half
  | 0, _ => []
  | n + 1, l => .ofNat 32 (leNat (l.take 4)) :: halvesOf n (l.drop 4)

/-- Dictionary record i of an image of bytes: template, map, reserved. -/
def dictRec (bs : List Byte) (i : Nat) : Nat × Nat × Nat :=
  (fieldAt bs (32 * i) 16, fieldAt bs (32 * i + 16) 8, fieldAt bs (32 * i + 24) 8)

/-- Logical core k of a module at task start, without place or task (R32, R120, R193, R253). .dict lies over .data where they
meet, and ENERGY starts at EPRE (R371; log entry 125). -/
def startCore (bs : List Byte) (k n : Nat) (param : Word) (epre : Word) : Core :=
  let r := coreRec bs k
  let x := (configOf (recsOf bs k)).finish
  let dict := (bs.drop r.dictOff).take (32 * r.dictCount)
  let mem := wrBytes (wrBytes [] r.dataSpad ((bs.drop r.dataOff).take r.dataSize)) r.dictSpad dict
  let fe := (placedWords r.dictSpad (32 * r.dictCount)).foldl (fun (l : Sparse Bool) e => put false e.1 true l)
    (placedWords r.dataSpad r.dataSize)
  let c := Core.idleCore 0
  { c with
    text := halvesOf (r.textSize / 4) (bs.drop r.textOff)
    sq := { Sq.start with
      lcid := .ofNat 32 k
      nlc := .ofNat 32 n
      pbase := param
      dref := drefWord r.dictSpad r.dictCount false
      ctr := { Counters.zero with energy := .ofNat 64 (epre.toNat % 2 ^ 48) } }
    loc := { Local.empty with
      mem := mem
      fe := fe
      circ := x.circ
      dict := installAll [] 0 ((List.range r.dictCount).map (dictRec dict)) }
    fab := x.fab }

/-- Reason 21: a record of the image's .dict is malformed (R248). -/
def dictReject (q : Part) (bs : List Byte) (k : Nat) (c : Core) : Bool :=
  let r := coreRec bs k
  let dict := (bs.drop r.dictOff).take (32 * r.dictCount)
  ((List.range r.dictCount).map (dictRec dict)).any (c.imageBad q)

/-- The loader checks of R335, item 2, for a partition: the reason of the rejection. -/
def imageReject (q : Part) (bs : List Byte) : Option Nat :=
  if !moduleOk bs then some 19
  else match gangReject bs with
    | some k => some k
    | none => if (List.range (modCores bs)).any fun k => dictReject q bs k (startCore bs k 1 0 0) then some 21 else none

end Sys2Proof.Machine
end

