-- ==== Sys2Proof/Machine/Records.lean ====
section
/-! DEFINITION. What the hub keeps in memory and in the register blocks: error rings (R360–R362), launch descriptors
(R331), fault and completion records and acknowledgements (R309, R337, R338). -/

namespace Sys2Proof.Machine

/-! ### Error rings (R360–R362) -/

/-- The 128 bytes of an entry with its SEQ (R360). -/
def RingEvent.entry (e : RingEvent) (seq : Half) : BitVec 1024 :=
  .ofNat 1024 (e.kind + 2 ^ 32 * seq.toNat + 2 ^ 64 * e.time.toNat + 2 ^ 128 * e.addr.toNat + 2 ^ 192 * e.cause.toNat
    + 2 ^ 512 * e.fault.toNat)

/-- One event reaches the ring: UESTA records it, UEMSK suppresses its entry, and a full ring drops it (R360, R362). -/
def Part.appendErr (q : Part) (e : RingEvent) : Part :=
  let q := { q with uesta := q.uesta ||| .ofNat 32 (2 ^ (e.kind - 1)) }
  if q.uemsk.getLsbD (e.kind - 1) then q
  else if (q.rtail - q.rhead).toNat = 96 then
    { q with
      rovf := .ofNat 32 (min (q.rovf.toNat + 1) (2 ^ 32 - 1))
      uesta := q.uesta ||| 64 }
  else
    { q with
      ring := put 0 (q.rtail.toNat % 96) (e.entry (q.rtail + 1)) q.ring
      rtail := q.rtail + 1 }

/-- Events of one hub cycle in ascending cause value, those of one cause in their order. -/
def sortErrs : List RingEvent → List RingEvent
  | [] => []
  | e :: r => ins e (sortErrs r)
where
  ins (e : RingEvent) : List RingEvent → List RingEvent
    | [] => [e]
    | x :: r => if e.cause.toNat ≤ x.cause.toNat then e :: x :: r else x :: ins e r

/-- The events of the hub cycle reach the ring (R360). -/
def Part.flushErrs (q : Part) : Part :=
  if q.errs.isEmpty then q else { (sortErrs q.errs).foldl Part.appendErr q with errs := [] }

/-! ### Launch descriptors (R331, R335) -/

/-- A descriptor from its 64 bytes (R331). -/
def descOf (bs : List Byte) : LaunchDesc :=
  let x := leNat bs
  { image := .ofNat 64 x
    param := .ofNat 64 (x / 2 ^ 64)
    task := .ofNat 64 (x / 2 ^ 128)
    ptroot := .ofNat 64 (x / 2 ^ 192)
    ctrl := .ofNat 32 (x / 2 ^ 256)
    dep := .ofNat 32 (x / 2 ^ 288)
    crec := .ofNat 64 (x / 2 ^ 320)
    patch := .ofNat 64 (x / 2 ^ 384)
    rsvd := .ofNat 64 (x / 2 ^ 448) }

namespace LaunchDesc

/-- ASID, PRIO and WDLOG of CTRL. -/
def asid (d : LaunchDesc) : BitVec 16 := .ofNat 16 d.ctrl.toNat
def prio (d : LaunchDesc) : Nat := fld d.ctrl.toNat 16 3
def wdlog (d : LaunchDesc) : Nat := fld d.ctrl.toNat 19 5

/-- WAITCTR, WV, SIGCTR and SV of DEP. -/
def waitctr (d : LaunchDesc) : Nat := fld d.dep.toNat 0 12
def wv (d : LaunchDesc) : Bool := d.dep.getLsbD 12
def sigctr (d : LaunchDesc) : Nat := fld d.dep.toNat 16 12
def sv (d : LaunchDesc) : Bool := d.dep.getLsbD 28

/-- Entry i of PATCH: V, k and n. -/
def patchOf (d : LaunchDesc) (i : Nat) : Option (Nat × Nat) :=
  let e := fld d.patch.toNat (16 * i) 16
  if bitAt e 15 then some (fld e 0 6, fld e 6 6) else none

/-- DESC_REJECT 1 (R331, R338). -/
def reserved (d : LaunchDesc) : Bool :=
  fld d.ptroot.toNat 0 12 != 0 || fld d.ptroot.toNat 48 16 != 0 || fld d.ctrl.toNat 24 8 != 0 || fld d.dep.toNat 13 3 != 0
    || fld d.dep.toNat 29 3 != 0 || ([0, 1, 2, 3].any fun i => fld d.patch.toNat (16 * i + 12) 3 != 0) || d.rsvd != 0

/-- DESC_REJECT 2. -/
def misaligned (d : LaunchDesc) : Bool :=
  d.image.toNat % 64 != 0 || d.param.toNat % 64 != 0 || d.crec.toNat % 64 != 0

end LaunchDesc

/-- The lines of a range come home from their owners. -/
def State.recallRange (s : State) (p : Fin 64) (pa n : Nat) : State :=
  ((s.chip.parts[p].lines.filter fun e => e.2.owner.isSome && decide (pa / 128 ≤ e.1) && decide (e.1 * 128 < pa + n)).map
    (·.1)).foldl (fun s ln => s.recall p (ln * 128)) s

/-- A read of a range by agent a that no task stands behind: each of its poisoned lines is an uncorrectable memory error of the
partition (R360, R363). -/
def State.tellPoison (s : State) (p : Fin 64) (a pa n : Nat) : State :=
  ((s.chip.parts[p].lines.filter fun e => e.2.poison && decide (pa / 128 ≤ e.1) && decide (e.1 * 128 < pa + n)).map
    (·.1)).foldl (fun s ln => s.tell p 3 (cMEM 3 a) (.ofNat 64 (128 * ln)) 0) s

/-- Bytes of the partition's memory as they stand at their homes, which the CMP watches: the head of a queue, its counter, the
header of its module (R333, R334, R363, R365). That it looks at each dispatch step counts no access (log entry 66). -/
def State.cmpPeek (s : State) (p : Fin 64) (pa n : Nat) : List Byte × State :=
  let s := (s.recallRange p pa n).tellPoison p 7 pa n
  (s.rdPhys p pa n, s)

/-- The CMP reads n bytes of the partition's memory: an access of each line at its home (R347, R348, R367). -/
def State.cmpRead (s : State) (p : Fin 64) (pa n : Nat) : List Byte × State := (s.hubPaysAll p pa n).cmpPeek p pa n

/-- The bytes of an image header in memory (R31). -/
def State.headOf (s : State) (p : Fin 64) (d : LaunchDesc) : List Byte × State := s.cmpPeek p d.image.toNat 64

/-- IMAGE with its header lies in the partition's device memory. -/
def State.imageThere (s : State) (p : Fin 64) (d : LaunchDesc) : Bool :=
  decide (d.image.toNat + 64 ≤ s.chip.parts[p].devBytes)

/-- DESC_REJECT 5: IMAGE, the SIZE bytes it names where it is a module, or PTROOT (R335, R338). -/
def State.descOutside (s : State) (p : Fin 64) (d : LaunchDesc) : Bool × State :=
  let dev := s.chip.parts[p].devBytes
  if !s.imageThere p d || decide (dev < d.ptroot.toNat + 4096) then (true, s)
  else
    let (h, s) := s.headOf p d
    (fieldAt h 0 4 == 0x4E4C4F4D && decide (dev < d.image.toNat + fieldAt h 0x30 8), s)

/-- A walk of the CMP for a context: the physical address (R219). -/
def State.cmpWalk (s : State) (p : Fin 64) (root va : Nat) (store : Bool) : Option Nat × State :=
  if 2 ^ 48 ≤ va then (none, s)
  else match s.walk p none root va store with
    | (.page b _ pa _ _, s) => (some (pa + (va - b)), s)
    | (_, s) => (none, s)

/-- The check of a descriptor, in the order 1, 2, 3, 5, 4: the DETAIL of its DESC_REJECT (R335, R338; log entry 31). -/
def State.descReject (s : State) (p : Fin 64) (d : LaunchDesc) : Option Nat × State :=
  if d.reserved then (some 1, s)
  else if d.misaligned then (some 2, s)
  else if !s.chip.parts[p].ownsAsid d.asid then (some 3, s)
  else match s.descOutside p d with
    | (true, s) => (some 5, s)
    | (false, s) => match s.cmpWalk p d.ptroot.toNat d.param.toNat false with
      | (none, s) => (some 4, s)
      | (some _, s) => match s.cmpWalk p d.ptroot.toNat d.crec.toNat true with
        | (none, s) => (some 4, s)
        | (some _, s) => (none, s)

/-- The bytes of the load module that a descriptor names, once its check is passed. -/
def State.moduleOf (s : State) (p : Fin 64) (d : LaunchDesc) : List Byte × State :=
  let (h, s) := s.headOf p d
  s.cmpRead p d.image.toNat (max (fieldAt h 0x30 8) 64)

/-! ### Records (R309, R337, R338) -/

/-- Where the fossil record of task number n starts (R318; log entry 9). -/
def fossilAt (n : Nat) : Nat := 64 * ((Config.fossilPlace n).toNat % 2 ^ 40)

/-- The fault record of task number n (R309): 64 bytes. -/
def Task.faultBytes (k : Task) (n : Nat) : List Byte := match k.fault with
  | none => List.replicate 64 0
  | some (f, lcid, cid) =>
    let wd := f.cause == cWATCHDOG
    leBytes k.desc.task.toNat 8 ++ leBytes (f.cause.toNat + 2 ^ 10 * f.second.toNat) 4 ++ leBytes lcid.toNat 4
      ++ leBytes cid.toNat 4 ++ leBytes f.trapslot.toNat 4 ++ leBytes f.trappc.toNat 4
      ++ leBytes (if wd then k.fossil.length else 0) 4 ++ leBytes f.cycle.toNat 8 ++ leBytes k.faultTime.toNat 8
      ++ leBytes (if wd then fossilAt n else 0) 8 ++ leBytes k.vlines 4 ++ leBytes 0 4

/-- Final PTS and largest CYCLE of a task (R312, R338). -/
def Task.finalPts (k : Task) : Word := latest (k.retired.map (·.pts))
def Task.cycles (k : Task) : Word := latest (k.retired.map (·.cycle))

/-- The bytes of the completion record but STATUS, as the CMP writes them: those at 0x00, 0x0C and 0x40 (R338). -/
def Task.record (k : Task) (n now : Nat) : List (Nat × List Byte) :=
  [(0x00, leBytes k.desc.task.toNat 8),
   (0x0C, leBytes k.nlc 4 ++ leBytes k.start.toNat 8 ++ leBytes now 8 ++ leBytes k.cycles.toNat 8 ++ leBytes k.finalPts.toNat 8
     ++ List.replicate 16 0),
   (0x40, k.faultBytes n)]

/-- A store of the CMP, for task t where it is one's: spans of a line, one access at its home (R312, R347, R348, R367). It is a
store of that task's pass of a measurement, which saves the page first, and keeps it where SAVE is full (R374). -/
def State.hubStore (s : State) (t : Option Nat) (p : Fin 64) (pa : Nat) (l : List (Nat × List Byte)) (pts : Word) : State :=
  match s.measSave p t pa with
  | none => s.measFull t
  | some s => ((s.hubPays p pa).homeStoreRow p pa l pts).st

/-- Stores of the CMP, one after another, at distances from a row. -/
def State.cmpStores (s : State) (t : Option Nat) (p : Fin 64) (pa : Nat) (l : List (Nat × List Byte)) (pts : Word) : State :=
  l.foldl (fun s e => s.hubStore t p (pa + e.1) [(0, e.2)] pts) s

/-- The completion record at CREC, STATUS last; none where CREC cannot be written (R338). -/
def State.writeRecord (s : State) (n : Nat) (k : Task) : Option State :=
  let root := k.desc.ptroot.toNat
  let va := k.desc.crec.toNat
  match s.cmpWalk k.part root va true with
  | (none, _) => none
  | (some a, s) => match s.cmpWalk k.part root (va + 64) true with
    | (none, _) => none
    | (some b, s) =>
      let r := k.record n s.chip.time
      let pts := k.finalPts
      let s := s.cmpStores (some n) k.part a (r.filter (·.1 < 0x40)) pts
      let s := s.cmpStores (some n) k.part b ((r.filter (0x40 ≤ ·.1)).map fun e => (e.1 - 0x40, e.2)) pts
      some (s.cmpStores (some n) k.part a [(8, leBytes k.status.toNat 4)] pts)

/-- The acknowledgement of a pre-emption at PACK: TASK, then the status (R337); nothing where PACK is not writable. -/
def State.writeAck (s : State) (k : Task) (code : Nat) (pts : Word) : State := match k.queue with
  | none => s
  | some j =>
    match s.cmpWalk k.part k.desc.ptroot.toNat s.chip.queues[j].pack.toNat true with
    | (none, s) => s
    | (some a, s) => s.cmpStores none k.part a [(0, leBytes k.desc.task.toNat 8), (12, leBytes 0 4), (8, leBytes code 4)] pts

/-- Change a hardware queue. -/
def State.onHw (s : State) (j : Fin 256) (f : HwQueue → HwQueue) : State :=
  s.onChip fun h => { h with queues := h.queues.set j (f h.queues[j]) }

end Sys2Proof.Machine
end

