-- ==== Sys2Proof/Machine/Context.lean ====
section
/-! DEFINITION. The context record (R315): the bytes of a saved context, section by section, and the checks of a restore
(R316). -/

namespace Sys2Proof.Machine

/-- An item of a section: n bytes, and the next item on an 8-byte boundary (R315). -/
def item (n v : Nat) : List Byte := leBytes v n ++ List.replicate ((8 - n % 8) % 8) 0

/-- Bytes filled with zeros to n. -/
def padTo (n : Nat) (l : List Byte) : List Byte := l ++ List.replicate (n - l.length) 0

/-- HDR: `whole`: the dictionary is in the record. -/
def Saved.hdr (v : Saved) (task : Word) : List Byte :=
  let c := v.core
  item 2 v.version.toNat ++ item 2 (bit (bitAt c.sq.dref.toNat 63) + 2 * bit c.retired.isSome) ++ item 4 v.lcid
    ++ item 8 task.toNat ++ item 8 v.pts.toNat ++ item 8 c.sq.ctr.cycle.toNat

/-- SQ: the registers of the sequencer. -/
def Sq.section (q : Sq) : List Byte :=
  ((List.finRange 32).flatMap fun r => item 8 (q.rg r).toNat) ++ item 4 q.pc.toNat
    ++ item 1 ((List.finRange 8).foldl (fun (a : Nat) (r : Fin 8) => a + bit (q.rc r) * 2 ^ r.val) 0)
    ++ ((List.finRange 9).flatMap fun l => item 4 (q.rl l).toNat) ++ item 2 q.repc.toNat ++ item 8 q.reps.toNat
    ++ item 4 q.pins.toNat

/-- The held asynchronous cause: V in bit 0, PHASE from bit 8, the cause from bit 16 on (R306; log entry 115). -/
def heldWord : Option (Cause × BitVec 6) → Nat
  | some (c, p) => 1 + 2 ^ 8 * p.toNat + 2 ^ 16 * c.toNat
  | none => 0

/-- CREG: the control registers. -/
def Sq.cregSection (q : Sq) : List Byte :=
  let h := fun (x : Half) => item 4 x.toNat
  let w := fun (x : Word) => item 8 x.toNat
  h q.cause ++ h q.trappc ++ h q.trapslot ++ h q.tvec ++ h q.tcfg ++ h q.dgen ++ w q.dref ++ w q.mseed
    ++ item 2 q.lease.toNat ++ h q.split ++ w q.ctr.bank ++ w q.ctr.hw ++ w q.ctr.fe ++ w q.ctr.gl ++ w q.ctr.cq
    ++ w q.ctr.bg ++ w q.ctr.energy ++ q.ctr.pmc.toList.flatMap w ++ q.pms.toList.flatMap h ++ q.bka.toList.flatMap w
    ++ q.bkc.toList.flatMap h ++ item 8 (heldWord q.heldCause)

/-- ENG: write pointers, armed counts, the rotations, the SYE sequence numbers. -/
def Core.engSection (c : Core) : List Byte :=
  (c.loc.wp.toList.flatMap fun x => item 8 x.toNat) ++ (c.loc.circ.toList.flatMap fun x => item 2 x.armed.toNat)
    ++ (c.fab.rots.toList.flatMap fun r => item 1 (if r.depth = 0 then 0 else c.sq.ctr.cycle.toNat % r.depth)
      ++ item 1 (bit r.wasFrozen) ++ item 4 (r.lateDrop.toNat + 2 ^ 16 * r.refused.toNat))
    ++ (c.syeSeq.toList.flatMap fun x => item 2 x.toNat)

/-- The counts of one counting point: OVF, UNF, NAN, SAT, lanes. -/
def Counts.record (k : Counts) : List Byte :=
  leBytes k.ovf.toNat 4 ++ leBytes k.unf.toNat 4 ++ leBytes k.nan.toNat 4 ++ leBytes k.sat.toNat 4 ++ leBytes k.lanes.toNat 4

/-- CELLS: a cell's 64 bytes; of its pending rewrites the last, which is the one that takes effect, with bit 32 set. -/
def Cell.record (x : Cell) : List Byte :=
  let w := match x.rewrite.getLast? with
    | some v => v.toNat + 2 ^ 32
    | Option.none => 0
  padTo 64 (item 4 x.const.toNat ++ item 4 x.fires ++ item 8 w ++ item 1 (bit x.stopped) ++ x.counts.record
    ++ leBytes x.semit.1.toNat 4 ++ leBytes x.semit.2.toNat 4)

/-- An entry of a queue: the 16 bytes of its command, or the mark of a FENCE with its scope (log entry 115). -/
def QEnt.record : QEnt → List Byte
  | .cmd i _ _ _ _ => leBytes (((encodeCommand i).getD 0).toNat) 16
  | .fence _ sc _ => leBytes (2 ^ 127 + sc.code) 16

/-- QUEUES: one queue: count, begun, progress and stopped cause; the latched descriptors; the entries, the begun one first. -/
def Queue.record (q : Queue) : List Byte :=
  let head := item 4 q.size ++ item 1 (bit q.run.isSome) ++ item 8 ((q.run.map (·.n)).getD 0)
    ++ item 2 ((q.stop.map (·.toNat)).getD 0)
  let descs := match q.run with
    | some r => leBytes r.src.word 144 ++ leBytes r.dst.word 144
    | none => []
  let cmds := match q.run with
    | some r => leBytes (((encodeCommand r.cmd).getD 0).toNat) 16
    | none => []
  padTo 0x400 (padTo 0x200 (padTo 0x40 head ++ descs) ++ cmds ++ q.ents.flatMap (·.record))

/-- ROTREC: the save record of a rotation's capture (R184, R314). -/
def Rot.record (r : Rot) : List Byte :=
  if r.cfg.isNone then padTo 0x1440 []
  else
    let at_ := fun (p : Nat) => r.taken.find? (·.phase == p)
    let pts := latest (r.taken.filterMap fun x => x.tok.map (·.pts))
    let head := (⟨.keep, 0, 0, pts, r.taken, .none, true⟩ : Save).header r
    let ents := (List.range r.depth).flatMap fun p => match at_ p with
      | some x => leBytes x.ent.toNat 8 ++ leBytes x.tag.toNat 8
      | .none => List.replicate 16 0
    let toks := (List.range r.depth).flatMap fun p => match (at_ p).bind (·.tok) with
      | some k => leBytes k.data.toNat 64
      | .none => List.replicate 64 0
    padTo 0x1440 (padTo 0x440 (head ++ ents) ++ toks)

/-- DICT: an entry as a record of R248. -/
def DictEnt.record (e : DictEnt) : List Byte := leBytes e.template.toNat 16 ++ leBytes e.map.toNat 8 ++ leBytes 0 8

/-- MXE: B0, B1, ACC, then BV, BT, BB, ACT and OV. -/
def Mxe.section (m : Mxe) : List Byte :=
  ((List.range 32768).map fun i => look 0 i m.b0) ++ ((List.range 32768).map fun i => look 0 i m.b1)
    ++ ((List.range 32768).flatMap fun i => leBytes (look 0 i m.acc).toNat 4)
    ++ item 1 (bit m.bv.1 + 2 * bit m.bv.2) ++ item 1 (mxCode m.bt.1 + 2 ^ 4 * mxCode m.bt.2)
    ++ item 2 (m.bb.1.toNat + 2 ^ 8 * m.bb.2.toNat) ++ item 1 (bit m.act) ++ leBytes m.ov.toNat 16

/-- The 128 bits of a token's sideband (R98). -/
def Token.side (k : Token) : Nat :=
  k.tag.toNat + 2 ^ 24 * (if k.kind = .eoi then 1 else 0) + 2 ^ 26 * bit k.psn + 2 ^ 27 * k.slot.toNat + 2 ^ 33 * k.gen.toNat
    + 2 ^ 64 * k.pts.toNat

/-- The tokens of a saved core, each with its place and position: arcs and links by number, then the ports' buffers, then the
circuits' (log entry 115). -/
def Core.tokens (c : Core) : List (Nat × Nat × Token) :=
  let f := c.fab
  let of_ := fun (place : Nat) (l : List Token) => l.zipIdx.map fun e => (place, e.2, e.1)
  ((List.finRange 256).flatMap fun a => of_ a.val (f.arcs[a].fifo.map (·.2)))
    ++ ((List.finRange 16).flatMap fun p => of_ (256 + p.val) f.ports[p].buf)
    ++ (List.finRange 16).flatMap fun k => of_ (272 + k.val) (c.loc.circ[k].rx.map (·.2))

/-- TOKENS: the count, then 96 bytes for each. -/
def Core.tokenSection (c : Core) : List Byte :=
  leBytes c.tokens.length 8 ++ c.tokens.flatMap fun e =>
    leBytes e.1 8 ++ leBytes e.2.1 8 ++ leBytes e.2.2.side 16 ++ leBytes e.2.2.data.toNat 64

/-- FEBITS: the full/empty bits, word 0 at bit 0. -/
def Core.feSection (c : Core) : List Byte :=
  (List.range (c.sq.spadSize / 32)).map fun i => .ofNat 8 ((List.range 8).map fun j => bit (look false (8 * i + j) c.loc.fe) * 2 ^ j).sum

/-- The sections of a context record, each with its offset (R315). -/
def Saved.sections (v : Saved) (task : Word) : List (Nat × List Byte) :=
  let c := v.core
  [(0, v.hdr task), (0x40, c.sq.section), (0x240, c.sq.cregSection),
   (0x440, c.loc.handles.toList.flatMap fun h => leBytes h.word.toNat 16),
   (0x640, c.loc.sd.toList.flatMap fun d => leBytes d.word 144),
   (0xF40, (c.loc.regions.toList.flatMap fun r => leBytes r.word.toNat 16) ++ item 2 c.sq.minc.toNat ++ item 2 c.sq.mmerge.toNat),
   (0x1040, c.engSection),
   (0x1240, c.fab.cells.toList.flatMap (·.record)),
   (0x1A40, c.counterBlock 0),
   (0x1E80, c.queues.toList.flatMap (·.record)),
   (0x8000, c.fab.rots.toList.flatMap (·.record)),
   (0x12200, if bitAt c.sq.dref.toNat 63 then (List.range 1024).flatMap fun i => (look .invalid i c.loc.dict).record else []),
   (0x1A200, c.mxe.section),
   (0x4A240, c.tokenSection),
   (0x200000, c.feSection),
   (0x280000, rdBytes c.loc.mem 0 c.sq.spadSize)]

/-- The byte at an offset of the record; 0 between the sections. -/
def Saved.byteAt (v : Saved) (task : Word) (a : Nat) : Byte :=
  ((v.sections task).findSome? fun e => if inSpan a e.1 e.2.length then e.2[a - e.1]? else none).getD 0

/-- The checks of a restore: VERSION = 1, a size within the limits, and valid save records (R316). -/
def Saved.ok (v : Saved) : Bool :=
  v.version == 1 && decide (8 + 96 * v.core.tokens.length ≤ 0xD8008) &&
    v.core.fab.rots.toList.all fun r => r.cfg.isNone ||
      (headerOk (leNat (r.record.take 4)) && r.taken.all fun x => decide (x.phase < r.depth))

end Sys2Proof.Machine
end

