-- ==== Sys2Proof/Machine/Tasks.lean ====
section
/-! DEFINITION. Contexts on cores: the cores of a partition (R335), start, capture (R313, R314), saved context (R315),
restore (R316), and the rounds of a gang (R340, R341). -/

namespace Sys2Proof.Machine

/-! ### Cores of a partition (R335) -/

/-- The usable cores of a partition, ascending (R335, R379). -/
def State.usable (s : State) (p : Fin 64) : List (BitVec 8) :=
  let h := s.chip
  ((List.range 256).filter fun c =>
    h.parts[p].pclu.getLsbD (c / 4) && !h.fuses.harvest.getLsbD (c / 4) && !h.down.getLsbD (c / 4)).map (.ofNat 8 ·)

/-- Its free cores, ascending. -/
def State.freeCores (s : State) (p : Fin 64) : List (BitVec 8) :=
  (s.usable p).filter fun c => match s.coreAt c with
    | some x => x.task.isNone
    | none => false

/-- Context c of task t takes the place of physical core `old` (R340). The place keeps its TLBs. -/
def Core.onto (c old : Core) (t : Nat) : Core :=
  { c with
    cid := old.cid
    task := some t
    tick := old.tick
    stage := old.stage
    tlb := old.tlb
    cpeTlb := old.cpeTlb }

def State.placeAt (s : State) (cid : BitVec 8) (c : Core) (t : Nat) : State := s.onCoreAt cid fun old => c.onto old t

/-- The SYE's kept replies of a physical core are discarded (R314). -/
def State.dropReplies (s : State) (cid : BitVec 8) : State :=
  s.onChip fun h => { h with dies := h.dies.mapAll fun d =>
    { d with sye := { d.sye with kept := d.sye.kept.filter fun k => k.core != cid || k.dev != 0 } } }

/-- The L1s of a gang's cores are emptied; true once every owned line is back at its home (R314, R368). -/
def State.emptyGang (s : State) (p : Fin 64) (l : List (BitVec 8)) : Bool × State :=
  let s := l.foldl (fun s c => s.atCore c (·.emptyL1 p)) s
  (l.all fun c => (s.coreAt c).all (·.wb.isEmpty), s)

/-- A physical core of a gang whose L1 is empty is free: it holds no context. -/
def State.vacate (s : State) (cid : BitVec 8) : State :=
  (s.dropReplies cid).atCore cid fun s => s.onCore fun c =>
    { Core.idleCore c.cid with
      tick := c.tick
      stage := c.stage
      tlb := c.tlb
      cpeTlb := c.cpeTlb }

/-! ### The saved context (R315) -/

/-- A configured rotation's loop is empty: its tokens stand in what the capture took (R314). -/
def Fabric.clearLoops (f : Fabric) : Fabric :=
  (List.finRange 8).foldl (fun (f : Fabric) (q : Fin 8) => if f.rots[q].cfg.isSome then f.clearLoop q else f) f

/-- The fabric of a saved context: marker flags and marks of the capture are gone, every token stands where its consumer sees
it, and every credit is back (R316). -/
def Fabric.saved (f : Fabric) : Fabric :=
  let f := f.clearLoops
  { f with
    cells := f.cells.mapAll fun c => { c with
      quiet := false
      marked := false
      next := 0
      free := 0 }
    arcs := f.arcs.mapAll fun a => { a with
      flag := false
      fifo := a.fifo.map fun e => (0, e.2)
      back := [] }
    ports := f.ports.mapAll fun p => { p with quiet := false }
    fire := none
    spin := 0
    stopping := false }

/-- A begun command as its boundary leaves it (R313): what a FEED or the copy engine has read ahead is read again, and a prefetch
restarts its tile, with the tokens it took and forwarded (log entry 116). -/
def Run.stopped (r : Run) : Run :=
  let r := { r with begin_ := 0, until_ := 0 }
  let again := fun (r : Run) (n : Nat) => { r with
    rows := []
    wait := []
    bad := none
    asked := n }
  match r.cmd with
  | .feedh .. | .feeda .. => again r r.n
  | .copy .. | .hcopy .. | .gather .. | .scatter .. | .selacc .. => { r with
      wait := []
      srow := none
      sdata := []
      smask := []
      irows := [] }
  | .ldb .. => { r with
      wait := []
      asked := r.pre }
  | .mmul _ _ _ _ _ _ _ _ (some _) _ =>
    if 512 ≤ r.pre then r
    else { r with
      wait := []
      asked := 0
      idx := max r.idx r.pre
      pre := 0 }
  | .gmul .. => { again r r.n with stage := 0 }
  | _ => r

/-- The context of a captured core, as its record holds it, with HDR.PTS (R209, R315). Nothing of it counts cycles of the die
it leaves. -/
def Core.context (c : Core) : Saved where
  version := 1
  lcid := c.sq.lcid.toNat
  pts := c.finalPts
  core := { c with
    fab := c.fab.saved
    loc := { c.loc with
      reqs := []
      served := []
      circ := c.loc.circ.mapAll fun x => { x with rx := x.rx.map fun e => (0, e.2) } }
    queues := c.queues.mapAll fun q => { q with run := q.run.map (·.stopped) }
    rotAt := 0
    l1 := []
    wb := []
    tlb := []
    cpeTlb := []
    active := false
    refused := false
    removed := false
    begun := []
    preempting := false
    captured := false
    idle := 0 }

/-! ### The restore (R316) -/

/-- The tokens of a rotation's record in the order in which their phases come to the tap, with the cycles in which they
do, from cycle t0 with CYCLE = `cyc` on (R168, R316). -/
def Rot.comeBack (r : Rot) (cyc t0 : Nat) : List (Nat × Token) :=
  (List.range r.depth).filterMap fun j =>
    ((r.taken.find? fun x => x.phase == (cyc + j) % r.depth).bind (·.tok)).map fun k => (t0 + j, k)

/-- The slots and tokens of rotation q return (R316). -/
def Fabric.comeBack (f : Fabric) (cyc t0 : Nat) (q : Fin 8) : Fabric :=
  let r := f.rots[q]
  match r.cfg with
  | none => f
  | some _ =>
    let f := (f.tapInputs q).foldl (fun (f : Fabric) (a : Fin 256) =>
      { f with arcs := f.arcs.set a { f.arcs[a] with fifo := r.comeBack cyc t0 } }) f
    { f with rots := f.rots.set q { r with
        taken := []
        frozen := r.wasFrozen
        slots := r.slots.map fun x => { x with hold := x.hold && r.wasFrozen } } }

/-- Every agent and bank starts at HDR.PTS (R209, R316), and a begun command no earlier than what reached it while it was
saved (R293). -/
def Core.atPts (c : Core) (t : Word) : Core :=
  { c with
    sq := { c.sq with ctr := { c.sq.ctr with pts := t } }
    loc := { c.loc with
      bt := Vector.replicate 32 t
      hfill := Vector.replicate 32 []
      hfree := Vector.replicate 32 []
      wppts := Vector.replicate 8 t }
    fab := { c.fab with
      cells := c.fab.cells.mapAll fun x => { x with pts := t }
      ports := c.fab.ports.mapAll fun x => { x with pts := t } }
    queues := c.queues.mapAll fun q => { q with run := q.run.map fun r => { r with pts := maxW r.pts t } }
    donePts := t
    floor := t }

/-- The dictionary returns: by reference while DREF.M is 0, a malformed record as an invalid entry (R253). -/
def Core.dictBack (c : Core) (q : Part) : Core :=
  let d := c.sq.dref.toNat
  if bitAt d 63 then c
  else
    let recs := (List.range (fld d 24 11)).map fun i =>
      let r := imageRecord c.loc.mem (fld d 0 24) i
      if c.imageBad q r then (0, 0, 0) else r
    { c with loc := { c.loc with dict := installAll [] 0 recs } }

/-- Handles with OWN = 1 take the new core (R316). -/
def Core.ownHandles (c : Core) (cid : BitVec 8) : Core :=
  { c with loc := { c.loc with handles := c.loc.handles.mapAll fun d => if d.own then { d with ocore := cid } else d } }

/-- The context as it resumes on core `cid`, in whose die the first cycle is t0 (R316). -/
def Saved.resume (v : Saved) (q : Part) (cid : BitVec 8) (t0 : Nat) : Core :=
  let c := ((v.core.atPts v.pts).dictBack q).ownHandles cid
  let cyc := c.sq.ctr.cycle.toNat
  { c with fab := (List.finRange 8).foldl (fun (f : Fabric) (q : Fin 8) => f.comeBack cyc t0 q) c.fab }

/-- A record that fails its checks faults the task with RESTORE_BAD; nothing of it is loaded (R316). -/
def Saved.refuse (v : Saved) : Core :=
  let c := Core.idleCore 0
  ({ c with sq := { c.sq with lcid := .ofNat 32 v.lcid } }).faultTask cRESTORE_BAD 0 ⟨v.core.sq.pc, false, false, 0, 0⟩

/-- The cycle of a die in which a core whose next turn stands at edge `tick` of the module's clock runs next (R4). -/
def State.firstCycle (s : State) (cid : BitVec 8) (tick : Nat) : Nat :=
  let d := s.chip.dies[dieOf cid]
  tick - d.lag

/-- Saved context v of task t is restored into physical core `cid`. -/
def State.restoreAt (s : State) (t : Nat) (v : Saved) (cid : BitVec 8) : State :=
  let q := s.chip.parts[((s.chip.tasks[t]?).map (·.part)).getD 0]
  if !v.ok then s.placeAt cid v.refuse t
  else
    let s := s.onCoreAt cid fun old => (v.resume q cid (s.firstCycle cid old.tick)).onto old t
    s.onTask t fun k => { k with
      saved := k.saved.filter fun (w : Saved) => w.lcid != v.lcid
      beenIn := v.lcid :: k.beenIn }

/-! ### Work outstanding (R317) -/

/-- OCC > 0, a queue entry, or the sequencer in a named wait. -/
def Core.outstanding (c : Core) (now : Nat) : Bool := c.occ now != 0 || !c.queuesEmpty || c.sq.wait.isSome

/-! ### Quiescence (R314) -/

/-- Every token of a channel is visible to its consumer, and its pre-emption marker stands behind them. -/
def Arc.over (a : Arc) (now : Nat) : Bool := a.flag && a.fifo.all fun e => decide (e.1 ≤ now)

/-- Cell n can fire under R102 on the tokens ahead of the markers, or raises CELL_EOI. -/
def Core.canFire (c : Core) (n : Fin 32) (now : Nat) : Bool :=
  let f := c.fab
  let l := f.look n now
  let outer := l.filter fun x => !f.onLoop x
  if f.cells[n].conf.isNone || f.cells[n].stopped then false
  else f.eoiBad n now outer ||
    (f.cells[n].member.isNone && !l.isEmpty && f.fed n now l && (f.outs n now).all fun e => f.room e.1 now e.2)

/-- Cell n has a marker firing to make. -/
def Core.canMark (c : Core) (n : Fin 32) (now : Nat) : Bool :=
  let f := c.fab
  let x := f.cells[n]
  let l := (f.look n now).filter fun x => !f.onLoop x
  let outs := fun o => (f.targets n.val o).filter fun a => (f.loopOf a).isNone
  x.conf.isSome && !x.stopped && !l.isEmpty && l.all InState.closed &&
    ([0, 1].all fun o => (outs o).all fun a => f.room a now ((x.markerCounts o (.marker 0)).length + 1)) &&
    c.statRoom n.val now

/-- Cell n is quiescent. -/
def Core.cellQuiet (c : Core) (n : Fin 32) (now : Nat) : Bool :=
  let f := c.fab
  ((f.inputs n).all fun e => (f.loopOf e.2).isSome || f.arcs[e.2].over now) &&
    (f.cells[n].pipe.all fun e => e.2.all fun u => (f.loopOf u.arc).isSome) &&
    (match f.cells[n].member with
      | some q => !f.rots[q].taken.isEmpty
      | none => true) && !c.canFire n now && !c.canMark n now

/-- The packet at the head of a command port waits for room in its queue (R164). -/
def State.packetWaits (s : State) (t : Token) : Bool :=
  let w := fun (i : Nat) => lane32 t.data i
  match decCommand (w 0) (w 1) (w 2) (w 3) with
  | .error _ => false
  | .ok i => i.wf && (s.cmdCheck i).isNone && match queueOf i with
    | some k => !s.core.queues[k].hasRoom
    | none => false

/-- A waiter whose words are not full: its command stands before it (R196, R313). -/
def Local.stalled (l : Local) (r : Req) : Bool := r.acc.waiter && !l.ready r.acc

/-- No access of a begun command is under way, but for waiters whose words are not full. -/
def Core.accessesOver (c : Core) (r : Run) : Bool :=
  r.wait.all fun i => !(c.loc.greqs.any (·.id == i)) && c.loc.reqs.all fun q => q.id != i || c.loc.stalled q

/-- Nothing of the core moves any more: in this cycle nothing did, and nothing is on its way (log entry 116). -/
def Core.still (c : Core) (now : Nat) : Bool :=
  !c.active && c.loc.greqs.isEmpty && c.loc.reqs.all c.loc.stalled && (c.fab.cells.toList.all fun x => x.pipe.isEmpty) &&
    c.fab.arcs.toList.all fun a => a.fifo.all fun e => decide (e.1 ≤ now)

/-- The begun command of an engine stands at its boundary (R313): a FEED or DRAIN at a token with its writes performed, FEEDH and
DRAINH between slots, a copy between elements. One that can finish neither slot nor element, because nothing of the core
moves any more, stands where it is. -/
def Core.atBoundary (c : Core) (k : Fin 22) (r : Run) (now : Nat) : Bool :=
  c.accessesOver r && (!(4 ≤ k.val && k.val < 8) || r.rows.isEmpty) &&
    (c.still now || (!c.midSlot r && (!(8 ≤ k.val && k.val < 16) || (r.n % r.perElem == 0 && r.pend.isEmpty))))

/-- What port p still has to do by its binding, its input channel aside (R314). -/
def State.portBusy (s : State) (p : Fin 16) : Bool :=
  let c := s.core
  let f := c.fab
  match f.ports[p].bind with
  | .free => false
  | .command => match s.portHead p with
    | some t => !s.packetWaits t
    | none => false
  | .held k => match c.queues[k].run with
    | some r => !c.atBoundary k r s.chip.now
    | none => false
  | .exit q => f.rots[q].taken.isEmpty ||
      (!f.ports[p].buf.isEmpty && !(f.fromPort p).isEmpty && (f.fromPort p).all fun a => f.room a s.chip.now 1)
  | .circuit k =>
    let x := c.loc.circ[k]
    match x.cfg with
    | none => false
    | some g =>
      if g.pat then !x.stopped && (match x.pass with
        | some v => !v.wait.isEmpty
        | none => false)
      else g.out && !x.stopped && (s.portHead p).isSome && match s.peerOf k with
        | some e => s.credit e
        | none => false

/-- The pre-emption marker flag on each target of a node outside the loops (R313, R314). -/
def Fabric.flagTargets (f : Fabric) (n : Nat) : Fabric :=
  ((f.targets n 0 ++ f.targets n 1 ++ f.statArcs n).filter fun a => (f.loopOf a).isNone).foldl
    (fun (f : Fabric) (a : Fin 256) => { f with arcs := f.arcs.set a { f.arcs[a] with flag := true } }) f

/-- NODE_QUIESCE (R313, R314): once a pre-emption has stopped the sources, node n (a cell, or 32 and an edge port) passes
the marker to its targets when it is quiescent. -/
def execNodeQuiesce (n : Fin 48) (s : State) : Out :=
  let now := s.chip.now
  let f := s.core.fab
  if !f.stopping then .next s
  else if h : n.val < 32 then
    let c : Fin 32 := ⟨n.val, h⟩
    if f.cells[c].conf.isNone || f.cells[c].quiet || !s.core.cellQuiet c now then .next s
    else .next (s.onFab fun f =>
      let f := f.flagTargets n.val
      { f with cells := f.cells.set c { f.cells[c] with quiet := true } })
  else
    let p : Fin 16 := Fin.ofNat 16 (n.val - 32)
    let fed := match f.intoPort p with
      | some a => f.arcs[a].over now
      | none => true
    if f.ports[p].quiet || !fed || s.portBusy p then .next s
    else .next (s.onFab fun f =>
      let f := f.flagTargets n.val
      { f with ports := f.ports.set p { f.ports[p] with quiet := true } })

/-! ### Capture (R314) -/

/-- The engines stand at their boundaries: no access is outstanding but for waiters, and SYE, STAT, ROT, LAUNCH and XLT have
none begun but a BARR that has arrived (R313). -/
def Core.enginesStopped (c : Core) (now : Nat) : Bool :=
  (c.loc.reqs.all c.loc.stalled) && c.loc.greqs.isEmpty && c.blocks.isEmpty &&
    (List.finRange 22).all fun k => match c.queues[k].run with
      | none => true
      | some r => if k.val < 17 then c.atBoundary k r now else k.val == 17 && r.stage == 5

/-- Every node is quiescent and every rotation has been captured. -/
def Core.allQuiet (c : Core) : Bool :=
  (c.fab.cells.toList.all fun x => x.conf.isNone || x.quiet) && (c.fab.ports.toList.all (·.quiet)) && c.rotsCaptured

/-- CORE_CAPTURE (R314): the core is captured; its L1 is emptied as at a FENCE of SYSTEM scope, its owned lines written back as
the budgets permit, for no context (R368, R375). A cause raised in this cycle is looked at first: where it faults the task, the
fault supersedes the capture (R308). -/
def execCoreCapture (s : State) : Out :=
  let c := s.core
  if !c.fab.stopping || c.captured || c.fault.isSome || !c.allQuiet || !c.enginesStopped s.chip.now
      || c.sq.raised.any fun r => decide (s.chip.now ≤ r.at_) then .next s
  else .next ((s.emptyL1 (s.partOf c)).onCore fun c => { c with captured := c.wb.isEmpty })

/-! ### Rounds (R340, R341) -/

/-- The next logical core of the physical core of logical core `me`, of m, in ascending round order, wrapping, that has
not retired and is not resident (R341). -/
def Task.nextRound (k : Task) (me : Nat) : Option Saved :=
  let m := k.cores.length
  let l := k.saved.filter fun (v : Saved) => v.lcid % m == me % m
  let least := fun (l : List Saved) => l.foldl (fun (a : Option Saved) v => match a with
    | none => some v
    | some x => if v.lcid < x.lcid then some v else some x) none
  match least (l.filter fun v => decide (me < v.lcid)) with
  | some v => some v
  | none => least l

/-- The resident context leaves its core, captured or retired, once the owned lines of its L1 are back at their homes, and the
next one comes (R341, R368). -/
def State.yieldTo (s : State) (t : Nat) (p : Fin 64) (v : Saved) : State :=
  let c := s.core
  let s := s.emptyL1 p
  if !s.core.wb.isEmpty then s
  else
    let s := s.dropReplies c.cid
    let s := if c.retired.isSome then s else s.onTask t fun k => { k with saved := k.saved ++ [s.core.context] }
    s.restoreAt t v c.cid

/-- ROUND_YIELD (R341): the resident logical core of the core in turn yields once it has retired, or once it has been
captured after 4,096 idle cycles; idle cycles are counted here. -/
def execRoundYield (s : State) : Out :=
  let c := s.core
  match c.task, s.taskOf c with
  | some t, some k =>
    if k.state ≠ .running || c.fault.isSome || k.nlc ≤ k.cores.length then .next s
    else
      let next := k.nextRound c.sq.lcid.toNat
      match next with
      | none => .next (if c.captured || c.fab.stopping then s else s.onCore fun c => { c with idle := 0 })
      | some v =>
        if c.retired.isSome || c.captured then .next (s.yieldTo t k.part v)
        else if c.fab.stopping then .next s
        else
          let n := if c.active || !c.outstanding s.chip.now then 0
            else if c.refused || c.sq.debug == .halted then c.idle else c.idle + 1
          .next (s.onCore fun c => { c with
            idle := n
            preempting := c.preempting || decide (4096 ≤ n) })
  | _, _ => .next s

end Sys2Proof.Machine
end

