-- ==== Sys2Proof/Machine/Hub.lean ====
section
/-! DEFINITION. The hub's tasks: faults and teardown (R308, R309, R319), the watchdog and the fossil record (R317, R318),
completion (R312, R338), pre-emption (R313, R314, R337), KILL (R336). -/

namespace Sys2Proof.Machine

/-- An access of the host or of a peer that a budget refuses waits, and is presented again in the next cycle (R368). -/
def State.holdBack (s : State) (i : Instr) : State := s.onChip fun h => { h with waiting := h.waiting ++ [i] }

/-! ### Faults of a task (R308, R309) -/

/-- A cause that is not tied to a core faults task t; of several the first stands (R308, R309). -/
def State.hubFault (s : State) (t : Nat) (c : Cause) : State :=
  s.onTask t fun k => if k.fault.isSome then k else { k with fault := some (⟨c, 0, 0, 0, 0⟩, 0xFFFFFFFF, 0) }

/-- The resident cores of a task. -/
def State.gangOf (s : State) (t : Nat) : List Core := (s.core :: s.others).filter (·.task == some t)

/-- The fault that the CMP receives in this cycle: one that stands already, or that of the lowest LCID (R308). -/
def State.faultOf (s : State) (t : Nat) (k : Task) : Option (CoreFault × Half × Half) := match k.fault with
  | some f => some f
  | none =>
    (((s.gangOf t).filter (·.fault.isSome)).foldl (fun (a : Option Core) c => match a with
      | none => some c
      | some x => if c.sq.lcid.toNat < x.sq.lcid.toNat then some c else some x) none).bind fun c =>
        c.fault.map fun f => (f, c.sq.lcid, .ofNat 32 c.cid.toNat)

/-- A core of a faulted gang: stopped, its queues and accesses gone, its fabric drained (R308, R319). -/
def Core.tear (c : Core) : Core :=
  { c with
    sq := { c.drain.sq with
      wait := none
      raised := []
      heldCause := none
      cause := c.drain.sq.ownCause
      debug := .running }
    loc := { c.loc with
      reqs := []
      served := []
      greqs := []
      circ := c.loc.circ.mapAll fun x => { x with pass := none, rx := [], armed := 0 } }
    fab := { Fabric.empty with stopping := true }
    queues := Vector.replicate 22 .empty
    blocks := [] }

/-- A walk without the requesters of a gang (R220, R308). -/
def Walk.without (w : Walk) (gang : List (BitVec 8)) : Walk := { w with who := w.who.filter fun e => !gang.contains e.1 }

/-- What the cores of a gang had under way outside them is aborted: requests at the SYEs, walks that no other core waits for,
replays; invalidations go on without their issuer (R222, R308). -/
def Chip.abort (h : Chip) (gang : List (BitVec 8)) : Chip :=
  { h with
    dies := h.dies.mapAll fun d => { d with sye := { d.sye with reqs := d.sye.reqs.filter fun r => !(r.ours && gang.contains r.core) } }
    walks := (h.walks.map (·.without gang)).filter fun w => !w.who.isEmpty
    invals := h.invals.map fun i => match i.core with
      | some c => if gang.contains c then { i with core := none } else i
      | none => i
    replays := h.replays.filter fun e => match e.2.from_ with
      | some c => !gang.contains c
      | none => true }

/-- The parts of a task that have not retired end with it. -/
def State.endParts (s : State) (t : Nat) (k : Task) : List Retired :=
  (((s.gangOf t).filter (·.retired.isNone)).filter fun c => !(k.retired.any fun r => r.lcid == c.sq.lcid.toNat)).map
      (·.over none) ++ k.saved.map fun v => { v.core.over none with pts := v.pts }

/-- The task's version, windows and barriers are gone (R289, R308, R312). -/
def Task.discard (k : Task) : Task :=
  { k with
    vlines := (verLines k.version).length
    version := []
    windows := []
    barriers := [] }

/-- A pre-empted task leaves the head of its queue. -/
def State.unreturn (s : State) (t : Nat) (k : Task) : State := match k.queue with
  | some j => s.onHw j fun q => { q with returned := q.returned.filter (· != t) }
  | none => s

/-- The acknowledgement that task t owes goes out with TORN_DOWN, as the budgets permit (R313, R368). -/
def State.tornAck (s : State) (t : Nat) : State := match s.chip.tasks[t]? with
  | none => s
  | some k =>
    if !k.packOwed || !s.chip.parts[k.part].hubMay then s
    else (s.writeAck k 9 k.finalPts).onTask t fun k => { k with packOwed := false }

/-- TEARDOWN (R308, R309, R313): a faulted task's gang is stopped and drained; the fault record is made, and goes to the
error ring; a pending pre-emption is acknowledged with TORN_DOWN. A task that was pre-empted leaves its queue. -/
def execTeardown (t : Nat) (s : State) : Out :=
  match s.chip.tasks[t]? with
  | none => .next s
  | some k =>
    if k.state ≠ .running && k.state ≠ .stopping && k.state ≠ .preempted then .next s
    else match s.faultOf t k with
      | none => .next s
      | some f =>
        let ended := s.endParts t k
        let gang := (s.gangOf t).map (·.cid)
        let k' := { k.discard with
          state := .torn
          fault := some f
          faultTime := .ofNat 64 s.chip.time
          retired := k.retired ++ ended
          saved := [] }
        let s := (((s.unreturn t k).onTask t fun _ => k').onCores fun c => if c.task == some t then c.tear else c).onChip
          (·.abort gang)
        let s := s.tell k.part 1 f.1.cause 0 (.ofNat 512 (leNat (k'.faultBytes t)))
        .next (s.tornAck t)

/-- REGION_RELEASE (R319): once every core of a torn gang reports OCC = 0, no circuit holds a token, and the owned lines of the
L1s are back at their homes, its cores are free, and its record is to be written. -/
def execRegionRelease (t : Nat) (s : State) : Out :=
  match s.chip.tasks[t]? with
  | none => .next s
  | some k =>
    let l := s.gangOf t
    if k.state ≠ .torn || !(l.all fun c => c.occ (s.clockOf c.cid) == 0 && !c.circuitTokens) then .next s
    else
      let (home, s) := (s.tornAck t).emptyGang k.part (l.map (·.cid))
      if !home || (s.chip.tasks[t]?).any (·.packOwed) then .next s
      else
        let s := (l.map (·.cid)).foldl (fun s c => s.vacate c) s
        .next (s.onTask t fun k => { k with
          state := .completing
          status := 3 })

/-! ### The watchdog (R317, R318) -/

/-- An entry of a fossil record (R318). -/
def fossil (kind node which lcid detail : Nat) : Quad :=
  .ofNat 128 (kind + 2 ^ 8 * (node % 256) + 2 ^ 16 * (which % 256) + 2 ^ 32 * lcid + 2 ^ 64 * (detail % 2 ^ 64))

/-- The first channel of a list that has no free slot. -/
def Fabric.firstFull (f : Fabric) (now : Nat) (l : List (Fin 256 × Nat)) : Option Nat :=
  (l.find? fun e => !f.room e.1 now e.2).map (·.1.val)

/-- A blocked cell: an input that lacks tokens, or an output that lacks space. -/
def Core.fossilCell (c : Core) (n : Fin 32) (now : Nat) : Option Quad :=
  let f := c.fab
  let l := f.look n now
  let id := c.sq.lcid.toNat
  let some_ := l.any fun x => decide (1 ≤ x.n) || x.mark
  if f.cells[n].conf.isNone || f.cells[n].stopped || !some_ then none
  else if l.all InState.closed then
    (f.firstFull now (((f.targets n.val 0 ++ f.targets n.val 1 ++ f.statArcs n.val)).map fun a => (a, 1))).map fun a =>
      fossil 1 n.val a id 0
  else match (f.takes n now l).find? fun x => decide (x.n < f.cells[n].need x.j) with
    | some x => some (fossil 0 n.val x.j id 0)
    | none =>
      if !f.fed n now l then some (fossil 0 n.val 2 id 0)
      else (f.firstFull now (f.outs n now)).map fun a => fossil 1 n.val a id 0

/-- The queue that the command of a packet goes to (R164). -/
def packetQueue (t : Token) : Nat :=
  let w := fun (i : Nat) => lane32 t.data i
  match decCommand (w 0) (w 1) (w 2) (w 3) with
  | .ok i => ((queueOf i).map (·.val)).getD 0
  | .error _ => 0

/-- A blocked edge port: an out circuit without credit, arcs that lack space, or a packet whose queue is full. -/
def Core.fossilPort (c : Core) (p : Fin 16) (now : Nat) : Option Quad :=
  let f := c.fab
  let id := c.sq.lcid.toNat
  let full := (f.firstFull now ((f.fromPort p).map fun a => (a, 1))).map fun a => fossil 1 (32 + p.val) a id 0
  let head := (f.intoPort p).bind fun a => (f.seen a now).head?
  match f.ports[p].bind with
  | .circuit k => match c.loc.circ[k].cfg with
    | some g =>
      if g.out then (if head.isSome then some (fossil 7 (32 + p.val) k.val id 0) else none)
      else if c.loc.circ[k].rx.isEmpty then none else full
    | none => none
  | .exit _ => if f.ports[p].buf.isEmpty then none else full
  | .command => head.map fun t => fossil 5 (32 + p.val) (packetQueue t) id 0
  | _ => none

/-- The instructions of the issue at PC, as far as they are scalar words. -/
def Core.waiting (c : Core) : List Instr :=
  let at_ := fun (a : Nat) => (c.textAt a).toList.filterMap fun w => match decodeScalar w with
    | .ok i => some i
    | .error _ => none
  at_ c.sq.pc.toNat ++ match c.textAt c.sq.pc.toNat with
    | some w => if pairBit w then at_ (c.sq.pc.toNat + 4) else []
    | none => []

/-- Handle, needed and present counts of a wait (R318). -/
def handleDetail (h : Fin 32) (needed present : Nat) : Nat := h.val + 2 ^ 16 * (needed % 2 ^ 16) + 2 ^ 32 * (present % 2 ^ 16)

/-- The handle that a handle wait names. -/
def Core.waitHandle (c : Core) : Option (Fin 32) := c.waiting.findSome? fun i => match i with
  | .hwaitc _ h | .hwaitp _ h => some h
  | _ => none

/-- The channel that a WPW names. -/
def Core.waitChannel (c : Core) : Option (Fin 8) := c.waiting.findSome? fun i => match i with
  | .wpw _ p => some p
  | _ => none

/-- The sequencer in a named wait; of a WPW, the channel, and the SEQ that is awaited and that stands (log entry 9). -/
def Core.fossilSq (c : Core) : Option Quad :=
  let id := c.sq.lcid.toNat
  c.sq.wait.map fun w => match w.kind with
    | .ldf | .ldfp => fossil 2 48 0 id (w.addr.toNat + 2 ^ 63)
    | .ste => fossil 2 48 0 id w.addr.toNat
    | .hwaitc => fossil 3 48 0 id (match c.waitHandle with
      | some h => handleDetail h w.val.toNat c.loc.handles[h].filled
      | none => 0)
    | .hwaitp => fossil 3 48 0 id (match c.waitHandle with
      | some h => handleDetail h w.val.toNat c.loc.handles[h].free
      | none => 0)
    | .wpw => fossil 3 48 0 id (match c.waitChannel with
      | some p => p.val + 2 ^ 16 * fld w.val.toNat 48 16 + 2 ^ 32 * fld c.loc.wp[p].toNat 48 16
      | none => 0)
    | .global => fossil 4 48 0 id 0
    | .queue => fossil 5 48 w.third.toNat id 0

/-- A head whose declaration is not met: its handle and counts (R240, R318). -/
def Core.unmet (c : Core) (d : Decl) : Option Nat :=
  let inp := fun (g : Option Grp) => match g with
    | some g =>
      let n := c.takenIn g.h + declIn d g.h
      let f := c.loc.hstart[g.h].filled
      if f < n then some (handleDetail g.h n f) else none
    | none => none
  match inp d.a, inp d.b, d.o with
  | some x, _, _ => some x
  | none, some x, _ => some x
  | none, none, some g =>
    let n := c.takenOut g.h + g.n.val + 1
    let f := c.loc.hstart[g.h].free
    if f < n then some (handleDetail g.h n f) else none
  | none, none, none => none

/-- The address of the access that a begun command waits for; bit 63 is set where it waits for a full word (R318). -/
def Core.waitAddr (c : Core) (r : Run) : Nat := match r.wait.head? with
  | none => 0
  | some i => match c.loc.reqs.find? (·.id == i) with
    | some q => match q.acc with
      | .read a _ ws => match ws.find? fun w => !c.loc.full (4 * w) with
        | some w => 4 * w + 2 ^ 63
        | none => a
      | .write l _ => (l.head?.map (·.1)).getD 0
    | none => ((c.loc.greqs.find? (·.id == i)).map (·.va)).getD 0

/-- The first arc of an edge port that lacks n free slots. -/
def Fabric.portFull (f : Fabric) (now : Nat) (p : Option (Fin 16)) (n : Nat) : Option Nat :=
  p.bind fun p => f.firstFull now ((f.fromPort p).map fun a => (a, n))

/-- An edge port shows fewer than n tokens of its arc. -/
def Fabric.portLacks (f : Fabric) (now : Nat) (p : Fin 16) (n : Nat) : Bool :=
  decide (((f.intoPort p).map fun a => (f.seen a now).length).getD 0 < n)

/-- What a begun matrix command waits for at its ports: tokens of its input 0, or of its prefetch's, input 1, or space on the arcs
that it forwards to (R267, R270–R275, R318; log entry 9). -/
def Core.fossilMxe (c : Core) (now : Nat) (r : Run) : Option Quad :=
  let f := c.fab
  let id := c.sq.lcid.toNat
  let lack := fun (p : Fin 16) (n j : Nat) => if f.portLacks now p n then some (fossil 0 67 j id 0) else none
  let full := fun (p : Option (Fin 16)) (n : Nat) => (f.portFull now p n).map fun a => fossil 1 67 a id 0
  let read := (c.loc.firstAnswer r.wait).isSome
  match r.cmd with
  | .ldb (.port p) _ _ fwd _ => (lack p 1 0).or (full fwd 1)
  | .ldb _ _ _ fwd _ => if read then full fwd 1 else none
  | .mmul _ n _ _ _ port fwd eoi pf _ =>
    let rows := if r.n ≤ n.toNat then (lack port 2 0).or (full fwd 2)
      else if eoi && !r.done then (lack port 1 0).or (full fwd 1) else none
    rows.or (pf.bind fun x => if 512 ≤ r.pre then none else match x.port with
      | some p => (lack p 1 1).or (full x.fwd 1)
      | none => if read then full x.fwd 1 else none)
  | .gmul _ _ _ _ _ _ _ _ fwd _ => if r.rows.length = 2 then full fwd 2 else none
  | .rdacc _ _ _ _ _ (.port p _) _ => full (some p) 1
  | .recur _ _ _ port fwd _ _ => (lack port 1 0).or (full fwd 1)
  | _ => none

/-- What a begun command of a class waits for: a FEED with a row for its arcs, a DRAIN with no write outstanding for a token,
a matrix command at its ports, BARR and WEND for the SYE, LAUNCH for its hardware queue, and every other for its access. -/
def Core.runFossil (c : Core) (now cls : Nat) (r : Run) : Quad :=
  let i := r.cmd
  let id := c.sq.lcid.toNat
  let access := fossil 2 (64 + cls) 0 id (c.waitAddr r)
  match cls with
  | 0 => (((pushesTo i).findSome? fun p => c.fab.portFull now (some p) 1).map fun a => fossil 1 64 a id 0).getD access
  | 1 => if r.wait.isEmpty then fossil 0 65 0 id 0 else access
  | 3 => (c.fossilMxe now r).getD access
  | 4 => fossil 4 68 0 id (match syeForm i with
    | some f => match f.bid with
      | some b => b.val + 2 ^ 63
      | none => (f.win.map (·.val)).getD 0
    | none => 0)
  | 7 => match i with
    | .launch _ j | .replay _ j => if r.stage = 2 then fossil 5 71 j.val id 0 else access
    | _ => access
  | _ => access

/-- A blocked engine class (R318). -/
def Core.fossilEngine (c : Core) (now cls : Nat) : Option Quad :=
  let id := c.sq.lcid.toNat
  (queuesOf cls).findSome? fun k => match c.queues[k].run with
    | some r => some (c.runFossil now cls r)
    | none => (c.headCmd k).bind fun h => (c.unmet (declOf h.1)).map fun d => fossil 6 (64 + cls) k.val id d

/-- The entries of one core, by node code (R318). -/
def Core.fossils (c : Core) (now : Nat) : List Quad :=
  (List.finRange 32).filterMap (c.fossilCell · now) ++ (List.finRange 16).filterMap (c.fossilPort · now)
    ++ c.fossilSq.toList ++ (List.range 9).filterMap (c.fossilEngine now)

/-- The contexts of a task by LCID, resident and saved. -/
def State.contexts (s : State) (t : Nat) (k : Task) : List Core :=
  (List.range k.nlc).filterMap fun i => s.logical t i

/-- Work is outstanding in a gang (R317). -/
def State.taskOutstanding (s : State) (t : Nat) (k : Task) : Bool := (s.contexts t k).any fun c => c.outstanding (s.clockOf c.cid)

/-- In a gang that runs in rounds: every logical core with work outstanding has been resident since the last activity
(R341). -/
def State.allBeen (s : State) (t : Nat) (k : Task) : Bool :=
  k.saved.all fun v => !v.core.outstanding (s.clockOf v.core.cid) || k.beenIn.contains v.lcid || (s.residentAt t v.lcid).isSome

/-- The gang's idle count after this cycle: an activity resets it, and only cycles with work outstanding count (R317, R341). -/
def State.idleCount (s : State) (t : Nat) (k : Task) : Nat :=
  let l := s.gangOf t
  if (l.any (·.active)) || !s.allBeen t k then 0
  else if !s.taskOutstanding t k || (l.any (·.refused)) || l.any (·.sq.debug == .halted) then k.idle
  else k.idle + 1

/-- CYCLE of logical core 0, which may have retired. -/
def State.cycleOf0 (s : State) (t : Nat) (k : Task) : Word := match s.logical t 0 with
  | some c => c.sq.ctr.cycle
  | none => ((k.retired.find? (·.lcid == 0)).map (·.cycle)).getD 0

/-- The bytes of a fossil record: the 64-byte header with TASK, the freeze CYCLE and the number of entries, and the entries
(R318; log entry 9). -/
def Task.fossilBytes (k : Task) : List Byte :=
  leBytes k.desc.task.toNat 8 ++ leBytes k.freeze.toNat 8 ++ leBytes k.fossil.length 4 ++ List.replicate 44 0
    ++ k.fossil.flatMap fun e => leBytes e.toNat 16

/-- The fossil record of task t at its place, a row at a time (R318). -/
def State.writeFossil (s : State) (t : Nat) : State := match s.chip.tasks[t]? with
  | none => s
  | some k =>
    let bs := k.fossilBytes
    s.cmpStores (some t) k.part (fossilAt t)
      ((List.range ((bs.length + 63) / 64)).map fun i => (64 * i, (bs.drop (64 * i)).take 64))
      (latest ((s.contexts t k).map (·.finalPts)))

/-- WATCHDOG (R317, R318): the idle count of task t; at its limit the gang is frozen, its fossil record is taken, and the
task faults. A cycle in which a budget holds back the record does not count (R368). -/
def execWatchdog (t : Nat) (s : State) : Out :=
  match s.chip.tasks[t]? with
  | none => .next s
  | some k =>
    if k.state ≠ .running && k.state ≠ .stopping then .next s
    else
      let n := s.idleCount t k
      let n := if 2 ^ (k.desc.wdlog + 13) ≤ n && !s.chip.parts[k.part].hubMay then k.idle else n
      let active := (s.gangOf t).any (·.active)
      let s := s.onTask t fun k => { k with
        idle := n
        beenIn := if active then (s.gangOf t).map (·.sq.lcid.toNat) else k.beenIn }
      if n < 2 ^ (k.desc.wdlog + 13) then .next s
      else
        let e := (s.contexts t k).flatMap fun c => c.fossils (s.clockOf c.cid)
        let s := s.onTask t fun x => { x with
          fossil := e
          freeze := s.cycleOf0 t k }
        .next ((s.writeFossil t).hubFault t cWATCHDOG)

/-! ### Completion (R312, R338) -/

/-- The version of a task is committed: each line stored at its home with the task's final PTS, as a store of the task (R312). -/
def State.commit (s : State) (t : Nat) (k : Task) (pts : Word) : State :=
  let s := (verLines k.version).foldl (fun (s : State) ln =>
    let l := (k.version.filter fun e => e.1 / 128 == ln).filterMap fun e => e.2.map fun b => (e.1 - ln * 128, [b])
    s.hubStore (some t) k.part (ln * 128) l pts) s
  s.onTask t fun k => { k with version := [] }

/-- Counter SIGCTR falls by 1 unless it is 0: an atomic at the SYE of its home's die, and a store of the task (R333, R367, R374). -/
def State.signal (s : State) (t : Option Nat) (p : Fin 64) (ctr : Nat) (pts : Word) : State :=
  let pa := s.chip.parts[p].counters.toNat + 4 * ctr
  let q := s.chip.parts[p]
  let s := (s.onPart p fun q => q.spend 4 (q.homeDie pa).val 1).crosses p none (q.hubWays pa)
  let (bs, s) := s.cmpPeek p pa 4
  let m := leNat bs
  if m = 0 then s
  else match s.measSave p t pa with
    | none => s.measFull t
    | some s => (s.homeStore p pa (leBytes (m - 1) 4) pts).st

/-- The completion record is written, or the ring hears that it cannot be (R338, R360). -/
def State.finishTask (s : State) (t : Nat) : State :=
  match s.chip.tasks[t]? with
  | none => s
  | some k =>
    let s := match s.writeRecord t k with
      | some s => s
      | none => s.tell k.part 5 0 k.desc.crec 0
    s.onTask t fun k => { k with state := .done }

/-- Every logical core has retired. -/
def Task.allRetired (k : Task) : Bool := k.retired.length == k.nlc

/-- TASK_COMPLETE (R312, R333, R338): once every logical core has retired and the owned lines of the L1s are back at their homes, a
pending pre-emption is acknowledged with RETIRED, the version commits, the signal counter falls, the cores are free, and the
record is written, STATUS last. A task that was torn down or never ran has its record written. The accesses of the CMP wait for
the budgets (R368). -/
def execTaskComplete (t : Nat) (s : State) : Out :=
  match s.chip.tasks[t]? with
  | none => .next s
  | some k =>
    if !s.chip.parts[k.part].hubMay then .next s
    else if k.state = .completing then .next (s.finishTask t)
    else if (k.state ≠ .running && k.state ≠ .stopping) || !k.allRetired || (s.faultOf t k).isSome then .next s
    else
      let gang := (s.gangOf t).map (·.cid)
      let (home, s) := s.emptyGang k.part gang
      if !home then .next s
      else
        let pts := k.finalPts
        let aborted := k.retired.any fun r => r.how == some .abort
        let s := if k.packOwed then s.writeAck k 8 pts else s
        let s := s.commit t k pts
        let s := if k.desc.sv then s.signal (some t) k.part k.desc.sigctr pts else s
        let s := gang.foldl (fun s c => s.vacate c) s
        let s := s.onTask t fun k => { k with
          status := if aborted then 2 else 1
          packOwed := false }
        .next (s.finishTask t)

/-! ### Pre-emption (R313, R314, R337) -/

/-- The oldest running task of a queue. -/
def State.runningOf (s : State) (j : Fin 256) : Option Nat :=
  s.chip.tasks.findIdx? fun k => k.queue == some j && k.state == .running

/-- The hub takes the accesses of hosts (R380). -/
def Chip.isUp (h : Chip) : Bool := h.boot == .up

/-- PREEMPT (R313, R337): a write of 1 asks every core of the queue's running task to stop. -/
def execPreempt (j : Fin 256) (v : Half) (s : State) : Out :=
  if !s.chip.isUp || v ≠ 1 then .next s
  else match s.runningOf j with
    | none => .next s
    | some t =>
      let s := s.onTask t fun k => { k with
        state := .stopping
        packOwed := true }
      .next (s.onCores fun c => if c.task == some t then { c with preempting := true } else c)

/-- A core of a stopping gang is done: captured or retired, or its context was saved before. -/
def Core.parked (c : Core) : Bool := c.captured || c.retired.isSome

/-- PREEMPT_ACK (R313, R314, R337): once every core is captured or retired and the owned lines of the L1s are back at their homes,
the contexts are recorded, the cores are free, the task is back at the head of its queue, and PACK gets its acknowledgement, which
waits for the budgets (R368). -/
def execPreemptAck (t : Nat) (s : State) : Out :=
  match s.chip.tasks[t]? with
  | none => .next s
  | some k =>
    let l := s.gangOf t
    if k.state ≠ .stopping || (s.faultOf t k).isSome || k.allRetired || !(l.all (·.parked))
        || !s.chip.parts[k.part].hubMay then .next s
    else
      let (home, s) := s.emptyGang k.part (l.map (·.cid))
      if !home then .next s
      else
        let new := (l.filter (·.retired.isNone)).map fun c => Core.context { c with sq := c.sq.endHalt }
        let k' := { k with
          state := .preempted
          saved := k.saved ++ new
          packOwed := false }
        let s := (l.map (·.cid)).foldl (fun s c => s.vacate c) s
        let s := s.onTask t fun _ => k'
        let s := match k.queue with
          | some j => s.onHw j fun q => { q with
              returned := t :: q.returned
              elig := none }
          | none => s
        .next (s.writeAck k' 7 (latest (k'.saved.map (·.pts))))

/-! ### Descriptors that never run (R335, R336, R338) -/

/-- A task of queue j that completes without having been admitted, with its status. -/
def Task.never (d : LaunchDesc) (j : Option (Fin 256)) (p : Fin 64) (status nlc : Nat) (meas : Bool) : Task where
  desc := d
  queue := j
  part := p
  state := .completing
  asid := d.asid
  nlc := nlc
  cores := []
  start := 0
  elig := 0
  retired := []
  saved := []
  windows := []
  barriers := []
  version := []
  idle := 0
  beenIn := []
  fault := none
  faultTime := 0
  vlines := 0
  fossil := []
  freeze := 0
  packOwed := false
  status := .ofNat 32 status
  meas := meas

def State.addTask (s : State) (k : Task) : State := s.onChip fun h => { h with tasks := h.tasks ++ [k] }

/-- An ASID of the partition that a KILL has torn down (R336). -/
def Part.isDying (q : Part) (a : BitVec 16) : Bool := q.dying.contains a.toNat

/-- The place of descriptor number n of a ring (R332). -/
def HwQueue.slotAt (q : HwQueue) (n : Half) : Nat := q.qbase.toNat + 64 * (n.toNat % 64)

/-- The descriptor number n of queue j as it stands in the ring (R332). -/
def State.ringDesc (s : State) (j : Fin 256) (p : Fin 64) (n : Half) : LaunchDesc × State :=
  let (bs, s) := s.cmpPeek p (s.chip.queues[j].slotAt n) 64
  (descOf bs, s)

/-- Descriptors of the ring from number n on, c of them: those of a dying ASID complete with CONTEXT_DYING (R336). -/
def State.scanRing (s : State) (j : Fin 256) (p : Fin 64) (n : Half) : Nat → State
  | 0 => s
  | c + 1 =>
    let (d, s) := (s.hubPays p (s.chip.queues[j].slotAt n)).ringDesc j p n
    let s := if s.chip.parts[p].isDying d.asid && !s.chip.queues[j].dead.contains n then
        (s.addTask (.never d (some j) p 6 0 false)).onHw j fun q => { q with dead := q.dead ++ [n] }
      else s
    s.scanRing j p (n + 1) c

/-- The outstanding descriptors of queue j. -/
def State.scanQueue (s : State) (j : Fin 256) : State :=
  let q := s.chip.queues[j]
  match q.part with
  | none => s
  | some p => if s.chip.parts[p].dying.isEmpty then s else s.scanRing j p q.head (q.tail - q.head).toNat

/-- A pre-empted task whose ASID is killed never runs again (R336). -/
def State.killReturned (s : State) (t : Nat) : State :=
  match s.chip.tasks[t]? with
  | none => s
  | some k =>
    let ended := s.endParts t k
    (s.onTask t fun _ => { k.discard with
      state := .completing
      status := 6
      retired := k.retired ++ ended
      saved := [] }).unreturn t k

/-- KILL (R336): the context of an ASID of the queue's partition is torn down. -/
def execKill (j : Fin 256) (v : Half) (s : State) : Out :=
  match s.chip.queues[j].part with
  | none => .next s
  | some p =>
    let a : BitVec 16 := .ofNat 16 v.toNat
    if !s.chip.isUp || !s.chip.parts[p].ownsAsid a then .next s
    else if !s.chip.parts[p].hubMay then .next (s.holdBack (.kill j v))
    else
      let s := s.onPart p fun q => { q with dying := if q.dying.contains a.toNat then q.dying else a.toNat :: q.dying }
      let ts := (List.range s.chip.tasks.length).filter fun t => match s.chip.tasks[t]? with
        | some k => k.part == p && k.asid == a
        | none => false
      let s := ts.foldl (fun (s : State) t => match s.chip.tasks[t]? with
        | some k => match k.state with
          | .running | .stopping => s.hubFault t cTEARDOWN_REQUEST
          | .preempted => s.killReturned t
          | _ => s
        | none => s) s
      .next ((List.finRange 256).foldl (fun (s : State) (i : Fin 256) =>
        if s.chip.queues[i].part == some p then s.scanQueue i else s) s)

end Sys2Proof.Machine
end

