-- ==== Sys2Proof/Machine/Dispatcher.lean ====
section
/-! DEFINITION. The dispatcher: heads and eligibility (R333, R334), admission (R335), appends (R344), doorbells (R332),
recorded graphs (R345, R346), and replay measurements (R373, R374). -/

namespace Sys2Proof.Machine

/-! ### Admission (R335) -/

/-- m = Min(n, P) (R335). -/
def State.gangSize (s : State) (p : Fin 64) (n : Nat) : Nat := min n (s.usable p).length

/-- A module starts as task number t on the m lowest free cores (R335); `sel` holds the PMS values of a measured pass
(R374). -/
def State.startTask (s : State) (d : LaunchDesc) (j : Option (Fin 256)) (p : Fin 64) (elig : Nat) (bs : List Byte)
    (sel : Option (List Half)) : State :=
  let n := modCores bs
  let cores := (s.freeCores p).take (s.gangSize p n)
  let t := s.chip.tasks.length
  let make := fun (k : Nat) =>
    let c := startCore bs k n d.param s.chip.parts[p].epre
    match sel with
    | none => c
    | some l => { c with sq := { c.sq with pms := Vector.ofFn fun (i : Fin 4) => l.getD i.val 0 } }
  let saved := ((List.range n).drop cores.length).map fun k => (⟨1, k, 0, { make k with task := some t }⟩ : Saved)
  let s := s.addTask { Task.never d j p 0 n sel.isSome with
    state := .running
    cores := cores
    start := .ofNat 64 s.chip.time
    elig := elig
    saved := saved
    beenIn := List.range cores.length }
  cores.zipIdx.foldl (fun s e => s.placeAt e.1 (make e.2) t) s

/-- A descriptor is taken: it completes with CONTEXT_DYING, DESC_REJECT or IMAGE_REJECT, or its task starts (R335,
R336). -/
def State.admitNew (s : State) (d : LaunchDesc) (j : Option (Fin 256)) (p : Fin 64) (elig : Nat) (sel : Option (List Half)) :
    State :=
  if s.chip.parts[p].isDying d.asid then s.addTask (.never d j p 6 0 sel.isSome)
  else match s.descReject p d with
    | (some r, s) => s.addTask (.never d j p (5 + r * 256) 0 sel.isSome)
    | (none, s) =>
      let (bs, s) := s.moduleOf p d
      match imageReject s.chip.parts[p] bs with
      | some r => s.addTask (.never d j p (4 + r * 256) (if r = 19 then 0 else modCores bs) sel.isSome)
      | none => s.startTask d j p elig bs sel

/-- Arrivals of a barrier with the places their logical cores have now; the units send theirs upward anew (R314,
R316). -/
def Barrier.rehome (x : Barrier) (k : Task) : Barrier :=
  { x with
    up := []
    arr := x.arr.map fun a => match k.coreOf a.lcid with
      | some c => { a with core := c, die := dieOf c }
      | none => a }

/-- Position i of a restored gang: the lowest of its logical cores that has not retired, or a core whose parts have all
retired (R316, R340). -/
def State.fillPosition (s : State) (t : Nat) (e : BitVec 8 × Nat) : State :=
  match s.chip.tasks[t]? with
  | none => s
  | some k => match (k.saved.filter fun (v : Saved) => v.lcid % k.cores.length == e.2).foldl (fun (a : Option Saved) v =>
      match a with
      | none => some v
      | some x => if v.lcid < x.lcid then some v else some x) none with
    | some v => s.restoreAt t v e.1
    | none =>
      let c := Core.idleCore 0
      s.placeAt e.1 { c with
        retired := some .exit
        sq := { c.sq with lcid := .ofNat 32 e.2 } } t

/-- A pre-empted task is admitted again, on the m lowest free cores (R316, R337). -/
def State.readmit (s : State) (t : Nat) (p : Fin 64) : State :=
  match s.chip.tasks[t]? with
  | none => s
  | some k =>
    let cores := (s.freeCores p).take (s.gangSize p k.nlc)
    let k := { k with
      state := .running
      cores := cores
      beenIn := [] }
    let s := s.onTask t fun _ => { k with barriers := k.barriers.map fun e => (e.1, e.2.rehome k) }
    cores.zipIdx.foldl (fun s e => s.fillPosition t e) s

/-! ### Heads (R332–R334) -/

/-- The head of a queue: a task that has returned, or a descriptor of the ring. -/
structure Head where
  task : Option Nat
  desc : LaunchDesc
deriving DecidableEq, Repr

/-- HEAD passes the descriptors that a KILL has completed (R336); `n` bounds them. -/
def HwQueue.skipDead (q : HwQueue) : Nat → HwQueue
  | 0 => q
  | n + 1 => if q.dead.contains q.head then
      { q with
        head := q.head + 1
        dead := q.dead.filter (· != q.head)
        elig := Option.none }.skipDead n
    else q

/-- The head that queue j presents; none with EN = 0 (R332). -/
def State.headOfQueue (s : State) (j : Fin 256) : Option Head × State :=
  let q := s.chip.queues[j]
  match q.en, q.part, q.returned with
  | true, some _, t :: _ => ((s.chip.tasks[t]?).map fun k => ⟨some t, k.desc⟩, s)
  | true, some p, [] =>
    if q.head = q.tail then (none, s)
    else
      let (d, s) := s.ringDesc j p q.head
      (some ⟨none, d⟩, s)
  | _, _, _ => (none, s)

/-- WV = 0, or the counter reads 0 (R333). -/
def State.eligible (s : State) (p : Fin 64) (d : LaunchDesc) : Bool × State :=
  if !d.wv then (true, s)
  else
    let (bs, s) := s.cmpPeek p (s.chip.parts[p].counters.toNat + 4 * d.waitctr) 4
    (leNat bs == 0, s)

/-- Queue j as a dispatch step at time T finds it: its head, where it is eligible, with its eligibility time; a head of
the ring that is not loses its time (R334). -/
def State.present (s : State) (j : Fin 256) (p : Fin 64) (T : Nat) : Option (Head × Nat) × State :=
  let s := s.onHw j fun q => q.skipDead 64
  match s.headOfQueue j with
  | (none, s) => (none, s.onHw j fun q => { q with elig := none })
  | (some h, s) =>
    let (ok, s) := s.eligible p h.desc
    match h.task with
    | some t => (if ok then some (h, ((s.chip.tasks[t]?).map (·.elig)).getD T) else none, s)
    | none =>
      if !ok then (none, s.onHw j fun q => { q with elig := none })
      else
        let e := s.chip.queues[j].elig.getD T
        (some (h, e), s.onHw j fun q => { q with elig := some e })

/-- eff(x) (R334): Min(ceiling, PRIO + Floor(wait / 64 µs)). -/
def effPrio (ceiling prio wait : Nat) : Nat := min ceiling (prio + wait / 64000)

/-- A candidate of a partition: its eff, eligibility time, queue and head. -/
structure Cand where
  eff  : Nat
  elig : Nat
  j    : Fin 256
  head : Head
deriving DecidableEq, Repr

/-- x comes before y: greater eff, then earlier eligibility, then lower queue (R334). -/
def Cand.before (x y : Cand) : Bool :=
  decide (y.eff < x.eff) || (x.eff == y.eff && (decide (x.elig < y.elig) || (x.elig == y.elig && decide (x.j < y.j))))

/-- The queues of a partition, ascending. -/
def State.queuesAt (s : State) (p : Fin 64) : List (Fin 256) :=
  (List.finRange 256).filter fun j => s.chip.queues[j].part == some p

/-- The top of a partition at time T (R334). -/
def State.topOf (s : State) (p : Fin 64) (T : Nat) : Option Cand × State :=
  (s.queuesAt p).foldl (fun (r : Option Cand × State) j => match r.2.present j p T with
    | (none, s) => (r.1, s)
    | (some (h, e), s) =>
      let x : Cand := ⟨effPrio s.chip.queues[j].ceiling.toNat h.desc.prio (T - e), e, j, h⟩
      (match r.1 with
        | none => some x
        | some y => if x.before y then some x else some y, s)) (none, s)

/-- Cores that a head needs; none where its partition has no usable core. -/
def State.needOf (s : State) (p : Fin 64) (h : Head) : Option Nat × State :=
  if (s.usable p).isEmpty then (none, s)
  else match h.task with
    | some t => (some (s.gangSize p (((s.chip.tasks[t]?).map (·.nlc)).getD 0)), s)
    | none =>
      if !s.imageThere p h.desc then (some 0, s)
      else
        let (bs, s) := s.headOf p h.desc
        (some (s.gangSize p (modCores bs)), s)

/-- Drain-reserve for one partition: its top is admitted if it fits, and nothing else is (R334). The next head becomes
eligible at the same time. -/
def State.dispatchPart (s : State) (p : Fin 64) (T : Nat) : State :=
  match s.topOf p T with
  | (none, s) => s
  | (some x, s) => match s.needOf p x.head with
    | (none, s) => s
    | (some m, s) =>
      if (s.freeCores p).length < m then s
      else
        let s := match x.head.task with
          | some t => (s.onHw x.j fun q => { q with returned := q.returned.drop 1 }).readmit t p
          | none => ((s.hubPays p (s.chip.queues[x.j].slotAt s.chip.queues[x.j].head)).onHw x.j fun q =>
              { q with head := q.head + 1, elig := none }).admitNew x.head.desc (some x.j) p x.elig none
        (s.present x.j p T).2

/-! ### Appends of the dispatcher (R344, R346) -/

/-- The ring of queue j has a free slot. -/
def HwQueue.hasSlot (q : HwQueue) : Bool := decide ((q.tail - q.head).toNat < 64)

/-- A descriptor is appended to queue j: into its slot of the ring, or, with a dying ASID, it completes at once (R336,
R344). -/
def State.appendDesc (s : State) (j : Fin 256) (p : Fin 64) (bs : List Byte) (pts : Word) : State :=
  let d := descOf bs
  if s.chip.parts[p].isDying d.asid then s.addTask (.never d (some j) p 6 0 false)
  else
    let q := s.chip.queues[j]
    (s.hubStore none p (q.slotAt q.tail) [(0, bs.take 64)] pts).onHw j fun q => { q with tail := q.tail + 1 }

/-- The command that a core's LAUNCH queue has ready for queue j: a descriptor, or a replay. -/
def Core.readyLaunch (c : Core) (j : Fin 256) : Option Run := match c.queues[launchQ].run with
  | some r =>
    if r.stage ≠ 2 || r.done then none
    else match r.cmd with
      | .launch _ k => if k = j then some r else none
      | .replay _ k => if k = j then some r else none
      | _ => none
  | none => none

/-- The command of a core is done. -/
def State.launchDone (s : State) (cid : BitVec 8) : State :=
  s.onCoreAt cid fun c => { (c.onRun launchQ fun r => { r with done := true }) with active := true }

/-- The appends of commands to queue j, by ascending CID, until the ring is full or a replay takes the path (R344). -/
def State.appendCmds (s : State) (j : Fin 256) (p : Fin 64) : List Nat → State
  | [] => s
  | c :: rest =>
    let cid : BitVec 8 := .ofNat 8 c
    match (s.coreAt cid).bind (·.readyLaunch j) with
    | none => s.appendCmds j p rest
    | some r => match r.cmd with
      | .launch .. =>
        if !s.chip.queues[j].hasSlot then s
        else ((s.appendDesc j p r.bytes r.pts).launchDone cid).appendCmds j p rest
      | _ => s.onChip fun h => { h with replays := h.replays.map fun e =>
          if e.1 = j && e.2.from_ == some cid then (e.1, { e.2 with on := true }) else e }

/-- Only the first entry of a list that meets a test is changed. -/
def changeFirst {α : Type} (p : α → Bool) (f : α → α) : List α → List α
  | [] => []
  | x :: r => if p x then f x :: r else x :: changeFirst p f r

/-- The appends of queue j in a dispatch step: none while a replay holds its path; then the GRAPH doorbell, then the
commands (R344). -/
def State.appends (s : State) (j : Fin 256) (cids : List Nat) : State :=
  match s.chip.queues[j].part with
  | none => s
  | some p =>
    if s.chip.replays.any fun e => e.1 == j && e.2.on then s
    else if s.chip.replays.any fun e => e.1 == j && e.2.from_.isNone then
      let mine := fun (e : Fin 256 × Replay) => e.1 == j && e.2.from_.isNone
      let take := fun (e : Fin 256 × Replay) => (e.1, { e.2 with on := true })
      s.onChip fun h => { h with replays := changeFirst mine take h.replays }
    else s.appendCmds j p cids

/-- The cores with a LAUNCH or REPLAY ready, ascending. -/
def State.launching (s : State) : List Nat :=
  let l := ((s.core :: s.others).filter fun c => match c.queues[launchQ].run with
    | some r => r.stage == 2 && !r.done
    | none => false).map (·.cid.toNat)
  if l.isEmpty then [] else (List.range 256).filter l.contains

/-- The budgets of the partition of queue j permit the hub's accesses (R368). -/
def State.hubMayOf (s : State) (j : Fin 256) : Bool := match s.chip.queues[j].part with
  | some p => s.chip.parts[p].hubMay
  | none => true

/-- A LAUNCH or REPLAY that waits for the hub's accesses is refused by the budget (R368). -/
def State.launchHeld (s : State) (cid : Nat) : State := match s.coreAt (.ofNat 8 cid) with
  | some c => if s.chip.parts[s.partOf c].hubMay then s else s.refusedLate c.cid
  | none => s

/-- A partition is legal: at least one cluster, one bank and one channel (R358). -/
def Part.legal (q : Part) : Bool := q.pclu != 0 && q.pbnk != 0 && q.pchn != 0

/-- DISPATCH_STEP (R333–R336, R344): every 4 ns of the time base the dispatcher takes the appends, and then picks the top
eligible head of each partition and admits it if it fits; in a partition whose budgets permit the hub's accesses (R368). -/
def execDispatchStep (s : State) : Out :=
  let T := s.chip.dispatchAt
  if !s.chip.isUp || s.chip.time < T then .next s
  else
    let s := s.onChip fun h => { h with dispatchAt := T + 4 }
    let cids := s.launching
    let s := cids.foldl State.launchHeld s
    let s := (List.finRange 256).foldl (fun (s : State) (j : Fin 256) =>
      if s.chip.queues[j].dev && s.hubMayOf j then s.appends j cids else s) s
    .next ((List.finRange 64).foldl (fun (s : State) (p : Fin 64) =>
      if s.chip.parts[p].legal && s.chip.parts[p].hubMay then s.dispatchPart p T else s) s)

/-! ### Doorbells (R332, R345) -/

/-- TAIL doorbell (R332): a host's append to a queue with DEV = 0; one that would leave more than 64 outstanding is
discarded, sets OVR and clears EN. -/
def execTailDoorbell (j : Fin 256) (v : Half) (s : State) : Out :=
  let q := s.chip.queues[j]
  if !s.chip.isUp || q.dev || !q.en || q.part.isNone then .next s
  else if !s.hubMayOf j then .next (s.holdBack (.tailDoorbell j v))
  else if 64 < (v - q.head).toNat then .next (s.onHw j fun q => { q with ovr := true, en := false })
  else .next ((s.onHw j fun q => { q with tail := v }).scanQueue j)

/-- GRAPH doorbell (R332, R345, R346): a replay of the record at a physical address, for a queue with DEV = 1. -/
def execGraphDoorbell (j : Fin 256) (pa : Word) (s : State) : Out :=
  let q := s.chip.queues[j]
  match q.part with
  | none => .next s
  | some p =>
    if !s.chip.isUp || !q.dev || pa.toNat % 64 ≠ 0 || s.chip.parts[p].devBytes < pa.toNat + 0x240 then .next s
    else if !s.chip.parts[p].hubMay then .next (s.holdBack (.graphDoorbell j pa))
    else
      let (bs, s) := s.cmpRead p pa.toNat 0x240
      match graphHead bs with
      | none => .next s
      | some (n, gpw) => .next (s.onChip fun h => { h with
          replays := h.replays ++ [(j, ⟨pa.toNat, p, none, gpw, n, 0, false⟩)] })

/-! ### Recorded graphs (R346) -/

/-- The patches of node descriptor d: GPW[n] into doubleword k of its parameter block, translated under the node's ASID
(R331, R346). -/
def State.patchNode (s : State) (p : Fin 64) (d : LaunchDesc) (gpw : List Word) : State :=
  [0, 1, 2, 3].foldl (fun (s : State) i => match d.patchOf i with
    | none => s
    | some (k, n) => match s.cmpWalk p d.ptroot.toNat (d.param.toNat + 8 * k) true with
      | (none, s) => s
      | (some a, s) => s.hubStore none p a [(0, leBytes (gpw.getD n 0).toNat 8)] 0) s

/-- The replay that holds the append path of queue j. -/
def State.replayOn (s : State) (j : Fin 256) : Option Replay :=
  (s.chip.replays.find? fun e => e.1 == j && e.2.on).map (·.2)

/-- The replay of queue j changes, or is over. -/
def State.setReplay (s : State) (j : Fin 256) (r : Option Replay) : State :=
  s.onChip fun h => { h with replays := match r with
    | some r => h.replays.map fun e => if e.1 = j && e.2.on then (j, r) else e
    | none => h.replays.filter fun e => !(e.1 == j && e.2.on) }

/-- The 64 bytes of a replay's next node: through the issuer's translation, or, of a GRAPH doorbell, by physical
address. -/
def State.nodeBytes (s : State) (r : Replay) : Except Cause (List Byte) × State :=
  let a := r.gva + 0x240 + 64 * r.next
  match r.from_ with
  | none =>
    let (bs, s) := s.cmpRead r.part a 64
    (.ok bs, s)
  | some cid => match s.coreAt cid with
    | some c => s.readVirt r.part (s.rootOf c) a 1
    | none => (.error (cXLT 6 .notPresent), s)

/-- REPLAY_NODE_APPEND (R344, R346): the replay that holds queue j's path patches and appends its next node once the ring
has room and the budgets permit its accesses (R368); after its last node the command that issued it is done. -/
def execReplayNodeAppend (j : Fin 256) (s : State) : Out :=
  match s.replayOn j with
  | none => .next s
  | some r =>
    if !s.chip.queues[j].hasSlot || !s.chip.parts[r.part].hubMay then .next s
    else match s.nodeBytes r with
      | (.error c, s) =>
        let s := s.setReplay j none
        .next (match r.from_ with
          | some cid => s.atCore cid fun s => s.failRun launchQ c
          | none => s)
      | (.ok bs, s) =>
        let s := s.patchNode r.part (descOf bs) r.gpw
        let s := s.appendDesc j r.part bs 0
        if r.next + 1 < r.nodes then .next (s.setReplay j (some { r with next := r.next + 1 }))
        else
          let s := s.setReplay j none
          .next (match r.from_ with
            | some cid => s.launchDone cid
            | none => s)

/-! ### Replay measurement (R373, R374) -/

/-- SIG of a pass: the sequences of its logical cores by ascending LCID, each word as its eight bytes. -/
def Task.signature (k : Task) : Word :=
  .ofNat 64 (crc64 ((List.range k.nlc).flatMap fun i => ((k.retired.find? (·.lcid == i)).map fun r =>
    r.sig.flatMap fun w => leBytes w.toNat 8).getD []))

/-- PMC i summed over the gang. -/
def Task.pmcSum (k : Task) (i : Fin 4) : Word := k.retired.foldl (fun a r => a + r.pmc[i]) 0

/-- The request of a measurement (R373). -/
def measOf (p : Fin 64) (bs : List Byte) : Measure where
  part := p
  desc := fieldAt bs 0 8
  root := 0
  save := fieldAt bs 8 8
  saveSize := fieldAt bs 0x10 8
  passes := fieldAt bs 0x18 4
  result := fieldAt bs 0x20 8
  sels := (List.range 16).map fun j => (List.range 4).map fun i => .ofNat 32 (fieldAt bs (0x40 + 16 * j + 4 * i) 4 % 2 ^ 7)
  pass := 0
  task := none
  saved := []
  full := false
  sigs := []
  pmcs := []
  codes := []

/-- MEAS (R373): a replay measurement is asked for, where the partition has the engine and the request is legal. It starts once
those that the partition asked for before are over (log entry 81). -/
def execMeas (p : Fin 64) (pa : Word) (s : State) : Out :=
  let q := s.chip.parts[p]
  if !s.chip.isUp || !q.phub.getLsbD 0 || pa.toNat % 64 ≠ 0 || q.devBytes < pa.toNat + 0x140 then
    .next s
  else if !q.hubMay then .next (s.holdBack (.meas p pa))
  else
    let (bs, s) := s.cmpRead p pa.toNat 0x140
    let m := measOf p bs
    if !inSpan m.passes 1 16 || m.result % 64 ≠ 0 || m.saveSize % 65536 ≠ 0 then .next s
    else .next (s.onChip fun h => { h with meas := h.meas ++ [m] })

/-- The measurement of partition p that runs changes. -/
def State.setMeas (s : State) (p : Fin 64) (f : Measure → Measure) : State :=
  s.onChip fun h => { h with meas := changeFirst (·.part == p) f h.meas }

/-- Every saved page is copied back (R374). -/
def State.measRestore (s : State) (m : Measure) : State :=
  m.saved.zipIdx.foldl (fun (s : State) e =>
    s.copyPage m.part (m.save + 65536 * e.2) (65536 * e.1)) s

/-- The result, STATUS last (R374). -/
def State.measEnd (s : State) (m : Measure) (status : Nat) : State :=
  let mis := bit (m.sigs.any fun x => some x != m.sigs.head?)
  let row := fun (i : Nat) => (0x40 + 64 * i, ((m.pmcs.getD i []).flatMap fun w => leBytes w.toNat 8)
    ++ leBytes (m.sigs.getD i 0).toNat 8 ++ leBytes (m.codes.getD i 0).toNat 8 ++ List.replicate 16 0)
  let s := s.cmpStores none m.part m.result ((List.range m.codes.length).map row ++ [(4, leBytes mis 4), (0, leBytes status 4)]) 0
  s.onChip fun h => { h with meas := h.meas.eraseP (·.part == m.part) }

/-- A pass begins once the gang's cores are free and every L1 is empty: saved pages back, the descriptor admitted (R374). -/
def State.measBegin (s : State) (m : Measure) : State :=
  let (bs, s) := s.cmpPeek m.part m.desc 64
  let d := descOf bs
  match s.needOf m.part ⟨none, d⟩ with
  | (none, s) => s
  | (some n, s) =>
    if (s.freeCores m.part).length < n then s
    else match s.emptyGang m.part (s.usable m.part) with
      | (false, s) => s
      | (true, s) =>
        let s := s.hubPays m.part m.desc
        let s := if m.pass = 0 then s else s.measRestore m
        let s := s.setMeas m.part fun m => { m with
          task := some s.chip.tasks.length
          root := d.ptroot.toNat }
        s.admitNew d none m.part s.chip.time (some (m.sels.getD m.pass []))

/-- A pass that is over. The last ends the measurement, with STATUS 3 where a task did not end with EXIT; a full save area
ends it at once, with STATUS 2 (R374). -/
def State.measPass (s : State) (m : Measure) (k : Task) : State :=
  let code := k.status.toNat % 256
  let m := { m with
    task := none
    pass := m.pass + 1
    sigs := m.sigs ++ [k.signature]
    pmcs := m.pmcs ++ [(List.finRange 4).map k.pmcSum]
    codes := m.codes ++ [.ofNat 8 code] }
  if m.full then (s.measRestore m).measEnd m 2
  else if m.passes ≤ m.pass then s.measEnd m (if m.codes.all (· == 1) then 1 else 3)
  else s.setMeas m.part fun _ => m

/-- The measurement that runs in partition p, the first it asked for, in a cycle of the module; the CMP's work on it waits for
the budgets (R368). -/
def State.measStep (s : State) (p : Fin 64) : State :=
  match s.chip.meas.find? (·.part == p) with
  | none => s
  | some m => if !s.chip.parts[p].hubMay then s else match m.task with
    | none => s.measBegin m
    | some t => match s.chip.tasks[t]? with
      | none => s
      | some k =>
        if k.state = .done then s.measPass m k
        else if m.full && (k.state == .running || k.state == .stopping) then s.hubFault t cTEARDOWN_REQUEST
        else s

end Sys2Proof.Machine
end

