-- ==== Sys2Proof/Machine/Host.lean ====
section
/-! DEFINITION. What stands outside the gangs: the host's registers (R332, R361), host and peer accesses (R349, R350,
R353), links (R348, R351, R352), errors (R74, R303, R363), partitions (R358), clocks and power (R367–R369, R378, R379),
reset, boot and attestation (R380, R381). -/

namespace Sys2Proof.Machine

/-! ### BAR0 (R332, R349, R361) -/

/-- A write to the page of queue j at offset o (R332): QBASE and PACK keep their alignment; TAIL, GRAPH, KILL and PREEMPT
are events of their own. A write acts on the register whose offset it has, whatever its width (R5; log entry 130). -/
def State.queueWrite (s : State) (j : Fin 256) (o : Nat) (v : Word) : Out :=
  if o = 0x008 then .next (s.onHw j fun q => { q with qbase := .ofNat 64 (4096 * (v.toNat / 4096)) })
  else if o = 0x014 then execTailDoorbell j (.ofNat 32 v.toNat) s
  else if o = 0x018 then execGraphDoorbell j v s
  else if o = 0x020 then execKill j (.ofNat 32 v.toNat) s
  else if o = 0x024 then execPreempt j (.ofNat 32 v.toNat) s
  else if o = 0x028 then .next (s.onHw j fun q => { q with pack := .ofNat 64 (v.toNat / 16 * 16) })
  else .next s

/-- DCTL after a write: EN and RING take the value, LOGOVF clears where it is written 1 (R364). -/
def dctlWrite (old v : Half) : Half := .ofNat 32 (v.toNat % 4 + 4 * bit (old.getLsbD 2 && !v.getLsbD 2))

/-- A write to the register block of partition p at offset o (R361, R362, R364). A write acts on the register whose offset it
has, whatever its width (R5; log entry 130). -/
def State.partWrite (s : State) (p : Fin 64) (o : Nat) (v : Word) : Out :=
  let lo : Half := .ofNat 32 v.toNat
  let put := fun (f : Part → Part) => Host.Outcome.next (s.onPart p f)
  if o = 0x030 then put fun q => { q with epre := v }
  else if o = 0x040 then put fun q => { q with uesta := q.uesta &&& ~~~lo }
  else if o = 0x044 then put fun q => { q with uemsk := .ofNat 32 (lo.toNat % 2 ^ 7) }
  else if o = 0x080 then put fun q => { q with rhead := lo }
  else if o = 0x100 then put fun q => { q with dctl := dctlWrite q.dctl lo }
  else if o = 0x110 then put fun q => { q with drbase := v }
  else if o = 0x118 then put fun q => { q with drhead := lo }
  else if o = 0x120 then put fun q => { q with dbmx := lo }
  else if o = 0x180 then execMeas p v s
  else .next s

/-- HOST_REGISTER_WRITE (R332, R349, R361, R380): BAR0 ignores writes until the boot has ended, and to what no register
occupies. -/
def execHostRegisterWrite (off : BitVec 21) (v : Word) (s : State) : Out :=
  let o := off.toNat
  if !s.chip.isUp then .next s
  else if o < 0x100000 then s.queueWrite (Fin.ofNat 256 (o / 0x1000)) (o % 0x1000) v
  else s.partWrite (Fin.ofNat 64 ((o - 0x100000) / 0x4000)) ((o - 0x100000) % 0x4000) v

/-- What the host's last read returned. -/
def State.hostGets (s : State) (bs : List Byte) : State := s.onChip fun h => { h with hostData := bs }

/-- QCFG (R332); of a queue that no partition has, QCFG[7:0] reads 0xFF, for which the spec has no value (log entry 130). -/
def HwQueue.qcfg (q : HwQueue) : Half :=
  .ofNat 32 ((match q.part with
    | some p => p.val
    | Option.none => 0xFF) + 2 ^ 8 * q.ceiling.toNat + 2 ^ 11 * bit q.en + 2 ^ 12 * bit q.dev + 2 ^ 13 * bit q.ovr)

/-- The aligned doubleword at offset o of a queue page as the host reads it: what is write-only, reserved or not there reads
zero (R5, R332, R349). -/
def HwQueue.pageWord (q : HwQueue) (o : Nat) : Word :=
  if o = 0x000 then zextW q.qcfg.toNat
  else if o = 0x008 then q.qbase
  else if o = 0x010 then .ofNat 64 (q.head.toNat + 2 ^ 32 * q.tail.toNat)
  else if o = 0x028 then q.pack
  else 0

/-- The aligned doubleword at offset o of a partition's register block, DBMV aside (R5, R361). -/
def Part.blockWord (q : Part) (o : Nat) : Word :=
  let two := fun (a b : Nat) => (.ofNat 64 (a + 2 ^ 32 * b) : Word)
  if o = 0x000 then zextW q.pclu.toNat
  else if o = 0x008 then .ofNat 64 q.pbnk.toNat
  else if o = 0x010 then .ofNat 64 (q.pbnk.toNat / 2 ^ 64)
  else if o = 0x018 then zextW q.pchn.toNat
  else if o = 0x020 then two q.plnk.toNat q.psye.toNat
  else if o = 0x028 then two q.phub.toNat q.pasid.toNat
  else if o = 0x030 then q.epre
  else if o = 0x040 then two q.uesta.toNat q.uemsk.toNat
  else if o = 0x048 then two q.cecnt.toNat 0
  else if o = 0x080 then two q.rhead.toNat q.rtail.toNat
  else if o = 0x088 then two q.rovf.toNat 0
  else if o = 0x100 then two q.dctl.toNat 0
  else if o = 0x108 then q.dbmbase
  else if o = 0x110 then q.drbase
  else if o = 0x118 then two q.drhead.toNat q.drtail.toNat
  else if o = 0x120 then two q.dbmx.toNat 0
  else if h : 0x200 ≤ o ∧ o ≤ 0x210 then two (q.qb[(o - 0x200) / 4]'(by omega)).toNat (q.qb[(o - 0x200) / 4 + 1]'(by omega)).toNat
  else if o = 0x218 then two q.qb[6].toNat 0
  else if inSpan o 0x1000 0x3000 then .ofNat 64 ((look 0 ((o - 0x1000) / 128) q.ring).toNat / 2 ^ (8 * (o % 128)))
  else 0

/-- DBMV is read: bitmap word DBMX is returned and cleared, one read-modify-write at its home (R366). -/
def State.readDbmv (s : State) (p : Fin 64) : State :=
  let q := s.chip.parts[p]
  let v := look 0 q.dbmx.toNat q.dirty
  let s := s.hubPays p (q.dbmbase.toNat + 8 * q.dbmx.toNat)
  (s.onPart p fun q => { q with dirty := put 0 q.dbmx.toNat 0 q.dirty }).hostGets (leBytes v.toNat 8)

/-- DBMV_READ (R366): it waits where a budget refuses its access (R368). -/
def execDbmvRead (p : Fin 64) (s : State) : Out :=
  .next (if !s.chip.isUp then s.hostGets (List.replicate 8 0)
    else if !s.chip.parts[p].hubMay then s.holdBack (.dbmvRead p)
    else s.readDbmv p)

/-- A host read of BAR0 returns the aligned doubleword that holds the offset: zero until the boot has ended, and where no
register stands (R5, R349, R361, R380; log entry 117). -/
def execHostRegisterRead (off : BitVec 21) (s : State) : Out :=
  let o := off.toNat / 8 * 8
  let e := (o - 0x100000) % 0x4000
  let p : Fin 64 := Fin.ofNat 64 ((o - 0x100000) / 0x4000)
  .next (if !s.chip.isUp then s.hostGets (List.replicate 8 0)
    else if o < 0x100000 then
      s.hostGets (leBytes (s.chip.queues[Fin.ofNat 256 (o / 0x1000)].pageWord (o % 0x1000)).toNat 8)
    else if e = 0x128 then if !s.chip.parts[p].hubMay then s.holdBack (.hostRegisterRead off) else s.readDbmv p
    else s.hostGets (leBytes (s.chip.parts[p].blockWord e).toNat 8))

/-! ### Host and peer accesses (R210, R349, R350, R353) -/

/-- An access split at its lines: address and length of each piece; `n` bounds them. -/
def linePieces (a len : Nat) : Nat → List (Nat × Nat)
  | 0 => []
  | n + 1 =>
    if len = 0 then []
    else
      let k := min len (128 - a % 128)
      (a, k) :: linePieces (a + k) (len - k) n

/-- Bytes of an outside store, piece by piece, each performed at its home with a PTS taken as 0: an access from the hub (R210, R347,
R350, R367). -/
def State.outsideWrite (s : State) (p : Fin 64) (pa : Nat) (bs : List Byte) : State :=
  (linePieces pa bs.length (bs.length + 1)).foldl (fun s e =>
    if s.chip.parts[p].devBytes < e.1 + e.2 then s
    else ((s.hubPays p e.1).homeStore p e.1 ((bs.drop (e.1 - pa)).take e.2) 0).st) s

/-- Bytes of an outside read: any owner is recalled, no RTS changes; bytes beyond device memory read as ones, and a poisoned
line is an uncorrectable memory error of the partition (R349, R350, R363; log entry 114). -/
def State.outsideRead (s : State) (p : Fin 64) (pa len : Nat) : List Byte × State :=
  (linePieces pa len (len + 1)).foldl (fun r e =>
    let s := r.2
    if s.chip.parts[p].devBytes < e.1 + e.2 then (r.1 ++ List.replicate e.2 0xFF, s)
    else
      let (bs, s) := s.cmpRead p e.1 e.2
      (r.1 ++ bs, s)) ([], s)

/-- A host offset lies in the aperture of partition p (R349). -/
def Part.inAperture (q : Part) (off len : Nat) : Bool :=
  decide (q.aperBase.toNat ≤ off) && decide (off + len ≤ q.aperBase.toNat + q.aperSize.toNat)

/-- The physical address of a host offset, and the report of an access beyond device memory (R349, R360). -/
def State.aperture (s : State) (p : Fin 64) (off len : Nat) : Nat × State :=
  let q := s.chip.parts[p]
  let pa := off - q.aperBase.toNat
  (pa, if q.devBytes < pa + len then s.tell p 6 0 (.ofNat 64 off) 0 else s)

/-- HOST_WRITE (R349, R350): to an offset of BAR2 in partition p's aperture; elsewhere it is discarded. It waits where a budget
refuses it (R368). -/
def execHostWrite (p : Fin 64) (off : BitVec 48) (bytes : List Byte) (s : State) : Out :=
  if !s.chip.isUp || !s.chip.parts[p].inAperture off.toNat bytes.length then .next s
  else if !s.chip.parts[p].hubMay then .next (s.holdBack (.hostWrite p off bytes))
  else
    let (pa, s) := s.aperture p off.toNat bytes.length
    .next (s.outsideWrite p pa bytes)

/-- HOST_READ (R349, R350): elsewhere it returns all ones. It waits where a budget refuses it (R368). -/
def execHostRead (p : Fin 64) (off : BitVec 48) (len : Nat) (s : State) : Out :=
  if !s.chip.isUp || !s.chip.parts[p].inAperture off.toNat len then .next (s.hostGets (List.replicate len 0xFF))
  else if !s.chip.parts[p].hubMay then .next (s.holdBack (.hostRead p off len))
  else
    let (pa, s) := s.aperture p off.toNat len
    let r := s.outsideRead p pa len
    .next (r.2.hostGets r.1)

/-- A remote address lies outside the partition's device memory: the access fails here (R353). -/
def State.peerFails (s : State) (port : Fin 16) (p : Fin 64) (pa : BitVec 48) (len : Nat) : Bool :=
  !s.chip.isUp || !s.chip.links[port].up || decide (s.chip.parts[p].devBytes < pa.toNat + len)

/-- PEER_WRITE (R350, R353): as a host write, the partner's port standing for the host's link. -/
def execPeerWrite (port : Fin 16) (p : Fin 64) (pa : BitVec 48) (bytes : List Byte) (s : State) : Out :=
  .next (if s.peerFails port p pa bytes.length then s
    else if !s.chip.parts[p].hubMay then s.holdBack (.peerWrite port p pa bytes)
    else s.outsideWrite p pa.toNat bytes)

/-- PEER_READ (R350, R353): the reply leaves by the port on VC 1 (R351). -/
def execPeerRead (port : Fin 16) (p : Fin 64) (pa : BitVec 48) (len : Nat) (s : State) : Out :=
  if s.peerFails port p pa len then .next (s.onChip fun h => { h with peerData := [] })
  else if !s.chip.parts[p].hubMay then .next (s.holdBack (.peerRead port p pa len))
  else
    let r := s.outsideRead p pa.toNat len
    .next ((r.2.replyOn port).onChip fun h => { h with peerData := r.1 })

/-! ### Faults of many tasks -/

/-- Every task that runs now faults with a cause, where it meets a test (R308, R363, R380). -/
def State.faultRunning (s : State) (p : Nat → Task → Bool) (c : Cause) : State :=
  ((s.chip.tasks.zipIdx.filter fun e => e.1.state == .running || e.1.state == .stopping).filter fun e => p e.2 e.1).foldl
    (fun s e => s.hubFault e.2 c) s

/-- Every admitted task that meets a test faults with a cause, one that is pre-empted too (R308, R348, R351, R379). -/
def State.faultAll (s : State) (p : Nat → Task → Bool) (c : Cause) : State :=
  ((s.chip.tasks.zipIdx.filter fun e => e.1.state == .running || e.1.state == .stopping || e.1.state == .preempted).filter
    fun e => p e.2 e.1).foldl (fun s e => s.hubFault e.2 c) s

/-- Every partition that meets a test hears of an event in its error ring (R360). -/
def State.tellAll (s : State) (p : Part → Bool) (kind : Nat) (c : Cause) : State :=
  (List.finRange 64).foldl (fun (s : State) (i : Fin 64) => if p s.chip.parts[i] then s.tell i kind c 0 0 else s) s

/-- The same of an event of an earlier time. -/
def State.tellAllAt (s : State) (time : Nat) (p : Part → Bool) (kind : Nat) (c : Cause) : State :=
  (List.finRange 64).foldl (fun (s : State) (i : Fin 64) => if p s.chip.parts[i] then s.tellAt time i kind c 0 0 else s) s

/-! ### Penyan ports (R351, R352) -/

/-- The Penyan port that an address of a core's context goes through, as its TLBs map it now. -/
def State.portOf (s : State) (p : Fin 64) (c : Core) (asid : BitVec 16) (va : Nat) : Option (Fin 16) :=
  (tlbHit (c.tlb ++ c.cpeTlb ++ s.chip.dies[dieOf c.cid].tlb) asid va false).bind fun t => s.portFor p (t.pa + (va - t.base))

/-- Task t has a request outstanding on a port, with its flit or still before it (R351). -/
def State.requestOn (s : State) (t : Nat) (k : Task) (port : Fin 16) : Bool :=
  ((s.gangOf t).any fun c => c.loc.greqs.any fun r =>
    (r.sent.any fun x => x.port == port) || s.portOf k.part c k.asid r.va == some port) ||
  (k.windows.any fun e => e.2.open_.any fun r => r.reqs.any fun q => s.portFor k.part q.pa == some port)

/-- A partition has a peer window or a peer barrier group that is routed through a port (R353, R354). -/
def State.routedOn (s : State) (p : Fin 64) (port : Fin 16) : Bool :=
  let q := s.chip.parts[p]
  ((List.range 128).any fun e =>
    bitAt (q.peerEntry e) 0 && look 0 (fld (q.peerEntry e) 16 16) s.chip.route == port.val) ||
  q.groups.any fun e => e.2.gangs != 0 && (e.2.up == some port || e.2.down.getLsbD port.val)

/-- The port goes down with a cause of kind k: its partition hears of it, and the tasks with a request outstanding on it, or
a window or a peer barrier routed through it, fault (R351). -/
def State.portDown (s : State) (port : Fin 16) (kind : Nat) : State :=
  let c := cLINK port.val kind
  let s := s.onLink port fun l => { l with
    up := false
    training := false }
  (s.faultAll (fun t k => s.requestOn t k port || s.routedOn k.part port) c).tellAll (fun q => q.plnk.getLsbD port.val) 4 c

/-- What AK, NK and CRED of an accepted flit do at this end; none where a NK names a SEQ no longer buffered (R351). -/
def Link.heed (l : Link) (f : Flit) : Option Link :=
  let l := { l with credits := Vector.ofFn fun (i : Fin 4) => l.credits[i] + fld f.cred.toNat (4 * i.val) 4 }
  let l := if f.ak then
      match l.buffer.findIdx? (·.seq == f.aseq) with
      | some i =>
        let got := (l.buffer.take (i + 1)).any (·.seq == l.naked)
        { l with
          buffer := l.buffer.drop (i + 1)
          resent := if got then 0 else l.resent
          retrainsOut := if got then 0 else l.retrainsOut }
      | none => l
    else l
  if !f.nk then some l
  else if f.aseq = l.next then some l
  else match l.buffer.findIdx? (·.seq == f.aseq) with
    | some i =>
      let again := l.naked == f.aseq
      some { l with
        sent := l.sent ++ l.buffer.drop i
        naked := f.aseq
        resent := if again then l.resent + 1 else 1
        retrainsOut := if again then l.retrainsOut else 0 }
    | none => none

/-- The next expected flit is accepted. Its VC's credit is to be returned, and an acknowledgement is due where it carries
messages (R351; log entry 112). -/
def Link.accept (l : Link) (f : Flit) : Link :=
  { l with
    expect := l.expect + 1
    accepted := l.accepted ++ [f]
    owed := l.owed.set f.vc (l.owed[f.vc] + 1)
    ackDue := l.ackDue || f.payload != 0
    replays := 0
    retrains := 0 }

/-- What is due is sent; after 8 replays of one SEQ, of the partner's or of this end's, the port retrains, and after three retrains
in a row that have not delivered it the port goes down (R351). -/
def State.settlePort (s : State) (port : Fin 16) (l : Link) : State :=
  let s := s.onPort port l
  if l.replays < 8 && l.resent < 8 then s.portStep port
  else if (8 ≤ l.replays && 3 ≤ l.retrains) || (8 ≤ l.resent && 3 ≤ l.retrainsOut) then s.portDown port 1
  else (s.portStep port).onLink port fun l => { l with training := true }

/-- A barrier token that came through a port reaches the group of the port's owner: an arrival from behind it, or the release from
the device that collects the arrivals (R354). -/
def State.peerToken (s : State) (port : Fin 16) (f : Flit) : State :=
  if f.vc ≠ 3 || f.payload == 0 then s
  else match s.chip.partOfPort port, Config.peerToken f.payload with
    | some p, some (b, free) =>
      let g := look .none b.val s.chip.parts[p].groups
      if g.gangs = 0 then s
      else if free then if g.up = some port then s.onGroup p b.val fun g => { g with free := g.free + 1 } else s
      else if g.down.getLsbD port.val then s.onGroup p b.val fun g => { g with came := g.came + 1 }
      else s
    | _, _ => s

/-- An SYE request of another device that came through a port waits at the SYE of its home's die; at an address outside the
partition's device memory it fails, and the reply says so (R279, R291, R353). -/
def State.peerRequest (s : State) (port : Fin 16) (f : Flit) : State :=
  if f.vc ≠ 0 || f.payload == 0 || !s.chip.isUp then s
  else match Config.peerSye f.payload with
    | none => s
    | some r =>
      let q := s.chip.parts[r.part]
      if r.dev = 0 then s
      else if q.devBytes < r.pa.toNat + r.fmt.bytes then s.replyOn port
      else s.onSye (q.homeDie r.pa.toNat) fun y => { y with
        reqs := y.reqs ++ [⟨r.dev, r.core, 0, r.seq, 0, r.part, 0, 0, 0, r.pa.toNat, false, 0, .atom r.op r.fmt r.x r.cmp, false⟩] }

/-- FLIT_RECEIVE (R351, R353, R354): the port accepts the next expected flit with a good CRC; for any other it asks for a replay. -/
def execFlitReceive (port : Fin 16) (f : Flit) (s : State) : Out :=
  let l := s.chip.links[port]
  if !l.up || l.training then .next s
  else
    let s := match s.chip.partOfPort port with
      | some p => s.onPart p fun q => q.spend 3 port.val 1
      | none => s
    if flitGood f && f.seq == l.expect then
      match (l.accept f).heed f with
      | some l => .next (((s.settlePort port l).peerToken port f).peerRequest port f)
      | none => .next ((s.onLink port fun _ => l.accept f).portDown port 4)
    else .next (s.settlePort port { l with
      replays := l.replays + 1
      nakDue := true })

/-- The receive state of an end was reset: the replay buffers are discarded, every SYE request that a port has is sent again
with its id and sequence number, and the tasks with a plain access outstanding there fault (R352). -/
def State.portReset (s : State) (port : Fin 16) : State :=
  let s := s.onLink port fun l => { l with
    expect := 0
    next := 0
    buffer := []
    owed := Vector.replicate 4 0
    ackDue := false
    nakDue := false }
  let plain := fun (t : Nat) (_ : Task) => (s.gangOf t).any fun c => c.loc.greqs.any fun r =>
    r.sync.isNone && r.sent.any fun x => x.port == port && !x.lost
  let c := cLINK port.val 0
  let hit := s.chip.tasks.zipIdx.any fun e => plain e.2 e.1
  let s := s.faultAll plain c
  let s := if hit then s.tellAll (fun q => q.plnk.getLsbD port.val) 4 c else s
  let s := s.onCores fun c => { c with loc := { c.loc with greqs := c.loc.greqs.map fun r => { r with
    sent := r.sent.map fun x => if x.port == port then { x with lost := true } else x } } }
  s.onChip fun h => { h with tasks := h.tasks.map fun k => { k with windows := k.windows.map fun e => (e.1, e.2.onReqs fun q =>
    { q with sent := q.sent.map fun x => if x.1 == port then (x.1, x.2.1, true) else x }) } }

/-- The retrain ends: the flits of the replay buffer are sent again, or the receive state of an end was reset (R351, R352). -/
def State.retrained (s : State) (port : Fin 16) (agree reset : Bool) : State :=
  let l := s.chip.links[port]
  if !agree then s.portDown port 2
  else
    let l := { l with
      training := false
      retrains := l.retrains + bit (l.training && decide (8 ≤ l.replays))
      retrainsOut := l.retrainsOut + bit (l.training && decide (8 ≤ l.resent))
      replays := 0
      resent := 0 }
    if reset then (s.onLink port fun _ => l).portReset port
    else (s.onPort port { l with sent := l.sent ++ l.buffer }).portStep port

/-- LINK_RETRAIN (R351, R352). -/
def execLinkRetrain (port : Fin 16) (r : Retrain) (s : State) : Out :=
  if !s.chip.links[port].up then .next s
  else .next (match r with
    | .fails => s.portDown port 0
    | .ends agree reset => s.retrained port agree reset
    | .bufferEcc => s.portDown port 3)

/-! ### UCIe links (R303, R347, R348) -/

/-- The compute dies a UCIe link joins: one, where its other end is the hub (R303). -/
def ucieEnds (u : Fin 8) : List Nat := if u.val % 2 = 0 then [u.val / 2] else [u.val / 2, (u.val / 2 + 1) % 4]

/-- A partition owns a cluster, an L2 bank or a channel on a die (R348). -/
def Part.onDie (q : Part) (d : Nat) : Bool :=
  fld q.pclu.toNat (16 * d) 16 != 0 || fld q.pbnk.toNat (32 * d) 32 != 0 || fld q.pchn.toNat (16 * d) 16 != 0

/-- UCIE_LINK_FAIL (R348): every task of every partition that owns something on either die faults. -/
def execUcieLinkFail (u : Fin 8) (kind : Fin 5) (s : State) : Out :=
  let c := cUCIE u.val kind.val
  let hit := fun (q : Part) => (ucieEnds u).any q.onDie
  let s := s.onChip fun h => { h with ucieDown := h.ucieDown.set u true }
  .next ((s.faultAll (fun _ k => hit s.chip.parts[k.part]) c).tellAll hit 4 c)

/-! ### Errors (R74, R303, R363) -/

/-- A line of an uncontained set is lost: no copy of it stays, and it is poisoned (R363). -/
def State.loseLine (s : State) (p : Fin 64) (ln : Nat) : State :=
  let owner := (s.lineAt p (ln * 128)).owner
  let s := match owner with
    | some c => s.onCoreAt c fun x => x.dropLine ln
    | none => s
  s.setLine p (ln * 128) { s.lineAt p (ln * 128) with
    owner := none
    poison := true }

/-- The module has not yet built its partitions (R380). -/
def Chip.unbuilt (h : Chip) : Bool := match h.boot with
  | .step n => decide (n ≤ 5)
  | _ => false

/-- A partition owns L2 bank b. -/
def Part.hasBank (q : Part) (b : Fin 128) : Bool := q.pbnk.getLsbD b.val

/-- The lines of a set of bank b are dropped and poisoned in every partition whose PBNK has b, and each hears of it with the
time of the error (R360, R363). -/
def State.tenantHeard (s : State) (time : Nat) (b : Fin 128) (owner : Bool) (lines : List Nat) : State :=
  let s := (List.finRange 64).foldl (fun (s : State) (p : Fin 64) =>
    let q := s.chip.parts[p]
    if !q.hasBank b then s
    else (lines.filter fun ln => q.homeBank (ln * 128) == b.val && decide (ln * 128 < q.devBytes)).foldl
      (fun s ln => s.loseLine p ln) s) s
  s.tellAllAt time (·.hasBank b) 2 (cTENANT b.val owner)

/-- TENANT_TAG (R363): the lines of the entry's set at bank b are dropped and poisoned, and every partition whose PBNK has
b hears of it and has its running tasks faulted. Before the partitions are built, the error is kept for them (R382). -/
def execTenantTag (b : Fin 128) (owner : Bool) (lines : List Nat) (s : State) : Out :=
  if s.chip.unbuilt then .next (s.onChip fun h => { h with found := h.found ++ [(h.time, .tenant b owner lines)] })
  else .next ((s.faultRunning (fun _ k => s.chip.parts[k.part].hasBank b) (cTENANT b.val owner)).tenantHeard s.chip.time b owner lines)

/-- The cause of an uncorrectable error (R303). -/
def eccCause : EccSite → Cause
  | .mem level agent _ => cMEM level.val agent.val
  | .cell n => cCELL n .ecc
  | .port n => cPORT n .ecc
  | .rot q => cROT q .ecc
  | .eng cls => cENG cls.val .ecc
  | .dict => cDICT_ECC
  | .link port => cLINK port.val 3

/-- ADDR of the ring entry (R360). -/
def eccAddr : EccSite → Word
  | .mem _ _ a => zextW a.toNat
  | _ => 0

/-- The partition that owns a core. -/
def Chip.partOfCore (h : Chip) (cid : BitVec 8) : Option (Fin 64) :=
  (List.finRange 64).find? fun (p : Fin 64) => h.parts[p].pclu.getLsbD (clusterOf cid)

/-- The partition that owns the resource in which an error is: a port's, or that of the core whose agent met it. -/
def Chip.eccOwner (h : Chip) (core : BitVec 8) : EccSite → Option (Fin 64)
  | .link port => h.partOfPort port
  | _ => h.partOfCore core

/-- A corrected error counts in CECNT of the owner, and an uncorrectable one reaches the owner's ring with its time (R360, R362). -/
def State.eccHeard (s : State) (time : Nat) (core : BitVec 8) (site : EccSite) (corrected : Bool) : State :=
  match s.chip.eccOwner core site with
  | none => s
  | some p =>
    if corrected then s.onPart p fun q => { q with cecnt := .ofNat 32 (min (q.cecnt.toNat + 1) (2 ^ 32 - 1)) }
    else match site with
      | .link _ => s.tellAt time p 4 (eccCause site) 0 0
      | _ => s.tellAt time p 3 (eccCause site) (eccAddr site) 0

/-- UNCORRECTABLE_ERROR (R74, R303, R351, R360, R362, R382): a corrected error counts; an uncorrectable one raises its cause on
the core whose agent met it, and its partition hears of it. One in the replay buffer of a port brings the port down. Before
the partitions are built, errors are kept for them, with their times. -/
def execUncorrectableError (core : BitVec 8) (site : EccSite) (corrected : Bool) (s : State) : Out :=
  let keep := fun (s : State) => s.onChip fun h => { h with found := h.found ++ [(h.time, .ecc core site corrected)] }
  match site, corrected with
  | .link port, false => .next (if !s.chip.links[port].up then s
      else if s.chip.unbuilt then keep (s.portDown port 3)
      else s.portDown port 3)
  | _, _ =>
    if s.chip.unbuilt then .next (keep s)
    else if corrected then .next (s.eccHeard s.chip.time core site true)
    else
      let c := eccCause site
      let s := s.atCore core fun s => if s.core.task.isSome then s.raiseAsync c 0 else s
      .next (s.eccHeard s.chip.time core site false)

/-- SYE_LOST (R303): what the SYE of die d held is gone, and the tasks that depend on it fault: those with a core on the
die, or whose partition homes lines there. -/
def execSyeLost (die : Fin 4) (s : State) : Out :=
  let s := s.onSye die fun _ => ⟨[], [], 0, false⟩
  .next (s.faultAll (fun _ k => (k.cores.any fun c => dieOf c == die)
    || fld s.chip.parts[k.part].pbnk.toNat (32 * die.val) 32 != 0) (cSYE_LOST die.val))

/-! ### Partitions (R358) -/

/-- A task of the partition is admitted or queued. -/
def State.partBusy (s : State) (p : Fin 64) : Bool :=
  (s.chip.tasks.any fun k => k.part == p && k.state != .done) ||
  (List.finRange 256).any fun (j : Fin 256) => s.chip.queues[j].part == some p && s.chip.queues[j].head != s.chip.queues[j].tail

/-- Last ASID of a range. -/
def asidEnd (x : Half) : Nat := fld x.toNat 0 16 + fld x.toNat 16 16

/-- No other partition meets a test. -/
def State.noOther (s : State) (p : Fin 64) (f : Part → Bool) : Bool :=
  (List.finRange 64).all fun (i : Fin 64) => i == p || !f s.chip.parts[i]

/-- Firmware has defined the partition: it holds some resource. -/
def Part.defined (q : Part) : Bool :=
  q.pclu != 0 || q.pbnk != 0 || q.pchn != 0 || q.plnk != 0 || q.psye != 0 || q.phub != 0 || q.pasid != 0

/-- The ASIDs of a partition pass no 65,535 and overlap no other's (R358). -/
def State.asidsOk (s : State) (p : Fin 64) (q : Part) : Bool :=
  !q.defined || (decide (asidEnd q.pasid ≤ 65535) && s.noOther p fun x =>
    x.defined && decide (fld q.pasid.toNat 0 16 ≤ asidEnd x.pasid) && decide (fld x.pasid.toNat 0 16 ≤ asidEnd q.pasid))

/-- The quotas of SYE SRAM on a die stay within 128 units (R358). -/
def State.quotaOk (s : State) (p : Fin 64) (v : Half) : Bool :=
  [0, 1, 2, 3].all fun d => decide (((List.finRange 64).map fun (i : Fin 64) =>
    fld (if i = p then v else s.chip.parts[i].psye).toNat (8 * d) 8).sum ≤ 128)

/-- Changes that wait until no task of the partition is admitted or queued (R358). -/
def needsIdle : PartChange → Bool
  | .clusters _ | .banks _ | .channels _ | .links _ | .syeQuota _ | .hub _ | .asids _ => true
  | _ => false

/-- A host or peer window entry without its reserved bits (R6, R353). -/
def hostEntryOf (v : Word) : Word := v &&& 0xFFFFFF0000000003
def peerEntryOf (v : Word) : Word := v &&& 0x000000FFFFFFFF01

/-- A change of a partition's own block. -/
def Part.change (q : Part) : PartChange → Part
  | .clusters b => { q with pclu := b }
  | .banks b => { q with pbnk := b }
  | .channels b => { q with pchn := b }
  | .links b => { q with plnk := b }
  | .syeQuota v => { q with psye := v }
  | .hub v => { q with phub := v }
  | .asids v => { q with pasid := v }
  | .budget k v => { q with qb := q.qb.set k v }
  | .bitmapBase pa => { q with dbmbase := zextW pa.toNat }
  | .counters pa => { q with counters := pa }
  | .aperture b n => { q with aperBase := b, aperSize := n }
  | .hostWindow e v => { q with hostWin := put 0 e.val (hostEntryOf v) q.hostWin }
  | .peerWindow e v => { q with peerWin := put 0 e.val (peerEntryOf v) q.peerWin }
  | .peerGroup b n up down => { q with groups := put .none b.val ⟨n, up, down, 0, 0, 0⟩ q.groups }
  | .debugEnable b => { q with debugEn := b }
  | .revive a => { q with dying := q.dying.filter (· != a.toNat) }
  | .route _ _ | .queue _ _ _ _ | .freeQueue _ => q

/-- An exclusive resource lies in at most one partition; quotas and ASIDs stay in range (R358). -/
def State.changeOk (s : State) (p : Fin 64) (ch : PartChange) : Bool :=
  (match ch with
    | .clusters b => s.noOther p fun q => q.pclu &&& b != 0
    | .channels b => s.noOther p fun q => q.pchn &&& b != 0
    | .links b => s.noOther p fun q => q.plnk &&& b != 0
    | .syeQuota v => s.quotaOk p v
    | _ => true) && (!needsIdle ch || s.asidsOk p (s.chip.parts[p].change ch))

/-- PARTITION_CONFIGURE (R332, R336, R353, R354, R358): what CMP firmware changes. -/
def execPartitionConfigure (p : Fin 64) (ch : PartChange) (s : State) : Out :=
  if (needsIdle ch && s.partBusy p) || !s.changeOk p ch then .next s
  else .next (match ch with
    | .route dev port => s.onChip fun h => { h with route := put 0 dev.toNat port.val h.route }
    | .queue j ceiling en dev => s.onHw j fun q => { q with
        part := some p
        ceiling := .ofNat 3 ceiling.val
        en := en
        dev := dev }
    | .freeQueue j => s.onHw j fun q => { q with part := none }
    | ch => s.onPart p (·.change ch))

/-! ### Clocks and power (R367, R369, R378, R379) -/

/-- A die takes an edge of the module's reference clock on which a cycle 8,192k of its own starts (R4, R367). -/
def Chip.periodStarts (h : Chip) (d : Fin 4) : Bool := !h.dies[d].skips && h.clock d % 8192 == 0

/-- QUARTZ_PERIOD (R367): every budget count of a die's instances is 0 at its period's start, and those of the hub at the
hub's. -/
def execQuartzPeriod (s : State) : Out :=
  let h := s.chip
  let due := ((List.finRange 4).filter h.periodStarts).map (·.val) ++ if h.base % 8192 = 0 then [4] else []
  .next (if due.isEmpty then s
    else s.onChip fun h => { h with parts := h.parts.mapAll fun q => due.foldl Part.newPeriod q })

/-- CLOCK_STRETCH (R4, R369): the die's clock skips edges while the sag lasts; STRETCH counts them. -/
def execClockStretch (die : Fin 4) (edges : Nat) (s : State) : Out :=
  .next (s.onChip fun h => { h with dies := h.dies.set die { h.dies[die] with
    stretch := h.dies[die].stretch + .ofNat 64 edges
    owed := h.dies[die].owed + edges } })

/-- THERMAL_TRIP (R379): every task of the partition that owns the cluster faults, and it is down until the next reset. -/
def execThermalTrip (cluster : Fin 64) (s : State) : Out :=
  let s := s.faultAll (fun _ k => s.chip.parts[k.part].pclu.getLsbD cluster.val) (cCLUSTER_DOWN cluster.val)
  .next (s.onChip fun h => { h with down := h.down ||| .ofNat 64 (2 ^ cluster.val) })

/-- The module at step 1 of its boot again: what lies outside it, its flash and its fuses stay (R378, R380). -/
def State.restart (s : State) (resets : Word) : State :=
  { State.reset with
    chip := { Chip.reset with
      hostMem := s.chip.hostMem
      peerMem := s.chip.peerMem
      flash := s.chip.flash
      fuses := s.chip.fuses
      resets := resets }
    inbox := s.inbox
    fresh := s.fresh }

/-- RAIL_FAULT (R378): a rail out of its window drops the module into reset. RESETS counts from rails up. -/
def execRailFault (_rail : Fin 5) (s : State) : Out := .next (s.restart 0)

/-- CONVENTIONAL_RESET (R380): the module restarts from step 1. -/
def execConventionalReset (s : State) : Out := .next (s.restart (s.chip.resets + 1))

/-- A pre-empted task that a function-level reset discards: no record is written (R380). -/
def State.forget (s : State) (t : Nat) (k : Task) : State :=
  s.onTask t fun _ => { k.discard with
    state := .done
    saved := [] }

/-- FUNCTION_LEVEL_RESET (R380): every running task faults with TEARDOWN_REQUEST, queued descriptors are discarded, HEAD,
TAIL and QBASE of every queue are 0. -/
def execFunctionLevelReset (s : State) : Out :=
  let s := s.faultRunning (fun _ _ => true) cTEARDOWN_REQUEST
  let s := ((s.chip.tasks.zipIdx).filter fun e => e.1.state == .preempted).foldl (fun s e => s.forget e.2 e.1) s
  .next (s.onChip fun h => { h with
    replays := []
    queues := h.queues.mapAll fun q => { q with
      head := 0
      tail := 0
      qbase := 0
      elig := none
      returned := []
      dead := [] } })

/-! ### Boot (R380, R382) -/

/-- The firmware image verifies (R380, step 2). -/
def firmwareOk (f : Flash) (u : Fuses) : Bool :=
  Config.mlDsaVerify f.pubKey (Config.shake256 f.firmware) f.signature && Config.shake256 f.pubKey == u.keyDigest
    && decide (u.minSvn.toNat ≤ f.svn.toNat)

/-- A partition as firmware builds it: what firmware gives it, with everything else as reset leaves it (R361, R382). -/
def Part.built (q : Part) : Part :=
  { Part.none with
    pclu := q.pclu
    pbnk := q.pbnk
    pchn := q.pchn
    plnk := q.plnk
    psye := q.psye
    phub := q.phub
    pasid := q.pasid
    dbmbase := q.dbmbase
    qb := q.qb
    aperBase := q.aperBase
    aperSize := q.aperSize
    hostWin := q.hostWin.foldl (fun l e => put 0 e.1 (hostEntryOf e.2) l) []
    peerWin := q.peerWin.foldl (fun l e => put 0 e.1 (peerEntryOf e.2) l) []
    groups := q.groups.foldl (fun l e => put .none e.1 ⟨e.2.gangs, e.2.up, e.2.down, 0, 0, 0⟩ l) []
    counters := q.counters
    debugEn := q.debugEn }

/-- A queue as firmware builds it (R332). -/
def HwQueue.built (q : HwQueue) : HwQueue :=
  { HwQueue.none with
    part := q.part
    ceiling := q.ceiling
    en := q.en
    dev := q.dev }

/-- Step 5: the partitions, queues, routes and energy weights of the configuration in flash; the weight of class 15 is 0
(R370, R380). -/
def Chip.configure (h : Chip) : Chip :=
  { h with
    parts := Vector.ofFn fun (p : Fin 64) => (look .none p.val h.flash.parts).built
    queues := Vector.ofFn fun (j : Fin 256) => (look .none j.val h.flash.queues).built
    route := h.flash.route
    weights := h.flash.weights.set 15 0
    found := []
    boot := .step 6 }

/-- The partitions hear of an error of the steps before they were built, with its time (R360, R382). -/
def State.heardLate (s : State) (e : Nat × FoundError) : State := match e.2 with
  | .ecc core site corrected => s.eccHeard e.1 core site corrected
  | .tenant b owner lines => s.tenantHeard e.1 b owner lines

/-- Step 5 ends: the partitions hear of the errors of the steps before (R382). -/
def State.configure (s : State) : State := s.chip.found.foldl State.heardLate (s.onChip Chip.configure)

/-- Step 6: the measurement is recorded, and BAR0 opens (R380). -/
def Chip.open (h : Chip) : Chip :=
  { h with
    measured := some (Config.shake256 h.flash.firmware)
    dispatchAt := (h.time + 3) / 4 * 4
    boot := .up }

/-- A step fails: the module stays there, with its error code (R380). -/
def Chip.bootFails (h : Chip) (n : Nat) : Chip :=
  { h with
    boot := .failed n
    bootError := n }

/-- BOOT (R380): the next step of the boot ends. `ok`: every die trains in step 4. -/
def execBoot (ok : Bool) (s : State) : Out :=
  .next (match s.chip.boot with
    | .step 1 => s.onChip fun h => { h with time := 0, frac := 0, boot := .step 2 }
    | .step 2 => s.onChip fun h => if firmwareOk h.flash h.fuses then { h with boot := .step 3 } else h.bootFails 2
    | .step 3 => s.onChip fun h => { h with boot := .step 4 }
    | .step 4 => s.onChip fun h => if ok then { h with boot := .step 5 } else h.bootFails 4
    | .step 5 => s.configure
    | .step _ => s.onChip Chip.open
    | .failed _ | .up => s)

/-! ### Attestation (R381) -/

/-- A partition's bitmaps and window tables as bytes. -/
def Part.bytes (q : Part) : List Byte :=
  leBytes q.pclu.toNat 8 ++ leBytes q.pbnk.toNat 16 ++ leBytes q.pchn.toNat 8 ++ leBytes q.plnk.toNat 2 ++ leBytes q.psye.toNat 4
    ++ leBytes q.phub.toNat 4 ++ leBytes q.pasid.toNat 4
    ++ ((List.range 64).flatMap fun e => leBytes (q.hostEntry e) 8) ++ (List.range 128).flatMap fun e => leBytes (q.peerEntry e) 8

/-- Bytes 0x000–0x1BF of a report. -/
def Report.body (r : Report) : List Byte :=
  leBytes 1 4 ++ leBytes r.svn.toNat 4 ++ leBytes r.nonce.toNat 32 ++ leBytes r.idkey.toNat 64 ++ leBytes r.fwdig.toNat 64
    ++ leBytes r.cfgdig.toNat 64 ++ leBytes r.partdig.toNat 64 ++ leBytes r.harvest.toNat 8 ++ leBytes r.down.toNat 8
    ++ leBytes r.resets.toNat 8 ++ List.replicate 128 0

/-- The report over a nonce, without its signature. -/
def Chip.report0 (h : Chip) (nonce : BitVec 256) (fw : BitVec 512) : Report where
  nonce := nonce
  idkey := Config.shake256 (Config.identityKey h.fuses.secret fw)
  fwdig := fw
  cfgdig := Config.shake256 h.flash.config
  partdig := Config.shake256 ((h.parts.toList.flatMap Part.bytes) ++ h.queues.toList.flatMap fun q => leBytes q.qcfg.toNat 4)
  svn := h.flash.svn
  harvest := h.fuses.harvest
  down := h.down
  resets := h.resets
  sig := 0

/-- ATTESTATION_REQUEST (R381): the report, signed with the identity key; none before step 6 derived it. -/
def execAttestationRequest (nonce : BitVec 256) (s : State) : Out :=
  match s.chip.measured with
  | none => .next s
  | some fw => .next (s.onChip fun h =>
      let r := h.report0 nonce fw
      { h with report := some { r with sig := Config.mlDsaSign h.fuses.secret fw (Config.shake256 r.body) } })

end Sys2Proof.Machine
end

