-- ==== Sys2Proof/Machine/Debug.lean ====
section
/-! DEFINITION. The debug port (R322–R324). A transaction that is not answered OK has no effect. -/

namespace Sys2Proof.Machine

/-- STATUS codes (R322). -/
def dbgOK : BitVec 8 := 0
def dbgDENIED : BitVec 8 := 1
def dbgBADOP : BitVec 8 := 2
def dbgNOTHALTED : BitVec 8 := 3
def dbgRANGE : BitVec 8 := 4
def dbgBusy : BitVec 8 := 0xFF

/-- STATE of a response (R322). -/
def Core.debugState (c : Core) : BitVec 4 :=
  if c.task.isNone then 3
  else match c.sq.debug with
    | .running | .halting => 0
    | .halted => 1
    | .stepping | .stepped => 2

/-- The port is denied: before the boot has ended, or by the core's partition (R322). -/
def State.debugDenied (s : State) (core : BitVec 8) : Bool :=
  !s.chip.isUp || match s.chip.partOfCore core with
    | some p => !s.chip.parts[p].debugEn
    | none => true

/-- A response. -/
def State.respond (s : State) (core : BitVec 8) (status : BitVec 8) (data : Word) : State :=
  let st := ((s.coreAt core).map (·.debugState)).getD 3
  s.onChip fun h => { h with debug := ⟨status, st, data⟩ }

/-- A transaction with its core in turn, where it is not denied. -/
def State.debugOp (s : State) (core : BitVec 8) (f : State → BitVec 8 × Word × State) : Out :=
  if s.debugDenied core then .next (s.respond core dbgDENIED 0)
  else match s.coreAt core with
    | none => .next (s.respond core dbgDENIED 0)
    | some _ =>
      let r := f { s with core := s.core }
      .next (r.2.2.respond core r.1 r.2.1)

/-- The core that a transaction names, as it stands. -/
def State.debugCore (s : State) (core : BitVec 8) : Core := (s.coreAt core).getD s.core

/-- NOP (R322). -/
def execDebugNop (core : BitVec 8) (s : State) : Out := s.debugOp core fun s => (dbgOK, 0, s)

/-- The core's sequencer is halted with a context. -/
def Core.isHalted (c : Core) : Bool := c.task.isSome && c.sq.debug == .halted

/-- HALT (R324): the sequencer stops at its next issue boundary; a HALT of a halted core has no effect. -/
def execDebugHalt (core : BitVec 8) (s : State) : Out :=
  s.debugOp core fun s => (dbgOK, 0, s.onCoreAt core fun c =>
    if c.task.isNone || c.sq.debug == .halted then c else { c with sq := { c.sq with debug := .halting } })

/-- STEP (R324): one issue. -/
def execDebugStep (core : BitVec 8) (s : State) : Out :=
  s.debugOp core fun s =>
    if !(s.debugCore core).isHalted then (dbgNOTHALTED, 0, s)
    else (dbgOK, 0, s.onCoreAt core fun c => { c with sq := { c.sq with debug := .stepping } })

/-- RESUME (R324): CAUSE comes back from DCAUSE, and the next issue matches no breakpoint. -/
def execDebugResume (core : BitVec 8) (s : State) : Out :=
  s.debugOp core fun s =>
    if !(s.debugCore core).isHalted then (dbgNOTHALTED, 0, s)
    else (dbgOK, 0, s.onCoreAt core fun c => { c with sq := { c.sq with
      cause := c.sq.dcause
      debug := .running
      skipBrk := true } })

/-- STATUS: STATE and DCAUSE (R324). -/
def execDebugStatus (core : BitVec 8) (s : State) : Out :=
  s.debugOp core fun s => (dbgOK, zextW (s.debugCore core).sq.dcause.toNat, s)

/-! ### READ (R323) -/

/-- An item that only a halted core shows. -/
def Core.whenHalted (c : Core) (v : Word) : BitVec 8 × Word := if c.isHalted then (dbgOK, v) else (dbgNOTHALTED, 0)

/-- Eight bytes of a little-endian list from an offset. -/
def at8 (l : List Byte) (o : Nat) : Word := .ofNat 64 (leNat ((l.drop o).take 8))

/-- Loop and repeat state, item i (R68, R323). -/
def Core.loopItem (c : Core) (i : Nat) : Word :=
  if h : i < 9 then zextW (c.sq.rl ⟨i, h⟩).toNat
  else if i = 9 then zextW c.sq.repc.toNat
  else if i = 10 then c.sq.reps
  else zextW c.sq.pins.toNat

/-- A slot table item: an entry as RSTAT reads it, or the summary; 0 where the rotation has no such entry (R180, R323). -/
def Core.slotItem (c : Core) (q : Fin 8) (p : Nat) : Word :=
  let r := c.fab.rots[q]
  if p = 64 then r.summary else match r.slots[p]? with
    | some x => x.word false
    | none => 0

/-- An SRAM doubleword: of the scratchpad, or of the raw storage of the L1, which is a free value (R323). -/
def State.sramItem (s : State) (c : Core) (o : Nat) : Word × State :=
  if o < c.sq.spadSize then (.ofNat 64 (rdNat c.loc.mem o 8), s)
  else
    let (k, s) := s.take
    (Config.rawL1 k, s)

/-- A control register item: its value as RDC reads it (R48, R323). -/
def State.cregItem (s : State) (c : Core) (n : Nat) : BitVec 8 × Word :=
  match ({ s with core := c }).creg n with
  | some v => (dbgOK, v)
  | none => (dbgRANGE, 0)

/-- One item of a space (R323). -/
def State.debugItem (s : State) (c : Core) (space i : Nat) : BitVec 8 × Word × State :=
  let ok := fun (v : Word) => (dbgOK, v, s)
  let of := fun (r : BitVec 8 × Word) => (r.1, r.2, s)
  let range : BitVec 8 × Word × State := (dbgRANGE, 0, s)
  if space = 0 then if h : i < 32 then of (c.whenHalted (c.sq.rg ⟨i, h⟩)) else range
  else if space = 1 then if h : i < 8 then of (c.whenHalted (zextW (bit (c.sq.rc ⟨i, h⟩)))) else range
  else if space = 2 then of (s.cregItem c i)
  else if space = 3 then if i = 0 then of (c.whenHalted (zextW c.sq.nextAddr.toNat)) else range
  else if space = 4 then
    if i % 8 = 0 && i < 2 ^ 24 then
      let r := s.sramItem c i
      (dbgOK, r.1, r.2)
    else range
  else if space = 5 then if i < c.sq.spadSize / 4 then ok (zextW (bit (c.loc.full (4 * i)))) else range
  else if space = 6 then if i < 4096 && i % 4 < 3 then ok ((c.loc.entry (i / 4)).part (i % 4)) else range
  else if space = 7 then if i % 8 = 0 && i < 0x410 then ok (at8 (c.counterBlock s.chip.now) i) else range
  else if space = 8 then
    if h : i < 64 then ok (zextW (fld (c.loc.handles[i / 2]'(by omega)).word.toNat (64 * (i % 2)) 64)) else range
  else if space = 9 then
    if h : i < 512 then (if i % 32 < 18 then ok (.ofNat 64 ((c.loc.sd[i / 32]'(by omega)).word / 2 ^ (64 * (i % 32)))) else range)
    else range
  else if space = 10 then if h : i < 520 then ok (c.slotItem ⟨i / 65, by omega⟩ (i % 65)) else range
  else if space = 11 then if i < 12 then of (c.whenHalted (c.loopItem i)) else range
  else range

/-- READ (R323). -/
def execDebugRead (core : BitVec 8) (space : Fin 16) (index : Half) (s : State) : Out :=
  s.debugOp core fun s => s.debugItem (s.debugCore core) space.val index.toNat

/-! ### WRITE (R323) -/

/-- A control register that a WRC may change (R46, R323). -/
def cregWritable (n : Nat) : Bool :=
  inSpan n 0x010 3 || inSpan n 0x018 5 || n == 0x028 || n == 0x031 || n == 0x038 || inSpan n 0x058 24

/-- The value a WRC of v gives control register n: LEASE clamped, an illegal L1MB refused (R186, R207). -/
def cregValue (n : Nat) (v : Word) : Option Word :=
  if n = 0x031 then some (zextW (min 256 (max 8 (v.toNat % 2 ^ 16))))
  else if n = 0x038 && 5 ≤ v.toNat % 8 then none
  else some v

/-- Loop and repeat state, item i, is set (R90, R323). -/
def Sq.setLoopItem (q : Sq) (i : Nat) (v : Word) : Sq :=
  if h : i < 9 then q.wl ⟨i, h⟩ (.ofNat 32 v.toNat)
  else if i = 9 then { q with repc := .ofNat 16 v.toNat }
  else if i = 10 then { q with reps := v }
  else { q with pins := .ofNat 32 v.toNat }

/-- What a WRITE does to a halted core; none is RANGE (R323). -/
def Core.debugSet (c : Core) (space i : Nat) (v : Word) : Option Core :=
  if space = 0 then if h : i < 32 then some (c.land1 (.g ⟨i, h⟩ v)) else none
  else if space = 1 then if h : i < 8 then some (c.land1 (.c ⟨i, h⟩ (v.getLsbD 0))) else none
  else if space = 2 then
    if !cregWritable i then none
    else match cregValue i v with
      | some v => some (c.land1 (.creg i v))
      | none => some c
  else if space = 3 then
    if i = 0 && v.toNat % 4 = 0 then some { c with sq := { c.sq with
        pc := .ofNat 32 v.toNat
        target := none } } else none
  else if space = 4 then
    if i % 8 = 0 && i < c.sq.spadSize then some { c with loc := { c.loc with mem := wrNat c.loc.mem i 8 v.toNat } } else none
  else if space = 11 then if i < 12 then some { c with sq := c.sq.setLoopItem i v } else none
  else none

/-- WRITE (R323). -/
def execDebugWrite (core : BitVec 8) (space : Fin 16) (index : Half) (data : Word) (s : State) : Out :=
  s.debugOp core fun s =>
    let c := s.debugCore core
    match c.debugSet space.val index.toNat data with
    | none => (dbgRANGE, 0, s)
    | some x =>
      if !c.isHalted then (dbgNOTHALTED, 0, s)
      else (dbgOK, 0, s.onCoreAt core fun _ => x)

/-! ### The transaction engine (R322) -/

/-- A transaction takes its place: in order of arrival, and of one cycle JTAG's first. -/
def dpInsert (e : DebugReq) : List DebugReq → List DebugReq
  | [] => [e]
  | x :: r => if e.jtag && !x.jtag && x.came == e.came then e :: x :: r else x :: dpInsert e r

/-- DPACC or DPREQ is written: its transaction waits for the engine, and DPRSP shows busy until the one of DPREQ ends. -/
def execDebugTransact (jtag : Bool) (req : Quad) (s : State) : Out :=
  .next (s.onChip fun h =>
    let h := { h with dpq := dpInsert ⟨jtag, h.base, !h.isUp, req⟩ h.dpq }
    if jtag then h
    else { h with
      dpreq := req
      dprsp := ⟨dbgBusy, 0, 0⟩ })

/-- The core that a request names. -/
def debugTarget (r : Quad) : BitVec 8 := .ofNat 8 (fld r.toNat 8 8)

/-- A transaction with its fields (R322). -/
def debugRequest (r : Quad) (s : State) : Out :=
  let n := r.toNat
  let core := debugTarget r
  let space : Fin 16 := Fin.ofNat 16 (fld n 4 4)
  let index : Half := .ofNat 32 (fld n 16 32)
  let data : Word := .ofNat 64 (n / 2 ^ 64)
  if fld n 48 16 ≠ 0 then s.debugOp core fun s => (dbgBADOP, 0, s)
  else match fld n 0 4 with
    | 0 => execDebugNop core s
    | 1 => execDebugHalt core s
    | 2 => execDebugStep core s
    | 3 => execDebugResume core s
    | 4 => execDebugRead core space index s
    | 5 => execDebugWrite core space index data s
    | 6 => execDebugStatus core s
    | _ => s.debugOp core fun s => (dbgBADOP, 0, s)

/-- The engine runs the oldest transaction that waits, one in each cycle of the module (R322; log entry 118). One that came before
the boot had ended is DENIED. -/
def State.debugEngine (s : State) : Out := match s.chip.dpq with
  | [] => .next s
  | e :: rest =>
    let s := s.onChip fun h => { h with dpq := rest }
    match (if e.early then .next (s.respond (debugTarget e.req) dbgDENIED 0) else debugRequest e.req s : Out) with
    | .next t => .next (if e.jtag then t else t.onChip fun h => { h with dprsp := h.debug })
    | x => x

end Sys2Proof.Machine
end

