-- ==== Sys2Proof/Machine/MicaOps.lean ====
section
/-! DEFINITION. The scalar mica instructions (R230–R232): MCFG, MLD, MLDL, MINC. -/

namespace Sys2Proof.Machine

/-- MCFG: entry k takes the descriptor at ga, in force at issue + 2 (R231). -/
def execMcfg (a : GReg) (k : Fin 8) (s : State) : Out :=
  let A := s.rg a
  match s.localBad A 16 with
  | some c => .next (s.raise c)
  | none =>
    let n := rdNat s.core.loc.mem A.toNat 16
    if (Region.ofNat n).v && regionBad s.core.loc k n then .next (s.raise cMICA_CFG)
    else .next ((s.sqReads A.toNat).post 2 (.region k (Region.ofNat n)))

/-- MCFG mode 1: half j of entry k as at the start of the cycle, landing at issue + 2 (R231). -/
def execMcfgRd (d : GReg) (j : Bool) (k : Fin 8) (s : State) : Out :=
  .next (s.setG d 2 (zextW (fld s.core.loc.rgstart[k].word.toNat (if j then 64 else 0) 64)))

/-- MCFG mode 2: SAT of entry k clears at issue + 2 (R231). -/
def execMcfgClr (k : Fin 8) (s : State) : Out := .next (s.post 2 (.satClear k))

/-- What MLD and MLDL return of a level: its estimate's pattern, or the level (R232). -/
def micaValue (est : Bool) (r : Region) (word : Nat) (j : Nat) : Word :=
  let l := levelOf r.width word j
  zextW (if est then estBits r.s.toNat l else l)

/-- MLD and MLDL (R232): local at issue, with latency 6 and 4; global as LDG, with the entry in force as the wait ends (R231). -/
def State.micaLoad (s : State) (glob est : Bool) (d a b : GReg) (w : MicaWid) : State :=
  let A := s.rg a
  let j := s.rg b
  match glob, s.micaCheck glob A w.bits j none with
  | false, .error c => s.raise c
  | false, .ok k =>
    (s.sqReads A.toNat).setG d (if est then 6 else 4)
      (micaValue est s.core.loc.regions[k] (rdNat s.core.loc.mem A.toNat 4) j.toNat)
  | true, r =>
    let bad := match r with
      | .error c => some c
      | .ok _ => none
    s.blocking false bad (some 2) A.toNat (micaKeep w.bits j.toNat) (.load 4) fun q x s => match s.micaNow q with
      | .error c => s.raise c
      | .ok k => s.setG d 1 (micaValue est s.core.loc.regions[k] (leNat x.bytes) (q.val.toNat % 32))

/-- MLD (R232). -/
def execMld (d a b : GReg) (w : MicaWid) (s : State) : Out := .next (s.micaLoad false true d a b w)
/-- MLDG (R232). -/
def execMldg (d a b : GReg) (w : MicaWid) (s : State) : Out := .next (s.micaLoad true true d a b w)
/-- MLDL (R232). -/
def execMldl (d a b : GReg) (w : MicaWid) (s : State) : Out := .next (s.micaLoad false false d a b w)
/-- MLDLG (R232). -/
def execMldlg (d a b : GReg) (w : MicaWid) (s : State) : Out := .next (s.micaLoad true false d a b w)

/-- One more MINC of the SQ is performed (R229). -/
def State.mincDone (s : State) : State := s.onSq fun q => { q with minc := q.minc + 1 }

/-- MINC: one atomic read-modify-write of the word at issue; with TS and a loss it traps, the word read and not written
(R232). -/
def execMinc (r a b : GReg) (w : MicaWid) (s : State) : Out :=
  let A := s.rg a
  let x := s.rg r
  match s.micaCheck false A w.bits (s.rg b) (some x) with
  | .error c => .next (s.raise c)
  | .ok k =>
    let e := s.core.loc.regions[k]
    let u := micaApply e (rdNat s.core.loc.mem A.toNat 4) (s.rg b).toNat x.toNat false
      (draw (.ofNat 32 s.core.sq.mseed.toNat) (drawKey A.toNat s.core.sq.minc.toNat (s.core.sq.node 48).toNat))
    if u.sat && e.ts then .next ((s.sqReads A.toNat).raise cMICA_SAT)
    else
      let s := ((s.sqRmw A.toNat).spadWrite A.toNat (leBytes u.word 4)).mincDone
      .next (if u.sat then s.onLoc (·.setSat k) else s)

/-- MINCG: the update is performed at the home by the atomic rule of R207 (R232), with the entry in force as the wait ends
(R231). -/
def execMincg (r a b : GReg) (w : MicaWid) (s : State) : Out :=
  let A := s.rg a
  let x := s.rg r
  let res := s.micaCheck true A w.bits (s.rg b) (some x)
  let bad := match res with
    | .error c => some c
    | .ok _ => none
  let k : Fin 8 := match res with
    | .error _ => 0
    | .ok k => k
  .next (s.blocking false bad (some 2) A.toNat (micaKeep w.bits (s.rg b).toNat)
    (.merge w A.toNat (s.rg b).toNat x.toNat false s.core.loc.regions[k] (.ofNat 32 s.core.sq.mseed.toNat)
      s.core.sq.minc (s.core.sq.node 48))
    fun q d s => match s.micaNow q with
      | .error _ => s.mincDone
      | .ok k => if d.flag then s.mincDone.onLoc (·.setSat k) else s.mincDone)

end Sys2Proof.Machine
end

