-- ==== Sys2Proof/Machine/Dispatch.lean ====
section
/-! DEFINITION. The meaning of an instruction: one arm for each constructor. -/

namespace Sys2Proof.Machine

def exec (i : Instr) (s : State) : Host.Outcome State Fault Refusal :=
  match i with
  | .add d a b w s_ u => Sys2Proof.Machine.execAdd d a b w s_ u s
  | .sub d a b w s_ u => Sys2Proof.Machine.execSub d a b w s_ u s
  | .and d a b => Sys2Proof.Machine.execAnd d a b s
  | .or d a b => Sys2Proof.Machine.execOr d a b s
  | .xor d a b => Sys2Proof.Machine.execXor d a b s
  | .andn d a b => Sys2Proof.Machine.execAndn d a b s
  | .shl d a b w u => Sys2Proof.Machine.execShl d a b w u s
  | .shr d a b w u => Sys2Proof.Machine.execShr d a b w u s
  | .sar d a b w u => Sys2Proof.Machine.execSar d a b w u s
  | .ror d a b w u => Sys2Proof.Machine.execRor d a b w u s
  | .min d a b w u => Sys2Proof.Machine.execMin d a b w u s
  | .max d a b w u => Sys2Proof.Machine.execMax d a b w u s
  | .slt d a b w u => Sys2Proof.Machine.execSlt d a b w u s
  | .seq d a b w => Sys2Proof.Machine.execSeq d a b w s
  | .mul d a b w s_ u => Sys2Proof.Machine.execMul d a b w s_ u s
  | .mulh d a b w u => Sys2Proof.Machine.execMulh d a b w u s
  | .div d a b w u => Sys2Proof.Machine.execDiv d a b w u s
  | .rem d a b w u => Sys2Proof.Machine.execRem d a b w u s
  | .ceq c a b w => Sys2Proof.Machine.execCeq c a b w s
  | .cne c a b w => Sys2Proof.Machine.execCne c a b w s
  | .clt c a b w u => Sys2Proof.Machine.execClt c a b w u s
  | .cge c a b w u => Sys2Proof.Machine.execCge c a b w u s
  | .ctst c a b w => Sys2Proof.Machine.execCtst c a b w s
  | .addi d a i_ => Sys2Proof.Machine.execAddi d a i_ s
  | .andi d a i_ => Sys2Proof.Machine.execAndi d a i_ s
  | .ori d a i_ => Sys2Proof.Machine.execOri d a i_ s
  | .xori d a i_ => Sys2Proof.Machine.execXori d a i_ s
  | .shli d a w u n => Sys2Proof.Machine.execShli d a w u n s
  | .shri d a w u n => Sys2Proof.Machine.execShri d a w u n s
  | .sari d a w u n => Sys2Proof.Machine.execSari d a w u n s
  | .rori d a w u n => Sys2Proof.Machine.execRori d a w u n s
  | .ceqi c a i_ => Sys2Proof.Machine.execCeqi c a i_ s
  | .cnei c a i_ => Sys2Proof.Machine.execCnei c a i_ s
  | .clti c a i_ => Sys2Proof.Machine.execClti c a i_ s
  | .cgei c a i_ => Sys2Proof.Machine.execCgei c a i_ s
  | .cltui c a i_ => Sys2Proof.Machine.execCltui c a i_ s
  | .cgeui c a i_ => Sys2Proof.Machine.execCgeui c a i_ s
  | .ctsti c a i_ => Sys2Proof.Machine.execCtsti c a i_ s
  | .li d i_ => Sys2Proof.Machine.execLi d i_ s
  | .lis d i_ => Sys2Proof.Machine.execLis d i_ s
  | .clz d a => Sys2Proof.Machine.execClz d a s
  | .ctz d a => Sys2Proof.Machine.execCtz d a s
  | .popc d a => Sys2Proof.Machine.execPopc d a s
  | .brev d a => Sys2Proof.Machine.execBrev d a s
  | .bswap d a => Sys2Proof.Machine.execBswap d a s
  | .sel d a b c => Sys2Proof.Machine.execSel d a b c s
  | .seln d a b c => Sys2Proof.Machine.execSeln d a b c s
  | .mfc d c => Sys2Proof.Machine.execMfc d c s
  | .mtc c a => Sys2Proof.Machine.execMtc c a s
  | .cand d a b => Sys2Proof.Machine.execCand d a b s
  | .cor d a b => Sys2Proof.Machine.execCor d a b s
  | .cxor d a b => Sys2Proof.Machine.execCxor d a b s
  | .candn d a b => Sys2Proof.Machine.execCandn d a b s
  | .addsh d a f => Sys2Proof.Machine.execAddsh d a f s
  | .wrapi d a k f => Sys2Proof.Machine.execWrapi d a k f s
  | .alignu d a k => Sys2Proof.Machine.execAlignu d a k s
  | .mov d a => Sys2Proof.Machine.execMov d a s
  | .sxb d a => Sys2Proof.Machine.execSxb d a s
  | .sxh d a => Sys2Proof.Machine.execSxh d a s
  | .sxw d a => Sys2Proof.Machine.execSxw d a s
  | .zxb d a => Sys2Proof.Machine.execZxb d a s
  | .zxh d a => Sys2Proof.Machine.execZxh d a s
  | .zxw d a => Sys2Proof.Machine.execZxw d a s
  | .mfl d l => Sys2Proof.Machine.execMfl d l s
  | .mtl l a => Sys2Proof.Machine.execMtl l a s
  | .ldl d a z o => Sys2Proof.Machine.execLdl d a z o s
  | .stl s_ a z o => Sys2Proof.Machine.execStl s_ a z o s
  | .ldg d a z o => Sys2Proof.Machine.execLdg d a z o s
  | .stg s_ a z o => Sys2Proof.Machine.execStg s_ a z o s
  | .ldlx d a b s_ z => Sys2Proof.Machine.execLdlx d a b s_ z s
  | .stlx d a b s_ z => Sys2Proof.Machine.execStlx d a b s_ z s
  | .ldgx d a b s_ z => Sys2Proof.Machine.execLdgx d a b s_ z s
  | .stgx d a b s_ z => Sys2Proof.Machine.execStgx d a b s_ z s
  | .ldf d a x o => Sys2Proof.Machine.execLdf d a x o s
  | .ldfp d a x o => Sys2Proof.Machine.execLdfp d a x o s
  | .ste s_ a o => Sys2Proof.Machine.execSte s_ a o s
  | .stf s_ a o => Sys2Proof.Machine.execStf s_ a o s
  | .hcfg a h => Sys2Proof.Machine.execHcfg a h s
  | .hget d k h => Sys2Proof.Machine.execHget d k h s
  | .hwaitc a h => Sys2Proof.Machine.execHwaitc a h s
  | .hwaitp a h => Sys2Proof.Machine.execHwaitp a h s
  | .hadvc a h => Sys2Proof.Machine.execHadvc a h s
  | .hadvp a h => Sys2Proof.Machine.execHadvp a h s
  | .hroll a h => Sys2Proof.Machine.execHroll a h s
  | .hpslot d a h => Sys2Proof.Machine.execHpslot d a h s
  | .hcslot d a h => Sys2Proof.Machine.execHcslot d a h s
  | .hown a h => Sys2Proof.Machine.execHown a h s
  | .wpr d c => Sys2Proof.Machine.execWpr d c s
  | .wpw a c => Sys2Proof.Machine.execWpw a c s
  | .carm a c => Sys2Proof.Machine.execCarm a c s
  | .mcfg a k => Sys2Proof.Machine.execMcfg a k s
  | .mcfgRd d j k => Sys2Proof.Machine.execMcfgRd d j k s
  | .mcfgClr k => Sys2Proof.Machine.execMcfgClr k s
  | .mld d a b w => Sys2Proof.Machine.execMld d a b w s
  | .mldg d a b w => Sys2Proof.Machine.execMldg d a b w s
  | .mldl d a b w => Sys2Proof.Machine.execMldl d a b w s
  | .mldlg d a b w => Sys2Proof.Machine.execMldlg d a b w s
  | .minc s_ a b w => Sys2Proof.Machine.execMinc s_ a b w s
  | .mincg s_ a b w => Sys2Proof.Machine.execMincg s_ a b w s
  | .radm h b w q => Sys2Proof.Machine.execRadm h b w q s
  | .rret x q => Sys2Proof.Machine.execRret x q s
  | .rhold x q => Sys2Proof.Machine.execRhold x q s
  | .rrel x q => Sys2Proof.Machine.execRrel x q s
  | .rsave a m q => Sys2Proof.Machine.execRsave a m q s
  | .rload a m kf q => Sys2Proof.Machine.execRload a m kf q s
  | .rmap a q => Sys2Proof.Machine.execRmap a q s
  | .rstat d x q => Sys2Proof.Machine.execRstat d x q s
  | .br c n o => Sys2Proof.Machine.execBr c n o s
  | .call o => Sys2Proof.Machine.execCall o s
  | .jr a => Sys2Proof.Machine.execJr a s
  | .jalr d a => Sys2Proof.Machine.execJalr d a s
  | .loopReg l a e => Sys2Proof.Machine.execLoopReg l a e s
  | .loopImm l i_ e => Sys2Proof.Machine.execLoopImm l i_ e s
  | .repReg a e => Sys2Proof.Machine.execRepReg a e s
  | .repImm i_ e => Sys2Proof.Machine.execRepImm i_ e s
  | .pin e => Sys2Proof.Machine.execPin e s
  | .dx idx h0 h1 h2 => Sys2Proof.Machine.execDx idx h0 h1 h2 s
  | .rdc d c => Sys2Proof.Machine.execRdc d c s
  | .wrc a c => Sys2Proof.Machine.execWrc a c s
  | .wrcSplit a => Sys2Proof.Machine.execWrcSplit a s
  | .wrcPins a => Sys2Proof.Machine.execWrcPins a s
  | .wrcLease a => Sys2Proof.Machine.execWrcLease a s
  | .wrcBkc a n => Sys2Proof.Machine.execWrcBkc a n s
  | .fence s_ => Sys2Proof.Machine.execFence s_ s
  | .dload a b => Sys2Proof.Machine.execDload a b s
  | .dread d a k => Sys2Proof.Machine.execDread d a k s
  | .trap n => Sys2Proof.Machine.execTrap n s
  | .teardown task => Sys2Proof.Machine.execTeardown task s
  | .regionRelease task => Sys2Proof.Machine.execRegionRelease task s
  | .watchdog task => Sys2Proof.Machine.execWatchdog task s
  | .cellFiring n => Sys2Proof.Machine.execCellFiring n s
  | .tokenPush n => Sys2Proof.Machine.execTokenPush n s
  | .markerFiring n => Sys2Proof.Machine.execMarkerFiring n s
  | .argwEffect n => Sys2Proof.Machine.execArgwEffect n s
  | .slotInject q => Sys2Proof.Machine.execSlotInject q s
  | .slotCapture q => Sys2Proof.Machine.execSlotCapture q s
  | .rotSaveComplete q => Sys2Proof.Machine.execRotSaveComplete q s
  | .slotExit q => Sys2Proof.Machine.execSlotExit q s
  | .exitPortPush q => Sys2Proof.Machine.execExitPortPush q s
  | .bankEngineAccess b => Sys2Proof.Machine.execBankEngineAccess b s
  | .requestAged b => Sys2Proof.Machine.execRequestAged b s
  | .circuitPassBegin c => Sys2Proof.Machine.execCircuitPassBegin c s
  | .circuitTransfer c => Sys2Proof.Machine.execCircuitTransfer c s
  | .pageWalk w => Sys2Proof.Machine.execPageWalk w s
  | .invalidationAck u => Sys2Proof.Machine.execInvalidationAck u s
  | .feedh q fe eoi port tag d => Sys2Proof.Machine.execFeedh q fe eoi port tag d s
  | .feeda q glb fe eoi port base sd d => Sys2Proof.Machine.execFeeda q glb fe eoi port base sd d s
  | .feedi q eoi port x y d => Sys2Proof.Machine.execFeedi q eoi port x y d s
  | .feedm q port d => Sys2Proof.Machine.execFeedm q port d s
  | .drainh q fe eoi port d => Sys2Proof.Machine.execDrainh q fe eoi port d s
  | .draina q glb fe eoi port base sd d => Sys2Proof.Machine.execDraina q glb fe eoi port base sd d s
  | .drainx q port d => Sys2Proof.Machine.execDrainx q port d s
  | .feedPush q => Sys2Proof.Machine.execFeedPush q s
  | .drainTake q => Sys2Proof.Machine.execDrainTake q s
  | .sdld sd off => Sys2Proof.Machine.execSdld sd off s
  | .copy q fe rc ssd dsd hist d => Sys2Proof.Machine.execCopy q fe rc ssd dsd hist d s
  | .hcopy q fe rc ssd dsd hist d => Sys2Proof.Machine.execHcopy q fe rc ssd dsd hist d s
  | .gather q fe rc ssd dsd idx d => Sys2Proof.Machine.execGather q fe rc ssd dsd idx d s
  | .scatter q fe rc ssd dsd idx d => Sys2Proof.Machine.execScatter q fe rc ssd dsd idx d s
  | .selacc q rc ssd dsd k d => Sys2Proof.Machine.execSelacc q rc ssd dsd k d s
  | .ldb src ty bias fwd d => Sys2Proof.Machine.execLdb src ty bias fwd d s
  | .mmul row0 n z sw ty port fwd eoi pf d => Sys2Proof.Machine.execMmul row0 n z sw ty port fwd eoi pf d s
  | .gmul row0 n z sw ty bias sd idx fwd d => Sys2Proof.Machine.execGmul row0 n z sw ty bias sd idx fwd d s
  | .rdacc row0 n z fmt bias dst d => Sys2Proof.Machine.execRdacc row0 n z fmt bias dst d s
  | .recur q ty bias port fwd eoi d => Sys2Proof.Machine.execRecur q ty bias port fwd eoi d s
  | .atom op fmt sc va opr => Sys2Proof.Machine.execAtom op fmt sc va opr s
  | .mmerge wd sc va j lvl opr => Sys2Proof.Machine.execMmerge wd sc va j lvl opr s
  | .atomw op fmt sc va opr win => Sys2Proof.Machine.execAtomw op fmt sc va opr win s
  | .mmergew wd sc va j lvl opr win => Sys2Proof.Machine.execMmergew wd sc va j lvl opr win s
  | .wend sc nc opr win => Sys2Proof.Machine.execWend sc nc opr win s
  | .barr sc bid opr => Sys2Proof.Machine.execBarr sc bid opr s
  | .syeAccess die => Sys2Proof.Machine.execSyeAccess die s
  | .windowRoundClose task w => Sys2Proof.Machine.execWindowRoundClose task w s
  | .barrierArrival task bid die => Sys2Proof.Machine.execBarrierArrival task bid die s
  | .barrierRelease task bid => Sys2Proof.Machine.execBarrierRelease task bid s
  | .snap off d => Sys2Proof.Machine.execSnap off d s
  | .argw cell value d => Sys2Proof.Machine.execArgw cell value d s
  | .radmc q h own id => Sys2Proof.Machine.execRadmc q h own id s
  | .rretc q x => Sys2Proof.Machine.execRretc q x s
  | .rholdc q x => Sys2Proof.Machine.execRholdc q x s
  | .rrelc q x => Sys2Proof.Machine.execRrelc q x s
  | .rsavec q m off => Sys2Proof.Machine.execRsavec q m off s
  | .rloadc q kf m off => Sys2Proof.Machine.execRloadc q kf m off s
  | .rmapc q off => Sys2Proof.Machine.execRmapc q off s
  | .launch doff queue => Sys2Proof.Machine.execLaunch doff queue s
  | .replay gva queue => Sys2Proof.Machine.execReplay gva queue s
  | .replayNodeAppend queue => Sys2Proof.Machine.execReplayNodeAppend queue s
  | .invr page pages sel done => Sys2Proof.Machine.execInvr page pages sel done s
  | .inva sel done => Sys2Proof.Machine.execInva sel done s
  | .commandPortIssue p => Sys2Proof.Machine.execCommandPortIssue p s
  | .commandBegin cls => Sys2Proof.Machine.execCommandBegin cls s
  | .commandComplete q => Sys2Proof.Machine.execCommandComplete q s
  | .cmpCircuitCarry task => Sys2Proof.Machine.execCmpCircuitCarry task s
  | .taskComplete task => Sys2Proof.Machine.execTaskComplete task s
  | .tailDoorbell j v => Sys2Proof.Machine.execTailDoorbell j v s
  | .graphDoorbell j pa => Sys2Proof.Machine.execGraphDoorbell j pa s
  | .kill j v => Sys2Proof.Machine.execKill j v s
  | .preempt j v => Sys2Proof.Machine.execPreempt j v s
  | .nodeQuiesce n => Sys2Proof.Machine.execNodeQuiesce n s
  | .preemptAck task => Sys2Proof.Machine.execPreemptAck task s
  | .hostRegisterWrite off v => Sys2Proof.Machine.execHostRegisterWrite off v s
  | .dbmvRead p => Sys2Proof.Machine.execDbmvRead p s
  | .hostRegisterRead off => Sys2Proof.Machine.execHostRegisterRead off s
  | .meas p pa => Sys2Proof.Machine.execMeas p pa s
  | .hostWrite p off bytes => Sys2Proof.Machine.execHostWrite p off bytes s
  | .hostRead p off len => Sys2Proof.Machine.execHostRead p off len s
  | .peerWrite port p pa bytes => Sys2Proof.Machine.execPeerWrite port p pa bytes s
  | .peerRead port p pa len => Sys2Proof.Machine.execPeerRead port p pa len s
  | .flitReceive port f => Sys2Proof.Machine.execFlitReceive port f s
  | .linkRetrain port r => Sys2Proof.Machine.execLinkRetrain port r s
  | .ucieLinkFail u kind => Sys2Proof.Machine.execUcieLinkFail u kind s
  | .tenantTag b owner lines => Sys2Proof.Machine.execTenantTag b owner lines s
  | .clockStretch die edges => Sys2Proof.Machine.execClockStretch die edges s
  | .thermalTrip cluster => Sys2Proof.Machine.execThermalTrip cluster s
  | .railFault rail => Sys2Proof.Machine.execRailFault rail s
  | .boot ok => Sys2Proof.Machine.execBoot ok s
  | .attestationRequest nonce => Sys2Proof.Machine.execAttestationRequest nonce s
  | .debugNop core => Sys2Proof.Machine.execDebugNop core s
  | .debugHalt core => Sys2Proof.Machine.execDebugHalt core s
  | .debugStep core => Sys2Proof.Machine.execDebugStep core s
  | .debugResume core => Sys2Proof.Machine.execDebugResume core s
  | .debugRead core space index => Sys2Proof.Machine.execDebugRead core space index s
  | .debugWrite core space index data => Sys2Proof.Machine.execDebugWrite core space index data s
  | .debugStatus core => Sys2Proof.Machine.execDebugStatus core s
  | .debugTransact jtag req => Sys2Proof.Machine.execDebugTransact jtag req s
  | .illegalInstruction w => Sys2Proof.Machine.execIllegalInstruction w s
  | .uncorrectableError core site corrected => Sys2Proof.Machine.execUncorrectableError core site corrected s
  | .syeLost die => Sys2Proof.Machine.execSyeLost die s
  | .partitionConfigure p ch => Sys2Proof.Machine.execPartitionConfigure p ch s
  | .exit => Sys2Proof.Machine.execExit s
  | .abort => Sys2Proof.Machine.execAbort s
  | .dfence => Sys2Proof.Machine.execDfence s
  | .brk => Sys2Proof.Machine.execBrk s
  | .eret => Sys2Proof.Machine.execEret s
  | .writeLands => Sys2Proof.Machine.execWriteLands s
  | .repetition => Sys2Proof.Machine.execRepetition s
  | .ptsTick => Sys2Proof.Machine.execPtsTick s
  | .asyncCauseEntry => Sys2Proof.Machine.execAsyncCauseEntry s
  | .coreRetire => Sys2Proof.Machine.execCoreRetire s
  | .cellPass => Sys2Proof.Machine.execCellPass s
  | .cellSelect => Sys2Proof.Machine.execCellSelect s
  | .cellSteer => Sys2Proof.Machine.execCellSteer s
  | .cellMerge => Sys2Proof.Machine.execCellMerge s
  | .cellDelay => Sys2Proof.Machine.execCellDelay s
  | .cellSink => Sys2Proof.Machine.execCellSink s
  | .cellLeave => Sys2Proof.Machine.execCellLeave s
  | .cellAdd => Sys2Proof.Machine.execCellAdd s
  | .cellSub => Sys2Proof.Machine.execCellSub s
  | .cellMul => Sys2Proof.Machine.execCellMul s
  | .cellMac => Sys2Proof.Machine.execCellMac s
  | .cellMin => Sys2Proof.Machine.execCellMin s
  | .cellMax => Sys2Proof.Machine.execCellMax s
  | .cellAbs => Sys2Proof.Machine.execCellAbs s
  | .cellAnd => Sys2Proof.Machine.execCellAnd s
  | .cellOr => Sys2Proof.Machine.execCellOr s
  | .cellXor => Sys2Proof.Machine.execCellXor s
  | .cellShl => Sys2Proof.Machine.execCellShl s
  | .cellShr => Sys2Proof.Machine.execCellShr s
  | .cellSar => Sys2Proof.Machine.execCellSar s
  | .cellRshr => Sys2Proof.Machine.execCellRshr s
  | .cellReq => Sys2Proof.Machine.execCellReq s
  | .cellPeq => Sys2Proof.Machine.execCellPeq s
  | .cellPne => Sys2Proof.Machine.execCellPne s
  | .cellPlt => Sys2Proof.Machine.execCellPlt s
  | .cellPge => Sys2Proof.Machine.execCellPge s
  | .cellFadd => Sys2Proof.Machine.execCellFadd s
  | .cellFsub => Sys2Proof.Machine.execCellFsub s
  | .cellFmul => Sys2Proof.Machine.execCellFmul s
  | .cellFma => Sys2Proof.Machine.execCellFma s
  | .cellFmin => Sys2Proof.Machine.execCellFmin s
  | .cellFmax => Sys2Proof.Machine.execCellFmax s
  | .cellFabs => Sys2Proof.Machine.execCellFabs s
  | .cellFneg => Sys2Proof.Machine.execCellFneg s
  | .cellFexp2 => Sys2Proof.Machine.execCellFexp2 s
  | .cellFlog2 => Sys2Proof.Machine.execCellFlog2 s
  | .cellFrcp => Sys2Proof.Machine.execCellFrcp s
  | .cellFrsq => Sys2Proof.Machine.execCellFrsq s
  | .cellFdiv => Sys2Proof.Machine.execCellFdiv s
  | .cellFpeq => Sys2Proof.Machine.execCellFpeq s
  | .cellFplt => Sys2Proof.Machine.execCellFplt s
  | .cellDkmul => Sys2Proof.Machine.execCellDkmul s
  | .cellDkdot => Sys2Proof.Machine.execCellDkdot s
  | .cellDkmax => Sys2Proof.Machine.execCellDkmax s
  | .cellCvt => Sys2Proof.Machine.execCellCvt s
  | .cellNarrow => Sys2Proof.Machine.execCellNarrow s
  | .cellWiden => Sys2Proof.Machine.execCellWiden s
  | .cellBcast => Sys2Proof.Machine.execCellBcast s
  | .cellShuf => Sys2Proof.Machine.execCellShuf s
  | .cellZip => Sys2Proof.Machine.execCellZip s
  | .cellUnzip => Sys2Proof.Machine.execCellUnzip s
  | .cellSlide => Sys2Proof.Machine.execCellSlide s
  | .cellRsum => Sys2Proof.Machine.execCellRsum s
  | .cellRmax => Sys2Proof.Machine.execCellRmax s
  | .cellRmin => Sys2Proof.Machine.execCellRmin s
  | .cellLdx => Sys2Proof.Machine.execCellLdx s
  | .cellLdv => Sys2Proof.Machine.execCellLdv s
  | .cellLds => Sys2Proof.Machine.execCellLds s
  | .cellStx => Sys2Proof.Machine.execCellStx s
  | .cellStv => Sys2Proof.Machine.execCellStv s
  | .cellSts => Sys2Proof.Machine.execCellSts s
  | .cellMadd => Sys2Proof.Machine.execCellMadd s
  | .cellMest => Sys2Proof.Machine.execCellMest s
  | .cellMlvl => Sys2Proof.Machine.execCellMlvl s
  | .cellSemit => Sys2Proof.Machine.execCellSemit s
  | .cellCemit => Sys2Proof.Machine.execCellCemit s
  | .rotAdmit => Sys2Proof.Machine.execRotAdmit s
  | .rotRetire => Sys2Proof.Machine.execRotRetire s
  | .rotHold => Sys2Proof.Machine.execRotHold s
  | .rotRelease => Sys2Proof.Machine.execRotRelease s
  | .rotSave => Sys2Proof.Machine.execRotSave s
  | .rotLoad => Sys2Proof.Machine.execRotLoad s
  | .rotMap => Sys2Proof.Machine.execRotMap s
  | .xltComplete => Sys2Proof.Machine.execXltComplete s
  | .cpeRowAccess => Sys2Proof.Machine.execCpeRowAccess s
  | .mxeRowFiring => Sys2Proof.Machine.execMxeRowFiring s
  | .recurCapture => Sys2Proof.Machine.execRecurCapture s
  | .recurInject => Sys2Proof.Machine.execRecurInject s
  | .dispatchStep => Sys2Proof.Machine.execDispatchStep s
  | .roundYield => Sys2Proof.Machine.execRoundYield s
  | .coreCapture => Sys2Proof.Machine.execCoreCapture s
  | .quartzPeriod => Sys2Proof.Machine.execQuartzPeriod s
  | .conventionalReset => Sys2Proof.Machine.execConventionalReset s
  | .functionLevelReset => Sys2Proof.Machine.execFunctionLevelReset s
  | .globalAccessComplete => Sys2Proof.Machine.execGlobalAccessComplete s
  | .mxePortToken => Sys2Proof.Machine.execMxePortToken s

end Sys2Proof.Machine
end

