-- ==== Sys2Proof/Machine/Issue.lean ====
section
/-! DEFINITION. One issue attempt of the sequencer: fetch (R34), pairs (R36), the order of R310, breakpoints (R320,
R321), and what follows an issue (R75, R76, R81, R87). -/

namespace Sys2Proof.Machine

/-- Go on where the outcome is a next state. -/
def thenGo (o : Out) (f : State → Out) : Out :=
  match o with
  | .next s => f s
  | .fault r => .fault r
  | .refused r => .refused r

/-! ### What stands at PC -/

/-- What the sequencer finds to issue. -/
inductive Found
  /-- FETCH_BOUNDS at this address (R34) -/
  | bounds (a : Half)
  /-- a lone word, which no meaning of its own may precede -/
  | word (w : Half)
  /-- a CMD form (R35) -/
  | cmd (w0 w1 w2 w3 : Half)
  | pair (w0 w1 : Half)
deriving DecidableEq, Repr

/-- The words at PC (R34–R36). -/
def Core.found (c : Core) : Found :=
  let q := c.sq
  let a := q.pc.toNat
  match q.target with
  | some t => .bounds t
  | none =>
    match c.textAt a with
    | none => .bounds q.pc
    | some w =>
      if pairBit w then
        match c.textAt (a + 4) with
        | none => .bounds (q.pc + 4)
        | some w1 => .pair w w1
      else if majorOf w = 0x29 then
        match c.textAt (a + 4), c.textAt (a + 8), c.textAt (a + 12) with
        | some w1, some w2, some w3 => .cmd w w1 w2 w3
        | _, _, _ => .bounds (.ofNat 32 c.textSize)
      else .word w

/-! ### One word -/

/-- The word at issue, in its place (R36). -/
def State.place (s : State) (k : IssueSlot) : State :=
  s.onSq fun q => { q with slot := k, after := .seq, index := 0 }

/-- The instruction of a scalar word; ILLEGAL_INSTRUCTION where it is none (R39), as for a CMD header that is repeated (log
entry 123). -/
def wordInstr (w : Half) : Instr :=
  match decodeScalar w with
  | .ok i => i
  | .error _ => .illegalInstruction (if majorOf w = 0x29 then 0 else w)

/-- The instruction of a CMD form; ILLEGAL_COMMAND where it is none (R237). -/
def cmdInstr (w0 w1 w2 w3 : Half) : Instr :=
  match decCommand w0.toNat w1.toNat w2.toNat w3.toNat with
  | .ok i => i
  | .error _ => .illegalInstruction w0

/-- A word that raises ILLEGAL_INSTRUCTION in its place; a CMD header is the pair's matter (R36). -/
def State.wordIllegal (s : State) (k : IssueSlot) (w : Half) : Bool :=
  majorOf w != 0x29 &&
    match decodeScalar w with
    | .ok i => (s.place k).core.illegalHere i
    | .error _ => true

/-! ### Pairs (R36) -/

/-- The conditions of a pair that do not concern the words' own legality (R36). -/
def pairOk (w0 w1 : Half) : Bool :=
  !pairBit w1 && majorOf w0 != 0x29 && majorOf w1 != 0x29
    && (classOf (majorOf w0) == .plain || classOf (majorOf w1) == .plain)

/-- The first word is TRAP: its partner takes effect before the trap is taken (R307). -/
def isTrap : Instr → Bool
  | .trap _ => true
  | _ => false

/-- What follows the issue of a pair: what its one word that is not plain asks for (R76). -/
def After.join (a b : After) : After := if a = .seq then b else a

/-- Both words of a legal pair, from one state: neither sees the other's result; a trap or a wait of either leaves no
effect of its partner, but for TRAP, with which both words take effect (R36, R307). -/
def State.execPair (s : State) (i0 i1 : Instr) : Out :=
  if isTrap i0 then thenGo (exec i1 (s.place .second)) fun t => exec i0 (t.place .first)
  else
    thenGo (exec i0 (s.place .first)) fun t =>
      if t.core.sq.after = .trapped || t.core.sq.after = .waits then .next t
      else
        thenGo (exec i1 (t.place .second)) fun u =>
          if isTrap i1 then .next u
          else if u.core.sq.after = .trapped || u.core.sq.after = .waits then exec i1 (s.place .second)
          else .next (u.goes (t.core.sq.after.join u.core.sq.after))

/-- A pair: its checks in their order, then its words (R36). TRAPPC of an illegal REP in it: log entry 123. -/
def State.tryPair (s : State) (w0 w1 : Half) : Out :=
  if s.wordIllegal .first w0 then .next ((s.place .first).raise cILLEGAL_INSTRUCTION)
  else if s.wordIllegal .second w1 then .next ((s.place .second).raise cILLEGAL_INSTRUCTION)
  else if !pairOk w0 w1 then .next ((s.place .first).raise cILLEGAL_PAIR)
  else s.execPair (wordInstr w0) (wordInstr w1)

/-! ### An attempt -/

/-- Whether the attempt is a repetition of the word at PC (R87). -/
def Core.repeats (c : Core) : Bool := c.sq.repeating && c.sq.target.isNone && (c.textAt c.sq.pc.toNat).isSome

/-- A repetition: the stepped word issues as a lone word (R87). -/
def State.tryRepeat (s : State) : Out :=
  thenGo (exec .repetition (s.place .lone)) fun t =>
    match t.core.sq.after, t.core.sq.latch with
    | .trapped, _ => .next t
    | _, some w => exec (wordInstr w) (t.place .lone)
    | _, none => .next t

/-- The issue of W, or its attempt (R34–R40). FETCH_BOUNDS of a later word of a pair or a CMD form is reported for slot 0: there is
no word that could have raised it (log entry 131). -/
def State.tryIssue (s : State) : Out :=
  if s.core.repeats then s.tryRepeat
  else match s.core.found with
    | .bounds a => .next ((s.place .lone).trapAt cFETCH_BOUNDS a 0)
    | .word w => exec (wordInstr w) (s.place .lone)
    | .cmd w0 w1 w2 w3 => exec (cmdInstr w0 w1 w2 w3) (s.place .lone)
    | .pair w0 w1 => s.tryPair w0 w1

/-! ### What follows an issue -/

/-- The address of the last word of the issue, and the address after it (R81, R238). -/
def Core.lastWord (c : Core) : Half :=
  if c.repeats then c.sq.pc
  else match c.found with
    | .pair _ _ => c.sq.pc + 4
    | .cmd _ _ _ _ => c.sq.pc + 12
    | _ => c.sq.pc

/-- The next word to fetch; an address that PC cannot hold raises FETCH_BOUNDS when it is fetched (R34, R79). -/
def Sq.setPc (q : Sq) (t : Word) : Sq :=
  if 2 ^ 32 ≤ t.toNat || t.toNat % 4 ≠ 0 then { q with target := some (.ofNat 32 t.toNat) }
  else { q with pc := .ofNat 32 t.toNat, target := none }

/-- The word at an address stands in the pinned buffer (R90). -/
def Sq.pinned (q : Sq) (a : Half) : Bool :=
  q.pinV && inSpan (a.toNat / 4) (fld q.pins.toNat 0 24) (fld q.pins.toNat 24 6 + 1)

/-- A redirect: its target, its withheld cycles; it ends every exposure (R75, R252). -/
def State.redirect (s : State) (t : Word) (cost : Nat) : State :=
  (s.onSq fun q => { (q.setPc t) with held := cost, expo := [] }).event 19 1

/-- The loop test of level k and those below it, on the registers `r` as landed (R81): levels 2, 1, 0 in this order. That a
decrement stands against a write of the same issue, and what a back edge at a PIN costs, is the model's choice (log entry
122). -/
def State.loopLevels (s : State) (r : Sq) (A : Half) (extra : Nat) : List (Fin 3) → State
  | [] => s.onSq fun q => { (q.setPc (zextW (A + 4).toNat)) with held := extra }
  | k :: rest =>
    if r.lc[k] != 0 && r.le[k] == A then
      let s := s.post 1 (.loop (Fin.ofNat 9 k.val) (r.lc[k] - 1))
      if r.lc[k] != 1 then s.redirect (zextW r.ls[k].toNat) (extra + if r.pinned r.ls[k] then 0 else 1)
      else s.loopLevels r A extra rest
    else s.loopLevels r A extra rest

/-- The loop test at the last word A of an issue (R81). -/
def State.loopTest (s : State) (r : Sq) (A : Half) (extra : Nat) : State := s.loopLevels r A extra [2, 1, 0]

/-- One repetition is done: DONE and REPC count it, and the last ends the repeat (R87). -/
def Sq.repDoneStep (q : Sq) : Sq :=
  { q with
    reps := .ofNat 64 (setFld q.reps.toNat 48 16 (q.repDone + 1))
    repc := q.repc - 1
    latch := none
    pins := if q.repc = 1 then setRa q.pins false else q.pins
    expo := [] }

/-- After a repetition of the word at PC, which costs `extra` withheld cycles: the next, or after the last the loop test (R87,
R88). -/
def State.nextRep (s : State) (r : Sq) (extra : Nat) : State :=
  if r.repc = 1 then s.loopTest r r.pc extra else s.onSq fun q => { q with held := extra }

/-- The address of the issue and its command header enter the signature of a measured pass (R374). A DX has put its
expanded header there. -/
def State.sign (s : State) (old : State) : State :=
  if !s.measured then s
  else
    let hs := match old.core.found with
      | .cmd w _ _ _ => [zextW w.toNat]
      | _ => []
    s.onCore fun c => { c with
      sig := old.core.sig ++ zextW old.core.sq.pc.toNat :: (c.sig.drop old.core.sig.length ++ hs) }

/-- What follows a repetition that completes (R87); a REP, which sets DONE and REPC itself, and EXIT and ABORT count for none
(log entry 119). -/
def After.counts : After → Bool
  | .seq | .jump _ _ | .held _ => true
  | _ => false

/-- EXIT or ABORT stands second in the pair at PC: PC goes to it when it issues (R310). -/
def Core.endsSecond (c : Core) : Bool := match c.found with
  | .pair w _ => !c.repeats && classOf (majorOf w) == .plain
  | _ => false

/-- The issue is done: what follows it (R75, R76, R81, R87), the event it counts (R370), BS (R321). `old` is the state
before the issue. A REP in a pair that starts a repeat runs no loop test (log entry 122). -/
def State.finish (s old : State) : State :=
  let r := old.core.sq
  let a := s.core.sq.after
  let s := ((s.event 3 1).act.sign old).onSq fun q => { q with
    slot := .lone
    after := .seq
    skipBrk := false
    trapslot := if r.bs && !r.inHandler then .ofNat 32 (setFld q.trapslot.toNat 20 1 0) else q.trapslot }
  let s := if old.core.repeats && a.counts then s.onSq Sq.repDoneStep else s
  match a with
  | .seq => if old.core.repeats then s.nextRep r 0 else s.loopTest r old.core.lastWord 0
  | .jump t cost => s.redirect t cost
  | .held cost => if old.core.repeats then s.nextRep r cost else s.loopTest r old.core.lastWord cost
  | .stop => s.onSq fun q => { q with pc := if old.core.endsSecond then r.pc + 4 else q.pc }
  | .rep n =>
    let t := old.core.lastWord + 4
    if n = 0 then s.redirect (zextW (t + 4).toNat) 0 else s.onSq fun q => q.setPc (zextW t.toNat)
  | _ => s

/-! ### Breakpoints (R320, R321) -/

/-- The words of the issue with their addresses and slots. -/
def Core.issueWords (c : Core) : List (Half × Half × Bool) :=
  let q := c.sq
  if c.repeats then
    match c.textAt q.pc.toNat with
    | some w => [(q.pc, stepWord q.reps q.repDone w, false)]
    | none => []
  else match c.found with
    | .bounds _ => []
    | .word w => [(q.pc, w, false)]
    | .cmd w _ _ _ => [(q.pc, w, false)]
    | .pair w0 w1 => [(q.pc, w0, false), (q.pc + 4, w1, true)]

/-- Breakpoint register n matches a word of the issue (R320). -/
def Core.brkWord (c : Core) (n : Fin 8) (w : Half × Half × Bool) : Bool :=
  let k := c.sq.bkc[n].toNat
  let v := c.sq.bka[n].toNat
  let here := fld v 2 30 == w.1.toNat / 4
  bitAt k 0 &&
    match fld k 1 3 with
    | 0 => here
    | 1 => here && bitAt k 4 == w.2.2
    | 2 => majorOf w.2.1 == 0x28 && fld w.2.1.toNat 15 10 == fld v 0 10
    | 3 => c.repeats && here && c.sq.repDone == fld v 32 16
    | 4 => here && c.sq.pinned w.1
    | _ => false

/-- The lowest matching breakpoint and the word it matched; none while matches are suppressed (R321, R324). -/
def Core.brkMatch (c : Core) : Option (Fin 8 × (Half × Half × Bool)) :=
  if (c.sq.bs && !c.sq.inHandler) || c.sq.skipBrk then none
  else (List.finRange 8).findSome? fun n => (c.issueWords.find? (c.brkWord n)).map fun w => (n, w)

/-- BKPTn before any word of the issue executes (R321). -/
def State.takeBrk (s : State) (n : Fin 8) (w : Half × Half × Bool) : State :=
  let idx : BitVec 10 := if fld s.core.sq.bkc[n].toNat 1 3 = 2 then .ofNat 10 (w.2.1.toNat / 2 ^ 15) else 0
  s.abandonWait.onCore fun c => c.takeSync (cBKPT n) ⟨c.sq.pc, w.2.2, false, 0, idx⟩

/-! ### The boundary (R310) -/

/-- The debug port stops the sequencer (R304, R324): earlier writes land, CAUSE goes to DCAUSE. -/
def State.debugStop (s : State) (cause : Cause) : State :=
  s.abandonWait.onCore fun c =>
    let c := c.drain
    { c with sq := { c.sq with
      dcause := c.sq.ownCause
      cause := .ofNat 32 cause.toNat
      latch := none
      ending := none
      debug := .halted } }

/-- The sequencer stops for a pre-emption or a yield: earlier writes land, the sources of the fabric stop (R313, R340). -/
def State.preemptStop (s : State) : State :=
  (s.abandonWait.onCore fun c => c.drain).onCore fun c => { c with
    sq := { c.sq with
      latch := none
      held := 0
      ending := none }
    fab := { c.fab with stopping := true } }

/-- The trap or the wait of an attempt is over for this cycle: the place of the word is forgotten. -/
def State.settle (s : State) : State := s.onSq fun q => { q with slot := .lone, after := .seq }

/-- The issue of a STEP is made: the sequencer halts at the next boundary, which stands behind the withheld cycles of the
issue. Of an EXIT or ABORT, the end of the cycle decides (R324, R375). -/
def State.afterStep (s old : State) : State :=
  if old.core.sq.debug ≠ .stepping || s.core.sq.ending.isSome then s
  else if s.core.sq.held ≠ 0 then s.onSq fun q => { q with debug := .stepped }
  else s.debugStop cDEBUG_STEP

/-- The events of one boundary in the order of R310, from the outcome `t` of W's attempt. A pre-emption that this
boundary takes has stopped the core at the start of the cycle. The attempt that traps is the one for which RESUME suppressed the
breakpoints, and a STEP ends with a handler's entry, but not with a cause that the handler holds (R324). A wait that is abandoned
here counts no stall (log entry 124). -/
def State.boundary (s t : State) : Out :=
  let a := t.core.sq.after
  if a = .trapped then .next ((t.settle.onSq fun q => { q with skipBrk := false }).afterStep s)
  else if s.core.sq.asyncPending s.chip.now then thenGo (exec .asyncCauseEntry s) fun u =>
    .next (if s.core.sq.inHandler && u.core.fault.isNone then u.settle else u.settle.afterStep s)
  else if s.core.sq.debug = .halting then .next (s.debugStop cDEBUG_HALT)
  else if a = .waits then .next t.settle
  else .next ((t.finish s).afterStep s)

/-- The sequencer issues no more words in this stay. -/
def Core.stopped (c : Core) : Bool :=
  c.task.isNone || c.fault.isSome || c.fab.stopping || c.sq.debug == .halted || c.retired.isSome

/-- EXIT or ABORT has issued: a cause still reaches the sequencer, and at the end of a cycle that does not see the core
retire a pre-emption or a halt (R93, R310, R324). -/
def State.ended (s : State) : Out :=
  if s.core.sq.asyncPending s.chip.now then exec .asyncCauseEntry s else .next s

/-- Between boundaries (a withheld cycle, a capture) only a cause that faults the task is taken: it needs no boundary,
and it supersedes a pre-emption (R306, R308). -/
def State.fatalOnly (s : State) : Out :=
  if !s.core.sq.asyncPending s.chip.now then .next s
  else thenGo (exec .asyncCauseEntry s) fun u => .next (if u.core.fault.isSome then u.settle else s)

/-- A withheld cycle of a redirect or a PIN (R75); the last one of a STEP's issue ends in the halt (R324). -/
def State.withheld (s : State) : Out :=
  thenGo (s.onSq fun q => { q with held := q.held - 1 }).fatalOnly fun u =>
    .next (if u.core.sq.held = 0 && u.core.sq.debug = .stepped && u.core.fault.isNone then u.debugStop cDEBUG_STEP else u)

/-- The sequencer's act in one cycle (R40, R45, R310). -/
def State.issue (s : State) : Out :=
  if s.core.fab.stopping && !s.core.captured && s.core.task.isSome && s.core.fault.isNone && s.core.retired.isNone
    then s.fatalOnly
  else if s.core.stopped then .next s
  else if s.core.sq.ending.isSome then s.ended
  else if s.core.sq.held ≠ 0 then s.withheld
  else if !s.energyOk s.core then
    .next (s.onCore fun c => { c with
      refused := true
      sq := { c.sq with ctr := { c.sq.ctr with bg := c.sq.ctr.bg + 1 } } })
  else match s.core.brkMatch with
    | some (n, w) => .next ((s.takeBrk n w).settle.afterStep s)
    | none => thenGo s.tryIssue fun t => s.boundary t

/-- W may issue in this cycle: nothing that R310 places before its issue applies, but for a synchronous cause of its own. A
blocking access of the sequencer is performed in such a cycle only (R50). -/
def State.mayIssue (s : State) : Bool :=
  let c := s.core
  !c.stopped && c.sq.ending.isNone && c.sq.held == 0 && s.energyOk c && c.brkMatch.isNone && !c.sq.asyncPending s.chip.now
    && c.sq.debug != .halting

end Sys2Proof.Machine
end

