-- ==== Sys2Proof/Machine/Cycle.lean ====
section
/-! DEFINITION. One cycle of a core and one cycle of the module: which acts come in which order, each act by `exec`. What the
spec orders within a cycle stands here in that order; of what it leaves open, log entry 4 names the choice. -/

namespace Sys2Proof.Machine

/-- Acts in their order. -/
def runAll : List Instr → State → Out
  | [], s => .next s
  | i :: r, s => thenGo (exec i s) (runAll r)

/-! ### The start of a core's cycle -/

/-- What the cycle before did is over for the watchdog, the budgets and the begins of commands (R240, R317, R329). -/
def Core.newCycle (c : Core) : Core :=
  { c with
    active := false
    refused := false
    removed := false
    ended := []
    begun := [] }

/-- What rules compare with the start of the cycle is sampled (R48, R180, R196, R199, R202, R231, R240); a wide access
still holds its banks (R383). -/
def Core.sample (c : Core) : Core :=
  { c with
    sq := { c.sq with
      seen := c.sq.ctr
      banks := c.sq.wide.map (·.1)
      wide := (c.sq.wide.filter fun e => decide (1 < e.2)).map fun e => (e.1, e.2 - 1) }
    loc := { c.loc with
      hstart := c.loc.handles
      wpstart := c.loc.wp
      wpptsStart := c.loc.wppts
      festart := c.loc.fe
      rqstart := c.loc.reqs
      rgstart := c.loc.regions
      halfA := []
      cpeUsed := false
      cpeTurn := none }
    fab := { c.fab with rstart := c.fab.rots } }

/-- The attempt at W would raise a synchronous cause (R310). -/
def State.wouldTrap (s : State) : Bool := match s.tryIssue with
  | .next t => t.core.sq.after == .trapped
  | _ => false

/-- A context runs on the core, and its task has not ended there. -/
def Core.runs (c : Core) : Bool := c.task.isSome && c.fault.isNone && c.retired.isNone

/-- The pre-emption is what R310 acts on at the boundary of this cycle. -/
def State.stopsNow (s : State) : Bool :=
  let c := s.core
  c.preempting && !c.fab.stopping && c.runs &&
    (c.sq.debug == .halted ||
      (c.sq.ending.isNone && c.sq.held == 0 && s.energyOk c && c.brkMatch.isNone && !c.sq.asyncPending s.chip.now
        && !s.wouldTrap))

/-- The core stops for a pre-emption or a yield at this cycle's boundary; its rotations begin their captures (R168,
R313). -/
def State.beginStop (s : State) : State :=
  let s := if s.stopsNow then s.preemptStop.onSq Sq.endHalt else s
  s.onCore (·.startCaptures s.chip.now)

/-! ### Cell operations (R144) -/

/-- The operation of an operation code (R144). -/
def opInstr : Nat → Option Instr
  | 0x01 => some .cellPass
  | 0x02 => some .cellSelect
  | 0x03 => some .cellSteer
  | 0x04 => some .cellMerge
  | 0x05 => some .cellDelay
  | 0x06 => some .cellSink
  | 0x07 => some .cellLeave
  | 0x10 => some .cellAdd
  | 0x11 => some .cellSub
  | 0x12 => some .cellMul
  | 0x13 => some .cellMac
  | 0x14 => some .cellMin
  | 0x15 => some .cellMax
  | 0x16 => some .cellAbs
  | 0x17 => some .cellAnd
  | 0x18 => some .cellOr
  | 0x19 => some .cellXor
  | 0x1A => some .cellShl
  | 0x1B => some .cellShr
  | 0x1C => some .cellSar
  | 0x1D => some .cellRshr
  | 0x1E => some .cellReq
  | 0x1F => some .cellPeq
  | 0x20 => some .cellPne
  | 0x21 => some .cellPlt
  | 0x22 => some .cellPge
  | 0x40 => some .cellFadd
  | 0x41 => some .cellFsub
  | 0x42 => some .cellFmul
  | 0x43 => some .cellFma
  | 0x44 => some .cellFmin
  | 0x45 => some .cellFmax
  | 0x46 => some .cellFabs
  | 0x47 => some .cellFneg
  | 0x48 => some .cellFexp2
  | 0x49 => some .cellFlog2
  | 0x4A => some .cellFrcp
  | 0x4B => some .cellFrsq
  | 0x4C => some .cellFdiv
  | 0x4D => some .cellFpeq
  | 0x4E => some .cellFplt
  | 0x60 => some .cellDkmul
  | 0x61 => some .cellDkdot
  | 0x62 => some .cellDkmax
  | 0x70 => some .cellCvt
  | 0x71 => some .cellNarrow
  | 0x72 => some .cellWiden
  | 0x80 => some .cellBcast
  | 0x81 => some .cellShuf
  | 0x82 => some .cellZip
  | 0x83 => some .cellUnzip
  | 0x84 => some .cellSlide
  | 0x88 => some .cellRsum
  | 0x89 => some .cellRmax
  | 0x8A => some .cellRmin
  | 0xA0 => some .cellLdx
  | 0xA1 => some .cellLdv
  | 0xA2 => some .cellLds
  | 0xA4 => some .cellStx
  | 0xA5 => some .cellStv
  | 0xA6 => some .cellSts
  | 0xA8 => some .cellMadd
  | 0xA9 => some .cellMest
  | 0xAA => some .cellMlvl
  | 0xB0 => some .cellSemit
  | 0xB1 => some .cellCemit
  | _ => none

/-- The operation of the firing that CELL_FIRING latched. -/
def Core.firedOp (c : Core) : Option Instr := c.fab.fire.bind fun g => opInstr c.fab.cells[g.cell].op

/-- Cell n in a cycle: its firing with its operation, then its marker firing (R102, R105, R145). Where every count of a cell is 0
and every input is closed, both may be due: the firing goes first (log entry 133). -/
def State.cellTurn (s : State) (n : Fin 32) : Out :=
  thenGo (exec (.cellFiring n) s) fun t =>
    thenGo (runAll t.core.firedOp.toList t) (exec (.markerFiring n))

def State.cellTurns : List (Fin 32) → State → Out
  | [], s => .next s
  | n :: r, s => thenGo (s.cellTurn n) (cellTurns r)

/-! ### The phases of a core's cycle -/

/-- The acts at the taps and at the rotations' exit ports (R168–R174, R181, R275): captures of saves before RECUR's, and
RECUR's injection after the exits, so that its slot exits at a later visit (R276). -/
def tapActs : List Instr :=
  (List.finRange 8).map .slotCapture ++ [.recurCapture] ++ (List.finRange 8).map .slotInject ++
    ((List.finRange 8).flatMap fun q => [.exitPortPush q, .slotExit q]) ++ [.recurInject]

/-- The circuits (R200, R201). -/
def circuitActs : List Instr := (List.finRange 16).map .circuitPassBegin ++ (List.finRange 16).map .circuitTransfer

/-- What the engines do before the banks serve them (R240, R243, R244, R261, R267, R270). -/
def engineActs : List Instr :=
  (List.finRange 9).map .commandBegin ++ (List.finRange 4).map .feedPush ++ (List.finRange 4).map .drainTake ++
    [.mxeRowFiring, .mxePortToken]

/-- The head of the ROT queue executes (R246, R325). -/
def rotActs : List Instr := [.rotAdmit, .rotRetire, .rotHold, .rotRelease, .rotSave, .rotLoad, .rotMap]

/-- What was performed reaches the commands (R181, R222, R241), and the ROT queue executes its head (R246, R325). -/
def completeActs : List Instr :=
  (List.finRange 22).map .commandComplete ++ [.xltComplete] ++ (List.finRange 8).map .rotSaveComplete ++ rotActs

/-- The header of a save is presented before the tap turns (R181). -/
def State.headers (s : State) : State := (List.finRange 8).foldl (fun s q => s.presentHeader q) s

/-- The banks that the sequencer uses in this cycle, found by its issue beforehand (R190): whatever else the issue does
is done later, in its own place. -/
def State.foreseeBanks (s : State) : State := match s.issue with
  | .next t => s.onSq fun q => { q with banks := t.core.sq.banks }
  | _ => s

/-- PMCn after the cycle (R372). -/
def Core.counted (c : Core) (n : Fin 4) : Word :=
  let k := c.sq.pms[n].toNat
  if bitAt k 6 then
    if h : k % 64 < 23 then c.sq.ctr.pmc[n] + .ofNat 64 c.events[k % 64] else c.sq.ctr.pmc[n]
  else c.sq.ctr.pmc[n]

/-- The counters at the end of a cycle; `stay`: the cycle is one of the context's stay (R371, R372, R375). -/
def Core.account (c : Core) (w : Vector (BitVec 16) 16) (stay : Bool) : Core :=
  let c := if stay then c.event 14 1 else c
  let c := if c.refused then c.event 18 1 else c
  { c with
    events := Vector.replicate 23 0
    sq := { c.sq with ctr := { c.sq.ctr with
      cycle := if stay then c.sq.ctr.cycle + 1 else c.sq.ctr.cycle
      energy := energyAfter c.sq.ctr.energy (c.joules w)
      pmc := Vector.ofFn c.counted } }
    fab := { c.fab with spin := if c.fab.stopping then c.fab.spin + 1 else c.fab.spin } }

/-- The end of the cycle's accounts: the core's energy budget and its counters (R367, R371, R372). What the module's own acts
charge to the context in the cycle is added as they do (log entry 4). -/
def State.accounts (s : State) (stay : Bool) : State :=
  let e := (if stay then s.core.event 14 1 else s.core).joules s.chip.weights
  (s.onPart (s.partOf s.core) fun p => p.spend 6 s.core.cid.toNat e).onCore (·.account s.chip.weights stay)

/-- The end of a cycle that has not seen the core retire after EXIT or ABORT: a pre-emption stops the core there, and so does
a halt or the end of a STEP, unless a cause that can be taken comes first (R310, R324). One that a handler holds cannot (R306). -/
def State.lateStop (s : State) : State :=
  let c := s.core
  if !c.runs || c.fab.stopping || c.sq.ending.isNone || !c.sq.raised.isEmpty || (c.sq.heldCause.isSome && !c.sq.inHandler) then s
  else if c.preempting then s.preemptStop.onSq Sq.endHalt
  else match c.sq.debug with
    | .halting => s.debugStop cDEBUG_HALT
    | .stepping => s.debugStop cDEBUG_STEP
    | _ => s

/-- The last phase of a core's cycle. -/
def State.closeCycle (s : State) : Out :=
  let stay := s.core.runs && !s.core.fab.stopping
  let tick := if stay then [.ptsTick] else []
  thenGo (runAll ((List.finRange 16).map .commandPortIssue ++ tick) s) fun s =>
    thenGo (exec .coreRetire (s.accounts stay)) fun s =>
      runAll ((List.finRange 48).map .nodeQuiesce ++ [.coreCapture]) s.lateStop

/-- The cycle in which the core in turn stands, that of its die (R4). -/
def State.inTurn (s : State) : State := s.onChip fun h => { h with now := s.clockOf s.core.cid }

/-- The next core's turn. -/
def State.rotate (s : State) : State := match s.others with
  | [] => s
  | c :: r => { s with core := c, others := r ++ [s.core] }.inTurn

/-- The core in turn has had its turn at this edge of the module's clock. -/
def State.turnOver (s : State) : State :=
  (s.onCore fun c => { c with tick := s.chip.base + 1, stage := 0 }).rotate

/-- The phase in which the sequencer issues. -/
def issuePhase : Nat := 10

/-- The commands whose begin a cause has let come in this cycle begin in it, and an entry of the ROT queue executes (R329); n
bounds the rounds. -/
def State.lateBegins (s : State) : Nat → Out
  | 0 => .next s
  | n + 1 =>
    if !s.core.removed then .next s
    else thenGo (runAll ((List.finRange 9).map .commandBegin ++ rotActs) (s.onCore fun c => { c with removed := false }))
      (·.lateBegins n)

/-- Commands that the core's queues hold: each round of late begins follows the removal of one. -/
def Core.commands (c : Core) : Nat := (c.queues.toList.map fun q => q.ents.length + 1).sum

/-- A phase of the cycle of the core in turn. -/
def State.corePhase (s : State) : Nat → Out
  | 0 => thenGo (exec .roundYield s) fun s =>
      thenGo (exec .writeLands (s.onCore Core.newCycle)) fun s =>
        .next ((((List.finRange 8).foldl State.cpePerformed s).onCore Core.sample).cpeNext.beginStop)
  | 1 => runAll ((List.finRange 32).map .requestAged) s
  | 2 => runAll tapActs s.headers
  | 3 => runAll ((List.finRange 32).map .tokenPush) s
  | 4 => State.cellTurns (List.finRange 32) s
  | 5 => runAll ((List.finRange 32).map .argwEffect ++ circuitActs) s
  | 6 => thenGo (runAll engineActs s) fun s => exec .cpeRowAccess s.syeStep.launchStep.rotBegin
  | 7 => runAll ((List.finRange 32).map .bankEngineAccess) s.foreseeBanks
  | 8 => thenGo (runAll completeActs s) fun s => s.lateBegins s.core.commands
  | 9 => exec .globalAccessComplete (s.onSq fun q => { q with may := s.mayIssue })
  | 10 => s.issue
  | _ => s.closeCycle

/-- The core in turn goes on to its next phase, or its cycle is over. A core that has no context, or whose die does not take
the edge, has nothing to do. -/
def State.coreStep (s : State) : Out :=
  if s.chip.base < s.core.tick then .next { s with
      stage := 2
      chip := { s.chip with now := s.chip.base } }
  else if s.core.task.isNone || (s.core.stage = 0 && s.chip.dies[dieOf s.core.cid].skips) then .next s.turnOver
  else
    thenGo (s.corePhase s.core.stage) fun t =>
      if s.core.stage ≤ issuePhase then .next (t.onCore fun c => { c with stage := s.core.stage + 1 })
      else .next t.turnOver

/-! ### What stands outside the cores -/

/-- The tasks that the hub still has work with. -/
def State.liveTasks (s : State) : List Nat :=
  (List.range s.chip.tasks.length).filter fun t => match s.chip.tasks[t]? with
    | some k => k.state != .done
    | none => false

/-- Every page walk, in the order of arrival, from number i on; one that is over leaves its number to the next (R220). `n`
bounds them. -/
def State.walksFrom (s : State) (i : Nat) : Nat → Out
  | 0 => .next s
  | n + 1 => thenGo (exec (.pageWalk i) s) fun t =>
      t.walksFrom (if t.chip.walks.length < s.chip.walks.length then i else i + 1) n

/-- Units with an invalidation to receive, or to acknowledge (R222). -/
def State.ackActs (s : State) : List Instr :=
  if s.chip.invals.isEmpty then []
  else (invalUnits.filter fun u => s.chip.invals.any fun i => i.units.contains u || i.owing.contains u).map .invalidationAck

/-- The SYEs of a cycle: windows with an open round, then plain accesses (R280, R289). -/
def State.syeActs (s : State) : List Instr :=
  (s.liveTasks.flatMap fun t => match s.chip.tasks[t]? with
    | some k => k.windows.map fun (e : Nat × Window) => .windowRoundClose t (Fin.ofNat 64 e.1)
    | none => []) ++ (List.finRange 4).map .syeAccess

/-- Every SYE may perform its access of this cycle (R280). -/
def State.freshSyes (s : State) : State :=
  s.onChip fun h => { h with dies := h.dies.mapAll fun d => { d with sye := { d.sye with used := false } } }

/-- The barriers with arrivals (R292). -/
def State.barrierActs (s : State) : List Instr :=
  s.liveTasks.flatMap fun t => match s.chip.tasks[t]? with
    | some k => k.barriers.flatMap fun (e : Nat × Barrier) =>
        (List.finRange 4).map (.barrierArrival t (Fin.ofNat 64 e.1)) ++ [.barrierRelease t (Fin.ofNat 64 e.1)]
    | none => []

/-- The hub's own acts on replays and circuits (R341, R346). -/
def State.carryActs (s : State) : List Instr :=
  ((List.finRange 256).filter fun j => s.chip.replays.any fun e => e.1 == j && e.2.on).map .replayNodeAppend ++
    s.liveTasks.map .cmpCircuitCarry

/-- Task numbers by ascending task id, those of one id in their order. -/
def State.byId (s : State) : List Nat → List Nat
  | [] => []
  | t :: r => ins t (s.byId r)
where
  id (t : Nat) : Nat := ((s.chip.tasks[t]?).map (·.desc.task.toNat)).getD 0
  ins (t : Nat) : List Nat → List Nat
    | [] => [t]
    | x :: r => if id t ≤ id x then t :: x :: r else x :: ins t r

/-- The hub's acts on tasks (R308, R313, R317, R319, R338); of tasks that end in one cycle the lower task id is first
(R311). -/
def State.taskActs (s : State) : List Instr :=
  (s.liveTasks.flatMap fun t => [.watchdog t, .teardown t, .regionRelease t]) ++ (s.byId s.liveTasks).map .taskComplete
    ++ s.liveTasks.map .preemptAck

/-- The dispatch steps whose time has come (R334). -/
def State.dispatchActs (s : State) : List Instr :=
  List.replicate ((s.chip.time - s.chip.dispatchAt) / 4 + 1) .dispatchStep

/-- The period of the module's reference clock in fs: that of the fastest clock R4 allows, 1.05 GHz and 0.1 %. -/
def edgePeriod : Nat := 951430

/-- Edges between two that an unstretched clock does not take: no clock falls more than 0.1 % below 1.05 GHz (R4). -/
def slipEdges : Nat := 501

/-- Time passes by one edge, of the time base's nanoseconds (R4). -/
def Chip.passTime (h : Chip) : Chip :=
  { h with
    time := h.time + (h.frac + edgePeriod) / 10 ^ 6
    frac := (h.frac + edgePeriod) % 10 ^ 6 }

/-- A die meets edge b: it does not take an edge that a sag has it skip, nor, as its own clock may have it, one of slipEdges
(R4, R369; log entry 6). -/
def Die.meet (d : Die) (b : Nat) (slip : Bool) : Die :=
  if d.owed ≠ 0 then { d with
    owed := d.owed - 1
    lag := d.lag + 1
    skips := true }
  else if slip && decide (d.slipAt ≤ b) then { d with
    slipAt := b + slipEdges
    lag := d.lag + 1
    skips := true }
  else { d with skips := false }

/-- Die i meets the edge of the module's reference clock. -/
def State.meetEdge (s : State) (i : Fin 4) : State :=
  let (k, s) := s.take
  s.onChip fun h => { h with dies := h.dies.set i (h.dies[i].meet h.base (Config.coin k)) }

/-- The next edge of the module's reference clock. -/
def State.nextEdge (s : State) : State :=
  (List.finRange 4).foldl State.meetEdge (s.onChip fun h => { h.passTime with base := h.base + 1 })

/-- The cycle of the module is over: budgets and error rings take what it counted (R360, R368), accesses that a budget held back
are presented again, and time passes. -/
def State.closeModule (s : State) : Out :=
  let again := s.chip.waiting
  let s := s.onChip fun h => { h with
    parts := h.parts.mapAll fun q => q.endCycle.flushErrs
    waiting := [] }
  exec .quartzPeriod { s.nextEdge.inTurn with
    inbox := again ++ s.inbox
    stage := 0 }

/-- The commands of the core in turn that a snapshot's failure lets begin in this cycle begin in it (R329). -/
def State.snapOf (s : State) : State := match s.replaySnap.lateBegins s.core.commands with
  | .next t => t
  | _ => s.replaySnap

/-- The replays that begin in this cycle take their snapshots, as the budgets permit the hub's accesses (R346, R368). -/
def State.replaySnaps (s : State) : State :=
  ((s.core :: s.others).filter fun c => match c.queues[launchQ].run with
    | some r => r.stage == 1
    | none => false).foldl (fun s c =>
      if s.chip.parts[s.partOf c].hubMay then s.atCore c.cid State.snapOf else s.refusedLate c.cid) s

/-- The measurements of the partitions (R374). -/
def State.measSteps (s : State) : State :=
  if s.chip.meas.isEmpty then s else (List.finRange 64).foldl State.measStep s

/-- What is due at the ports leaves through them (R351). -/
def State.portActs (s : State) : State := (List.finRange 16).foldl State.portStep s

/-- A phase of the module's cycle, once every core has run its own. -/
def State.modulePhase (s : State) : Nat → Out
  | 2 => thenGo (s.walksFrom 0 s.chip.walks.length) fun s => runAll s.ackActs s
  | 3 => thenGo (runAll s.syeActs s) fun s => .next s.freshSyes
  | 4 => thenGo (runAll s.barrierActs s) fun s => .next s.groupsHandOn
  | 5 => runAll s.carryActs s
  | 6 => runAll s.taskActs s
  | 7 => runAll s.dispatchActs s
  | _ => .next s.replaySnaps.measSteps.portActs

def State.moduleStep (s : State) : Out :=
  if s.stage ≤ 8 then
    thenGo (s.modulePhase s.stage) fun t => .next { t with stage := s.stage + 1 }
  else s.closeModule

/-! ### Inputs and the boot -/

/-- Events of the outside agents: the host, peers, links, the debug port, firmware, sensors and rails. -/
def isInput : Instr → Bool
  | .tailDoorbell .. | .graphDoorbell .. | .kill .. | .preempt .. | .hostRegisterWrite .. | .hostRegisterRead .. | .dbmvRead .. | .meas ..
  | .hostWrite .. | .hostRead .. | .peerWrite .. | .peerRead .. | .flitReceive .. | .linkRetrain ..
  | .ucieLinkFail .. | .tenantTag .. | .clockStretch .. | .thermalTrip .. | .railFault .. | .attestationRequest ..
  | .debugNop .. | .debugHalt .. | .debugStep .. | .debugResume .. | .debugRead .. | .debugWrite .. | .debugStatus .. | .debugTransact ..
  | .uncorrectableError .. | .syeLost .. | .partitionConfigure .. | .conventionalReset | .functionLevelReset => true
  | _ => false

/-- The link by which an access comes: a Penyan port, or 16, the host's. -/
def inputLink : Instr → Option Nat
  | .tailDoorbell .. | .graphDoorbell .. | .kill .. | .preempt .. | .hostRegisterWrite .. | .hostRegisterRead .. | .dbmvRead .. | .meas ..
  | .hostWrite .. | .hostRead .. => some 16
  | .peerWrite p .. | .peerRead p .. => some p.val
  | _ => none

/-- An input takes effect between two cycles of the module (log entry 3). The accesses of one link are performed in their order:
one waits behind those that a budget holds back (R350, R368). -/
def State.takeInput (s : State) (i : Instr) : Out :=
  if !isInput i then .next s
  else if (inputLink i).any fun l => s.chip.waiting.any fun w => inputLink w == some l then .next (s.holdBack i)
  else exec i s

/-- The next step of the boot (R380); whether the dies train is not the program's choice (log entry 6). -/
def State.bootStep (s : State) : Out :=
  let (k, s) := (s.onChip Chip.passTime).take
  exec (.boot (Config.coin k)) s

/-- What the module does between two cycles: the oldest input, else a transaction of the debug port and then the next boot
step, or a cycle begins. -/
def State.between (s : State) : Out :=
  match s.inbox with
  | i :: r => { s with inbox := r }.takeInput i
  | [] => thenGo s.debugEngine fun s => if s.chip.isUp then { s with stage := 1 }.coreStep else s.bootStep

/-- The next act of the module. -/
def State.advanceModule (s : State) : Out :=
  if s.stage = 0 then s.between else if s.stage = 1 then s.coreStep else s.moduleStep

/-! ### Placing an instruction -/

/-- The sequencer about to issue the word at address 0. -/
def Sq.atZero (q : Sq) : Sq :=
  { q with
    pc := 0
    target := none
    slot := .lone
    after := .seq
    held := 0
    wait := none
    latch := none
    ending := none
    pins := setRa q.pins false
    heldCause := none
    raised := []
    debug := .running
    skipBrk := true }

/-- The core with these words as its text, and its next phase the issue of the first. -/
def Core.withText (c : Core) (t : List Half) (edge : Nat) : Core :=
  { c with
    task := some (c.task.getD 0)
    tick := edge
    stage := issuePhase
    text := t
    sq := c.sq.atZero
    fab := { c.fab with stopping := false }
    retired := none
    preempting := false
    fault := none }

/-- The module running, its next act the issue of the first of these words by the core in turn: what the load of a
program from outside would leave (log entry 11). -/
def State.withText (s : State) (t : List Half) : State :=
  let s := { s with
    core := s.core.withText t s.chip.base
    inbox := []
    stage := 1
    chip := { s.chip with boot := .up } }
  s.onPart (s.partOf s.core) fun p => { p with used := [] }

end Sys2Proof.Machine
end

