-- ==== Sys2Proof/Machine/Step.lean ====
section
/-! DEFINITION. The step of the machine: its next act, as Cycle.lean orders them; and the placing of an instruction for
the sequencer. -/

namespace Sys2Proof.Machine

/-- One step: the next act of the module. While the boot, an input or another core is next, that is the act; where the
sequencer of the core in turn is next, the act is its issue. -/
def step (s : State) : Host.Outcome State Fault Refusal := s.advanceModule

/-- `s` with the instruction whose bits the opcode table numbers as `w` at address 0 of the text of the core in turn, and
its issue the next act. -/
def State.withFetchWord (s : State) (nbits w : Nat) : State := s.withText (tableWords nbits w)

end Sys2Proof.Machine
end

