-- ==== Sys2Proof/Safety.lean ====
section
/-! DEFINITION. What a safe run is, and the words that claims use beside the model's own: integer operands and results
as bit vectors read them, the destination of a plain instruction, one byte of a scratchpad and of a device memory. -/

namespace Sys2Proof.Machine

/-- The machine goes on for ever from `s`: however many steps it takes, it ends in a next state. -/
def Safe (s : State) : Prop := ∀ n : Nat, ∃ t, Host.Core.run Sys2Proof.core n s = .next t

/-! ### Integers (R54) -/

/-- The integer that the W low bits of a word denote: unsigned where U = 1, else two's complement. -/
def operand (v : Word) (w : Width) (u : Bool) : Int :=
  if u then ((v.setWidth (widthOf w)).toNat : Int) else (v.setWidth (widthOf w)).toInt

/-- The W low bits of a word, as a word: extended by zeros where U = 1, else by the sign. -/
def extended (W : Nat) (r : BitVec W) (u : Bool) : Word := if u then r.setWidth 64 else r.signExtend 64

/-- An exact integer as a result of width W: brought into the format's range where S = 1, wrapped, extended. -/
def narrowed (x : Int) (w : Width) (u sat : Bool) : Word :=
  let lo : Int := if u then 0 else -2 ^ (widthOf w - 1)
  let hi : Int := if u then 2 ^ widthOf w - 1 else 2 ^ (widthOf w - 1) - 1
  extended (widthOf w) (.ofInt (widthOf w) (if sat then max lo (min hi x) else x)) u

/-- 1 where the proposition holds, else 0. -/
def truth (p : Prop) [Decidable p] : Word := if p then 1#64 else 0#64

/-! ### Where a plain instruction writes -/

/-- A register a landing names. -/
inductive Target
  | g (r : Fin 32)
  | c (r : Fin 8)
  | loop (l : Fin 9)
deriving DecidableEq, Repr

/-- The register a landing writes, where it is one that a plain instruction can name. -/
def Landing.target : Landing → Option Target
  | .g r _ => some (.g r)
  | .c r _ => some (.c r)
  | .loop l _ => some (.loop l)
  | .creg _ _ => none
  | .region _ _ => none
  | .satClear _ => none
  | .sd _ _ => none

/-- The destination of the plain instructions of majors 0x01–0x0E with their latencies (R43); none for every other
instruction. -/
def plainDest : Instr → Option (Target × Nat)
  | .add d _ _ _ _ _ | .sub d _ _ _ _ _ | .and d _ _ | .or d _ _ | .xor d _ _ | .andn d _ _ => some (.g d, 1)
  | .shl d _ _ _ _ | .shr d _ _ _ _ | .sar d _ _ _ _ | .ror d _ _ _ _ => some (.g d, 1)
  | .min d _ _ _ _ | .max d _ _ _ _ | .slt d _ _ _ _ | .seq d _ _ _ => some (.g d, 1)
  | .mul d _ _ _ _ _ | .mulh d _ _ _ _ => some (.g d, 3)
  | .div d _ _ _ _ | .rem d _ _ _ _ => some (.g d, 12)
  | .ceq c _ _ _ | .cne c _ _ _ | .clt c _ _ _ _ | .cge c _ _ _ _ | .ctst c _ _ _ => some (.c c, 1)
  | .addi d _ _ | .andi d _ _ | .ori d _ _ | .xori d _ _ => some (.g d, 1)
  | .shli d _ _ _ _ | .shri d _ _ _ _ | .sari d _ _ _ _ | .rori d _ _ _ _ => some (.g d, 1)
  | .ceqi c _ _ | .cnei c _ _ | .clti c _ _ | .cgei c _ _ | .cltui c _ _ | .cgeui c _ _ | .ctsti c _ _ => some (.c c, 1)
  | .li d _ | .lis d _ => some (.g d, 1)
  | .clz d _ | .ctz d _ | .popc d _ | .brev d _ | .bswap d _ => some (.g d, 1)
  | .sel d _ _ _ | .seln d _ _ _ | .mfc d _ => some (.g d, 1)
  | .mtc c _ | .cand c _ _ | .cor c _ _ | .cxor c _ _ | .candn c _ _ => some (.c c, 1)
  | .addsh d _ _ | .wrapi d _ _ _ | .alignu d _ _ => some (.g d, 1)
  | .mov d _ | .sxb d _ | .sxh d _ | .sxw d _ | .zxb d _ | .zxh d _ | .zxw d _ | .mfl d _ => some (.g d, 1)
  | .mtl l _ => some (.loop l, 1)
  | _ => none

/-! ### Local memory -/

/-- One byte of the scratchpad of the core in turn. -/
def State.spad (s : State) (a : Nat) : Byte := rdByte s.core.loc.mem a

/-- Everything but the sequencer, the local memory side and the energy events of the core in turn is as before: the
other cores, the fabric, the queues, the engines, the L1 and all that stands outside the cores. -/
def SameElsewhere (s t : State) : Prop :=
  t.core = { s.core with
    sq := t.core.sq
    loc := t.core.loc
    events := t.core.events } ∧ t = { s with core := t.core }

/-- The sign-extending rows of the sz table (R69). -/
def signedLoad : LdSz → Bool
  | .i8 => true
  | .i16 => true
  | .i32 => true
  | .n8 => false
  | .n16 => false
  | .n32 => false
  | .i64 => false

/-- `v` is what a load of size z makes of bytes `f 0`, `f 1`, …: the bytes, the first the least significant, and above
them copies of the top bit or zeros. -/
def LoadsAs (z : LdSz) (f : Nat → Byte) (v : Word) : Prop :=
  (∀ k < z.bytes, v.extractLsb' (8 * k) 8 = f k) ∧
  (∀ i < 64, 8 * z.bytes ≤ i → v.getLsbD i = (signedLoad z && v.getLsbD (8 * z.bytes - 1)))

/-- The larger of two logical times. -/
def laterOf (a b : Word) : Word := if a.ule b then b else a

/-- `x` is the latest of n logical times, 0 of none. -/
def LatestOf (x : Word) (f : Nat → Word) (n : Nat) : Prop :=
  (∀ i < n, (f i).toNat ≤ x.toNat) ∧ (x = 0 ∨ ∃ i < n, x = f i)

/-- The n places from number lo on have taken time t in a store of times, and no other place has changed. -/
def Stamped (place : Nat → Nat) (lo n : Nat) (t : Word) (l l' : Sparse Word) : Prop :=
  canon 0 l = true → canon 0 l' = true ∧
    (∀ k < n, look 0 (place (lo + k)) l' = t) ∧ ∀ i, (∀ k < n, place (lo + k) ≠ i) → look 0 i l' = look 0 i l

/-- The operands and the first cycle of a wait of kind k at this attempt: those of the wait in progress, or these. -/
def attemptOf (s : State) (k : WaitKind) (a v : Word) : Word × Word × Nat :=
  match s.core.sq.wait with
  | none => (a, v, s.chip.now)
  | some w => if w.kind = k then (w.addr, w.val, w.since) else (a, v, s.chip.now)

/-- The instruction goes on waiting: nothing changes but the wait, its stall counter, and what follows the issue. -/
def WaitsOn (s t : State) (k : WaitKind) (c : Stall) : Prop :=
  ∃ w : Wait, w.kind = k ∧ t = { s with core := { s.core with sq := { s.core.sq with
    ctr := s.core.sq.ctr.stall c
    wait := some w
    after := .waits } } }

/-- The level the update rule of R228 gives, and whether it loses an excess: estimates count units of 2^−23, `u` is the
24-bit draw. -/
def UpdateRule (s top l add u : Nat) (new : Nat) (lost : Bool) : Prop :=
  if add = 0 then new = l ∧ lost = false
  else if estFix s top ≤ estFix s l + add then
    new = top ∧ (lost = true ↔ estFix s top < estFix s l + add)
  else ∃ lo, lo < top ∧ estFix s lo ≤ estFix s l + add ∧ estFix s l + add < estFix s (lo + 1) ∧ lost = false ∧
    new = if u < riseT (estFix s l + add - estFix s lo) (estFix s (lo + 1) - estFix s lo) then lo + 1 else lo

/-- A lane of REPS applied to a word in the repetition numbered j: the field that SEL names, its lowest bit and width, has
advanced by j steps, and every other bit stands (R86, R87). -/
def Stepped (sel : Nat) (step : BitVec 11) (j : BitVec 16) (w v : Half) : Prop :=
  ∃ lo n, (sel, lo, n) ∈ [(0, 0, 0), (1, 20, 5), (2, 15, 5), (3, 10, 5), (4, 5, 5), (5, 0, 5), (6, 0, 12), (7, 0, 15),
    (8, 0, 20), (9, 0, 6), (10, 15, 10)] ∧
  v.extractLsb' lo n = w.extractLsb' lo n + j.setWidth n * step.signExtend n ∧
  ∀ i < 32, (i < lo ∨ lo + n ≤ i) → v.getLsbD i = w.getLsbD i

/-! ### Exceptions, queues -/

/-- The state after an entry to the handler: every write in flight has landed, CAUSE, TRAPPC and TRAPSLOT are written
(SLOT, ASYNC, PHASE, INDEX, H = 1, RA and BS, from bit 0 up), PINS.RA is 0, and PC stands at TVEC, aligned, three cycles
withheld, a redirect that is counted (R44, R305, R306, R372). -/
def handlerState (s : State) (cause : Cause) (pc : Half) (slot async : Bool) (phase : BitVec 6) (index : BitVec 10)
    (bs : Bool) : State :=
  let q := s.core.drain.sq
  { s with core := { s.core.drain with
    events := s.core.drain.events.set 19 (s.core.drain.events[19] + 1)
    sq := { q with
      cause := cause.setWidth 32
      trappc := pc
      trapslot := 0#11 ++ BitVec.ofBool bs ++ BitVec.ofBool (q.pins.getLsbD 31) ++ 1#1 ++ index ++ phase ++
        BitVec.ofBool async ++ BitVec.ofBool slot
      pins := q.pins &&& 0x7FFFFFFF
      pc := q.tvec &&& 0xFFFFFFFC
      held := 3
      target := none
      after := .trapped
      wait := none
      latch := none
      expo := [] } } }

/-- The core has reported a fault of its task, with these causes and saved pc, and stopped; every write in flight has
landed (R44, R308, R309). -/
def Faulted (s t : State) (cause second : Cause) (pc : Half) : Prop :=
  ∃ f : CoreFault, f.cause = cause ∧ f.second = second ∧ f.trappc = pc ∧ t = { s with core := { s.core.drain with
    fault := some f
    sq := { s.core.drain.sq with
      after := .trapped
      wait := none
      latch := none } } }

/-- The state after a command took the last place of queue k: its node is LCID[11:0] with code 48, its time the
sequencer's (R237, R238, R288). -/
def queued (s : State) (k : Fin 22) (i : Instr) : State :=
  { s with core := { s.core with
    queues := s.core.queues.set k { s.core.queues[k] with
      ents := s.core.queues[k].ents ++ [.cmd i (s.core.sq.lcid.setWidth 12 ++ 48#6) s.core.sq.ctr.pts s.core.order none] }
    order := s.core.order + 1
    sq := { s.core.sq with wait := none } } }

/-- Fewer than 32 entries, the begun command counted (R237). -/
def roomIn (s : State) (k : Fin 22) : Prop :=
  s.core.queues[k].ents.length + (if s.core.queues[k].run = none then 0 else 1) < 32

/-- The value of a hole's field f: a g register, or 5 bits, zero- or sign-extended (R249). -/
def holeField (s : State) (kind : Nat) (f : BitVec 5) : Word :=
  if kind = 1 then s.rg f.toFin else if kind = 2 then f.setWidth 64 else f.signExtend 64

/-- `c` is the template with each hole of the map filled by its field shifted left (R247, R249). -/
def Builds (s : State) (e : DictEnt) (h : Fin 3 → BitVec 5) (c : Quad) : Prop :=
  ∀ p < 128,
    (∀ j : Fin 3, (holeOf e.map.toNat j).kind ≠ 0 → (holeOf e.map.toNat j).pos ≤ p →
      p < (holeOf e.map.toNat j).pos + (holeOf e.map.toNat j).wid →
      c.getLsbD p = (holeField s (holeOf e.map.toNat j).kind (h j) <<< (holeOf e.map.toNat j).sh).getLsbD
        (p - (holeOf e.map.toNat j).pos)) ∧
    ((∀ j : Fin 3, (holeOf e.map.toNat j).kind ≠ 0 → p < (holeOf e.map.toNat j).pos ∨
      (holeOf e.map.toNat j).pos + (holeOf e.map.toNat j).wid ≤ p) → c.getLsbD p = e.template.getLsbD p)

/-! ### Cell operations -/

/-- Lane k of W bits of a token (R99). -/
def laneOf (W : Nat) (d : Row) (k : Nat) : Nat := d.toNat / 2 ^ (W * k) % 2 ^ W

/-- The integer a W-bit lane denotes. -/
def laneInt (W : Nat) (u : Bool) (a : Nat) : Int := if u then (BitVec.ofNat W a).toNat else (BitVec.ofNat W a).toInt

/-- The range of an integer format of W bits. -/
def inRange (W : Nat) (u : Bool) (x : Int) : Prop :=
  if u then 0 ≤ x ∧ x < 2 ^ W else -2 ^ (W - 1) ≤ x ∧ x < 2 ^ (W - 1)

/-- The W bits of an exact integer: brought into the range where S = 1, and wrapped. -/
def laneFit (W : Nat) (u sat : Bool) (x : Int) : Nat :=
  let lo : Int := if u then 0 else -2 ^ (W - 1)
  let hi : Int := if u then 2 ^ W - 1 else 2 ^ (W - 1) - 1
  (BitVec.ofInt W (if sat then max lo (min hi x) else x)).toNat

/-! ### Numbers and roundings (R125–R134) -/

/-- The distance of two numbers. -/
def gap (x y : Rat) : Rat := if x ≤ y then y - x else x - y

/-- The number of an fp32 (p = 24) or bf16 (p = 8) pattern: sign, exponent with bias 127, fraction (R126). -/
def fpNumber (p r : Nat) : Rat :=
  let e := r / 2 ^ (p - 1) % 256
  let f : Rat := ((r % 2 ^ (p - 1) : Nat) : Rat) / 2 ^ (p - 1)
  (if r / 2 ^ (p + 7) % 2 = 1 then -1 else 1) *
    (if e = 0 then f * (2 : Rat) ^ (-126 : Int) else (1 + f) * (2 : Rat) ^ ((e : Int) - 127))

/-- The number of a dk8 code at bias B: Z leading zeros, a marker, the fraction (R131). -/
def dkNumber (B : Int) (r : Nat) : Rat :=
  let p := r % 128
  let m := Nat.log2 p
  if p = 0 then 0
  else (if r / 128 % 2 = 1 then -1 else 1) * ((64 + 9 * (p - 2 ^ m) * 2 ^ (6 - m) : Nat) : Rat) / 64 *
    (10 : Rat) ^ (B - (6 - m : Nat))

/-- The number of a lane of a format. -/
def laneNumber (f : Fmt) (r : Nat) : Rat :=
  if f.code = 8 then dkNumber f.bias r
  else if f.code = 9 then fpNumber 8 r
  else if f.code = 10 then fpNumber 24 r
  else laneInt (fmtBits f.code) (fmtUns f.code) r

/-- A pattern of a format that denotes a number. -/
def LaneFinite (f : Fmt) (r : Nat) : Prop :=
  r < 2 ^ fmtBits f.code ∧ (f.code = 8 → r ≠ 0x80) ∧ (f.code = 9 → r / 2 ^ 7 % 256 ≠ 255) ∧
    (f.code = 10 → r / 2 ^ 23 % 256 ≠ 255)

/-- The number that an exact value of the model is. -/
def numberOf : RVal → Option Rat
  | .fin s n d => if d = 0 then none else some ((if s then -1 else 1) * (n / d))
  | _ => none

/-- `r` is x rounded to nearest in format f, ties to the even pattern (R127, R132, R134): fp32 and bf16 turn to infinity from
half a step above their largest number on, and keep the sign of what becomes 0; the others take their nearest pattern. -/
def RoundsTo (f : Fmt) (x : Rat) (r : Nat) : Prop :=
  let fp := f.code = 9 ∨ f.code = 10
  let p : Nat := if f.code = 9 then 8 else 24
  let top : Rat := (2 - (2 : Rat) ^ (-(p : Int))) * (2 : Rat) ^ (127 : Int)
  (fp → (x < 0 → r / 2 ^ (p + 7) = 1) ∧ (0 < x → r / 2 ^ (p + 7) = 0)) ∧
  (fp → top ≤ gap x 0 → r % 2 ^ (p + 7) = 255 * 2 ^ (p - 1)) ∧
  ((fp → gap x 0 < top) → LaneFinite f r ∧ ∀ y, LaneFinite f y →
    gap x (laneNumber f r) < gap x (laneNumber f y) ∨
    (gap x (laneNumber f r) = gap x (laneNumber f y) ∧ (laneNumber f y = laneNumber f r ∨ r % 2 = 0)))

/-- `r` is x rounded toward zero in format f: of the patterns of its sign, the greatest that is not beyond it (R134). -/
def TruncatesTo (f : Fmt) (x : Rat) (r : Nat) : Prop :=
  LaneFinite f r ∧ 0 ≤ laneNumber f r * x ∧ gap 0 (laneNumber f r) ≤ gap 0 x ∧
  ∀ y, LaneFinite f y → 0 ≤ laneNumber f y * x → gap 0 (laneNumber f y) ≤ gap 0 x →
    gap 0 (laneNumber f y) ≤ gap 0 (laneNumber f r)

/-- Element number n of W bits of a store of bytes. -/
def elementIn (W : Nat) (l : Sparse Byte) (n : Nat) : Nat :=
  leNat ((List.range (W / 8)).map fun i => look 0 (W / 8 * n + i) l)

/-- Operation code `op` of the latched firing makes what `P` says, and the firing ends with it. -/
def CellMakes (i : Instr) (op : Nat) (P : State → Cell → Firing → Made → Prop) : Prop :=
  ∀ (s : State) (g : Firing), s.core.fab.fire = some g → s.core.fab.cells[g.cell].op = op →
    ∃ m : Made, exec i s = .next (s.finishFire g m none) ∧ P s s.core.fab.cells[g.cell] g m

/-- The firing makes PROD0 tokens on o0 and none on o1, each lane by `f` from the lanes of i0, i1 and i2. -/
def Lanewise (W V : Nat) (c : Cell) (g : Firing) (m : Made) (f : Nat → Nat → Nat → Nat) : Prop :=
  m.o0.length = c.prod 0 ∧ m.o1 = [] ∧ ∀ (i : Nat) (d : Row), m.o0[i]? = some d → ∀ k < 512 / W,
    laneOf V d k = f (laneOf W (c.row g 0 i) k) (laneOf W (c.row g 1 i) k) (laneOf W (c.row g 2 i) k)

/-- An integer operation with exact result `e`: S clamps, OT makes a result outside the format the cause OVERFLOW. -/
def FitsLanes (c : Cell) (g : Firing) (m : Made) (e : Nat → Nat → Nat → Int) : Prop :=
  let W := fmtBits c.type
  let u := fmtUns c.type
  Lanewise W W c g m (fun a b d => laneFit W u c.satMode (e a b d)) ∧
  (c.ot = false → m.bad = none) ∧
  (c.ot = true → (m.bad = none ↔ ∀ i < c.prod 0, ∀ k < 512 / W, inRange W u
    (e (laneOf W (c.row g 0 i) k) (laneOf W (c.row g 1 i) k) (laneOf W (c.row g 2 i) k)))) ∧
  (m.bad = none ∨ m.bad = some .overflow)

/-- A half up rounding shift (R153). -/
def halfUp (x : Int) (n : Nat) : Int := if n = 0 then x else (x + 2 ^ (n - 1)).fdiv (2 ^ n)

/-- A shuffle of one token: lane k of o0 by `f`, and of o1, where PROD1 is not 0, by `h`, from the lanes of i0 and i1. -/
def Shuffles (c : Cell) (g : Firing) (m : Made) (f h : (Nat → Nat) → (Nat → Nat) → Nat → Nat) : Prop :=
  let W := fmtBits c.type
  let a := laneOf W (c.row g 0 0)
  let b := laneOf W (c.row g 1 0)
  m.bad = none ∧ (∃ d, m.o0 = [d] ∧ ∀ k < 512 / W, laneOf W d k = f a b k) ∧
  (c.prod 1 = 0 → m.o1 = []) ∧ (c.prod 1 ≠ 0 → ∃ d, m.o1 = [d] ∧ ∀ k < 512 / W, laneOf W d k = h a b k)

/-- A row as it enters a channel of type `y` from a producer of type `t`: converted lane by lane where the types differ
(R135). Types of different width, and different ones of which one is a type 11–13, are joined by no conversion: there the row is
the free value of log entry 20. -/
def enteredAs (t y : Option Fmt) (d : Row) : Row := match t, y with
  | some p, some q =>
    let odd := fun (x : Fmt) => 11 ≤ x.code ∧ x.code < 14
    if fmtBits p.code ≠ fmtBits q.code ∨ (p.code ≠ q.code ∧ (odd p ∨ odd q)) then Config.misfit p.code q.code d
    else if p.code ≠ q.code ∨ (p.code = 8 ∧ p.bias ≠ q.bias) then (cvtRow p q d).1 else d
  | _, _ => d

/-- A token as it enters a channel (R135); a marker enters as it is. -/
def enters (t y : Option Fmt) (k : Token) : Token :=
  match k.kind with
  | .eoi => k
  | .data => { k with data := enteredAs t y k.data }

/-- What the lanes `l` of cell n's memory port do, with data row `d` and data token `k` (R159, R175, R191, R233): loads give
each lane its word; stores leave each lane's word, the later lane's where lanes meet, and every other byte as it was, or
nothing where the slot's generation has moved on; a MADD updates lane by lane; MEST and MLVL give each lane its level. -/
def PortLanes (s u : State) (n : Fin 32) (d : Row) (k : Token) (l : List Lane) : Prop :=
  let c := s.core.fab.cells[n]
  let m := s.core.loc.mem
  let h := s.core.loc.handles[c.hidx]
  let late := c.hmode = true ∧ c.rm = true ∧ h.own = true ∧ h.ocore = s.core.cid ∧ h.oq.toNat = c.rq.val ∧ h.os = k.slot ∧
    h.og ≠ k.gen
  let gives := fun (v : Lane → Nat) =>
    (∀ a ∈ l, (look 0 a.i u.core.fab.cells[n].got).toNat = v a % 2 ^ 32) ∧
    ∀ i, (∀ a ∈ l, a.i ≠ i) → look 0 i u.core.fab.cells[n].got = look 0 i c.got
  (c.isLoad = true → u.core.loc = s.core.loc ∧ gives fun a => rdNat m a.addr 4) ∧
  (c.isStore = true → ¬ late →
    (∀ y, (∀ a ∈ l, y < a.addr ∨ a.addr + 4 ≤ y) → u.spad y = s.spad y) ∧
    ∀ l₁ a l₂, l = l₁ ++ a :: l₂ → ∀ b < 4, (∀ z ∈ l₂, a.addr + b < z.addr ∨ z.addr + 4 ≤ a.addr + b) →
      u.spad (a.addr + b) = d.extractLsb' (32 * a.i + 8 * b) 8) ∧
  (c.isStore = true → late → u.core.loc = s.core.loc ∧
    u.core.fab.rots[c.rq].lateDrop.toNat = min (s.core.fab.rots[c.rq].lateDrop.toNat + l.length) 65535) ∧
  (c.op = 0xA8 → ∀ x, s.core.loc.micaLanes c (s.core.sq.node n.val).toNat s.core.sq.mseed.toNat d l = some x →
    u.core.loc.mem = x.mem ∧ u.core.loc.regions = x.regions) ∧
  (c.op = 0xA9 ∨ c.op = 0xAA →
    (∀ a ∈ l, (s.core.loc.micaLane c (s.core.sq.node n.val).toNat s.core.sq.mseed.toNat a (lane32 d a.i)).isSome = true) →
    u.core.loc.mem = m ∧ u.core.loc.regions = s.core.loc.regions ∧ gives fun a =>
      match s.core.loc.regionOf true a.addr with
      | none => 0
      | some j =>
        let r := s.core.loc.regions[j]
        let level := rdNat m a.addr 4 / 2 ^ (r.width * a.j) % 2 ^ r.width
        if c.op = 0xA9 then estBits r.s.toNat level else level)

/-- A memory-port firing whose lanes are `p`, with data row `d`: it ends from state u with token rows `m`. -/
def PortEnds (i : Instr) (s u : State) (g : Firing) (m : Made) : Prop :=
  exec i s = .next (u.finishFire g m none) ∧ m.bad = none ∧ m.o1 = [] ∧ u.others = s.others ∧ u.chip = s.chip

/-! ### Rotations, banks, circuits, translation -/

/-- Slot p of a table is changed by `f`, and no other. -/
def OneSlot (l l' : List Slot) (p : Nat) (f : Slot → Slot) : Prop :=
  ∀ i : Nat, l'[i]? = (l[i]?).map fun x => if i = p then f x else x

/-- The slots a command names, changed by `f`, and no other. -/
def SlotsBy (x : PhaseSel) (l l' : List Slot) (f : Slot → Slot) : Prop := match x with
  | .one p => OneSlot l l' p.toNat f
  | .all => l' = l.map f

/-- Command i is the head of queue k, none is begun or has completed there in this cycle, the queue has not stopped, and no
pre-emption or energy budget holds it. -/
def AtHead (s : State) (k : Fin 22) (i : Instr) : Prop :=
  s.core.fab.stopping = false ∧ s.energyOk s.core = true ∧ s.core.queues[k].run = none ∧ s.core.queues[k].stop = none ∧
  (∀ e ∈ s.core.ended, e.queue ≠ k) ∧
  ∃ node pts order via rest, s.core.queues[k].ents = .cmd i node pts order via :: rest

/-- The head of queue k has left it, and no command is begun there. -/
def Executed (s t : State) (k : Fin 22) : Prop :=
  t.core.queues[k] = { s.core.queues[k] with ents := s.core.queues[k].ents.drop 1 }

/-- The head of the ROT queue has left it, and the queue has stopped with this cause, raised in this cycle (R306). -/
def RotFails (s t : State) (c : Cause) : Prop :=
  t.core.queues[(19 : Fin 22)] = { s.core.queues[(19 : Fin 22)] with
    ents := s.core.queues[(19 : Fin 22)].ents.drop 1
    stop := some c } ∧
  t.core.sq = { s.core.sq with raised := s.core.sq.raised ++ [⟨c, 0, s.chip.now⟩] } ∧
  t.core.fab.rots = s.core.fab.rots ∧ t.core.loc.handles = s.core.loc.handles ∧ t.core.loc.mem = s.core.loc.mem ∧
  t.others = s.others

/-- The bank accesses of rows of 64 bytes that the ROT queue reads at once for rotation q: they carry no data (R190; log
entry 45). -/
def RowsAsked (s t : State) (q : Fin 8) (rows : List Nat) : Prop :=
  t.core.loc.mem = s.core.loc.mem ∧ ∃ l : List Req, t.core.loc.reqs = s.core.loc.reqs ++ l ∧
    l.map (·.acc) = rows.map (fun a => Access.write [(a, [])] false) ∧ ∀ x ∈ l, x.who = .rot q

/-- A request served: what it reads, or that it has written, answered in this cycle. -/
def ServedAt (s t : State) (r : Req) (n : Nat) (a : Nat) : Prop :=
  ∃ d : Served, d.id = r.id ∧ d.at_ = s.chip.now ∧ d.bad = none ∧ t.core.loc.served = s.core.loc.served ++ [d] ∧
    d.bytes.length = n ∧ ∀ k < n, d.bytes[k]? = some (s.spad (a + k))

/-- What performing a request of one span does: a read is answered with the bytes and changes none; a write leaves its
bytes, every other byte as it was, and in full/empty mode full words. -/
def Performed (s t : State) (r : Req) : Prop :=
  (∀ a n ws, r.acc = .read a n ws → ServedAt s t r n a ∧ t.core.loc.mem = s.core.loc.mem) ∧
  (∀ a bs fe, r.acc = .write [(a, bs)] fe → t.core.loc.served = s.core.loc.served ∧
    (∀ k < bs.length, bs[k]? = some (t.spad (a + k))) ∧ (∀ y, (y < a ∨ a + bs.length ≤ y) → t.spad y = s.spad y) ∧
    (fe = true → ∀ k < bs.length, t.core.loc.full (a + k) = true))

/-- The little-endian entry of eight bytes at a physical address. -/
def entryAt (s : State) (p : Fin 64) (a : Nat) : Nat := leNat (s.rdPhys p a 8)

/-- A table entry that points to the next table: V and T set, reserved bits 0 (R217, R218). -/
def PointsOn (e : Nat) (level3 : Bool) : Prop :=
  e % 4 = 3 ∧ e / 2 ^ 48 % 2 ^ 16 = 0 ∧ (level3 = false → e / 2 ^ 8 % 2 ^ 4 = 0)

/-- No line of a partition's memory is owned by a core, and none is poisoned. -/
def Unowned (s : State) (p : Fin 64) : Prop := ∀ a, (s.lineAt p a).owner = none ∧ s.poisoned p a = false

/-- No budget of a partition withholds an event (R368). -/
def Unbudgeted (s : State) (p : Fin 64) : Prop := ∀ k i, s.chip.parts[p].permits k i = true

/-- The core has at most been charged energy and events (R370–R372). -/
def OnlyCharged (c c' : Core) : Prop :=
  c' = { c with sq := { c.sq with ctr := { c.sq.ctr with
    energy := c'.sq.ctr.energy
    pmc := c'.sq.ctr.pmc } } }

/-- The commands of the engine queues (R236, R237). -/
def StreamCommand : Instr → Prop
  | .feedh .. | .feeda .. | .feedi .. | .feedm .. | .drainh .. | .draina .. | .drainx .. => True
  | .copy .. | .hcopy .. | .gather .. | .scatter .. | .selacc .. => True
  | .ldb .. | .mmul .. | .gmul .. | .rdacc .. | .recur .. => True
  | .atom .. | .mmerge .. | .atomw .. | .mmergew .. | .wend .. | .barr .. | .snap .. | .argw .. => True
  | .radmc .. | .rretc .. | .rholdc .. | .rrelc .. | .rsavec .. | .rloadc .. | .rmapc .. => True
  | .launch .. | .replay .. | .invr .. | .inva .. => True
  | _ => False

/-! ### The hub -/

/-- Task i, where it runs and nothing has faulted it yet, is faulted with a cause tied to no core (R308, R309). -/
def TaskFaults (s u : State) (i : Nat) (c : Cause) : Prop :=
  ∀ k, s.chip.tasks[i]? = some k → (k.state = .running ∨ k.state = .stopping) → k.fault = none →
    (u.chip.tasks[i]?).map (·.fault) = some (some (⟨c, 0, 0, 0, 0⟩, 0xFFFFFFFF, 0))

/-- Task i, where it is admitted, pre-empted or not, and nothing has faulted it yet, is faulted with such a cause (R308, R379). -/
def AdmittedFaults (s u : State) (i : Nat) (c : Cause) : Prop :=
  ∀ k, s.chip.tasks[i]? = some k → (k.state = .running ∨ k.state = .stopping ∨ k.state = .preempted) → k.fault = none →
    (u.chip.tasks[i]?).map (·.fault) = some (some (⟨c, 0, 0, 0, 0⟩, 0xFFFFFFFF, 0))

/-- Bytes stand in the device memory of a partition from an address on, and every other byte is as before. -/
def StoredAt (s u : State) (p : Fin 64) (pa : Nat) (bs : List Byte) : Prop :=
  (∀ k < bs.length, bs[k]? = some (rdByte u.chip.parts[p].mem (pa + k))) ∧
  ∀ a, (a < pa ∨ pa + bs.length ≤ a) → rdByte u.chip.parts[p].mem a = rdByte s.chip.parts[p].mem a

/-- The bytes of the device memory of a partition from an address on. -/
def ReadsAt (s : State) (p : Fin 64) (pa n : Nat) (bs : List Byte) : Prop :=
  bs.length = n ∧ ∀ k < n, bs[k]? = some (rdByte s.chip.parts[p].mem (pa + k))

/-- The debug port answered: OK 0, DENIED 1, NOTHALTED 3, RANGE 4 (R322). -/
def Answers (u : State) (status : BitVec 8) (data : Word) : Prop :=
  (u.chip.debug).status = status ∧ (u.chip.debug).data = data

/-! ### The memories -/

/-- Every memory of the module is in its canonical form: the scratchpads of the cores and of the saved contexts, the
device memories of the partitions, and what stands for the host's memory and the peers'. -/
structure MemoriesCanonical (s : State) : Prop where
  cores : ∀ c ∈ s.core :: s.others, Memory.wf c.loc.mem
  saved : ∀ k ∈ s.chip.tasks, ∀ v ∈ k.saved, Memory.wf v.core.loc.mem
  parts : ∀ p : Fin 64, Memory.wf s.chip.parts[p].mem
  host  : Memory.wf s.chip.hostMem
  peer  : Memory.wf s.chip.peerMem

/-! ### The next act of a step -/

/-- The next act is the issue of the core in turn, with nothing that R40 and R310 let come before the attempt: no
withheld cycle, no stop, no budget that withholds it, no breakpoint, no repetition. -/
structure IssuesNext (s : State) : Prop where
  stage    : s.stage = 1
  tick     : s.core.tick ≤ s.chip.base
  phase    : s.core.stage = issuePhase
  task     : s.core.task.isSome
  stopping : s.core.fab.stopping = false
  stopped  : s.core.stopped = false
  ending   : s.core.sq.ending = none
  held     : s.core.sq.held = 0
  budget   : s.energyOk s.core = true
  brk      : s.core.brkMatch = none
  rep      : s.core.repeats = false

/-- The issue is over: the core's next phase is the last of its cycle. -/
def State.issued (s : State) : State := s.onCore fun c => { c with stage := issuePhase + 1 }

end Sys2Proof.Machine
end

