-- ==== Sys2Proof/Certificates/Slice0/Obligations.lean ====
section
/-! DEFINITION. The statements for the provers, family by family of the opcode table. -/

open Sys2Proof Sys2Proof.Machine

/-- R33: the two constant registers, and that no other register is one. -/
def Obligations.FixedRegisters : Prop :=
  ∀ c : Core, c.sq.rg 0 = 0 ∧ c.sq.rc 0 = true ∧
    (∀ v, c.land1 (.g 0 v) = c) ∧ (∀ b, c.land1 (.c 0 b) = c) ∧
    (∀ r : Fin 32, r ≠ 0 → ∀ v, (c.land1 (.g r v)).sq.rg r = v) ∧
    (∀ r : Fin 8, r ≠ 0 → ∀ b, (c.land1 (.c r b)).sq.rc r = b)

/-- R57, over bit vectors and exact integers. -/
def Obligations.AluResults : Prop :=
  ∀ (s : State) (d a b : GReg) (w : Width) (sat u : Bool),
    let x := operand (s.rg a) w u
    let y := operand (s.rg b) w u
    let z : BitVec (widthOf w) := (s.rg a).setWidth (widthOf w)
    let n := (s.rg b).toNat % widthOf w
    exec (.add d a b w sat u) s = .next (s.post 1 (.g d (narrowed (x + y) w u sat))) ∧
    exec (.sub d a b w sat u) s = .next (s.post 1 (.g d (narrowed (x - y) w u sat))) ∧
    exec (.and d a b) s = .next (s.post 1 (.g d (s.rg a &&& s.rg b))) ∧
    exec (.or d a b) s = .next (s.post 1 (.g d (s.rg a ||| s.rg b))) ∧
    exec (.xor d a b) s = .next (s.post 1 (.g d (s.rg a ^^^ s.rg b))) ∧
    exec (.andn d a b) s = .next (s.post 1 (.g d (s.rg a &&& ~~~ s.rg b))) ∧
    exec (.shl d a b w u) s = .next (s.post 1 (.g d (extended _ (z <<< n) u))) ∧
    exec (.shr d a b w u) s = .next (s.post 1 (.g d (extended _ (z >>> n) u))) ∧
    exec (.sar d a b w u) s = .next (s.post 1 (.g d (extended _ (z.sshiftRight n) u))) ∧
    exec (.ror d a b w u) s = .next (s.post 1 (.g d (extended _ (z.rotateRight n) u))) ∧
    exec (.min d a b w u) s = .next (s.post 1 (.g d (narrowed (min x y) w u false))) ∧
    exec (.max d a b w u) s = .next (s.post 1 (.g d (narrowed (max x y) w u false))) ∧
    exec (.slt d a b w u) s = .next (s.post 1 (.g d (truth (x < y)))) ∧
    exec (.seq d a b w) s =
      .next (s.post 1 (.g d (truth (z = (s.rg b).setWidth (widthOf w)))))

/-- R60 with the latencies of R43. -/
def Obligations.MultiplyDivideResults : Prop :=
  ∀ (s : State) (d a b : GReg) (w : Width) (sat u : Bool),
    let x := operand (s.rg a) w u
    let y := operand (s.rg b) w u
    exec (.mul d a b w sat u) s = .next (s.post 3 (.g d (narrowed (x * y) w u sat))) ∧
    exec (.mulh d a b w u) s = .next (s.post 3 (.g d (narrowed ((x * y).fdiv (2 ^ widthOf w)) w u false))) ∧
    (y ≠ 0 → exec (.div d a b w u) s = .next (s.post 12 (.g d (narrowed (x.tdiv y) w u false)))) ∧
    (y = 0 → exec (.div d a b w u) s = .next (s.post 12 (.g d (extended _ (BitVec.allOnes (widthOf w)) u)))) ∧
    (y ≠ 0 → exec (.rem d a b w u) s = .next (s.post 12 (.g d (narrowed (x.tmod y) w u false)))) ∧
    (y = 0 → exec (.rem d a b w u) s =
      .next (s.post 12 (.g d (extended _ ((s.rg a).setWidth (widthOf w)) u))))

/-- R61, R62, R63. -/
def Obligations.ImmediateResults : Prop :=
  ∀ (s : State) (d a : GReg) (w : Width) (u : Bool) (i : BitVec 15) (n : BitVec 6) (j : BitVec 20),
    let z : BitVec (widthOf w) := (s.rg a).setWidth (widthOf w)
    let k := n.toNat % widthOf w
    exec (.addi d a i) s = .next (s.post 1 (.g d (s.rg a + i.signExtend 64))) ∧
    exec (.andi d a i) s = .next (s.post 1 (.g d (s.rg a &&& i.signExtend 64))) ∧
    exec (.ori d a i) s = .next (s.post 1 (.g d (s.rg a ||| i.setWidth 64))) ∧
    exec (.xori d a i) s = .next (s.post 1 (.g d (s.rg a ^^^ i.setWidth 64))) ∧
    exec (.shli d a w u n) s = .next (s.post 1 (.g d (extended _ (z <<< k) u))) ∧
    exec (.shri d a w u n) s = .next (s.post 1 (.g d (extended _ (z >>> k) u))) ∧
    exec (.sari d a w u n) s = .next (s.post 1 (.g d (extended _ (z.sshiftRight k) u))) ∧
    exec (.rori d a w u n) s = .next (s.post 1 (.g d (extended _ (z.rotateRight k) u))) ∧
    exec (.li d j) s = .next (s.post 1 (.g d (j.signExtend 64))) ∧
    exec (.lis d j) s = .next (s.post 1 (.g d (((s.rg d).setWidth 44) ++ j)))

/-- R64, R65. -/
def Obligations.CompareResults : Prop :=
  ∀ (s : State) (c : CReg) (a b : GReg) (w : Width) (u : Bool) (i : BitVec 12),
    let x := operand (s.rg a) w u
    let y := operand (s.rg b) w u
    let p : BitVec (widthOf w) := (s.rg a).setWidth (widthOf w)
    let q : BitVec (widthOf w) := (s.rg b).setWidth (widthOf w)
    let k := i.signExtend 64
    exec (.ceq c a b w) s = .next (s.post 1 (.c c (p == q))) ∧
    exec (.cne c a b w) s = .next (s.post 1 (.c c (p != q))) ∧
    exec (.clt c a b w u) s = .next (s.post 1 (.c c (decide (x < y)))) ∧
    exec (.cge c a b w u) s = .next (s.post 1 (.c c (decide (y ≤ x)))) ∧
    exec (.ctst c a b w) s = .next (s.post 1 (.c c (p &&& q != 0))) ∧
    exec (.ceqi c a i) s = .next (s.post 1 (.c c (s.rg a == k))) ∧
    exec (.cnei c a i) s = .next (s.post 1 (.c c (s.rg a != k))) ∧
    exec (.clti c a i) s = .next (s.post 1 (.c c ((s.rg a).slt k))) ∧
    exec (.cgei c a i) s = .next (s.post 1 (.c c (k.sle (s.rg a)))) ∧
    exec (.cltui c a i) s = .next (s.post 1 (.c c ((s.rg a).ult k))) ∧
    exec (.cgeui c a i) s = .next (s.post 1 (.c c (k.ule (s.rg a)))) ∧
    exec (.ctsti c a i) s = .next (s.post 1 (.c c (s.rg a &&& k != 0)))

/-- R66, the counts by what they count. -/
def Obligations.BitResults : Prop :=
  ∀ (s : State) (d a b : GReg) (c e f : CReg),
    (∃ n, n ≤ 64 ∧ exec (.clz d a) s = .next (s.post 1 (.g d (.ofNat 64 n))) ∧
      (∀ i < n, (s.rg a).getMsbD i = false) ∧ (n < 64 → (s.rg a).getMsbD n = true)) ∧
    (∃ n, n ≤ 64 ∧ exec (.ctz d a) s = .next (s.post 1 (.g d (.ofNat 64 n))) ∧
      (∀ i < n, (s.rg a).getLsbD i = false) ∧ (n < 64 → (s.rg a).getLsbD n = true)) ∧
    exec (.popc d a) s =
      .next (s.post 1 (.g d (.ofNat 64 ((List.range 64).filter fun i => (s.rg a).getLsbD i).length))) ∧
    (∃ v : Word, exec (.brev d a) s = .next (s.post 1 (.g d v)) ∧
      ∀ i < 64, v.getLsbD i = (s.rg a).getLsbD (63 - i)) ∧
    (∃ v : Word, exec (.bswap d a) s = .next (s.post 1 (.g d v)) ∧
      ∀ k < 8, v.extractLsb' (8 * k) 8 = (s.rg a).extractLsb' (8 * (7 - k)) 8) ∧
    exec (.sel d a b c) s = .next (s.post 1 (.g d (if s.rc c = true then s.rg a else s.rg b))) ∧
    exec (.seln d a b c) s = .next (s.post 1 (.g d (if s.rc c = true then s.rg b else s.rg a))) ∧
    exec (.mfc d c) s = .next (s.post 1 (.g d (truth (s.rc c = true)))) ∧
    exec (.mtc c a) s = .next (s.post 1 (.c c (decide (s.rg a ≠ 0)))) ∧
    exec (.cand c e f) s = .next (s.post 1 (.c c (s.rc e && s.rc f))) ∧
    exec (.cor c e f) s = .next (s.post 1 (.c c (s.rc e || s.rc f))) ∧
    exec (.cxor c e f) s = .next (s.post 1 (.c c (s.rc e ^^ s.rc f))) ∧
    exec (.candn c e f) s = .next (s.post 1 (.c c (s.rc e && !s.rc f)))

/-- R67, R68. -/
def Obligations.AddressAndMoveResults : Prop :=
  ∀ (s : State) (d a : GReg) (k f : BitVec 6) (l : Fin 9) (j : Fin 3),
    exec (.addsh d a f) s = .next (s.post 1 (.g d (s.rg d + s.rg a <<< f.toNat))) ∧
    (∃ v : Word, exec (.wrapi d a k f) s = .next (s.post 1 (.g d v)) ∧
      ∀ i < 64, v.getLsbD i =
        if i < k.toNat then (s.rg a + f.signExtend 64).getLsbD i else (s.rg a).getLsbD i) ∧
    (∃ v : Word, exec (.alignu d a k) s = .next (s.post 1 (.g d v)) ∧
      ∀ i < 64, v.getLsbD i =
        if i < k.toNat then false else (s.rg a + (1 <<< k.toNat - 1)).getLsbD i) ∧
    exec (.mov d a) s = .next (s.post 1 (.g d (s.rg a))) ∧
    exec (.sxb d a) s = .next (s.post 1 (.g d (((s.rg a).setWidth 8).signExtend 64))) ∧
    exec (.sxh d a) s = .next (s.post 1 (.g d (((s.rg a).setWidth 16).signExtend 64))) ∧
    exec (.sxw d a) s = .next (s.post 1 (.g d (((s.rg a).setWidth 32).signExtend 64))) ∧
    exec (.zxb d a) s = .next (s.post 1 (.g d (((s.rg a).setWidth 8).setWidth 64))) ∧
    exec (.zxh d a) s = .next (s.post 1 (.g d (((s.rg a).setWidth 16).setWidth 64))) ∧
    exec (.zxw d a) s = .next (s.post 1 (.g d (((s.rg a).setWidth 32).setWidth 64))) ∧
    exec (.mfl d (Fin.ofNat 9 j)) s = .next (s.post 1 (.g d (s.core.sq.lc[j].setWidth 64))) ∧
    exec (.mfl d (Fin.ofNat 9 (j + 3))) s = .next (s.post 1 (.g d (s.core.sq.ls[j].setWidth 64))) ∧
    exec (.mfl d (Fin.ofNat 9 (j + 6))) s = .next (s.post 1 (.g d (s.core.sq.le[j].setWidth 64))) ∧
    exec (.mtl l a) s = .next (s.post 1 (.loop l ((s.rg a).setWidth 32)))

/-- The frame of the plain instructions (R41, R43). -/
def Obligations.PlainFrame : Prop :=
  ∀ (i : Instr) (x : Target) (lat : Nat) (s : State), plainDest i = some (x, lat) →
    ∃ e : Landing, e.target = some x ∧ exec i s =
      .next { s with core := { s.core with sq := { s.core.sq with
        flight := s.core.sq.flight ++ [⟨s.chip.now + lat, e⟩] } } }

/-- R41, R42: `l₁ ++ f :: l₂` is the list in flight in program order. -/
def Obligations.WritesLandInOrder : Prop :=
  ∀ s : State, s.core.wb = [] →
    (∀ f ∈ s.core.sq.flight, f.at_ ≤ s.chip.now → ∀ v, f.wr ≠ .creg 0x038 v) →
    ∃ t, exec .writeLands s = .next t ∧
      t.core.sq.flight = s.core.sq.flight.filter (fun f => s.chip.now < f.at_) ∧
      (∀ (r : Fin 32) (l₁ l₂ : List Flight) (k : Nat) (v : Word), r ≠ 0 →
        s.core.sq.flight = l₁ ++ ⟨k, .g r v⟩ :: l₂ → k ≤ s.chip.now →
        (∀ f ∈ l₁, f.at_ ≤ s.chip.now → f.wr.target = some (.g r) → f.at_ ≤ k) →
        (∀ f ∈ l₂, f.at_ ≤ s.chip.now → f.wr.target = some (.g r) → f.at_ < k) → t.rg r = v) ∧
      (∀ (r : Fin 8) (l₁ l₂ : List Flight) (k : Nat) (b : Bool), r ≠ 0 →
        s.core.sq.flight = l₁ ++ ⟨k, .c r b⟩ :: l₂ → k ≤ s.chip.now →
        (∀ f ∈ l₁, f.at_ ≤ s.chip.now → f.wr.target = some (.c r) → f.at_ ≤ k) →
        (∀ f ∈ l₂, f.at_ ≤ s.chip.now → f.wr.target = some (.c r) → f.at_ < k) → t.rc r = b) ∧
      (∀ r : Fin 32, (∀ f ∈ s.core.sq.flight, f.at_ ≤ s.chip.now → f.wr.target ≠ some (.g r)) → t.rg r = s.rg r) ∧
      (∀ r : Fin 8, (∀ f ∈ s.core.sq.flight, f.at_ ≤ s.chip.now → f.wr.target ≠ some (.c r)) → t.rc r = s.rc r) ∧
      t.core.loc.mem = s.core.loc.mem ∧ t.others = s.others ∧ t.chip = s.chip

/-- R70, R73. The two forms differ in the address only. -/
def Obligations.LocalLoads : Prop :=
  ∀ (s : State) (d a b : GReg) (z : LdSz) (o : BitVec 12) (k : BitVec 2),
    ∀ x ∈ [(Instr.ldl d a z o, s.rg a + o.signExtend 64), (Instr.ldlx d a b k z, s.rg a + s.rg b <<< k.toNat)],
      let A := x.2.toNat
      (A % z.bytes ≠ 0 → exec x.1 s = .next (s.raise cMISALIGNED)) ∧
      (A % z.bytes = 0 → s.spadSize ≤ A → exec x.1 s = .next (s.raise cLOCAL_BOUNDS)) ∧
      (A % z.bytes = 0 → A < s.spadSize → ∃ (v : Word) (t : State), exec x.1 s = .next t ∧
        LoadsAs z (fun k => s.spad (A + k)) v ∧ SameElsewhere s t ∧ t.core.loc = s.core.loc ∧
        t.core.sq = { s.core.sq with
          flight := s.core.sq.flight ++ [⟨s.chip.now + 4, .g d v⟩]
          ctr := { s.core.sq.ctr with pts := laterOf s.core.sq.ctr.pts s.core.loc.bt[bankOf A] }
          banks := A / 64 % 32 :: s.core.sq.banks })

/-- R70, R71, R73. -/
def Obligations.LocalStores : Prop :=
  ∀ (s : State) (r a b : GReg) (z : StSz) (o : BitVec 12) (k : BitVec 2), Memory.wf s.core.loc.mem = true →
    ∀ x ∈ [(Instr.stl r a z o, s.rg a + o.signExtend 64), (Instr.stlx r a b k z, s.rg a + s.rg b <<< k.toNat)],
      let A := x.2.toNat
      (A % z.bytes ≠ 0 → exec x.1 s = .next (s.raise cMISALIGNED)) ∧
      (A % z.bytes = 0 → s.spadSize ≤ A → exec x.1 s = .next (s.raise cLOCAL_BOUNDS)) ∧
      (A % z.bytes = 0 → A < s.spadSize → ∃ t : State, exec x.1 s = .next t ∧ SameElsewhere s t ∧
        (∀ k < z.bytes, t.spad (A + k) = (s.rg r).extractLsb' (8 * k) 8) ∧
        (∀ y, y < A ∨ A + z.bytes ≤ y → t.spad y = s.spad y) ∧
        Memory.wf t.core.loc.mem = true ∧
        t.core.loc = { s.core.loc with
          mem := t.core.loc.mem
          bt := s.core.loc.bt.set (bankOf A) (laterOf s.core.loc.bt[bankOf A] s.core.sq.ctr.pts) } ∧
        t.core.sq = { s.core.sq with banks := A / 64 % 32 :: s.core.sq.banks })

/-- R195, R196. The full/empty store is in canonical form. R195, R196. -/
def Obligations.FullEmptyWords : Prop :=
   (∀ (s : State) (d a : GReg) (x : Bool) (o : BitVec 12), canon false s.core.loc.fe = true →
      ∀ f ∈ [(Instr.ldf d a x o, WaitKind.ldf, true), (Instr.ldfp d a x o, WaitKind.ldfp, false)],
        let p := attemptOf s f.2.1 (s.rg a + o.signExtend 64) 0
        let A := p.1.toNat
        let ready := look false (A / 4) s.core.loc.festart = true ∧ s.core.loc.olderWaiter (bankOf A) p.2.2 = false
        (A % 4 ≠ 0 → exec f.1 s = .next (s.raise cMISALIGNED)) ∧
        (A % 4 = 0 → s.spadSize ≤ A → exec f.1 s = .next (s.raise cLOCAL_BOUNDS)) ∧
        (A % 4 = 0 → A < s.spadSize → ¬ ready → ∃ t, exec f.1 s = .next t ∧ WaitsOn s t f.2.1 .fe) ∧
        (A % 4 = 0 → A < s.spadSize → ready → ∃ (v : Word) (t : State), exec f.1 s = .next t ∧ SameElsewhere s t ∧
          LoadsAs (if x then .i32 else .n32) (fun k => s.spad (A + k)) v ∧
          t.core.sq = { s.core.sq with
            flight := s.core.sq.flight ++ [⟨s.chip.now + 4, .g d v⟩]
            ctr := { s.core.sq.ctr with pts := laterOf s.core.sq.ctr.pts s.core.loc.bt[bankOf A] }
            banks := A / 64 % 32 :: s.core.sq.banks
            wait := none } ∧
          t.core.loc = { s.core.loc with fe := t.core.loc.fe } ∧
          (∀ w, look false w t.core.loc.fe = if w = A / 4 ∧ f.2.2 = true then false else look false w s.core.loc.fe))) ∧
   (∀ (s : State) (r a : GReg) (o : BitVec 12), Memory.wf s.core.loc.mem = true → canon false s.core.loc.fe = true →
      let p := attemptOf s .ste (s.rg a + o.signExtend 64) 0
      let B := s.rg a + o.signExtend 64
      let ready := look false (p.1.toNat / 4) s.core.loc.festart = false ∧
        s.core.loc.olderWaiter (bankOf p.1.toNat) p.2.2 = false
      let stored := fun (t : State) (A : Nat) => SameElsewhere s t ∧
        (∀ k < 4, t.spad (A + k) = (s.rg r).extractLsb' (8 * k) 8) ∧
        (∀ y, y < A ∨ A + 4 ≤ y → t.spad y = s.spad y) ∧
        (∀ w, look false w t.core.loc.fe = if w = A / 4 then true else look false w s.core.loc.fe) ∧
        t.core.loc = { s.core.loc with
          mem := t.core.loc.mem
          fe := t.core.loc.fe
          bt := s.core.loc.bt.set (bankOf A) (laterOf s.core.loc.bt[bankOf A] s.core.sq.ctr.pts) } ∧
        t.core.sq = { s.core.sq with
          banks := A / 64 % 32 :: s.core.sq.banks
          wait := t.core.sq.wait }
      (p.1.toNat % 4 ≠ 0 → exec (.ste r a o) s = .next (s.raise cMISALIGNED)) ∧
      (p.1.toNat % 4 = 0 → s.spadSize ≤ p.1.toNat → exec (.ste r a o) s = .next (s.raise cLOCAL_BOUNDS)) ∧
      (p.1.toNat % 4 = 0 → p.1.toNat < s.spadSize → ¬ ready → ∃ t, exec (.ste r a o) s = .next t ∧ WaitsOn s t .ste .fe) ∧
      (p.1.toNat % 4 = 0 → p.1.toNat < s.spadSize → ready →
        ∃ t, exec (.ste r a o) s = .next t ∧ stored t p.1.toNat ∧ t.core.sq.wait = none) ∧
      (B.toNat % 4 ≠ 0 → exec (.stf r a o) s = .next (s.raise cMISALIGNED)) ∧
      (B.toNat % 4 = 0 → s.spadSize ≤ B.toNat → exec (.stf r a o) s = .next (s.raise cLOCAL_BOUNDS)) ∧
      (B.toNat % 4 = 0 → B.toNat < s.spadSize →
        ∃ t, exec (.stf r a o) s = .next t ∧ stored t B.toNat ∧ t.core.sq.wait = s.core.sq.wait))

/-- R197, R199. -/
def Obligations.HandleConfiguration : Prop :=
  ∀ (s : State) (d a : GReg) (h : Fin 32),
    let A := (s.rg a).toNat
    let n := rdNat s.core.loc.mem A 16
    let field := fun (lo w : Nat) => n / 2 ^ lo % 2 ^ w
    let good := field 0 24 % 64 = 0 ∧ field 24 12 ≠ 0 ∧ 1 ≤ field 36 11 ∧ field 36 11 ≤ 1024 ∧
      field 0 24 + 64 * field 24 12 * field 36 11 ≤ 2 ^ 24 ∧
      (field 64 16 + 65536 - field 80 16) % 65536 ≤ field 36 11 ∧ field 47 17 = 0 ∧ field 122 6 = 0
    let taken : Handle := {
      base := .ofNat 24 (field 0 24)
      slotsz := .ofNat 12 (field 24 12)
      nslot := .ofNat 11 (field 36 11)
      pi := .ofNat 16 (field 64 16)
      ci := .ofNat 16 (field 80 16)
      own := decide (field 96 1 = 1)
      oq := if field 96 1 = 1 then .ofNat 3 (field 97 3) else 0
      os := if field 96 1 = 1 then .ofNat 6 (field 100 6) else 0
      og := if field 96 1 = 1 then .ofNat 8 (field 106 8) else 0
      ocore := if field 96 1 = 1 then s.core.cid else 0 }
    let v := s.rg a
    let r := s.core.loc.hstart[h]
    (A % 16 ≠ 0 → exec (.hcfg a h) s = .next (s.raise cMISALIGNED)) ∧
    (A % 16 = 0 → s.spadSize ≤ A → exec (.hcfg a h) s = .next (s.raise cLOCAL_BOUNDS)) ∧
    (A % 16 = 0 → A < s.spadSize → s.core.handleBusy h = true → exec (.hcfg a h) s = .next (s.raise cHANDLE_BUSY)) ∧
    (A % 16 = 0 → A < s.spadSize → s.core.handleBusy h = false → ¬ good →
      exec (.hcfg a h) s = .next (s.raise cHANDLE_CFG)) ∧
    (A % 16 = 0 → A < s.spadSize → s.core.handleBusy h = false → good →
      ∃ t, exec (.hcfg a h) s = .next t ∧ SameElsewhere s t ∧
        t.core.loc = { s.core.loc with
          handles := s.core.loc.handles.set h taken
          hfill := s.core.loc.hfill.set h []
          hfree := s.core.loc.hfree.set h [] } ∧
        t.core.sq = { s.core.sq with
          ctr := { s.core.sq.ctr with pts := laterOf s.core.sq.ctr.pts s.core.loc.bt[bankOf A] }
          banks := A / 64 % 32 :: s.core.sq.banks }) ∧
    exec (.hget d false h) s = .next (s.post 2 (.g d (0#17 ++ r.nslot ++ r.slotsz ++ r.base))) ∧
    exec (.hget d true h) s = .next (s.post 2 (.g d
      (0#6 ++ r.ocore ++ r.og ++ r.os ++ r.oq ++ BitVec.ofBool r.own ++ r.ci ++ r.pi))) ∧
    (r.slotsz = 0 → exec (.hown a h) s = .next (s.raise cHANDLE_CFG)) ∧
    (r.slotsz ≠ 0 → s.core.handleBusy h = true → exec (.hown a h) s = .next (s.raise cHANDLE_BUSY)) ∧
    (r.slotsz ≠ 0 → s.core.handleBusy h = false → exec (.hown a h) s =
      .next (s.setHandle h { s.core.loc.handles[h] with
        own := v.getLsbD 0
        oq := if v.getLsbD 0 then v.extractLsb' 1 3 else 0
        os := if v.getLsbD 0 then v.extractLsb' 4 6 else 0
        og := if v.getLsbD 0 then v.extractLsb' 10 8 else 0
        ocore := if v.getLsbD 0 then s.core.cid else 0 }))

/-- R199, R209; `r` is the handle at the start of the cycle, `c` as it stands now. The slots that an advance fills or frees
take its logical time, and a wait that ends joins the times of the slots it waited for. -/
def Obligations.HandleCounts : Prop :=
  ∀ (s : State) (d a : GReg) (h : Fin 32),
    let r := s.core.loc.hstart[h]
    let c := s.core.loc.handles[h]
    let n := (s.rg a).toNat
    let filled := (r.pi - r.ci).toNat
    let free := r.nslot.toNat - filled
    let fill := s.core.loc.hfill[h]
    let empty := s.core.loc.hfree[h]
    let T := s.core.sq.ctr.pts
    let moved := fun (pi ci : BitVec 16) (f e : Sparse Word) => if (pi - ci).toNat ≤ c.nslot.toNat then
        (s.setHandle h { c with
          pi := pi
          ci := ci }).onLoc fun l =>
            { l with
              hfill := l.hfill.set h f
              hfree := l.hfree.set h e }
      else s.raise cHANDLE_COUNT
    (∀ w ∈ [(Instr.hwaitc a h, WaitKind.hwaitc, filled, r.ci.toNat, fill),
        (Instr.hwaitp a h, WaitKind.hwaitp, free, r.pi.toNat, empty)],
      let m := (attemptOf s w.2.1 0 (s.rg a)).2.1.toNat
      (r.slotsz = 0 → exec w.1 s = .next (s.raise cHANDLE_CFG)) ∧
      (r.slotsz ≠ 0 → r.nslot.toNat < m → exec w.1 s = .next (s.raise cHANDLE_COUNT)) ∧
      (r.slotsz ≠ 0 → m ≤ r.nslot.toNat → w.2.2.1 < m → ∃ t, exec w.1 s = .next t ∧ WaitsOn s t w.2.1 .hw) ∧
      (r.slotsz ≠ 0 → m ≤ r.nslot.toNat → m ≤ w.2.2.1 → ∃ x, LatestOf x (fun i => look 0 (c.place (w.2.2.2.1 + i)) w.2.2.2.2) m ∧
        exec w.1 s = .next (s.onSq fun q => { q with
          wait := none
          ctr := { q.ctr with pts := laterOf q.ctr.pts x } }))) ∧
    (r.slotsz = 0 → ∀ i ∈ [Instr.hadvc a h, .hadvp a h, .hroll a h, .hpslot d a h, .hcslot d a h],
      exec i s = .next (s.raise cHANDLE_CFG)) ∧
    (r.slotsz ≠ 0 →
      (filled < n → exec (.hadvc a h) s = .next (s.raise cHANDLE_COUNT)) ∧
      (filled < n → exec (.hroll a h) s = .next (s.raise cHANDLE_COUNT)) ∧
      (free < n → exec (.hadvp a h) s = .next (s.raise cHANDLE_COUNT)) ∧
      (n ≤ filled → ∃ e, Stamped c.place c.ci.toNat n T empty e ∧
        exec (.hadvc a h) s = .next (moved c.pi (c.ci + .ofNat 16 n) fill e)) ∧
      (n ≤ filled → exec (.hroll a h) s = .next (moved (c.pi - .ofNat 16 n) c.ci fill empty)) ∧
      (n ≤ free → ∃ f, Stamped c.place c.pi.toNat n T fill f ∧
        exec (.hadvp a h) s = .next (moved (c.pi + .ofNat 16 n) c.ci f empty)) ∧
      exec (.hpslot d a h) s = .next (s.post 2 (.g d (.ofNat 64
        (r.base.toNat + 64 * r.slotsz.toNat * ((r.pi.toNat + n) % r.nslot.toNat))))) ∧
      exec (.hcslot d a h) s = .next (s.post 2 (.g d (.ofNat 64
        (r.base.toNat + 64 * r.slotsz.toNat * ((r.ci.toNat + n) % r.nslot.toNat))))))

/-- R201, R202, R209: an observation of a write pointer joins the time of the copy that brought it there, as it stands in the
cycle of the observation, and while a copy runs on the channel since an earlier cycle that copy's as well. -/
def Obligations.WritePointersAndArming : Prop :=
  ∀ (s : State) (d a : GReg) (c : Fin 8) (k : Fin 16),
    let m := (attemptOf s .wpw 0 (s.rg a)).2.1.toNat
    let sameCopy := s.core.loc.wp[c].toNat / 2 ^ 48 = s.core.loc.wpstart[c].toNat / 2 ^ 48
    let brought := if sameCopy then laterOf s.core.loc.wpptsStart[c] s.core.loc.wppts[c] else s.core.loc.wpptsStart[c]
    let seen := match s.core.queues[8 + c.val].run with
      | some u => if u.begin_ < s.chip.now then laterOf brought u.pts else brought
      | none => brought
    let joined := { s.core.sq.ctr with pts := laterOf s.core.sq.ctr.pts seen }
    let x := s.core.loc.circ[k]
    exec (.wpr d c) s = .next (s.onSq fun q => { q with
      flight := q.flight ++ [⟨s.chip.now + 2, .g d s.core.loc.wpstart[c]⟩]
      ctr := joined }) ∧
    (m ≤ s.core.loc.wpstart[c].toNat → exec (.wpw a c) s = .next (s.onSq fun q => { q with
      wait := none
      ctr := joined })) ∧
    (s.core.loc.wpstart[c].toNat < m → ∃ t, exec (.wpw a c) s = .next t ∧ WaitsOn s t .wpw .hw) ∧
    ((∃ g, x.cfg = some g ∧ g.pat = true) → exec (.carm a k) s = .next (s.onLoc fun l =>
      { l with circ := l.circ.set k { x with armed := .ofNat 16 (min 65535 (x.armed.toNat + (s.rg a).toNat)) } })) ∧
    ((∀ g, x.cfg = some g → g.pat = false) → exec (.carm a k) s = .next (s.raise cILLEGAL_INSTRUCTION))

/-- R231. -/
def Obligations.MicaRegions : Prop :=
  ∀ (s : State) (d a : GReg) (k : Fin 8),
    let A := (s.rg a).toNat
    let n := rdNat s.core.loc.mem A 16
    let field := fun (lo w : Nat) => n / 2 ^ lo % 2 ^ w
    let base := field 0 48
    let size := field 64 32
    let limit := if field 97 1 = 1 then 2 ^ 24 else 2 ^ 48
    let entry : Region :=
      { base := .ofNat 48 base
        size := .ofNat 32 size
        v := decide (field 96 1 = 1)
        l := decide (field 97 1 = 1)
        wid := .ofNat 2 (field 98 2)
        s := .ofNat 2 (field 100 2)
        sat := decide (field 102 1 = 1)
        ts := decide (field 103 1 = 1) }
    let good := field 96 1 = 0 ∨ (base % 64 = 0 ∧ size ≠ 0 ∧ size % 64 = 0 ∧ field 98 2 ≠ 3 ∧
      (field 98 2 = 2 → 2 ≤ field 100 2) ∧ field 102 1 = 0 ∧ field 48 16 = 0 ∧ field 104 24 = 0 ∧
      base + size ≤ limit ∧
      ∀ j : Fin 8, j ≠ k → s.core.loc.regions[j].v = true → s.core.loc.regions[j].l = entry.l →
        base + size ≤ s.core.loc.regions[j].base.toNat ∨
        s.core.loc.regions[j].base.toNat + s.core.loc.regions[j].size.toNat ≤ base)
    let r := s.core.loc.rgstart[k]
    (A % 16 ≠ 0 → exec (.mcfg a k) s = .next (s.raise cMISALIGNED)) ∧
    (A % 16 = 0 → s.spadSize ≤ A → exec (.mcfg a k) s = .next (s.raise cLOCAL_BOUNDS)) ∧
    (A % 16 = 0 → A < s.spadSize → ¬ good → exec (.mcfg a k) s = .next (s.raise cMICA_CFG)) ∧
    (A % 16 = 0 → A < s.spadSize → good → ∃ t, exec (.mcfg a k) s = .next t ∧ SameElsewhere s t ∧
      t.core.loc = s.core.loc ∧ t.core.sq = { s.core.sq with
        flight := s.core.sq.flight ++ [⟨s.chip.now + 2, .region k entry⟩]
        ctr := { s.core.sq.ctr with pts := laterOf s.core.sq.ctr.pts s.core.loc.bt[bankOf A] }
        banks := A / 64 % 32 :: s.core.sq.banks }) ∧
    exec (.mcfgRd d false k) s = .next (s.post 2 (.g d (0#16 ++ r.base))) ∧
    exec (.mcfgRd d true k) s = .next (s.post 2 (.g d (0#24 ++ BitVec.ofBool r.ts ++ BitVec.ofBool r.sat ++ r.s ++ r.wid ++
      BitVec.ofBool r.l ++ BitVec.ofBool r.v ++ r.size))) ∧
    exec (.mcfgClr k) s = .next (s.post 2 (.satClear k))

/-- R232 for the local forms; entry k covers the word and is the first that does. -/
def Obligations.MicaLocalAccess : Prop :=
  ∀ (s : State) (d g a b : GReg) (w : MicaWid),
    let A := (s.rg a).toNat
    let j := (s.rg b).toNat
    let x := (s.rg g).toNat
    let covers := fun (k : Fin 8) => s.core.loc.regions[k].v = true ∧ s.core.loc.regions[k].l = true ∧
      s.core.loc.regions[k].base.toNat ≤ A ∧
      A < s.core.loc.regions[k].base.toNat + s.core.loc.regions[k].size.toNat
    (∀ i ∈ [Instr.mld d a b w, .mldl d a b w, .minc g a b w],
      (A % 4 ≠ 0 → exec i s = .next (s.raise cMISALIGNED)) ∧
      (A % 4 = 0 → s.spadSize ≤ A → exec i s = .next (s.raise cLOCAL_BOUNDS)) ∧
      (A % 4 = 0 → A < s.spadSize → (∀ k, ¬ covers k) → exec i s = .next (s.raise cMICA_REGION))) ∧
    (∀ k, A % 4 = 0 → A < s.spadSize → covers k → (∀ k' < k, ¬ covers k') →
      let r := s.core.loc.regions[k]
      let W := 2 * 2 ^ r.wid.toNat
      let word := rdNat s.core.loc.mem A 4
      let level := fun (v i : Nat) => v / 2 ^ (W * i) % 2 ^ W
      let u := draw (s.core.sq.mseed.setWidth 32) (drawKey A s.core.sq.minc.toNat (s.core.sq.node 48).toNat)
      (W ≠ w.bits → ∀ i ∈ [Instr.mld d a b w, .mldl d a b w, .minc g a b w],
        exec i s = .next (s.raise cMICA_WIDTH)) ∧
      (W = w.bits → 32 / W ≤ j → ∀ i ∈ [Instr.mld d a b w, .mldl d a b w, .minc g a b w],
        exec i s = .next (s.raise cMICA_REGION)) ∧
      (W = w.bits → j < 32 / W →
        (∀ i ∈ [(Instr.mld d a b w, 6, estBits r.s.toNat (level word j)), (Instr.mldl d a b w, 4, level word j)],
          ∃ t, exec i.1 s = .next t ∧ SameElsewhere s t ∧ t.core.loc = s.core.loc ∧ t.core.sq = { s.core.sq with
            flight := s.core.sq.flight ++ [⟨s.chip.now + i.2.1, .g d (.ofNat 64 i.2.2)⟩]
            ctr := { s.core.sq.ctr with pts := laterOf s.core.sq.ctr.pts s.core.loc.bt[bankOf A] }
            banks := A / 64 % 32 :: s.core.sq.banks }) ∧
        (65535 < x → exec (.minc g a b w) s = .next (s.raise cMICA_WEIGHT)) ∧
        (x ≤ 65535 → Memory.wf s.core.loc.mem = true → ∃ new lost,
          UpdateRule r.s.toNat (2 ^ W - 1) (level word j) (x * 2 ^ 23) u new lost ∧
          (lost = true → r.ts = true →
            ∃ t, exec (.minc g a b w) s = .next t ∧ t = (s.sqReads A).raise cMICA_SAT) ∧
          (lost = false ∨ r.ts = false → ∃ t, exec (.minc g a b w) s = .next t ∧ SameElsewhere s t ∧
            (∀ i < 32 / W, level (rdNat t.core.loc.mem A 4) i = if i = j then new else level word i) ∧
            (∀ y, y < A ∨ A + 4 ≤ y → t.spad y = s.spad y) ∧
            t.core.loc.regions = (if lost then s.core.loc.regions.set k { r with sat := true } else s.core.loc.regions) ∧
            t.core.sq = { s.core.sq with
              ctr := { s.core.sq.ctr with pts := laterOf s.core.sq.ctr.pts s.core.loc.bt[bankOf A] }
              banks := A / 64 % 32 :: s.core.sq.banks
              minc := s.core.sq.minc + 1 }))))

/-- R72, R73, R231, R232. `q` is the wait in progress, `e` its answer; entry k covers the word and is the first that does. A
mica form is checked at its first attempt and, by R231 and R40, with the entry in force as its wait ends; that a changed entry
then raises the cause of MLDG and MLDLG, and that an update already performed counts although no entry covers it any more, is
the model's reading (log entry 51). A cause that R304 lists as asynchronous is raised as such, and the instruction has not
issued (R306). -/
def Obligations.BlockingGlobalAccess : Prop :=
  ∀ (s : State) (d r a b : GReg) (z : LdSz) (y : StSz) (o : BitVec 12) (k : BitVec 2) (w : MicaWid),
    let L := [(Instr.ldg d a z o, s.rg a + o.signExtend 64), (Instr.ldgx d a b k z, s.rg a + s.rg b <<< k.toNat)]
    let S := [(Instr.stg r a y o, s.rg a + o.signExtend 64), (Instr.stgx r a b k y, s.rg a + s.rg b <<< k.toNat)]
    let M := [Instr.mldg d a b w, .mldlg d a b w, .mincg r a b w]
    let A := (s.rg a).toNat
    let j := (s.rg b).toNat
    let covers := fun (A : Nat) (k : Fin 8) => s.core.loc.regions[k].v = true ∧ s.core.loc.regions[k].l = false ∧
      s.core.loc.regions[k].base.toNat ≤ A ∧
      A < s.core.loc.regions[k].base.toNat + s.core.loc.regions[k].size.toNat
    let posts := fun (i : Instr) (A : Word) (keeps : Nat) (op : GlobOp) => ∃ t e, exec i s = .next t ∧
      t.core.loc = { s.core.loc with
        nreq := s.core.loc.nreq + 1
        greqs := s.core.loc.greqs ++ [e] } ∧
      e.id = s.core.loc.nreq ∧ e.src = 1 ∧ e.va = A.toNat ∧ e.what = op ∧ e.pts = s.core.sq.ctr.pts ∧
      s.chip.now < e.ready ∧ t.core.sq.after = .waits ∧ t.core.sq.ctr = s.core.sq.ctr.stall .gl ∧
      (∃ q, t.core.sq.wait = some q ∧ q.kind = .global ∧ q.third = .ofNat 64 e.id ∧ q.val = .ofNat 64 keeps)
    (s.core.sq.wait = none →
      (∀ p ∈ L ++ S, 2 ^ 48 ≤ p.2.toNat → exec p.1 s = .next (s.raise cGLOBAL_RANGE)) ∧
      (∀ p ∈ L, p.2.toNat < 2 ^ 48 → p.2.toNat % z.bytes ≠ 0 → exec p.1 s = .next (s.raise cMISALIGNED)) ∧
      (∀ p ∈ S, p.2.toNat < 2 ^ 48 → p.2.toNat % y.bytes ≠ 0 → exec p.1 s = .next (s.raise cMISALIGNED)) ∧
      (∀ p ∈ L, p.2.toNat < 2 ^ 48 → p.2.toNat % z.bytes = 0 → posts p.1 p.2 0 (.load z.bytes)) ∧
      (∀ p ∈ S, p.2.toNat < 2 ^ 48 → p.2.toNat % y.bytes = 0 →
        ∃ bs, bs.length = y.bytes ∧ (∀ i < y.bytes, bs[i]? = some ((s.rg r).extractLsb' (8 * i) 8)) ∧
          posts p.1 p.2 0 (.store bs)) ∧
      (A % 4 ≠ 0 → ∀ i ∈ M, exec i s = .next (s.raise cMISALIGNED)) ∧
      (A % 4 = 0 → 2 ^ 48 ≤ A → ∀ i ∈ M, exec i s = .next (s.raise cGLOBAL_RANGE)) ∧
      (A % 4 = 0 → A < 2 ^ 48 → (∀ k, ¬ covers A k) → ∀ i ∈ M, exec i s = .next (s.raise cMICA_REGION)) ∧
      (∀ k, A % 4 = 0 → A < 2 ^ 48 → covers A k → (∀ k' < k, ¬ covers A k') →
        let g := s.core.loc.regions[k]
        let W := 2 * 2 ^ g.wid.toNat
        (W ≠ w.bits → ∀ i ∈ M, exec i s = .next (s.raise cMICA_WIDTH)) ∧
        (W = w.bits → 32 / W ≤ j → ∀ i ∈ M, exec i s = .next (s.raise cMICA_REGION)) ∧
        (W = w.bits → j < 32 / W →
          (∀ i ∈ [Instr.mldg d a b w, .mldlg d a b w],
            posts i (s.rg a) (32 * W + j) (.load 4)) ∧
          (65535 < (s.rg r).toNat → exec (.mincg r a b w) s = .next (s.raise cMICA_WEIGHT)) ∧
          ((s.rg r).toNat ≤ 65535 → posts (.mincg r a b w) (s.rg a) (32 * W + j) (.merge w A j (s.rg r).toNat false g
            (s.core.sq.mseed.setWidth 32) s.core.sq.minc (s.core.sq.lcid.setWidth 12 ++ 48#6)))))) ∧
    (∀ q : Wait, s.core.sq.wait = some q → q.kind = .global →
      let found := s.core.loc.served.find? (·.id == q.third.toNat)
      (found = none → ∀ i ∈ (L ++ S).map (·.1) ++ M,
        ∃ t, exec i s = .next t ∧ WaitsOn s t .global .gl) ∧
      (∀ e, found = some e →
        let done := fun (fl : List Flight) (m : BitVec 16) (rg : Vector Region 8) =>
          (s.onSq fun x => { x with
              wait := none
              flight := x.flight ++ fl
              minc := x.minc + m
              ctr := { x.ctr with pts := laterOf x.ctr.pts e.pts } }).onLoc fun l => { l with
            served := l.served.filter (·.id != q.third.toNat)
            regions := rg }
        (∀ c, e.bad = some c →
          let async := (0x2D8 ≤ c.toNat ∧ c.toNat < 0x318) ∨ (0x37F ≤ c.toNat ∧ c.toNat < 0x383) ∨ 0x388 ≤ c.toNat
          (¬ async → ∀ i ∈ (L ++ S).map (·.1) ++ M, exec i s = .next ((done [] 0 s.core.loc.regions).raise c)) ∧
          (async → ∀ i ∈ (L ++ S).map (·.1) ++ M, exec i s = .next ((s.onSq fun x => { x with
              raised := x.raised ++ [⟨c, 0, s.chip.now⟩]
              ctr := x.ctr.stall .gl
              wait := none
              after := .waits }).onLoc fun l => { l with served := l.served.filter (·.id != q.third.toNat) }))) ∧
        (e.bad = none →
          (e.bytes.length = z.bytes → ∀ p ∈ L, ∃ v, LoadsAs z (fun k => e.bytes.getD k 0) v ∧
            exec p.1 s = .next (done [⟨s.chip.now + 1, .g d v⟩] 0 s.core.loc.regions)) ∧
          (∀ p ∈ S, exec p.1 s = .next (done [] 0 s.core.loc.regions)) ∧
          (∀ V N : Nat, q.val = .ofNat 64 (32 * V + N) → V < 2 ^ 8 → N < 32 → q.addr.toNat % 4 = 0 → q.addr.toNat < 2 ^ 48 →
            let X := q.addr.toNat
            let plain := s.core.loc.regions
            let changed := fun (c : Cause) => exec (.mldg d a b w) s = .next ((done [] 0 plain).raise c) ∧
              exec (.mldlg d a b w) s = .next ((done [] 0 plain).raise c) ∧
              exec (.mincg r a b w) s = .next (done [] 1 plain)
            ((∀ k, ¬ covers X k) → changed cMICA_REGION) ∧
            (∀ k, covers X k → (∀ k' < k, ¬ covers X k') →
              let g := s.core.loc.regions[k]
              let W := 2 * 2 ^ g.wid.toNat
              let level := leNat e.bytes / 2 ^ (W * N) % 2 ^ W
              (W ≠ V → changed cMICA_WIDTH) ∧
              (W = V → 32 / W ≤ N → changed cMICA_REGION) ∧
              (W = V → N < 32 / W →
                exec (.mldg d a b w) s = .next (done [⟨s.chip.now + 1, .g d (.ofNat 64 (estBits g.s.toNat level))⟩] 0 plain) ∧
                exec (.mldlg d a b w) s = .next (done [⟨s.chip.now + 1, .g d (.ofNat 64 level)⟩] 0 plain) ∧
                exec (.mincg r a b w) s = .next (done [] 1
                  (if e.flag then plain.set k { g with sat := true } else plain))))))))

/-- R227. The fp32 pattern of 2^(l+1) − 1 has the exponent l and the l ones below the leading one as its highest fraction
bits. -/
def Obligations.MicaEstimates : Prop :=
  (∀ l : Fin 16, estFix 0 l = (2 ^ l.val - 1) * 2 ^ 23) ∧
  estBits 0 0 = 0 ∧ (∀ l : Fin 15, estBits 0 (l + 1) = (127 + l.val) * 2 ^ 23 + (2 ^ l.val - 1) * 2 ^ (23 - l.val)) ∧
  (∀ s : Fin 4, estBits s 0 = 0 ∧ estBits s 1 = 0x3F800000 ∧ ∀ l : Fin 15, estFix s l < estFix s (l + 1))

/-- R78, R79. The link of a lone word is PC + 4, of a pair PC + 8 (R77). -/
def Obligations.BranchesAndCalls : Prop :=
  ∀ (s : State) (c : CReg) (n : Bool) (o : BitVec 21) (d a : GReg),
    let q := s.core.sq
    let word := if q.slot = .second then q.pc + 4 else q.pc
    let link := if q.slot = .lone then q.pc + 4 else q.pc + 8
    let target : Word := (word + (o.signExtend 32) <<< 2).setWidth 64
    (s.rc c = !n → exec (.br c n o) s = .next (s.onSq fun q => { q with after := .jump target 2 })) ∧
    (s.rc c = n → exec (.br c n o) s = .next s) ∧
    exec (.call o) s = .next (s.onSq fun q => { q with
      flight := q.flight ++ [⟨s.chip.now + 1, .g 31 (link.setWidth 64)⟩]
      after := .jump target 2 }) ∧
    exec (.jr a) s = .next (s.onSq fun q => { q with after := .jump (s.rg a) 3 }) ∧
    exec (.jalr d a) s = .next (s.onSq fun q => { q with
      flight := q.flight ++ [⟨s.chip.now + 1, .g d (link.setWidth 64)⟩]
      after := .jump (s.rg a) 3 })

/-- R80, R84–R87, R89, R90. A repetition that waits keeps the word it has formed (log entry 40), which the clause of
REPETITION leaves out. A REP whose target lies at or beyond TEXTSIZE completes, the fetch of the repetition then raising
FETCH_BOUNDS, and an illegal REP raises ILLEGAL_INSTRUCTION as second word of a pair too (log entry 123). -/
def Obligations.LoopsRepeatsAndPin : Prop :=
  ∀ (s : State) (l : Fin 3) (a : GReg) (i : BitVec 10) (e : BitVec 12),
    let q := s.core.sq
    let word := if q.slot = .second then q.pc + 4 else q.pc
    let link := if q.slot = .lone then q.pc + 4 else q.pc + 8
    let last := word + (e.setWidth 32) <<< 2
    let lane := fun (j : Nat) => q.reps.toNat / 2 ^ (16 * j + 11) % 32
    let stepOf := fun (j : Nat) => q.reps.extractLsb' (16 * j) 11
    let done := q.reps.extractLsb' 48 16
    let armed := fun (n : Half) => s.onSq fun q => { q with
      flight := q.flight ++ [⟨s.chip.now + 1, .loop (Fin.ofNat 9 l) n⟩, ⟨s.chip.now + 1, .loop (Fin.ofNat 9 (l + 3)) link⟩,
        ⟨s.chip.now + 1, .loop (Fin.ofNat 9 (l + 6)) last⟩]
      after := if n = 0 then .jump ((last + 4).setWidth 64) 2 else q.after }
    let started := fun (n : BitVec 16) => s.onSq fun q => { q with
      repc := n
      reps := q.reps &&& 0x0000FFFFFFFFFFFF
      pins := if n = 0 then q.pins else q.pins ||| 0x80000000
      after := .rep n }
    let legalRep := last = link ∧ lane 0 ≤ 10 ∧ lane 1 ≤ 10 ∧ lane 2 ≤ 10 ∧
      ∀ w, s.core.text[link.toNat / 4]? = some w → repTargetOk w = true
    let words := (last.toNat - link.toNat) / 4 + 1
    (last.toNat < link.toNat → exec (.loopReg l a e) s = .next (s.raise cILLEGAL_INSTRUCTION) ∧
      exec (.loopImm l i e) s = .next (s.raise cILLEGAL_INSTRUCTION)) ∧
    (link.toNat ≤ last.toNat → exec (.loopReg l a e) s = .next (armed ((s.rg a).setWidth 32)) ∧
      exec (.loopImm l i e) s = .next (armed (i.setWidth 32))) ∧
    (legalRep → exec (.repReg a e) s = .next (started (.ofNat 16 (min 65535 (s.rg a).toNat))) ∧
      exec (.repImm i e) s = .next (started (i.setWidth 16))) ∧
    (¬ legalRep → exec (.repReg a e) s = .next (s.raise cILLEGAL_INSTRUCTION) ∧
      exec (.repImm i e) s = .next (s.raise cILLEGAL_INSTRUCTION)) ∧
    (∀ w, s.core.text[q.pc.toNat / 4]? = some w → q.latch = none ∨ q.wait = none →
      (lane 0 ≤ 10 ∧ lane 1 ≤ 10 ∧ lane 2 ≤ 10 → ∃ v0 v1 v, exec .repetition s = .next (s.onSq fun q => { q with latch := some v }) ∧
        Stepped (lane 0) (stepOf 0) done w v0 ∧ Stepped (lane 1) (stepOf 1) done v0 v1 ∧
        Stepped (lane 2) (stepOf 2) done v1 v) ∧
      (¬ (lane 0 ≤ 10 ∧ lane 1 ≤ 10 ∧ lane 2 ≤ 10) → exec .repetition s = .next (s.raise cILLEGAL_INSTRUCTION))) ∧
    (link.toNat ≤ last.toNat → words ≤ 64 → link.toNat / 4 < 2 ^ 24 → last.toNat < 4 * s.core.text.length →
      exec (.pin e) s = .next (s.onSq fun q => { q with
        pins := BitVec.ofBool (q.pins.getLsbD 31) ++ 1#1 ++ BitVec.ofNat 6 (words - 1) ++ BitVec.ofNat 24 (link.toNat / 4)
        after := .held ((words + 7) / 8) })) ∧
    (last.toNat < link.toNat ∨ 64 < words ∨ 2 ^ 24 ≤ link.toNat / 4 →
      exec (.pin e) s = .next (s.raise cILLEGAL_INSTRUCTION)) ∧
    (link.toNat ≤ last.toNat → words ≤ 64 → link.toNat / 4 < 2 ^ 24 → 4 * s.core.text.length ≤ last.toNat →
      exec (.pin e) s = .next (s.trapAt cFETCH_BOUNDS (.ofNat 32 (max link.toNat (4 * s.core.text.length))) 0))

/-- R92–R94, R214. Where a budget is set the write-backs of the L1 may wait for it; the marker then does too (R368). -/
def Obligations.FenceExitAbort : Prop :=
  ∀ (s : State) (sc : Scope),
    let marked := fun (t : State) => ∀ k : Fin 22, t.core.queues[k] =
      { s.core.queues[k] with ents := s.core.queues[k].ents ++ [.fence s.core.order sc s.chip.now] }
    ((∀ k, roomIn s k) → sc ≠ .system → ∃ t, exec (.fence sc) s = .next t ∧ marked t ∧ t.core.order = s.core.order + 1 ∧
      t.core = { s.core with
        queues := t.core.queues
        order := t.core.order
        sq := { s.core.sq with wait := none } } ∧ t = { s with core := t.core }) ∧
    ((∀ k, roomIn s k) → sc = .system → ∃ t, exec (.fence sc) s = .next t ∧ marked t ∧ t.core.l1 = [] ∧
      ((∀ k : Fin 3, s.chip.parts[s.partOf s.core].qb[k] = 0) → t.core.wb = []) ∧ t.core.order = s.core.order + 1 ∧ t.core.sq = { s.core.sq with
        wait := none
        ctr := { s.core.sq.ctr with
          energy := t.core.sq.ctr.energy
          pmc := t.core.sq.ctr.pmc } } ∧ t.core.loc.mem = s.core.loc.mem ∧ t.core.fab = s.core.fab) ∧
    (¬ (∀ k, roomIn s k) → ∃ t, exec (.fence sc) s = .next t ∧ WaitsOn s t .queue .cq) ∧
    exec .exit s = .next (s.onSq fun q => { q with
      ending := some .exit
      after := .stop }) ∧
    (∃ t, exec .abort s = .next t ∧ t.core.sq = { s.core.sq with
        ending := some .abort
        after := .stop } ∧
      (∀ k : Fin 22, t.core.queues[k] = { s.core.queues[k] with ents := [] }) ∧
      t.core = { s.core with
        queues := t.core.queues
        sq := t.core.sq } ∧ t = { s with core := t.core })

/-- R306, R307. That TCFG and H are read before the writes in flight land is the model's reading (log 33). -/
def Obligations.SynchronousEntry : Prop :=
  ∀ (s : State) (n : Fin 32) (w : Half),
    let q := s.core.sq
    let link := if q.slot = .lone then q.pc + 4 else q.pc + 8
    let slot := decide (q.slot = .second)
    ∀ x ∈ [(Instr.trap n, BitVec.ofNat 10 (0x020 + n), link, 2, 0#10), (Instr.brk, 0x011#10, q.pc, 1, 0#10),
        (Instr.illegalInstruction w, if w.toNat / 2 ^ 25 % 64 = 0x29 then 0x004#10 else 0x001#10, q.pc, 0,
          if w.toNat / 2 ^ 25 % 64 = 0x29 then q.index else 0#10)],
      (s.core.sq.tcfg.getLsbD x.2.2.2.1 = true → s.core.sq.trapslot.getLsbD 18 = false →
        exec x.1 s = .next (handlerState s x.2.1 x.2.2.1 slot false 0 x.2.2.2.2 false)) ∧
      (s.core.sq.tcfg.getLsbD x.2.2.2.1 = true → s.core.sq.trapslot.getLsbD 18 = true →
        ∃ t, exec x.1 s = .next t ∧ Faulted s t 0x01B#10 x.2.1 x.2.2.1) ∧
      (s.core.sq.tcfg.getLsbD x.2.2.2.1 = false →
        ∃ t, exec x.1 s = .next t ∧ Faulted s t x.2.1 0 x.2.2.1)

/-- R307. -/
def Obligations.ReturnFromHandler : Prop :=
  ∀ s : State,
    (s.core.sq.trapslot.getLsbD 18 = true → exec .eret s = .next (s.onSq fun q => { q with
      pins := BitVec.ofBool (q.trapslot.getLsbD 19) ++ q.pins.extractLsb' 0 31
      trapslot := q.trapslot &&& 0xFFFBFFFF
      after := .jump (q.trappc.setWidth 64) 3
      expo := [] })) ∧
    (s.core.sq.trapslot.getLsbD 18 = false → ∃ t, exec .eret s = .next t ∧ Faulted s t 0x01A#10 0 s.core.sq.pc)

/-- R306. -/
def Obligations.AsynchronousEntry : Prop :=
  ∀ (s : State) (r r' : Raised),
    let q := s.core.sq
    let W := q.target.getD q.pc
    let u := (s.onSq fun q => { q with raised := [] }).abandonWait
    (q.raised = [r] → r.at_ < s.chip.now → q.heldCause = none → q.trapslot.getLsbD 18 = false → q.ending = none →
      q.enables r.cause = true →
      exec .asyncCauseEntry s = .next (handlerState u r.cause W false true r.phase 0 (inSpan r.cause.toNat 0x012 8))) ∧
    (q.raised = [r] → r.at_ < s.chip.now → q.heldCause = none → q.trapslot.getLsbD 18 = true → q.ending = none →
      q.enables r.cause = true → exec .asyncCauseEntry s = .next (s.onSq fun q => { q with
        raised := []
        heldCause := some (r.cause, r.phase) })) ∧
    (q.raised = [r] → r.at_ < s.chip.now → q.heldCause = none → q.enables r.cause = false →
      ∃ t, exec .asyncCauseEntry s = .next t ∧ Faulted u t r.cause 0 W) ∧
    (q.raised = [r, r'] → r.at_ < s.chip.now → r'.at_ = r.at_ → q.heldCause = none → r.cause.toNat < r'.cause.toNat →
      ∃ t, exec .asyncCauseEntry s = .next t ∧ Faulted u t r.cause r'.cause W) ∧
    (∀ c ph, q.raised = [] → q.heldCause = some (c, ph) → q.trapslot.getLsbD 18 = false → q.ending = none →
      q.enables c = true → exec .asyncCauseEntry s = .next (handlerState
        (s.onSq fun q => { q with heldCause := none }).abandonWait c W false true ph 0 (inSpan c.toNat 0x012 8)))

/-- R304, for every cause number, those that its table leaves free among them. -/
def Obligations.CausesAndTheirEnables : Prop :=
  (∀ c : Fin 16, tcfgBit (.ofNat 10 (0x001 + c)) = some 0) ∧ (∀ c : Fin 9, tcfgBit (.ofNat 10 (0x011 + c)) = some 1) ∧
  (∀ c : Fin 6, tcfgBit (.ofNat 10 (0x01A + c)) = none) ∧
  (∀ n : Fin 32, tcfgBit (cTRAP n) = some 2) ∧
  (∀ n < 2 ^ 10, n = 0 ∨ (0x100 ≤ n ∧ n < 0x200) ∨ (0x33F ≤ n ∧ n < 0x388) ∨ 0x3D8 ≤ n → tcfgBit (.ofNat 10 n) = none) ∧
  tcfgBit cDICT_UNDEFINED = some 3 ∧ tcfgBit cDICT_BADENTRY = some 3 ∧ tcfgBit cDICT_RANGE = some 3 ∧
  tcfgBit cDICT_ECC = none ∧
  (∀ k ∈ [XltKind.notPresent, .format, .write, .cls, .asid], tcfgBit (cXLT 0 k) = some 4 ∧
    ∀ a : Fin 6, tcfgBit (cXLT (a + 1) k) = some 8) ∧
  (∀ q : Fin 8, ∀ k ∈ [RotKind.unconf, .phase, .handle, .record, .map, .notEmpty, .slot],
    tcfgBit (cROT q k) = some 5 ∧ tcfgBit (cROT q .ecc) = none) ∧
  (∀ n : Fin 32, ∀ k ∈ [CellKind.eoi, .path, .overflow, .addr, .mica],
    tcfgBit (cCELL n k) = some 6 ∧ tcfgBit (cCELL n .ecc) = none) ∧
  (∀ n : Fin 16, ∀ k ∈ [PortKind.conflict, .eoi, .addr, .illegalCommand],
    tcfgBit (cPORT n k) = some 7 ∧ tcfgBit (cPORT n .ecc) = none) ∧
  (∀ n : Fin 9, ∀ k ∈ [EngKind.decl, .addr, .shape, .index, .mica, .window, .handleCount],
    tcfgBit (cENG n k) = some 8 ∧ tcfgBit (cENG n .ecc) = none) ∧
  (∀ l a : Fin 8, tcfgBit (cMEM l a) = none) ∧ tcfgBit cWATCHDOG = none ∧
  (∀ p : Fin 16, ∀ k : Fin 5, tcfgBit (cLINK p k) = none)

/-- R46–R48. -/
def Obligations.ControlRegisterReads : Prop :=
  ∀ (s : State) (d : GReg) (n : BitVec 12),
    let q := s.core.sq
    let reads := fun (c : Nat) (v : Word) => exec (.rdc d (.ofNat 12 c)) s = .next (s.post 2 (.g d v))
    reads 0x000 (s.core.cid.setWidth 64) ∧ reads 0x001 (q.lcid.setWidth 64) ∧ reads 0x002 (q.nlc.setWidth 64) ∧
    reads 0x003 q.pbase ∧ reads 0x008 q.seen.cycle ∧ reads 0x009 (.ofNat 64 s.chip.time) ∧
    reads 0x00A s.chip.dies[dieOf s.core.cid].stretch ∧ reads 0x010 (q.repc.setWidth 64) ∧ reads 0x011 q.reps ∧
    reads 0x012 (q.pins.setWidth 64) ∧ reads 0x018 (q.cause.setWidth 64) ∧ reads 0x019 (q.trappc.setWidth 64) ∧
    reads 0x01A (q.trapslot.setWidth 64) ∧ reads 0x01B (q.tvec.setWidth 64) ∧ reads 0x01C (q.tcfg.setWidth 64) ∧
    reads 0x020 (q.dgen.setWidth 64) ∧ reads 0x021 q.dref ∧ reads 0x028 q.mseed ∧ reads 0x030 q.seen.pts ∧
    reads 0x031 (q.lease.setWidth 64) ∧ reads 0x038 (q.split.setWidth 64) ∧ reads 0x040 q.seen.bank ∧
    reads 0x041 q.seen.hw ∧ reads 0x042 q.seen.fe ∧ reads 0x043 q.seen.gl ∧ reads 0x044 q.seen.cq ∧
    reads 0x045 q.seen.bg ∧ reads 0x050 q.seen.energy ∧
    (∀ j : Fin 4, reads (0x058 + j) q.seen.pmc[j] ∧ reads (0x05C + j) (q.pms[j].setWidth 64)) ∧
    (∀ j : Fin 8, reads (0x060 + j) q.bka[j] ∧ reads (0x068 + j) (q.bkc[j].setWidth 64)) ∧
    (cregAssigned n.toNat = false → exec (.rdc d n) s = .next (s.raise cILLEGAL_CREG))

/-- R46, R49, R186, R207, R320. -/
def Obligations.ControlRegisterWrites : Prop :=
  ∀ (s : State) (a : GReg) (n : BitVec 12) (v : Word) (j : Fin 4) (k : Fin 8) (c : Core),
    let q := fun (m : Nat) => (c.land1 (.creg m v)).sq
    (cregAssigned n.toNat = true → exec (.wrc a n) s = .next (s.post 2 (.creg n.toNat (s.rg a)))) ∧
    (cregAssigned n.toNat = false → exec (.wrc a n) s = .next (s.raise cILLEGAL_CREG)) ∧
    exec (.wrcPins a) s = .next (s.post 2 (.creg 0x012 (s.rg a))) ∧
    exec (.wrcBkc a k) s = .next (s.post 2 (.creg (0x068 + k) (s.rg a))) ∧
    exec (.wrcLease a) s = .next (s.post 2 (.creg 0x031
      (.ofNat 64 (if (s.rg a).toNat % 65536 < 8 then 8 else if 256 < (s.rg a).toNat % 65536 then 256
        else (s.rg a).toNat % 65536)))) ∧
    ((s.rg a).toNat % 8 < 5 → exec (.wrcSplit a) s = .next (s.post 2 (.creg 0x038 (s.rg a)))) ∧
    (5 ≤ (s.rg a).toNat % 8 → exec (.wrcSplit a) s = .next s) ∧
    q 0x010 = { c.sq with repc := v.setWidth 16 } ∧ q 0x011 = { c.sq with reps := v } ∧
    q 0x012 = { c.sq with pins := v.setWidth 32 } ∧ q 0x018 = { c.sq with cause := (v.setWidth 10).setWidth 32 } ∧
    q 0x019 = { c.sq with trappc := v.setWidth 32 } ∧ q 0x01A = { c.sq with trapslot := (v.setWidth 21).setWidth 32 } ∧
    q 0x01B = { c.sq with tvec := v.setWidth 32 } ∧ q 0x01C = { c.sq with tcfg := (v.setWidth 9).setWidth 32 } ∧
    q 0x028 = { c.sq with mseed := v } ∧ q 0x031 = { c.sq with lease := v.setWidth 16 } ∧
    q 0x038 = { c.sq with split := (v.setWidth 3).setWidth 32 } ∧
    q (0x058 + j) = { c.sq with ctr := { c.sq.ctr with pmc := c.sq.ctr.pmc.set j v } } ∧
    q (0x05C + j) = { c.sq with pms := c.sq.pms.set j ((v.setWidth 7).setWidth 32) } ∧
    q (0x060 + k) = { c.sq with bka := c.sq.bka.set k v } ∧
    q (0x068 + k) = { c.sq with bkc := c.sq.bkc.set k (((v.extractLsb' 4 1) ++
      (if 5 ≤ v.toNat / 2 % 8 then c.sq.bkc[k].extractLsb' 1 3 else v.extractLsb' 1 3) ++
      (v.extractLsb' 0 1)).setWidth 32) } ∧
    (∀ m ∈ [0x000, 0x001, 0x002, 0x003, 0x008, 0x009, 0x00A, 0x020, 0x021, 0x030, 0x040, 0x041, 0x042, 0x043, 0x044,
      0x045, 0x050], c.land1 (.creg m v) = c)

/-- R186, R187. -/
def Obligations.SplitResizesTheScratchpad : Prop :=
  ∀ (c : Core) (v : Word), Memory.wf c.loc.mem = true → canon false c.loc.fe = true →
    let d := c.land1 (.creg 0x038 v)
    let size := fun (x : Half) => (16 - x.toNat % 8) * 2 ^ 20
    let least := min (size c.sq.split) (size d.sq.split)
    (∀ a, rdByte d.loc.mem a = if a < least then rdByte c.loc.mem a else 0) ∧
    (∀ w, look false w d.loc.fe = if 4 * w < least then look false w c.loc.fe else false) ∧
    (size c.sq.split < size d.sq.split → d.l1 = [] ∧ d.wb = c.wb ++ c.l1.filter (fun e => e.2.owned)) ∧
    (size d.sq.split ≤ size c.sq.split → d.l1 = c.l1 ∧ d.wb = c.wb)

/-- R236–R238, for each stream command by name. -/
def Obligations.CommandsEnterTheirQueue : Prop :=
  ∀ (s : State) (i : Instr), StreamCommand i → ∃ k, queueOf i = some k ∧
    (i.wf = false → exec i s = .next (s.trapAt cILLEGAL_COMMAND s.core.sq.pc s.core.sq.index)) ∧
    (∀ c, i.wf = true → s.cmdCheck i = some c →
      exec i s = .next (s.trapAt c s.core.sq.pc (if c = cILLEGAL_COMMAND then s.core.sq.index else 0))) ∧
    (i.wf = true → s.cmdCheck i = none → roomIn s k → exec i s = .next (queued s k i)) ∧
    (i.wf = true → s.cmdCheck i = none → ¬ roomIn s k → ∃ t, exec i s = .next t ∧ WaitsOn s t .queue .cq)

/-- R179, R180. -/
def Obligations.RotationInstructionsEnterTheQueue : Prop :=
  ∀ (s : State) (q : Fin 8) (r : GReg) (h : Fin 32) (own m kf : Bool) (sm : SaveMode),
    let v := (attemptOf s .queue (s.rg r) 0).1
    let hd := s.core.loc.handles[h]
    let slots := [(Instr.rret (.one r) q, fun p => Instr.rretc q (.one p)), (.rhold (.one r) q, fun p => .rholdc q (.one p)),
      (.rrel (.one r) q, fun p => .rrelc q (.one p))]
    let wholes := [(Instr.rret .all q, Instr.rretc q .all), (.rhold .all q, .rholdc q .all), (.rrel .all q, .rrelc q .all)]
    let records := [(Instr.rsave r sm q, fun p => Instr.rsavec q sm p, true), (.rload r m kf q, fun p => .rloadc q kf m p, false),
      (.rmap r q, fun p => .rmapc q p, false)]
    let enters := fun (i j : Instr) => (roomIn s 19 → exec i s = .next (queued s 19 j)) ∧
      (¬ roomIn s 19 → ∃ t, exec i s = .next t ∧ WaitsOn s t .queue .cq)
    (s.core.fab.rots[q].cfg = none → ∀ i ∈ [Instr.radm h r own q] ++ slots.map (·.1) ++ wholes.map (·.1) ++ records.map (·.1),
      exec i s = .next (s.raise (cROT q .unconf))) ∧
    (∀ g, s.core.fab.rots[q].cfg = some g →
      (∀ x ∈ wholes, enters x.1 x.2) ∧
      (∀ x ∈ slots, (g.depth ≤ v.toNat → exec x.1 s = .next (s.raise (cROT q .phase))) ∧
        (v.toNat < g.depth → enters x.1 (x.2 (v.setWidth 32)))) ∧
      (hd.slotsz = 0 ∨ (hd.own = true ∧ hd.ocore ≠ s.core.cid) →
        exec (.radm h r own q) s = .next (s.raise (cROT q .handle))) ∧
      (hd.slotsz ≠ 0 → (hd.own = true → hd.ocore = s.core.cid) →
        enters (.radm h r own q) (.radmc q h own (v.setWidth 32))) ∧
      (∀ x ∈ records,
        let n := if x.2.2 = true then 1088 + 64 * g.depth else 64
        (v.toNat % 64 ≠ 0 → exec x.1 s = .next (s.raise cMISALIGNED)) ∧
        (v.toNat % 64 = 0 → s.spadSize < v.toNat + n → exec x.1 s = .next (s.raise cLOCAL_BOUNDS)) ∧
        (v.toNat % 64 = 0 → v.toNat + n ≤ s.spadSize → enters x.1 (x.2.1 (v.setWidth 32)))))

/-- R170, R180. -/
def Obligations.RotationStatus : Prop :=
  ∀ (s : State) (d r : GReg) (q : Fin 8) (g : RotCfg),
    let x := s.core.fab.rstart[q]
    let e := x.slots.getD (s.rg r).toNat .zero
    let code : BitVec 3 := match e.state with
      | .empty => 0
      | .active => 1
      | .held => 2
      | .faulted => 3
      | .leaving => 4
    (s.core.fab.rots[q].cfg = none → exec (.rstat d (.one r) q) s = .next (s.raise (cROT q .unconf)) ∧
      exec (.rstat d .all q) s = .next (s.raise (cROT q .unconf))) ∧
    (s.core.fab.rots[q].cfg = some g → g.depth ≤ (s.rg r).toNat →
      exec (.rstat d (.one r) q) s = .next (s.raise (cROT q .phase))) ∧
    (s.core.fab.rots[q].cfg = some g → (s.rg r).toNat < g.depth → exec (.rstat d (.one r) q) s = .next (s.post 2 (.g d
      (e.id ++ 0#6 ++ e.cause ++ e.gen ++ 0#4 ++ BitVec.ofBool e.pend ++ code)))) ∧
    (s.core.fab.rots[q].cfg = some g → x.cfg = some g → g.depth ≤ 64 → x.slots.length ≤ 64 →
      ∃ low : Nat, exec (.rstat d .all q) s = .next (s.post 2 (.g d (x.refused ++ x.lateDrop ++ 0#8 ++
          BitVec.ofBool (decide (x.save ≠ none ∨ x.loading = true ∨ x.inj ≠ [])) ++ BitVec.ofBool x.frozen ++
          BitVec.ofNat 7 low ++ BitVec.ofNat 7 (x.slots.filter fun y => y.state = .empty).length ++
          BitVec.ofBool g.trap ++ BitVec.ofNat 7 g.depth))) ∧
        ((∀ y ∈ x.slots, y.state ≠ .empty) → low = 64) ∧
        ((∃ y ∈ x.slots, y.state = .empty) → low < x.slots.length ∧ (x.slots.getD low .zero).state = .empty ∧
          ∀ p < low, (x.slots.getD p .zero).state ≠ .empty))

/-- R254, R257. -/
def Obligations.DescriptorLoad : Prop :=
  ∀ (s : State) (k : Fin 16) (off : BitVec 24),
    let n := rdNat s.core.loc.mem off.toNat 144
    ((Instr.sdld k off).wf = false →
      exec (.sdld k off) s = .next (s.trapAt cILLEGAL_COMMAND s.core.sq.pc s.core.sq.index)) ∧
    ((Instr.sdld k off).wf = true → s.spadSize < off.toNat + 144 → exec (.sdld k off) s = .next (s.raise cLOCAL_BOUNDS)) ∧
    ((Instr.sdld k off).wf = true → off.toNat + 144 ≤ s.spadSize → descBad n = true →
      exec (.sdld k off) s = .next (s.trapAt cILLEGAL_COMMAND s.core.sq.pc s.core.sq.index)) ∧
    ((Instr.sdld k off).wf = true → off.toNat + 144 ≤ s.spadSize → descBad n = false → ∃ (t : State) (d : Desc),
      exec (.sdld k off) s = .next t ∧ SameElsewhere s t ∧ t.core.loc = s.core.loc ∧
      t.core.sq.flight = s.core.sq.flight ++ [⟨s.chip.now + 1, .sd k d⟩] ∧ t.core.sq.g = s.core.sq.g ∧
      t.core.sq.c = s.core.sq.c ∧ t.core.sq.pc = s.core.sq.pc ∧ t.core.sq.wait = s.core.sq.wait ∧
      d.base.toNat = n % 2 ^ 48 ∧ d.e.toNat = n / 2 ^ 64 % 16 ∧ d.ndim.toNat = n / 2 ^ 68 % 8 ∧
      d.g = decide (n / 2 ^ 71 % 2 = 1) ∧ d.dims.length = d.ndim.toNat + 1 ∧
      ∀ j (x : Dim), d.dims[j]? = some x →
        x.ext.toNat = n / 2 ^ (128 * j + 128) % 2 ^ 32 ∧ x.str.toNat = n / 2 ^ (128 * j + 192) % 2 ^ 40)

/-- R249; holes fit in the 128 bits and do not meet. R251, R253. -/
def Obligations.DictionaryWords : Prop :=
   (∀ (s : State) (idx : Fin 1024) (h : Fin 3 → BitVec 5) (c : Quad),
      let e := look .invalid idx.val s.core.loc.dict
      let n := BitVec.ofNat 10 idx.val
      let u := s.onSq fun q => { q with index := n }
      s.core.sq.wait = none → s.core.sq.expo = [] →
      (e.map.getLsbD 63 = false → exec (.dx idx (h 0) (h 1) (h 2)) s = .next (s.trapAt cDICT_UNDEFINED s.core.sq.pc n)) ∧
      (e.map.getLsbD 63 = true → anyMeet (holesOf e.map.toNat) = false →
        (∀ j : Fin 3, (holeOf e.map.toNat j).pos + (holeOf e.map.toNat j).wid ≤ 128) → Builds s e h c →
        (∀ r, decodeCommand c = .error r →
          exec (.dx idx (h 0) (h 1) (h 2)) s = .next (u.trapAt cILLEGAL_COMMAND s.core.sq.pc n)) ∧
        (∀ i k, decodeCommand c = .ok i → queueOf i = some k → i.wf = true → u.cmdCheck i = none → roomIn s k →
          s.core.sq.after = .seq → s.measured = false →
          exec (.dx idx (h 0) (h 1) (h 2)) s = .next ((queued u k i).event 20 1)))) ∧
   (∀ (s : State) (d a b : GReg), canon .invalid s.core.loc.dict = true →
      let A := (s.rg a).toNat
      let first := (s.rg b).toNat % 1024
      let count := (s.rg b).toNat / 1024 % 2048
      let record := fun (i : Nat) => imageRecord s.core.loc.mem A i
      let bad := fun (i : Nat) => first ≤ i ∧ i < first + count ∧ s.core.imageBad s.chip.parts[s.partOf s.core] (record i) = true
      let range := count ≠ 0 ∧ first + count ≤ 1024
      let x := (s.rg a).toNat
      (¬ range → exec (.dload a b) s = .next (s.trapAt cDICT_RANGE s.core.sq.pc (.ofNat 10 first))) ∧
      (range → A % 32 ≠ 0 → exec (.dload a b) s = .next (s.raise cMISALIGNED)) ∧
      (range → A % 32 = 0 → s.spadSize < A + 32 * (first + count) → exec (.dload a b) s = .next (s.raise cLOCAL_BOUNDS)) ∧
      (∀ i, range → A % 32 = 0 → A + 32 * (first + count) ≤ s.spadSize → bad i → (∀ i' < i, ¬ bad i') →
        exec (.dload a b) s = .next (s.trapAt cDICT_BADENTRY s.core.sq.pc (.ofNat 10 i))) ∧
      (range → A % 32 = 0 → A + 32 * (first + count) ≤ s.spadSize → (∀ i, ¬ bad i) →
        ∃ t, exec (.dload a b) s = .next t ∧
          (∀ i, look .invalid i t.core.loc.dict = if first ≤ i ∧ i < first + count then
              (if (record i).2.1 / 2 ^ 63 % 2 = 1 then
                { template := .ofNat 128 (record i).1
                  map := .ofNat 64 (record i).2.1 }
              else .invalid)
            else look .invalid i s.core.loc.dict) ∧
          t.core.sq.dgen = s.core.sq.dgen + 1 ∧
          t.core.sq.dref = (if first = 0 ∧ count = 1024 then 0#29 ++ 1024#11 ++ BitVec.ofNat 24 A
            else s.core.sq.dref ||| 0x8000000000000000) ∧
          t.core.loc = { s.core.loc with dict := t.core.loc.dict } ∧ t.core.sq.g = s.core.sq.g ∧ t.core.sq.c = s.core.sq.c ∧
          t.core.sq.flight = s.core.sq.flight ∧ t.core.queues = s.core.queues ∧ t.others = s.others ∧ t.chip = s.chip) ∧
      exec .dfence s = .next (s.onSq fun q => { q with expo := [] }) ∧
      (1024 ≤ x → ∀ k, exec (.dread d a k) s = .next (s.raise cDICT_RANGE)) ∧
      (x < 1024 →
        exec (.dread d a 0) s = .next (s.post 2 (.g d ((look .invalid x s.core.loc.dict).template.extractLsb' 0 64))) ∧
        exec (.dread d a 1) s = .next (s.post 2 (.g d ((look .invalid x s.core.loc.dict).template.extractLsb' 64 64))) ∧
        exec (.dread d a 2) s = .next (s.post 2 (.g d (look .invalid x s.core.loc.dict).map))))

/-- R206. -/
def Obligations.LogicalTimeTick : Prop :=
  ∀ s : State,
    (s.core.sq.ctr.cycle.toNat % 256 ≠ 255 → exec .ptsTick s = .next s) ∧
    (s.core.sq.ctr.cycle.toNat % 256 = 255 → ∃ t, exec .ptsTick s = .next t ∧
      t.core.sq = { s.core.sq with ctr := { s.core.sq.ctr with pts := s.core.sq.ctr.pts + 1 } } ∧
      (∀ n : Fin 32, t.core.fab.cells[n] = { s.core.fab.cells[n] with pts := s.core.fab.cells[n].pts + 1 }) ∧
      (∀ p : Fin 16, t.core.fab.ports[p] = { s.core.fab.ports[p] with pts := s.core.fab.ports[p].pts + 1 }) ∧
      (∀ k : Fin 22, s.core.queues[k].run = none → t.core.queues[k] = s.core.queues[k]) ∧
      (∀ (k : Fin 22) (r : Run), s.core.queues[k].run = some r →
        t.core.queues[k] = { s.core.queues[k] with run := some { r with pts := r.pts + 1 } }) ∧
      t.core = { s.core with
        sq := t.core.sq
        queues := t.core.queues
        fab := { s.core.fab with
          cells := t.core.fab.cells
          ports := t.core.fab.ports } } ∧ t = { s with core := t.core })

/-- R102, R103, R106, R108, R109, R171, R188, R189, R384. Inputs are on distinct channels, and so are the targets. `path` is
what the two low bits of the predicate's lane 0 name; `K` is the slot's token on a member's loop inputs `loop`, `w` its slot.
That a memory port whose plan fails, or whose token is poisoned, fires in its first cycle of the wheel, before any sub-access, is
the model's reading (log entry 22; R147 says it of rotations and R233 of mica). Of a member of a rotation the sub-accesses past
the first are not stated. -/
def Obligations.CellFires : Prop :=
  ∀ (s : State) (n : Fin 32),
    let f := s.core.fab
    let c := f.cells[n]
    let now := s.chip.now
    let outer := (f.look n now).filter fun x => !f.onLoop x
    let predicate := f.headRow n now 2
    let v := ((predicate.getD 0).setWidth 2).toNat
    let pathIn := [0, 1, 4, 5].getD v 0
    let steers := c.op = 0x03
    let merges := c.op = 0x04
    let path : Option Nat :=
      if steers then (if v < (f.targets n 0).length then some v else none)
      else if (∃ e ∈ f.inputs n, e.1 = pathIn) ∨ (v < 2 ∧ c.sel v = 6) then some v else none
    let takes := (f.inputs n).filter fun e => !decide merges || e.1 == 2 || e.1 == pathIn
    let outs : List (Fin 256 × Nat) :=
      if steers then ((f.targets n 0)[v]?.map fun a => (a, c.prod 0)).toList
      else ((f.targets n 0).map fun a => (a, c.prod 0)) ++ (f.targets n 1).map fun a => (a, c.prod 1)
    let loop := (f.inputs n).filter fun e => (f.loopOf e.2).isSome && decide (1 ≤ (f.scan e.2 now).1)
    let ready := c.next ≤ now ∧ c.free ≤ now ∧ s.energyOk s.core = true ∧ (steers ∨ merges → predicate.isSome = true) ∧
      ∀ e ∈ takes, c.need e.1 ≤ (f.scan e.2 now).1
    let lanes := fun (q : List Lane) => s.core.holdsWheel n = true ∧ f.psnAhead n now (f.look n now) = false ∧
      ∃ p, s.core.planAt n now = .ok p ∧ q = subLanes p c.sub ∧ ∀ b ∈ banksOf q, ∀ e ∈ s.core.loc.halfA, e.1 ≠ b
    let hasRoom := ∀ e ∈ outs, e.2 ≠ 0 ∨ steers → f.room e.1 now e.2 = true
    let last := c.isPort = false ∨ (s.core.holdsWheel n = true ∧ f.psnAhead n now (f.look n now) = true) ∨
      (s.core.holdsWheel n = true ∧ ∃ k, s.core.planAt n now = .error k) ∨
      ∃ p, lanes (subLanes p c.sub) ∧ s.core.planAt n now = .ok p ∧ subCount p ≤ c.sub + 1
    let fires := fun (slot : Option (Fin 8 × Nat)) (K : Option Token) (gone : List (Nat × Fin 256)) =>
      ∃ t g, exec (.cellFiring n) s = .next t ∧ t.core.fab.fire = some g ∧ g.cell = n ∧ g.slot = slot ∧ g.lap = K ∧
        (steers ∨ merges → g.path = path) ∧
        g.ins = takes.map (fun e => (e.1, (f.seen e.2 now).take (c.need e.1))) ∧
        (∀ e ∈ takes, t.core.fab.arcs[e.2].fifo = f.arcs[e.2].fifo.drop (c.need e.1)) ∧
        (∀ e ∈ gone, t.core.fab.arcs[e.2].fifo = f.arcs[e.2].fifo.drop 1) ∧
        (∀ e ∈ outs, t.core.fab.arcs[e.1].reserved = f.arcs[e.1].reserved + e.2) ∧
        (∀ a : Fin 256, a ∉ (takes ++ gone).map (·.2) → t.core.fab.arcs[a].fifo = f.arcs[a].fifo) ∧
        (∀ a : Fin 256, a ∉ outs.map (·.1) → t.core.fab.arcs[a].reserved = f.arcs[a].reserved) ∧
        t.core.fab.cells[n].next = now + c.interval ∧ t.core.fab.cells[n].free = now + 1 ∧ t.core.fab.fires = f.fires + 1 ∧
        (∀ k : Fin 32, k ≠ n → t.core.fab.cells[k] = f.cells[k]) ∧ t.core.loc = s.core.loc ∧ t.core.sq = s.core.sq ∧
        t.core.queues = s.core.queues ∧ t.others = s.others ∧ t.chip = s.chip
    let passes := fun (K : Token) => ∃ t out, exec (.cellFiring n) s = .next t ∧ t.core.fab.fire = none ∧
      t.core.fab.cells[n].pipe = c.pipe ++ [(now + c.lat, out)] ∧ out.map (·.arc) = f.loopTargets n ∧
      (∀ u ∈ out, u.tok = K) ∧ (∀ e ∈ loop, t.core.fab.arcs[e.2].fifo = f.arcs[e.2].fifo.drop 1) ∧
      (∀ a : Fin 256, a ∉ loop.map (·.2) → t.core.fab.arcs[a].fifo = f.arcs[a].fifo) ∧ t.core.fab.fires = f.fires ∧
      (∀ k : Fin 32, k ≠ n → t.core.fab.cells[k] = f.cells[k]) ∧ t.core.loc.mem = s.core.loc.mem ∧
      t.others = s.others ∧ t.chip = s.chip
    c.conf ≠ none → c.stopped = false → ((f.inputs n).map (·.2)).Nodup → (outs.map (·.1)).Nodup →
    (c.member = none → f.eoiBad n now outer = true → ∃ t, exec (.cellFiring n) s = .next t ∧
      t.core.fab.cells = f.cells.set n { c with stopped := true } ∧ t.core.fab.arcs = f.arcs ∧ t.core.fab.fire = none ∧
      t.core.sq = { s.core.sq with raised := s.core.sq.raised ++ [⟨cCELL n .eoi, 0, now⟩] } ∧
      t.core.loc = s.core.loc ∧ t.others = s.others ∧ t.chip = s.chip) ∧
    (c.member = none → f.eoiBad n now outer = false → f.stopping = false ∨ f.inputs n ≠ [] → ready → last → hasRoom →
      fires none none []) ∧
    (c.member = none → f.eoiBad n now outer = false → f.inputs n ≠ [] → ready → c.isPort = true →
      hasRoom → ∀ p q, lanes q → s.core.planAt n now = .ok p →
      q = subLanes p c.sub → c.sub + 1 < subCount p → Memory.wf s.core.loc.mem = true → canon 0 c.got = true →
      let j := if c.op = 0xA6 then 0 else 1
      ∃ t, exec (.cellFiring n) s = .next t ∧
        PortLanes s t n ((f.headRow n now j).getD 0)
          (((f.feeding n j).bind fun a => (f.seen a now).head?).getD (.marker 0)) q ∧
        t.core.fab.cells[n].sub = c.sub + 1 ∧ t.core.fab.fire = none ∧ t.core.fab.arcs = f.arcs ∧ t.core.fab.fires = f.fires ∧
        t.core.sq = { s.core.sq with ctr := { s.core.sq.ctr with bank := s.core.sq.ctr.bank + 1 } } ∧
        (∀ k : Fin 32, k ≠ n → t.core.fab.cells[k] = f.cells[k]) ∧ t.others = s.others ∧ t.chip = s.chip) ∧
    (∀ q e rest K, c.member = some q → f.eoiBad n now outer = false → loop = e :: rest →
      (f.seen e.2 now).head? = some K →
      let w := K.slot.toNat
      let lives := (∃ x, f.rstart[q].slots[w]? = some x ∧ (x.state = .active ∨ x.state = .leaving)) ∧
        ∃ y, f.rots[q].slots[w]? = some y ∧ y.hold = false
      (lives → ready → c.isPort = false ∨ (c.sub = 0 ∧ c.got = []) → last → hasRoom →
        fires (some (q, w)) (some K) ((f.inputs n).filter fun e => (f.loopOf e.2).isSome && !takes.contains e)) ∧
      (¬ lives ∨ ¬ ready ∨ (c.isPort = true ∧ s.core.holdsWheel n = false) ∨
        (c.isPort = false ∧ ¬ hasRoom) → passes K))

/-- R103. -/
def Obligations.TokensEnterTheirChannels : Prop :=
  ∀ (s : State) (n : Fin 32),
    let f := s.core.fab
    let now := s.chip.now
    let due := (f.cells[n].pipe.filter fun e => e.1 ≤ now).flatMap (·.2)
    ∃ t, exec (.tokenPush n) s = .next t ∧
      t.core.fab.cells = f.cells.set n { f.cells[n] with pipe := f.cells[n].pipe.filter fun e => now < e.1 } ∧
      (∀ a : Fin 256,
        let mine := due.filter fun u => u.arc = a
        t.core.fab.arcs[a] = { f.arcs[a] with
          fifo := f.arcs[a].fifo ++ mine.map (fun u => (now + f.transit a + f.delay a, u.tok))
          reserved := f.arcs[a].reserved - mine.length }) ∧
      t.core = { s.core with fab := { f with
        cells := t.core.fab.cells
        arcs := t.core.fab.arcs } } ∧ t = { s with core := t.core }

/-- R103, R104, R135, R145–R147, R172, R177. `path` is the one target of a STEER. A poisoned firing raises no cause; what it
pushes then is the model's choice (log entry 121), as are the TAG of a firing whose lead input consumed several tokens
(126) and the row where types meet that no conversion joins (20). -/
def Obligations.FiringsEnd : Prop :=
  ∀ (s : State) (g : Firing) (m : Made) (path : Option (Fin 256)),
    let f := s.core.fab
    let c := f.cells[g.cell]
    let lead := g.lead.getD (.marker 0)
    let slot := g.lap.getD lead
    let t := s.finishFire g m path
    let L := match path with
      | some a => [a]
      | none => f.targets g.cell 0
    let pushes := fun (poisoned : Bool) =>
      (L ++ f.targets g.cell 1).Nodup → ∃ out : List Push,
        t.core.fab.cells[g.cell].pipe = c.pipe ++ [(s.chip.now + c.lat, out)] ∧
        t.core.fab.cells[g.cell].fires = c.fires + 1 ∧ t.core.fab.cells[g.cell].sub = 0 ∧
        t.core.fab.cells[g.cell].got = [] ∧ t.core.fab.fire = none ∧
        (∀ x ∈ [(0, m.o0, L), (1, m.o1, f.targets g.cell 1)], ∀ a ∈ x.2.2,
          (out.filter fun u => u.arc = a).map (·.tok) = x.2.1.map fun d =>
            { data := enteredAs (f.outType g.cell x.1 g.from_) (f.chanType a) d
              tag := lead.tag
              kind := .data
              psn := g.psn || poisoned
              slot := slot.slot
              gen := slot.gen
              pts := c.pts }) ∧
        (∀ u ∈ out, u.arc ∈ L ++ f.targets g.cell 1) ∧ t.core.fab.cells[g.cell].stopped = c.stopped ∧
        (∀ k : Fin 32, k ≠ g.cell → t.core.fab.cells[k] = f.cells[k]) ∧ t.core.loc = s.core.loc ∧
        t.others = s.others ∧ t.chip = s.chip
    (m.bad = none → pushes false ∧ t.core.sq = s.core.sq ∧ t.core.fab.rots = f.rots) ∧
    (∀ k, m.bad = some k → g.slot = none → g.psn = false →
      t.core.fab.cells[g.cell].stopped = true ∧ t.core.fab.cells[g.cell].pipe = c.pipe ∧ t.core.fab.fire = none ∧
      t.core.sq = { s.core.sq with raised := s.core.sq.raised ++ [⟨cCELL g.cell k, 0, s.chip.now⟩] } ∧
      t.core.loc = s.core.loc ∧ t.others = s.others ∧ t.chip = s.chip) ∧
    (∀ k, m.bad = some k → g.psn = true → t.core.sq = s.core.sq ∧ t.core.fab.rots = f.rots ∧
      t.core.fab.cells[g.cell].stopped = c.stopped ∧ (k ≠ .path ∨ g.slot ≠ none → pushes false)) ∧
    (∀ k q p, m.bad = some k → g.slot = some (q, p) → g.psn = false →
      pushes true ∧ OneSlot f.rots[q].slots t.core.fab.rots[q].slots p (fun x =>
        if x.state = .active ∨ x.state = .leaving then { x with
          state := .faulted
          cause := cCELL g.cell k } else x) ∧
      (∀ r, f.rots[q].cfg = some r → t.core.sq = if r.trap = true then
        { s.core.sq with raised := s.core.sq.raised ++ [⟨cROT q .slot, .ofNat 6 p, s.chip.now⟩] } else s.core.sq))

/-- R152, R153, for the integer formats 0–7. -/
def Obligations.IntegerCellResults : Prop :=
  let V := fun (c : Cell) (a : Nat) => laneInt (fmtBits c.type) (fmtUns c.type) a
  let W := fun (c : Cell) => fmtBits c.type
  let fits := fun (i : Instr) (op : Nat) (e : Cell → Nat → Nat → Nat → Int) =>
    CellMakes i op fun _ c g m => c.type < 8 → FitsLanes c g m (e c)
  let pure := fun (i : Instr) (op : Nat) (f : Cell → Nat → Nat → Nat) =>
    CellMakes i op fun _ c g m => c.type < 8 → Lanewise (W c) (W c) c g m (fun a b _ => f c a b) ∧ m.bad = none
  fits .cellAdd 0x10 (fun c a b _ => V c a + V c b) ∧
  fits .cellSub 0x11 (fun c a b _ => V c a - V c b) ∧
  fits .cellMul 0x12 (fun c a b _ => V c a * V c b) ∧
  fits .cellMac 0x13 (fun c a b d => V c a * V c b + V c d) ∧
  fits .cellAbs 0x16 (fun c a _ _ => (V c a).natAbs) ∧
  fits .cellShl 0x1A (fun c a b _ => V c a * 2 ^ (b % W c)) ∧
  fits .cellRshr 0x1D (fun c a b _ => halfUp (V c a) (b % W c)) ∧
  fits .cellReq 0x1E (fun c a _ _ =>
    halfUp (V c a * (c.const.extractLsb' 0 16).toInt) (c.aux % 64) + (c.const.extractLsb' 16 16).toInt) ∧
  pure .cellMin 0x14 (fun c a b => if V c a ≤ V c b then a else b) ∧
  pure .cellMax 0x15 (fun c a b => if V c a ≤ V c b then b else a) ∧
  pure .cellAnd 0x17 (fun c a b => (BitVec.ofNat (W c) a &&& BitVec.ofNat (W c) b).toNat) ∧
  pure .cellOr 0x18 (fun c a b => (BitVec.ofNat (W c) a ||| BitVec.ofNat (W c) b).toNat) ∧
  pure .cellXor 0x19 (fun c a b => (BitVec.ofNat (W c) a ^^^ BitVec.ofNat (W c) b).toNat) ∧
  pure .cellShr 0x1B (fun c a b => (BitVec.ofNat (W c) a >>> (b % W c)).toNat) ∧
  pure .cellSar 0x1C (fun c a b => ((BitVec.ofNat (W c) a).sshiftRight (b % W c)).toNat) ∧
  pure .cellPeq 0x1F (fun _ a b => if a = b then 1 else 0) ∧
  pure .cellPne 0x20 (fun _ a b => if a = b then 0 else 1) ∧
  pure .cellPlt 0x21 (fun c a b => if V c a < V c b then 1 else 0) ∧
  pure .cellPge 0x22 (fun c a b => if V c a < V c b then 0 else 1)

/-- R154, R155, over the model's exact values (`decFp`, `decDk8`) and roundings (`encFp`, `encDk8`). The reciprocal root is
pinned by squares; exponential and logarithm where they are rational, and elsewhere between the neighbouring powers of 2: how
close they come there is not stated. -/
def Obligations.FloatingCellResults : Prop :=
  (∀ (f : Fmt), 8 ≤ f.code → f.code ≤ 10 →
    (∀ r, LaneFinite f r → numberOf (decLane f r) = some (laneNumber f r)) ∧
    ∀ v x, numberOf v = some x → RoundsTo f x (encLane f .nearest v).1) ∧
  (∀ a b c x y z, numberOf a = some x → numberOf b = some y → numberOf c = some z →
    numberOf (addR a b) = some (x + y) ∧ numberOf (mulR a b) = some (x * y) ∧ numberOf (negR a) = some (-x) ∧
    numberOf (fmaR a b c) = some (x * y + z) ∧
    (y ≠ 0 → numberOf (divR a b) = some (x / y) ∧ numberOf (recipR b) = some (1 / y)) ∧
    (ltR false a b = true ↔ x < y) ∧ numberOf (maxR a b) = some (if x < y then y else x) ∧
    numberOf (minR a b) = some (if y < x then y else x)) ∧
  (∀ n d : Nat, 0 < n → 0 < d →
    let x : Rat := n / d
    (∃ r : Rat, numberOf (rsqrtR (.fin false n d)) = some r ∧ 0 < r ∧
      let e : Rat := 1 / (2 ^ 193 * n)
      (r ^ 2 * x = 1 ∨ (e < r ∧ (r - e) ^ 2 * x < 1 ∧ 1 < (r + e) ^ 2 * x))) ∧
    ∃ v : Rat, numberOf (log2R (.fin false n d)) = some v ∧ ∀ k : Int,
      (x = (2 : Rat) ^ k → v = k) ∧ ((2 : Rat) ^ k ≤ x → x < (2 : Rat) ^ (k + 1) → k ≤ v ∧ v < k + 1)) ∧
  (∀ (s : Bool) (n d : Nat), 0 < d → n ≤ 1024 * d →
    let x : Rat := (if s then -1 else 1) * (n / d)
    ∃ v : Rat, numberOf (exp2R (.fin s n d)) = some v ∧ ∀ k : Int,
      (x = k → v = (2 : Rat) ^ k) ∧ (k ≤ x → x ≤ k + 1 → (2 : Rat) ^ k ≤ v ∧ v ≤ (2 : Rat) ^ (k + 1))) ∧
  let one := fun (i : Instr) (op : Nat) (f : Nat → RVal → RVal → RVal → Nat) =>
    CellMakes i op fun _ c g m => ∀ p, (c.type = 9 → p = 8) → (c.type ≠ 9 → p = 24) →
      Lanewise (p + 8) (p + 8) c g m (fun a b d => f p (decFp p a) (decFp p b) (decFp p d)) ∧ m.bad = none
  let near := fun (p : Nat) (v : RVal) => (encFp p .nearest v).1 % 2 ^ (p + 8)
  let dk := fun (c : Cell) (v : RVal) => (encDk8 (biasOf c.obias) .nearest v).1 % 256
  one .cellFadd 0x40 (fun p x y _ => near p (addR x y)) ∧
  one .cellFsub 0x41 (fun p x y _ => near p (nan2 x y (addR x (negR y)))) ∧
  one .cellFmul 0x42 (fun p x y _ => near p (mulR x y)) ∧
  one .cellFma 0x43 (fun p x y z => near p (fmaR x y z)) ∧
  one .cellFmin 0x44 (fun p x y _ => near p (minR x y)) ∧
  one .cellFmax 0x45 (fun p x y _ => near p (maxR x y)) ∧
  one .cellFexp2 0x48 (fun p x _ _ => near p (exp2R x)) ∧
  one .cellFlog2 0x49 (fun p x _ _ => near p (log2R x)) ∧
  one .cellFrcp 0x4A (fun p x _ _ => near p (recipR x)) ∧
  one .cellFrsq 0x4B (fun p x _ _ => near p (rsqrtR x)) ∧
  one .cellFdiv 0x4C (fun p x y _ => near p (divR x y)) ∧
  one .cellFpeq 0x4D (fun _ x y _ =>
    if isNan x = false ∧ isNan y = false ∧ ltR false x y = false ∧ ltR false y x = false then 1 else 0) ∧
  one .cellFplt 0x4E (fun _ x y _ => if isNan x = false ∧ isNan y = false ∧ ltR false x y = true then 1 else 0) ∧
  (∀ x ∈ [(Instr.cellFabs, 0x46, false), (Instr.cellFneg, 0x47, true)],
    CellMakes x.1 x.2.1 fun _ c g m => ∀ p, (c.type = 9 → p = 8) → (c.type ≠ 9 → p = 24) → m.bad = none ∧
      Lanewise (p + 8) (p + 8) c g m fun a _ _ =>
        if isNan (decFp p a) = true then near p (decFp p a)
        else if x.2.2 = true then (BitVec.ofNat (p + 8) a ^^^ BitVec.ofNat (p + 8) (2 ^ (p + 7))).toNat
        else a % 2 ^ (p + 7)) ∧
  CellMakes .cellDkmul 0x60 (fun s c g m => m.bad = none ∧ Lanewise 8 8 c g m fun a b _ =>
    dk c (mulR (decDk8 (s.core.fab.biasIn g.cell 0) a) (decDk8 (s.core.fab.biasIn g.cell 1) b))) ∧
  CellMakes .cellDkmax 0x62 (fun s c g m => m.bad = none ∧ Lanewise 8 8 c g m fun a b _ =>
    let x := decDk8 (s.core.fab.biasIn g.cell 0) a
    let y := decDk8 (s.core.fab.biasIn g.cell 1) b
    dk c (nan2 x y (if ltR false x y = true then y else x))) ∧
  CellMakes .cellDkdot 0x61 (fun s c g m => m.bad = none ∧ Lanewise 32 32 c g m fun a b _ =>
    let q := fun (k : Nat) => mulR (decDk8 (s.core.fab.biasIn g.cell 0) (a / 256 ^ k % 256))
      (decDk8 (s.core.fab.biasIn g.cell 1) (b / 256 ^ k % 256))
    let v := addR (addR (addR (addR .zero (q 0)) (q 1)) (q 2)) (q 3)
    near 24 (if isZero v = true then .zero else v))

/-- R156–R158; n is the number of lanes of the TYPE. `used` is the number of tokens a conversion consumes; a constant stands
in the place of each (R101). -/
def Obligations.ConversionShuffleAndReductionResults : Prop :=
  let used := fun (c : Cell) => if c.op = 0x70 then c.prod 0
    else if c.op = 0x71 then fmtBits c.type / fmtBits c.dtype else 1
  (∀ (f : Fmt), f.code < 11 →
    (∀ r, LaneFinite f r → numberOf (decLane f r) = some (laneNumber f r)) ∧
    (f.code < 8 → ∀ v x, numberOf v = some x → RoundsTo f x (encLane f .nearest v).1) ∧
    ∀ v x, numberOf v = some x → TruncatesTo f x (encLane f .towardZero v).1) ∧
  (∀ x ∈ [(Instr.cellCvt, 0x70), (.cellNarrow, 0x71), (.cellWiden, 0x72)], CellMakes x.1 x.2 fun s c g m =>
    ∀ W V, W = fmtBits c.type → V = fmtBits c.dtype → (c.rows g (used c)).length * (512 / W) = c.prod 0 * (512 / V) →
      m.bad = none ∧ m.o1 = [] ∧ m.o0.length = c.prod 0 ∧ ∀ q < c.prod 0 * (512 / V),
        laneOf V (m.o0.getD (q / (512 / V)) 0) (q % (512 / V)) =
          (cvtLane ⟨c.type, s.core.fab.biasIn g.cell 0⟩ ⟨c.dtype, biasOf c.obias⟩
            (if c.tz = true then .towardZero else .nearest)
            (laneOf W ((c.rows g (used c)).getD (q / (512 / W)) 0) (q % (512 / W)))).1 % 2 ^ V) ∧
  CellMakes .cellBcast 0x80 (fun _ c g m => c.aux < 512 / fmtBits c.type →
    Shuffles c g m (fun a _ _ => a c.aux) (fun _ _ _ => 0)) ∧
  CellMakes .cellShuf 0x81 (fun _ c g m =>
    Shuffles c g m (fun a b k => a (b k % (512 / fmtBits c.type))) (fun _ _ _ => 0)) ∧
  CellMakes .cellZip 0x82 (fun _ c g m => Shuffles c g m
    (fun a b k => if k % 2 = 0 then a (k / 2) else b (k / 2))
    (fun a b k =>
      let j := 512 / fmtBits c.type / 2 + k / 2
      if k % 2 = 0 then a j else b j)) ∧
  CellMakes .cellUnzip 0x83 (fun _ c g m =>
    let both := fun (a b : Nat → Nat) (k : Nat) => if k < 512 / fmtBits c.type then a k else b (k - 512 / fmtBits c.type)
    Shuffles c g m (fun a b k => both a b (2 * k)) (fun a b k => both a b (2 * k + 1))) ∧
  CellMakes .cellSlide 0x84 (fun _ c g m =>
    let both := fun (a b : Nat → Nat) (k : Nat) => if k < 512 / fmtBits c.type then a k else b (k - 512 / fmtBits c.type)
    c.aux ≤ 512 / fmtBits c.type → Shuffles c g m (fun a b k => both a b (k + c.aux)) (fun _ _ _ => 0)) ∧
  (∀ x ∈ [(Instr.cellRsum, 0x88, RedOp.add), (.cellRmax, 0x89, .max), (.cellRmin, 0x8A, .min)],
    CellMakes x.1 x.2.1 fun _ c g m => m = c.reduce g x.2.2 ∧
      (let W := fmtBits c.type
       let v := (c.lanes0 g (c.cons 0)).map (laneInt W (fmtUns c.type))
       c.type < 8 → c.satMode = false → c.ot = false → 0 < v.length → v.length ≤ 256 → m.bad = none ∧ ∃ d, m.o0 = [d] ∧
        match x.2.2 with
        | .add => laneOf W d 0 = (v.sum % 2 ^ W).toNat
        | .max => ∃ k, v[k]? = some (laneInt W (fmtUns c.type) (laneOf W d 0)) ∧
            (∀ y ∈ v, y ≤ laneInt W (fmtUns c.type) (laneOf W d 0)) ∧
            (∀ k' < k, v[k']? ≠ some (laneInt W (fmtUns c.type) (laneOf W d 0))) ∧
            (c.prod 1 ≠ 0 → ∃ e, m.o1 = [e] ∧ laneOf 32 e 0 = k)
        | .min => ∃ k, v[k]? = some (laneInt W (fmtUns c.type) (laneOf W d 0)) ∧
            (∀ y ∈ v, laneInt W (fmtUns c.type) (laneOf W d 0) ≤ y) ∧
            (∀ k' < k, v[k']? ≠ some (laneInt W (fmtUns c.type) (laneOf W d 0))) ∧
            (c.prod 1 ≠ 0 → ∃ e, m.o1 = [e] ∧ laneOf 32 e 0 = k)))

/-- R107–R109, R151, R163, R164. -/
def Obligations.RoutingCellResults : Prop :=
  CellMakes .cellPass 0x01 (fun _ c g m => m.bad = none ∧ m.o0 = (List.range (c.prod 0)).map (c.row g 0) ∧
    m.o1 = if c.prod 1 = 0 then [] else m.o0) ∧
  CellMakes .cellDelay 0x05 (fun _ c g m => m.bad = none ∧ m.o0 = (List.range (c.prod 0)).map (c.row g 0) ∧ m.o1 = []) ∧
  CellMakes .cellSink 0x06 (fun _ _ _ m => m.bad = none ∧ m.o0 = [] ∧ m.o1 = []) ∧
  CellMakes .cellSelect 0x02 (fun _ c g m => m.bad = none ∧
    Lanewise (fmtBits c.type) (fmtBits c.type) c g m fun a b p => if p % 2 = 1 then a else b) ∧
  CellMakes .cellMerge 0x04 (fun _ c g m =>
    (∀ v, g.path = some v → m.bad = none ∧ m.o1 = [] ∧ (v < 2 → m.o0 = (List.range (c.prod 0)).map (c.row g v)) ∧
      (2 ≤ v → m.o0 = (List.range (c.prod 0)).map fun i => ((g.inp (v + 2))[i]?.map (·.data)).getD 0)) ∧
    (g.path = none → m.bad = some .path ∧ ∀ k, g.lap = some k → m.o0 = List.replicate (c.prod 0) k.data)) ∧
  CellMakes .cellCemit 0xB1 (fun _ c g m => m.bad = none ∧ m.o1 = [] ∧ ∃ d, m.o0 = [d] ∧
    (c.emits g = false → d = 0) ∧
    (c.emits g = true → d.toNat = c.const.toNat + 2 ^ 32 * ((c.row g 0 0).toNat % 2 ^ 96))) ∧
  (∀ (s : State) (g : Firing), s.core.fab.fire = some g →
    let f := s.core.fab
    let c := f.cells[g.cell]
    let l := (List.range (c.prod 0)).map (c.row g 0)
    (c.op = 0x03 → ∀ v a, g.path = some v → (f.targets g.cell 0)[v]? = some a →
      exec .cellSteer s = .next (s.finishFire g ⟨l, [], none, []⟩ (some a))) ∧
    (c.op = 0x03 → g.path = none →
      exec .cellSteer s = .next (s.finishFire g ⟨l, [], some .path, []⟩ (f.loopTargets g.cell).head?)) ∧
    (c.op = 0x07 → ∃ m : Made, m.bad = none ∧ m.o0 = l ∧ exec .cellLeave s = .next (
      match g.slot with
      | none => s.finishFire g m none
      | some (q, p) => if (c.row g 2 0).getLsbD 0 = true then (s.finishFire g m none).markLeaving q p
        else s.finishFire g m none)) ∧
    (c.op = 0xB0 →
      let hits := ((c.lanes0 g (c.cons 0)).filter (c.semitHit (f.biasIn g.cell 0))).length
      let add := fun (x : Half) (n : Nat) => BitVec.ofNat 32 (min (x.toNat + n) 0xFFFFFFFF)
      ∃ u, exec .cellSemit s = .next (u.finishFire g ⟨[], [], none, []⟩ none) ∧
        (c.emits g = false → u = s) ∧
        (c.emits g = true → u = s.onCell g.cell fun c =>
          { c with semit := (add c.semit.1 hits, add c.semit.2 (c.lanes0 g (c.cons 0)).length) })))

/-- R146, R147, R159, R162, R175, R189, R191, R233; `p` is the plan: the guard-on lanes with their checked addresses, of which
the firing performs those of its last sub-access. That one failing lane keeps every lane of a firing outside a rotation from being
performed is the model's reading (log entry 22), where R147 says it of rotations and R233 of mica. -/
def Obligations.MemoryPortCellResults : Prop :=
  ∀ (s : State) (g : Firing), s.core.fab.fire = some g →
    let c := s.core.fab.cells[g.cell]
    let dj := if c.op = 0xA6 then 0 else 1
    let k := ((g.inp dj).head?).getD (g.lap.getD (.marker 0))
    let plan := s.core.plan g.cell (c.row g 0 0) (c.row g 1 0) (c.guardRow g)
    let on := fun (i : Nat) => i < 16 ∧ ∀ r, c.guardRow g = some r → r.getLsbD (32 * i) = true
    let at_ := fun (i : Nat) => (laneOf 32 (c.row g 0 0) i + c.const.toNat % 2 ^ 24) % 2 ^ 24
    (c.op = 0xA0 ∨ c.op = 0xA4 → c.hmode = false →
      ((∃ i, on i ∧ (at_ i % 4 ≠ 0 ∨ s.spadSize < at_ i + 4)) → plan = .error .addr) ∧
      ((∀ i, on i → at_ i % 4 = 0 ∧ at_ i + 4 ≤ s.spadSize) → ∃ p, plan = .ok p ∧
        (∀ i, on i ↔ ∃ a ∈ p, a.i = i) ∧ ∀ a ∈ p, a.addr = at_ a.i)) ∧
    ∀ x ∈ [(Instr.cellLdx, 0xA0), (.cellLdv, 0xA1), (.cellLds, 0xA2), (.cellStx, 0xA4), (.cellStv, 0xA5), (.cellSts, 0xA6),
      (.cellMadd, 0xA8), (.cellMest, 0xA9), (.cellMlvl, 0xAA)], c.op = x.2 →
      let gets := c.isLoad = true ∨ c.op = 0xA9 ∨ c.op = 0xAA
      (∀ p, plan = .ok p → g.psn = false → Memory.wf s.core.loc.mem = true → canon 0 c.got = true → ∃ u m,
        PortEnds x.1 s u g m ∧ PortLanes s u g.cell (c.row g dj 0) k (subLanes p c.sub) ∧
        (gets → ∃ d, m.o0 = [d] ∧ ∀ i < 16, laneOf 32 d i = (look 0 i u.core.fab.cells[g.cell].got).toNat) ∧
        (¬ gets → m.o0 = List.replicate (c.prod 0) (c.row g dj 0)) ∧
        (c.op = 0xA8 → c.sub = 0 → subLanes p 0 = p → (s.core.loc.micaLanes c (s.core.sq.node g.cell.val).toNat
          s.core.sq.mseed.toNat (c.row g 1 0) p).isSome = true)) ∧
      (∀ e, plan = .error e → g.psn = false → ∃ m, exec x.1 s = .next (s.finishFire g m none) ∧ m.bad = some e ∧
        m.o1 = [] ∧ (gets → m.o0 = [0]) ∧ (¬ gets → m.o0 = List.replicate (c.prod 0) (c.row g dj 0))) ∧
      (g.psn = true → ∃ m, exec x.1 s = .next (s.finishFire g m none) ∧ m.bad = none ∧ m.o1 = [] ∧ (gets → m.o0 = [0]) ∧
        (¬ gets → m.o0 = List.replicate (c.prod 0) (c.row g dj 0)))

/-- R105, R136, R137, R149, R150, R163, R169. `extra` holds the counts that an output brings before its marker. -/
def Obligations.MarkersAndRewrites : Prop :=
  ∀ (s : State) (n : Fin 32),
    let f := s.core.fab
    let c := f.cells[n]
    let now := s.chip.now
    let ins := (f.inputs n).filter fun e => (f.loopOf e.2).isNone
    let outs := fun (o : Nat) => (f.targets n o).filter fun a => (f.loopOf a).isNone
    let extra := fun (o : Nat) => if o = 1 ∧ c.st = true then [c.counts.row]
      else if o = 0 ∧ c.op = 0xB0 then [packLanes 32 [c.semit.1.toNat, 0, 0, 0, c.semit.2.toNat]] else []
    (c.conf ≠ none → c.stopped = false → c.free ≤ now → ins ≠ [] →
      s.core.statRoom n now = true → s.energyOk s.core = true → (ins.map (·.2)).Nodup →
      (outs 0 ++ outs 1 ++ f.statArcs n).Nodup →
      (∀ e ∈ ins, f.scan e.2 now = (0, true)) →
      (∀ q e k x y, c.member = some q → e ∈ f.inputs n → e ∉ ins → (f.seen e.2 now).head? = some k →
        f.rstart[q].slots[k.slot.toNat]? = some x → f.rots[q].slots[k.slot.toNat]? = some y →
        (x.state = .active ∨ x.state = .leaving) ∧ y.hold = false) →
      (∀ q e k, c.member = some q → e ∈ f.inputs n → e ∉ ins → (f.seen e.2 now).head? = some k →
        k.slot.toNat < f.rstart[q].slots.length ∧ k.slot.toNat < f.rots[q].slots.length) →
      (∀ o ∈ [0, 1], ∀ a ∈ outs o, f.room a now ((extra o).length + 1) = true) →
      ∃ t out, exec (.markerFiring n) s = .next t ∧
        t.core.fab.cells[n].pipe = c.pipe ++ [(now + c.lat, out)] ∧
        (∀ u ∈ out, u.arc ∈ outs 0 ++ outs 1 ++ f.statArcs n) ∧
        (∀ o ∈ [0, 1], ∀ a ∈ outs o, (out.filter fun u => u.arc = a).map (fun u => (u.tok.kind, u.tok.data)) =
          (extra o).map (fun d => (TokKind.data, enteredAs (f.outType n o 0) (f.chanType a) d)) ++ [(.eoi, 0)]) ∧
        (∀ z ∈ f.statArcs n, (out.filter fun u => u.arc = z).map (fun u => (u.tok.kind, u.tok.data)) =
          (f.countedArcs n z).map (fun a => (TokKind.data, f.arcs[a].counts.row)) ++
          (s.core.loc.countedCircuits n z).map (fun j => (TokKind.data, s.core.loc.circ[j].counts.row)) ++ [(.eoi, 0)]) ∧
        (∀ z ∈ f.statArcs n, (∀ a ∈ f.countedArcs n z, t.core.fab.arcs[a].counts = .zero) ∧
          ∀ j ∈ s.core.loc.countedCircuits n z, t.core.loc.circ[j].counts = .zero) ∧
        (∀ e ∈ ins, t.core.fab.arcs[e.2].fifo = f.arcs[e.2].fifo.drop 1) ∧
        (∀ a : Fin 256, a ∉ ins.map (·.2) → t.core.fab.arcs[a].fifo = f.arcs[a].fifo) ∧
        t.core.fab.cells[n].fires = 0 ∧ t.core.fab.cells[n].counts = .zero ∧ t.core.fab.cells[n].semit = (0, 0) ∧
        t.core.fab.cells[n].marked = true ∧ t.core.fab.cells[n].free = now + 1 ∧ t.core.fab.fires = f.fires + 1 ∧
        t.core.loc.mem = s.core.loc.mem ∧ t.core.sq = s.core.sq ∧ t.others = s.others ∧ t.chip = s.chip) ∧
    (∃ t, exec (.argwEffect n) s = .next t ∧
      t = { s with core := { s.core with fab := { f with cells := f.cells.set n t.core.fab.cells[n] } } } ∧
      (c.member = none → c.marked = true → c.isMerge = false →
        t.core.fab.cells[n].const = c.rewrite.getLast?.getD c.const ∧ t.core.fab.cells[n].rewrite = []) ∧
      (c.member = none → c.marked = false → c.isMerge = false → f.inputs n ≠ [] →
        t.core.fab.cells[n].const = c.const ∧ t.core.fab.cells[n].rewrite = c.rewrite) ∧
      (c.isMerge = true → t.core.fab.cells[n].const = c.const ∧ t.core.fab.cells[n].rewrite = []))

/-- R173, R174; `p` is the phase at the tap, CYCLE mod D (R168). R135, R172, R181, R184. -/
def Obligations.RotationTapAndSaves : Prop :=
   (∀ (s : State) (q : Fin 8) (g : RotCfg),
      let f := s.core.fab
      let r := f.rots[q]
      let now := s.chip.now
      let p := s.core.wheel % g.depth
      r.cfg = some g → (f.tapInputs q).Nodup →
      (∀ a x b, r.inj = a ++ x :: b →
        (∀ y ∈ a, ¬ (y.phase = p ∧ y.recur = false ∧ y.fwd = false ∧ y.from_ ≤ now)) →
        x.phase = p → x.recur = false → x.fwd = false → x.from_ ≤ now →
        ∃ t, exec (.slotInject q) s = .next t ∧
          (∀ e ∈ f.tapInputs q, t.core.fab.arcs[e].fifo = (now, x.tok) :: f.arcs[e].fifo) ∧
          (∀ e : Fin 256, e ∉ f.tapInputs q → t.core.fab.arcs[e] = f.arcs[e]) ∧
          OneSlot r.slots t.core.fab.rots[q].slots p (fun y => { y with pend := false }) ∧
          t.core.fab.rots[q].inj = r.inj.filter (fun y => y ≠ x) ∧
          (∀ k : Fin 8, k ≠ q → t.core.fab.rots[k] = f.rots[k]) ∧
          t = { s with core := { s.core with
            fab := t.core.fab
            active := true } }) ∧
      (∀ x y k, f.rstart[q].slots[p]? = some x → r.slots[p]? = some y → f.tapToken q now = some k →
        x.state = .leaving → y.pend = false → y.hold = false → f.ports[g.exit].buf.length < 4 →
        ∃ t, exec (.slotExit q) s = .next t ∧ t.core.fab.ports[g.exit].buf = f.ports[g.exit].buf ++ [k] ∧
          (∀ e ∈ f.tapInputs q, t.core.fab.arcs[e].fifo =
            if f.seen e now = [] then f.arcs[e].fifo else f.arcs[e].fifo.drop 1) ∧
          OneSlot r.slots t.core.fab.rots[q].slots p (fun z => { z with
            state := .empty
            cause := 0
            id := 0 }) ∧
          (∀ k : Fin 16, k ≠ g.exit → t.core.fab.ports[k] = f.ports[k]) ∧
          (∀ k : Fin 8, k ≠ q → t.core.fab.rots[k] = f.rots[k]) ∧
          t = { s with core := { s.core with
            fab := t.core.fab
            active := true } }) ∧
      (∀ k rest, f.ports[g.exit].buf = k :: rest → f.fromPort g.exit ≠ [] → (f.fromPort g.exit).Nodup →
        f.ports[g.exit].quiet = false →
        ∃ t, exec (.exitPortPush q) s = .next t ∧ t.core.loc = s.core.loc ∧ t.core.sq = s.core.sq ∧ t.others = s.others ∧
          t.chip = s.chip ∧
          ((∀ a ∈ f.fromPort g.exit, f.room a now 1 = true) →
            t.core.fab.ports[g.exit] = { f.ports[g.exit] with buf := rest } ∧
            ∀ a ∈ f.fromPort g.exit, t.core.fab.arcs[a].fifo = f.arcs[a].fifo ++
              [(now + f.transit a + f.delay a, enters (f.tapType q) (f.chanType a) k)]) ∧
          ((∃ a ∈ f.fromPort g.exit, f.room a now 1 = false) → t.core.fab.ports = f.ports ∧
            ∀ a : Fin 256, t.core.fab.arcs[a].fifo = f.arcs[a].fifo))) ∧
   (∀ (s : State) (q : Fin 8),
      let f := s.core.fab
      let r := f.rots[q]
      let now := s.chip.now
      (∀ m off, AtHead s 19 (.rsavec q m off) → s.core.rotAt < now → r.inj = [] →
        off.toNat + 0x440 + 64 * r.depth ≤ s.spadSize →
        canon false s.core.loc.fe = true →
        ∃ t, exec .rotSave s = .next t ∧ t.core.loc.full off.toNat = false ∧
          (∀ a, a / 4 ≠ off.toNat / 4 → t.core.loc.full a = s.core.loc.full a) ∧
          t.core.fab.rots[q] = { r with save := some ⟨m, off.toNat, now, 0, [], none, false⟩ } ∧
          (∃ u, t.core.queues[(19 : Fin 22)].run = some u ∧ u.cmd = .rsavec q m off) ∧
          t.core.queues[(19 : Fin 22)].ents = s.core.queues[(19 : Fin 22)].ents.drop 1 ∧
          t.core.loc.mem = s.core.loc.mem ∧ t.core.sq = s.core.sq ∧ t.others = s.others ∧ t.chip = s.chip) ∧
      (∀ g v y, r.cfg = some g → r.save = some v → v.preempt = false → v.start < now → v.ents.length < g.depth →
        r.slots[s.core.wheel % g.depth]? = some y →
        let p := s.core.wheel % g.depth
        let k := f.tapToken q now
        let code : BitVec 3 := match y.state with
          | .empty => 0
          | .active => 1
          | .held => 2
          | .faulted => 3
          | .leaving => 4
        ∃ t x w a b, exec (.slotCapture q) s = .next t ∧ t.core.fab.rots[q].save = some w ∧ w.ents = v.ents ++ [x] ∧
          w.start = v.start ∧ w.off = v.off ∧ w.mode = v.mode ∧ x.phase = p ∧ x.tok = k ∧
          x.tag = (match k with
            | none => 0
            | some k => k.tag) ∧
          x.ent = y.id ++ 0#6 ++ y.cause ++ y.gen ++ 0#3 ++ BitVec.ofBool (match k with
            | none => false
            | some k => k.psn) ++ BitVec.ofBool y.pend ++ code ∧
          OneSlot r.slots t.core.fab.rots[q].slots p (fun z => { z with hold := true }) ∧
          t.core.loc.reqs = s.core.loc.reqs ++ [a, b] ∧
          a.who = .rot q ∧ a.acc = .write [(v.off + 0x40 + 16 * p, x.entryBytes)] false ∧
          b.who = .rot q ∧ b.acc = .write [(v.off + 0x440 + 64 * p, x.tokenBytes)] false ∧
          t.core.fab.arcs = f.arcs ∧ t.core.loc.mem = s.core.loc.mem ∧ t.others = s.others ∧ t.chip = s.chip) ∧
      (∀ v u c, r.save = some v → v.preempt = false → s.core.queues[(19 : Fin 22)].run = some u →
        (u.wait.findSome? fun i => (s.core.loc.served.find? fun d => d.id == i).bind (·.bad)) = some c →
        ∃ t, exec (.rotSaveComplete q) s = .next t ∧
          let e := if c = cLOCAL_BOUNDS then cENG 6 .addr else c
          t.core.queues[(19 : Fin 22)] = { s.core.queues[(19 : Fin 22)] with
            run := none
            stop := some e } ∧
          t.core.sq = { s.core.sq with raised := s.core.sq.raised ++ [⟨e, 0, now⟩] } ∧
          t.core.fab.rots[q] = { r with save := none } ∧ t.core.loc.mem = s.core.loc.mem ∧ t.core.loc.fe = s.core.loc.fe) ∧
      (∀ v h u off, r.save = some v → v.preempt = false → v.hdr = some h → s.core.loc.waits h = false →
        s.core.queues[(19 : Fin 22)].run = some u → u.cmd = .rsavec q v.mode off →
        (∀ i ∈ u.wait, ∀ d, s.core.loc.served.find? (fun d => d.id == i) = some d → d.bad = none) →
        ∃ t, exec (.rotSaveComplete q) s = .next t ∧ t.core.loc.full v.off = true ∧ t.core.fab.rots[q].save = none ∧
          t.core.queues[(19 : Fin 22)] = { s.core.queues[(19 : Fin 22)] with run := none } ∧ t.core.rotAt = now ∧
          t.core.loc.mem = s.core.loc.mem ∧ t.core.sq = s.core.sq ∧
          (match v.mode with
            | .keep => t.core.fab.rots[q].frozen = true ∧ t.core.fab.rots[q].slots = r.slots
            | .thaw => t.core.fab.rots[q].frozen = false ∧
                t.core.fab.rots[q].slots = r.slots.map fun x => { x with hold := false }
            | .clear => t.core.fab.rots[q].frozen = false ∧
                t.core.fab.rots[q].slots = r.slots.map (fun x => { x with
                  state := .empty
                  pend := false
                  cause := 0
                  id := 0
                  hold := false }) ∧
                ∀ a : Fin 256, f.loopOf a = some q → t.core.fab.arcs[a].fifo = [])))

/-- R170, R172, R174, R176, R182–R184, R190, R325: an entry executes in the cycle in which it begins. That its accesses of the
banks are then presented, carry no data and hold it up by nothing is the model's choice (log entry 45), and that RADM takes the
lowest phase that was free when the cycle began (log entry 95). -/
def Obligations.RotationCommands : Prop :=
  ∀ (s : State),
    let f := s.core.fab
    let now := s.chip.now
    let spad := s.spadSize
    (∀ q h own id, AtHead s 19 (.radmc q h own id) → s.core.rotAt < now → s.core.loc.hstart[h] = s.core.loc.handles[h] →
      s.core.reservedIn h + 1 ≤ s.core.loc.handles[h].filled →
      s.core.loc.handles[h].filled ≤ s.core.loc.handles[h].nslot.toNat →
      let d := s.core.loc.handles[h]
      let a := d.slotAt ((d.ci.toNat + s.core.reservedIn h) % 65536)
      (f.freePhase q = none → ∃ t, exec .rotAdmit s = .next t ∧ Executed s t 19 ∧
        t.core.fab.rots[q] = { f.rots[q] with refused := .ofNat 16 (min (f.rots[q].refused.toNat + 1) 65535) } ∧
        t.core.loc = s.core.loc) ∧
      (f.freePhase q ≠ none → spad < a + 64 → ∃ t, exec .rotAdmit s = .next t ∧ RotFails s t (cENG 6 .addr)) ∧
      (∀ p, f.freePhase q = some p → a + 64 ≤ spad → ∃ t x, exec .rotAdmit s = .next t ∧ Executed s t 19 ∧ RowsAsked s t q [a] ∧
        OneSlot f.rots[q].slots t.core.fab.rots[q].slots p (fun y => { y with
          state := .active
          pend := true
          gen := y.gen + 1
          cause := 0
          id := id }) ∧
        (∀ y, f.rots[q].slots[p]? = some y → x.gen = y.gen + 1) ∧
        t.core.fab.rots[q].inj = f.rots[q].inj ++ [⟨p, x, now + 2, false, false⟩] ∧
        (∀ k < 64, x.data.extractLsb' (8 * k) 8 = s.spad (a + k)) ∧ x.tag = id.setWidth 24 ∧ x.kind = .data ∧
        x.psn = false ∧ x.slot = .ofNat 6 p ∧
        t.core.loc.handles[h].ci = d.ci + 1 ∧ t.core.loc.handles[h].pi = d.pi ∧
        (own = true → t.core.loc.handles[h].own = true ∧ t.core.loc.handles[h].oq = .ofNat 3 q.val ∧
          t.core.loc.handles[h].os = .ofNat 6 p ∧ t.core.loc.handles[h].og = x.gen ∧
          t.core.loc.handles[h].ocore = s.core.cid) ∧
        t.core.rotAt = now ∧ t.core.sq = s.core.sq ∧ t.others = s.others ∧ t.chip = s.chip)) ∧
    (∀ q x, AtHead s 19 (.rretc q x) → s.core.rotAt < now → ∃ t, exec .rotRetire s = .next t ∧ Executed s t 19 ∧
      SlotsBy x f.rots[q].slots t.core.fab.rots[q].slots (fun y =>
        if y.state = .active ∨ y.state = .held ∨ y.state = .faulted then { y with
          state := .leaving
          cause := 0 } else y) ∧ t.core.fab.arcs = f.arcs ∧ t.core.loc = s.core.loc) ∧
    (∀ q x, AtHead s 19 (.rholdc q x) → s.core.rotAt < now → ∃ t, exec .rotHold s = .next t ∧ Executed s t 19 ∧
      SlotsBy x f.rots[q].slots t.core.fab.rots[q].slots (fun y =>
        if y.state = .active then { y with state := .held } else y) ∧ t.core.fab.arcs = f.arcs ∧ t.core.loc = s.core.loc) ∧
    (∀ q x, AtHead s 19 (.rrelc q x) → s.core.rotAt < now → ∃ t, exec .rotRelease s = .next t ∧ Executed s t 19 ∧
      SlotsBy x f.rots[q].slots t.core.fab.rots[q].slots (fun y => { y with
        state := if y.state = .held then .active else y.state
        hold := match x with
          | .one _ => y.hold
          | .all => false }) ∧
      t.core.fab.rots[q].frozen = (match x with
        | .one _ => f.rots[q].frozen
        | .all => false) ∧ t.core.fab.arcs = f.arcs ∧ t.core.loc = s.core.loc) ∧
    (∀ q off, AtHead s 19 (.rmapc q off) → s.core.rotAt < now →
      (spad < off.toNat + 64 → ∃ t, exec .rotMap s = .next t ∧ RotFails s t (cENG 6 .addr)) ∧
      (off.toNat + 64 ≤ spad → ∃ t m, exec .rotMap s = .next t ∧ Executed s t 19 ∧ RowsAsked s t q [off.toNat] ∧
        t.core.fab.rots[q] = { f.rots[q] with map := some m } ∧ m.length = 64 ∧
        (∀ k < 64, m[k]? = some (s.spad (off.toNat + k))) ∧ t.core.rotAt = now)) ∧
    (∀ q kf m off, AtHead s 19 (.rloadc q kf m off) → s.core.rotAt < now →
      let rec_ := fun (o n : Nat) => rdNat s.core.loc.mem (off.toNat + o) n
      let D := rec_ 0 4 % 2 ^ 7
      let ent := fun (i : Nat) => rec_ (0x40 + 16 * i) 8
      let code := fun (i : Nat) => ent i % 8
      let r := f.rots[q]
      let kept := (List.range D).filter fun i => decide (code i ≠ 0 ∧ (kf = true ∨ code i ≠ 3))
      let dest := if m = true then
          (kept.map fun i => (i, ((r.map.bind fun b => b[i]?).map (·.toNat)).getD 255)).filter fun e => e.2 != 255
        else kept.zipIdx
      let whole := 1 ≤ D ∧ D ≤ 64 ∧ rec_ 0 4 / 2 ^ 8 % 2 ^ 8 = 1 ∧ off.toNat + 0x440 + 64 * D ≤ spad ∧ ∀ i < D, code i < 5
      let bare := (∀ y ∈ r.slots, y.state = .empty) ∧ (∀ y ∈ f.rstart[q].slots, y.state = .empty) ∧ r.save = none ∧
        r.loading = false ∧ r.inj = []
      let fits := (m = true → r.map ≠ none) ∧ (∀ e ∈ dest, e.2 < r.depth) ∧ (dest.map (·.2)).Nodup
      let states : List SlotState := [.empty, .active, .held, .faulted, .leaving]
      (¬ whole → ∃ t, exec .rotLoad s = .next t ∧ RotFails s t (cROT q .record)) ∧
      (whole → ¬ bare → ∃ t, exec .rotLoad s = .next t ∧ RotFails s t (cROT q .notEmpty)) ∧
      (whole → bare → ¬ fits → ∃ t, exec .rotLoad s = .next t ∧ RotFails s t (cROT q .map)) ∧
      (whole → bare → fits → ∃ t, exec .rotLoad s = .next t ∧
        (let x := t.core.fab.rots[q]
         x.map = none ∧ x.frozen = false ∧ x.loading = true ∧ x.slots.length = r.slots.length ∧
         x.inj = dest.map (fun e => ⟨e.2, ⟨.ofNat 512 (rec_ (0x440 + 64 * e.1) 64), .ofNat 24 (rec_ (0x48 + 16 * e.1) 3), .data,
           decide (ent e.1 / 2 ^ 4 % 2 = 1), .ofNat 6 e.2, .ofNat 8 (ent e.1 / 2 ^ 8), .ofNat 64 (rec_ 8 8)⟩, now + 2, false,
           false⟩) ∧
         (∀ e ∈ dest, e.2 < r.slots.length → ∃ y, x.slots[e.2]? = some y ∧ states[code e.1]? = some y.state ∧ y.pend = true ∧
           y.gen = .ofNat 8 (ent e.1 / 2 ^ 8) ∧ y.cause = .ofNat 10 (ent e.1 / 2 ^ 16) ∧
           y.id = .ofNat 32 (ent e.1 / 2 ^ 32) ∧ y.hold = false) ∧
         ∀ p y, r.slots[p]? = some y → (∀ e ∈ dest, e.2 ≠ p) → x.slots[p]? = some { y with hold := false }) ∧
        (∃ v, t.core.queues[(19 : Fin 22)] = { s.core.queues[(19 : Fin 22)] with
            ents := s.core.queues[(19 : Fin 22)].ents.drop 1
            run := some v } ∧ v.cmd = .rloadc q kf m off ∧ v.stage = 1) ∧
        RowsAsked s t q ([off.toNat] ++ (List.range ((16 * D + 63) / 64)).map (fun i => off.toNat + 0x40 + 64 * i) ++
          (List.range D).map fun i => off.toNat + 0x440 + 64 * i) ∧
        (∀ k : Fin 8, k ≠ q → t.core.fab.rots[k] = f.rots[k]) ∧ t.core.sq = s.core.sq ∧
        t.others = s.others ∧ t.chip = s.chip)) ∧
    (∀ q kf m off u, s.core.queues[(19 : Fin 22)].run = some u → u.cmd = .rloadc q kf m off → u.stage = 1 → f.rots[q].inj = [] →
      ∃ t, exec .rotLoad s = .next t ∧ t.core.queues[(19 : Fin 22)] = { s.core.queues[(19 : Fin 22)] with run := none } ∧
        t.core.fab.rots[q] = { f.rots[q] with loading := false } ∧ t.core.rotAt = now)

/-- R190–R192, R194; requests have distinct numbers. A row access of the copy engine is the one of its cycle, of the channel
whose turn it was, and one beat of the partition's budget (R261, R367). -/
def Obligations.BanksServeRequests : Prop :=
  ∀ (s : State) (b : Fin 32),
    let l := s.core.loc.presented b
    (s.core.loc.reqs.map (·.id)).Nodup → Memory.wf s.core.loc.mem = true → canon false s.core.loc.fe = true →
    let refused := fun (x : Req) => if ∃ y ∈ l, y.id = x.id then { x with refused := x.refused + 1 } else x
    let times := fun (t : State) => t.core.fab = { s.core.fab with ports := t.core.fab.ports } ∧
      ∀ p : Fin 16, t.core.fab.ports[p] = { s.core.fab.ports[p] with pts := t.core.fab.ports[p].pts }
    let beat := fun (t : State) (r : Req) => ((∀ ch, r.who ≠ .cpe ch) → t.chip = s.chip) ∧
      ∀ ch, r.who = .cpe ch → t.core.lastCh = ch ∧ t.core.loc.cpeUsed = true ∧
        t.chip = { s.chip with parts := t.chip.parts } ∧ ∀ p : Fin 64, t.chip.parts[p] =
          if p = s.partOf s.core then { s.chip.parts[p] with spent := t.chip.parts[p].spent } else s.chip.parts[p]
    (b.val ∈ s.core.sq.banks → ∃ t, exec (.bankEngineAccess b) s = .next t ∧
      t.core.loc = { s.core.loc with reqs := s.core.loc.reqs.map refused } ∧
      t.core.sq.ctr.bank = s.core.sq.ctr.bank + BitVec.ofNat 64 l.length ∧ t.core.fab = s.core.fab ∧ t.others = s.others ∧
      t.chip = s.chip) ∧
    (b.val ∉ s.core.sq.banks → l ≠ [] → ∃ t, ∃ r ∈ l, exec (.bankEngineAccess b) s = .next t ∧
      (∀ x ∈ l, 16 ≤ x.refused → 16 ≤ r.refused ∧ r.since ≤ x.since) ∧
      ((∀ x ∈ l, x.refused < 16) → ∀ x ∈ l, r.who.rank ≤ x.who.rank) ∧
      t.core.loc.reqs = (s.core.loc.reqs.filter fun x => x.id ≠ r.id).map refused ∧
      (r.acc.inside s.spadSize = true → Performed s t r) ∧ times t ∧ beat t r ∧ t.others = s.others) ∧
    ((∃ x ∈ l, 16 ≤ x.refused ∧ x.acc.waiter = false) → ∃ t, ∃ r ∈ l, exec (.requestAged b) s = .next t ∧
      16 ≤ r.refused ∧ r.acc.waiter = false ∧ (∀ x ∈ l, 16 ≤ x.refused → x.acc.waiter = false → r.since ≤ x.since) ∧
      t.core.loc.reqs = (s.core.loc.reqs.filter fun x => x.id ≠ r.id) ∧
      t.core.loc.halfA = (b.val, r.who) :: s.core.loc.halfA ∧
      (r.acc.inside s.spadSize = true → Performed s t r) ∧ times t ∧ beat t r ∧ t.others = s.others)

/-- R200, R201, R341. That the CMP carries in the cycles of number 0 modulo 64, over the resident cores and then the saved
contexts, and that what it carries arrives at once, is the model's choice (log entry 83; R341 gives no latency); so is the chain of
two conversions at a circuit, by way of the sending circuit's type (log entry 94). -/
def Obligations.CircuitsMoveTokens : Prop :=
  (∀ (s : State) task k, s.chip.tasks[task]? = some k → (s.chip.now % 64 ≠ 0 → exec (.cmpCircuitCarry task) s = .next s) ∧
    (s.chip.now % 64 = 0 → exec (.cmpCircuitCarry task) s = .next (
      let here := ((s.core :: s.others).filter fun c => c.task = some task ∧ c.fab.stopping = false).map (·.cid)
      (k.saved.map (·.lcid)).foldl (fun u i => u.atSaved task i (·.carryAll false))
        (here.foldl (fun u y => u.atCore y (·.carryAll true)) s)))) ∧
  ∀ (s : State) (c : Fin 16) (g : CircCfg),
    let x := s.core.loc.circ[c]
    let f := s.core.fab
    let now := s.chip.now
    x.cfg = some g → x.stopped = false →
    (g.pat = true → x.armed ≠ 0 → x.pass = none → (g.out = false ∨ f.stopping = false) →
      ∃ t p, exec (.circuitPassBegin c) s = .next t ∧ p.desc = s.core.loc.sd[g.sd] ∧ p.n = 0 ∧ p.rows = [] ∧ p.wait = [] ∧
        t = { s with core := { s.core with
          active := true
          loc := { s.core.loc with circ := s.core.loc.circ.set c { x with
            armed := x.armed - 1
            pass := some p } } } }) ∧
    (g.pat = false → g.out = false → f.ports[g.port].quiet = false → ∀ t0 k rest, x.rx = (t0, k) :: rest → t0 ≤ now →
      k.kind = .data → (f.fromPort g.port).Nodup → (∀ a ∈ f.fromPort g.port, f.room a now 1 = true) →
      ∃ t, exec (.circuitTransfer c) s = .next t ∧ t.core.loc.circ[c] = { x with rx := rest } ∧
        (∀ a ∈ f.fromPort g.port, t.core.fab.arcs[a].fifo = f.arcs[a].fifo ++
          [(now + f.transit a + f.delay a, enters (some g.type) (f.chanType a) k)]) ∧
        t.core.loc.mem = s.core.loc.mem ∧ t.core.sq = s.core.sq ∧ t.others = s.others ∧ t.chip = s.chip) ∧
    (g.pat = false → g.out = true → f.ports[g.port].quiet = false → ∀ e y k a, s.peerOf c = some e →
      s.farCirc e = some y → y.rx.length < 8 → s.wayOpen e = true → s.portHead g.port = some k → k.kind = .data →
      f.intoPort g.port = some a →
      ∃ t, exec (.circuitTransfer c) s = .next t ∧
        (t.farCirc e).map (·.rx) = some (y.rx ++ [(s.arrival e (s.farTransit e),
          enters (some g.type) (y.cfg.map (·.type)) (enters (f.chanType a) (some g.type) k))]) ∧
        t.core.fab.arcs[a].fifo = f.arcs[a].fifo.drop 1 ∧ t.core.loc.mem = s.core.loc.mem ∧ t.core.sq = s.core.sq) ∧
    (g.pat = true → g.out = false → f.ports[g.port].quiet = false → ∀ p t0 k rest A, x.pass = some p → p.wait = [] →
      x.rx = (t0, k) :: rest → t0 ≤ now → k.kind = .data → p.n < p.desc.count → p.row s.spadSize p.n = some A →
      ∃ t r, exec (.circuitTransfer c) s = .next t ∧ t.core.loc.reqs = s.core.loc.reqs ++ [r] ∧ r.who = .circuit c ∧
        r.acc = .write [(A, rowBytes k.data)] false ∧ t.core.loc.circ[c].rx = rest ∧
        t.core.loc.circ[c].pass = some { p with
          n := p.n + 1
          wait := [r.id] } ∧
        t.core.loc.mem = s.core.loc.mem ∧ t.core.sq = s.core.sq ∧ t.others = s.others ∧ t.chip = s.chip) ∧
    (g.pat = true → g.out = true → f.ports[g.port].quiet = false → f.stopping = false → ∀ e y p d t0 rest,
      s.peerOf c = some e → s.farCirc e = some y → y.rx.length < 8 → s.wayOpen e = true → x.pass = some p → p.wait = [] →
      p.rows = (d, t0) :: rest →
      ∃ t u, exec (.circuitTransfer c) s = .next t ∧ t.core.loc.circ[c].pass = some u ∧ u.n = p.n + 1 ∧ u.rows = rest ∧
        (t.farCirc e).map (·.rx) = some (y.rx ++ [(s.arrival e (s.farTransit e),
          enters (some g.type) (y.cfg.map (·.type)) ⟨d, 0, .data, false, 0, 0, f.ports[g.port].pts⟩)]) ∧
        t.core.loc.mem = s.core.loc.mem ∧ t.core.sq = s.core.sq) ∧
    (g.pat = false → g.out = true → ∀ e y k a, s.farOf c = some e → e.cid = none → s.farCirc e = some y →
      y.rx.length < 8 → s.portHead g.port = some k → k.kind = .data → f.intoPort g.port = some a →
      let t := s.carry true c
      (t.farCirc e).map (·.rx) = some (y.rx ++
        [(0, enters (some g.type) (y.cfg.map (·.type)) (enters (f.chanType a) (some g.type) k))]) ∧
        t.core.fab.arcs[a].fifo = f.arcs[a].fifo.drop 1)

/-- R207, R217–R222. -/
def Obligations.TranslationAndGlobalAccess : Prop :=
  (∀ (s : State) (w : Nat) (k : Walk), s.chip.walks[w]? = some k → k.ended = none → k.ready ≤ s.chip.clock k.die →
    s.chip.dies[k.die].skips = false → s.chip.walkRuns w k.die = true → (k.need = none ∨ k.need = some 0) →
    Unowned s k.part → Unbudgeted s k.part → s.chip.meas = [] →
    let q := s.chip.parts[k.part]
    let a1 := k.root + 8 * (k.va / 2 ^ 39 % 2 ^ 9)
    let e1 := entryAt s k.part a1
    let a2 := e1 / 2 ^ 12 % 2 ^ 36 * 2 ^ 12 + 8 * (k.va / 2 ^ 30 % 2 ^ 9)
    let e2 := entryAt s k.part a2
    let a3 := e2 / 2 ^ 12 % 2 ^ 36 * 2 ^ 12 + 8 * (k.va / 2 ^ 21 % 2 ^ 9)
    let e3 := entryAt s k.part a3
    let a4 := e3 / 2 ^ 12 % 2 ^ 36 * 2 ^ 12 + e3 / 2 ^ 8 % 2 ^ 4 * 2 ^ 8 + 8 * (k.va / 2 ^ 16 % 2 ^ 5)
    let e4 := entryAt s k.part a4
    let pa := e4 / 2 ^ 12 % 2 ^ 36 * 2 ^ 12
    (q.present a1 8 = true → q.present a2 8 = true → q.present a3 8 = true → q.present a4 8 = true →
      PointsOn e1 false → PointsOn e2 false → PointsOn e3 true → e4 % 4 = 1 → e4 / 2 ^ 48 % 2 ^ 16 = 0 →
      e4 / 2 ^ 5 % 4 = 0 → e4 / 2 ^ 8 % 2 ^ 4 = 0 → pa % 2 ^ 16 = 0 → q.present pa (2 ^ 16) = true →
      (k.store = true → e4 / 4 % 2 = 1) →
      ∃ t x, exec (.pageWalk w) s = .next t ∧ t.chip.walks = s.chip.walks.eraseIdx w ∧
        t.chip.dies[k.die].tlb.head? = some x ∧
        (∀ cpe, (s.core.cid, cpe) ∈ k.who → (t.core.tlbFor cpe).head? = some x) ∧
        x.asid = k.asid ∧ x.base = k.va / 2 ^ 16 * 2 ^ 16 ∧ x.size = 2 ^ 16 ∧ x.pa = pa ∧ x.cls = 0 ∧
        (x.w = true ↔ e4 / 4 % 2 = 1) ∧ (x.ver = true ↔ e4 / 2 ^ 7 % 2 = 1)) ∧
    (q.present a1 8 = true → e1 % 2 = 0 → ∃ t, exec (.pageWalk w) s = .next t ∧
      t.chip.walks = s.chip.walks.set w { k with ended := some (cXLT 0 .notPresent) } ∧ t.chip.dies = s.chip.dies)) ∧
  (∀ (s : State) (u : Nat) (a b : List Inval) (i : Inval), s.chip.invals = a ++ i :: b →
    (∀ j ∈ a, u ∉ j.units ∧ u ∉ j.owing) → u ∈ i.units → u ∉ i.owing → u < 516 →
    let goesOn := fun (j : Inval) => j.core.isSome ∨ j.units ≠ [] ∨ j.owing ≠ []
    let owes := ((s.dropUnit i u).markUnit i u).unitOwes i u
    let stays := fun (x : Tlb) => ¬ (x.asid = i.asid ∧ x.base < i.hi ∧ i.lo < x.base + x.size)
    ∃ t, exec (.invalidationAck u) s = .next t ∧
      t.chip.invals = (a ++ { i with
        units := i.units.filter fun v => v ≠ u
        owing := if owes = true then i.owing ++ [u] else i.owing } :: b).filter (fun j => goesOn j) ∧
      (u = s.core.cid.toNat → t.core.tlb = s.core.tlb.filter (fun x => stays x) ∧ t.core.cpeTlb = s.core.cpeTlb) ∧
      (u = 256 + s.core.cid.toNat → t.core.cpeTlb = s.core.cpeTlb.filter (fun x => stays x) ∧
        t.core.tlb = s.core.tlb) ∧
      (∀ d : Fin 4, u = 512 + d.val → t.chip.dies[d].tlb = s.chip.dies[d].tlb.filter (fun x => stays x) ∧
        t.core = s.core)) ∧
  (∀ (s : State) (r : GReq) (x : Tlb), s.core.loc.greqs = [r] → r.ready ≤ s.chip.now → r.sync = none → r.sent = none →
    r.src ≠ 0 → (r.src = 1 → s.core.sq.may = true ∧ s.grantOf r = none) → r.need = none → r.sys = false →
    (r.l1 = false ∨ s.core.l1Lines = 0) →
    let p := s.partOf s.core
    let pa := x.pa + (r.va - x.base)
    tlbHit (s.core.tlbFor r.cpe) (s.asidOf s.core) r.va r.what.writes = some x → x.cls = 0 → x.ver = false →
    s.chip.parts[p].place pa = .device → Unbudgeted s p → Unowned s p → s.chip.meas = [] →
    s.chip.parts[p].dctl.toNat % 2 = 0 →
    let pts := s.core.reqPts r
    (∀ n, r.what = .load n → ∃ t d, exec .globalAccessComplete s = .next t ∧ t.core.loc.greqs = [] ∧
      t.core.loc.served = s.core.loc.served ++ [d] ∧ d.id = r.id ∧ d.bad = none ∧ d.bytes = s.rdPhys p pa n ∧
      d.pts = laterOf pts (s.lineAt p pa).wts ∧ t.core.loc.mem = s.core.loc.mem) ∧
    (∀ bs, r.what = .store bs → x.w = true → Memory.wf s.chip.parts[p].mem = true →
      ∃ t d, exec .globalAccessComplete s = .next t ∧ t.core.loc.greqs = [] ∧
        t.core.loc.served = s.core.loc.served ++ [d] ∧ d.id = r.id ∧ d.bad = none ∧
        d.pts = laterOf pts ((s.lineAt p pa).rts + 1) ∧ t.rdPhys p pa bs.length = bs ∧
        t.core.loc.mem = s.core.loc.mem ∧
        (∀ y, (y < pa ∨ pa + bs.length ≤ y) → rdByte t.chip.parts[p].mem y = rdByte s.chip.parts[p].mem y)))

/-- R240, R241, R243, R244, R261, R164. That a marker at a command port has no effect is the model's choice (log entry 26); so is
that the channel whose row a bank refuses keeps the copy engine's turn (log entry 128). -/
def Obligations.CommandsRun : Prop :=
  (∀ (s : State) (k : Fin 22) (i : Instr) (cls : Fin 9), cls.val < 2 → classOfQueue k = cls.val → AtHead s k i →
    (∀ j : Fin 22, classOfQueue j = cls.val → j ≠ k → s.core.queues[j].ents = []) → s.core.headBad k i = none →
    s.core.slotsReady (declOf i) = true → s.core.portsFree i = true → queueOf i = some k → cls ∉ s.core.begun →
    (∀ e ∈ s.core.ended, ∀ p ∈ portsOf i, p ∉ e.ports) →
    ∃ t u, exec (.commandBegin cls) s = .next t ∧ t.core.queues[k].run = some u ∧ u.cmd = i ∧ u.begin_ = s.chip.now ∧
      (∀ node pts order via rest, s.core.queues[k].ents = .cmd i node pts order via :: rest →
        u.node = node ∧ u.order = order ∧ u.pts = laterOf (laterOf pts (s.core.declPts (declOf i))) s.core.floor) ∧
      t.core.queues[k].ents = s.core.queues[k].ents.drop 1 ∧ (∀ p ∈ portsOf i, t.core.fab.ports[p].bind = .held k) ∧
      t.core.loc = s.core.loc ∧ t.core.sq = s.core.sq ∧ t.others = s.others ∧ t.chip = s.chip) ∧
  (∀ (s : State) (q : Fin 4) (r : Run) (f : FeedForm) d t0 rest, s.runOf (Fin.ofNat 22 q.val) = some r →
    feedForm r.cmd = some f → queueOf r.cmd = some (Fin.ofNat 22 q.val) →
    s.core.fab.stopping = false → s.energyOk s.core = true → r.rows = (d, t0) :: rest →
    (s.core.fab.fromPort f.port).Nodup →
    (∀ a ∈ s.core.fab.fromPort f.port, s.core.fab.room a s.chip.now 1 = true) →
    ∃ t u, exec (.feedPush q) s = .next t ∧ t.runOf (Fin.ofNat 22 q.val) = some u ∧ u.rows = rest ∧ u.n = r.n + 1 ∧
      (∀ a ∈ s.core.fab.fromPort f.port, t.core.fab.arcs[a].fifo = s.core.fab.arcs[a].fifo ++
        [(s.chip.now + s.core.fab.transit a + s.core.fab.delay a, ⟨d, f.tag, .data, false, 0, 0, r.pts⟩)]) ∧
      t.core.loc.mem = s.core.loc.mem ∧ t.core.sq = s.core.sq ∧ t.others = s.others ∧ t.chip = s.chip) ∧
  (∀ (s : State) (q : Fin 4) (r : Run) (p : Fin 16) (a : Fin 256) (k : Token), s.runOf (Fin.ofNat 22 (4 + q.val)) = some r →
    s.core.fab.stopping = false → s.energyOk s.core = true → s.core.fab.intoPort p = some a → s.portHead p = some k →
    r.rows = [] → r.done = false →
    (∀ d, r.cmd = .drainx q p d → ∃ t u, exec (.drainTake q) s = .next t ∧ t.runOf (Fin.ofNat 22 (4 + q.val)) = some u ∧
      (u.done = true ↔ k.kind = .eoi) ∧ t.core.fab.arcs[a].fifo = s.core.fab.arcs[a].fifo.drop 1 ∧
      t.core.loc = s.core.loc) ∧
    (∀ glb fe eoi base sd d A, r.cmd = .draina q glb fe eoi p base sd d → k.kind = .data → r.n < r.src.count →
      s.drainRow r r.n = some A → ∃ t u, exec (.drainTake q) s = .next t ∧
      t.runOf (Fin.ofNat 22 (4 + q.val)) = some u ∧ u.rows = [(k.data, k.pts)] ∧ u.n = r.n + 1 ∧
      t.core.fab.arcs[a].fifo = s.core.fab.arcs[a].fifo.drop 1 ∧ t.core.loc = s.core.loc)) ∧
  (∀ (s : State) (ch : Fin 8) f r x, s.cpeReady ch = some (f, r, x) → f.ch = ch → (∀ j : Fin 8, j ≠ ch → s.cpeReady j = none) →
    (∀ q ∈ s.core.loc.reqs, ∀ j, q.who ≠ .cpe j) → s.energyOk s.core = true →
    s.chip.parts[s.partOf s.core].permits 5 s.core.cid.toNat = true → s.core.loc.cpeUsed = false →
    ∃ t, exec .cpeRowAccess s = .next t ∧ t.core.loc.mem = s.core.loc.mem ∧ t.core.sq = s.core.sq ∧
      let posts := fun (a : Access) => t.core.lastCh = s.core.lastCh ∧ t.core.loc.cpeUsed = false ∧
        (∃ q, t.core.loc.reqs = s.core.loc.reqs ++ [q] ∧ q.who = .cpe ch ∧ q.acc = a) ∧
        (s.core.loc.ready a = true → t.core.loc.cpeTurn = some ch)
      let reaches := fun (op : GlobOp) => t.core.lastCh = ch ∧ t.core.loc.cpeUsed = true ∧ t.core.loc.reqs = s.core.loc.reqs ∧
        ∃ q, t.core.loc.greqs = s.core.loc.greqs ++ [q] ∧ q.src = 3 ∧ q.what = op
      (∀ row ws b, x = .read false row ws b → posts (.read (64 * row) 64 ws)) ∧
      (∀ a bs fe, x = .record a bs fe → posts (.write [(a, bs)] fe)) ∧
      (x = .put → r.pend ≠ [] → r.dst.g = false → posts (.write r.pend f.fe)) ∧
      (∀ row ws b, x = .read true row ws b → reaches (.load 64)) ∧
      (∀ e rest, x = .put → r.pend = e :: rest → r.dst.g = true →
        reaches (.row (r.pend.map fun y => (y.1 - e.1 / 64 * 64, y.2))))) ∧
  (∀ s : State, (∀ j, s.cpeReady j = none) → s.energyOk s.core = true →
    s.chip.parts[s.partOf s.core].permits 5 s.core.cid.toNat = true → s.core.loc.cpeUsed = false →
    let waits := fun (j : Fin 8) => ∃ q ∈ s.core.loc.reqs, q.who = .cpe j ∧ s.core.loc.ready q.acc = true
    let after := fun (j : Fin 8) => (j.val + 7 - s.core.lastCh.val) % 8
    (∃ j, waits j) → ∃ t j, exec .cpeRowAccess s = .next t ∧ t.core.loc.cpeTurn = some j ∧ waits j ∧
      (∀ i, waits i → after j ≤ after i) ∧ t.core.loc = { s.core.loc with cpeTurn := some j } ∧ t.core.lastCh = s.core.lastCh) ∧
  (∀ (s : State) (k : Fin 22) (r : Run) q p d g, k ≠ 17 → s.runOf k = some r → r.done = true → r.cmd = .feedm q p d →
    d.a = some g → d.b = none → d.o = none →
    g.n.val + 1 ≤ s.core.loc.handles[g.h].filled → s.core.loc.handles[g.h].filled ≤ s.core.loc.handles[g.h].nslot.toNat →
    ∃ t, exec (.commandComplete k) s = .next t ∧ t.core.queues[k] = { s.core.queues[k] with run := none } ∧
      t.core.loc.handles[g.h] = { s.core.loc.handles[g.h] with
        ci := s.core.loc.handles[g.h].ci + BitVec.ofNat 16 (g.n.val + 1) } ∧
      (∀ h : Fin 32, h ≠ g.h → t.core.loc.handles[h] = s.core.loc.handles[h]) ∧
      (∀ p : Fin 16, s.core.fab.ports[p].bind = .held k → t.core.fab.ports[p].bind = .free) ∧
      (∀ p : Fin 16, s.core.fab.ports[p].bind ≠ .held k → t.core.fab.ports[p] = s.core.fab.ports[p]) ∧
      t.core.donePts = laterOf s.core.donePts r.pts ∧ t.core.loc.mem = s.core.loc.mem ∧ t.core.sq = s.core.sq) ∧
  (∀ (s : State) (p : Fin 16) (a : Fin 256) (x : Token), s.core.fab.ports[p].bind = .command → s.portHead p = some x →
    s.core.fab.intoPort p = some a →
    let w := fun (i : Nat) => x.data.toNat / 2 ^ (32 * i) % 2 ^ 32
    ((x.kind = .eoi ∨ (w 0 = 0 ∧ w 1 = 0 ∧ w 2 = 0 ∧ w 3 = 0)) → ∃ t, exec (.commandPortIssue p) s = .next t ∧
      t.core.fab.arcs[a].fifo = s.core.fab.arcs[a].fifo.drop 1 ∧ t.core.queues = s.core.queues ∧ t.core.sq = s.core.sq ∧
      t.core.loc = s.core.loc) ∧
    (∀ i k, x.kind = .data → decCommand (w 0) (w 1) (w 2) (w 3) = .ok i → i.wf = true → queueOf i = some k →
      w 0 ≠ 0 → s.cmdCheck i = none → roomIn s k →
      ∃ t node order, exec (.commandPortIssue p) s = .next t ∧
        t.core.queues[k] = { s.core.queues[k] with
          ents := s.core.queues[k].ents ++ [.cmd i node x.pts order (some p)] } ∧
        (∀ j : Fin 22, j ≠ k → t.core.queues[j] = s.core.queues[j]) ∧
        t.core.fab.arcs[a].fifo = s.core.fab.arcs[a].fifo.drop 1 ∧ t.core.sq = s.core.sq ∧ t.core.loc = s.core.loc))

/-- R267, R270, R275. -/
def Obligations.MatrixEngineActs : Prop :=
  (∀ (m : Mxe) (t : MxTy) (ba : Int) (first : Bool) (i : Nat) (bs : List Byte), i < 128 → bs.length = 128 →
    canon 0 m.acc = true → canon 0 (m.tile true) = true →
    let W := mxBits t
    let u := m.fireRow t ba first i bs
    let a := fun (k : Nat) => leNat ((bs.drop (W / 8 * k)).take (W / 8))
    let b := fun (k j : Nat) => elementIn W (m.tile true) (256 * k + j)
    let old := fun (j : Nat) => look 0 (256 * i + j) m.acc
    let F : Fmt := ⟨10, 0⟩
    let A : Fmt := ⟨mxCode t, ba⟩
    let B : Fmt := ⟨mxCode t, biasOf (m.bias true)⟩
    let sum := fun (j : Nat) => (if first = true then 0 else (old j).toInt) +
      ((List.range 128).map fun k => laneInt 8 false (a k) * laneInt 8 false (b k j)).sum
    (∀ x, (x < 256 * i ∨ 256 * i + 256 ≤ x) → look 0 x u.acc = look 0 x m.acc) ∧
    (t = .i8 → (∀ j < 256, look 0 (256 * i + j) u.acc = BitVec.ofInt 32 (sum j)) ∧
      (u.ov.getLsbD i = true ↔ (first = false ∧ m.ov.getLsbD i = true) ∨ ∃ j < 256, sum j < -2 ^ 31 ∨ 2 ^ 31 ≤ sum j)) ∧
    (t ≠ .i8 → u.ov = m.ov ∧ ∀ j < 256, (first = true ∨ LaneFinite F (old j).toNat) →
      (∀ k < mxK t, LaneFinite A (a k) ∧ LaneFinite B (b k j)) →
      RoundsTo F ((if first = true then 0 else laneNumber F (old j).toNat) +
        ((List.range (mxK t)).map fun k => laneNumber A (a k) * laneNumber B (b k j)).sum) (look 0 (256 * i + j) u.acc).toNat)) ∧
  (∀ (m : Mxe) (t : MxTy) (ob xb : Int) (h x : Row), t ≠ .i8 → canon 0 m.b0 = true → canon 0 m.b1 = true →
    (t = .dk8 → ob + biasOf (m.bias true) = xb + biasOf (m.bias false)) →
    let W := mxBits t
    let K := mxK t / 2
    let f := fun (b : Int) => (⟨mxCode t, b⟩ : Fmt)
    let P := fun (k j : Nat) => elementIn W (m.tile true) (256 * k + j)
    let U := fun (k j : Nat) => elementIn W (m.tile false) (256 * k + j)
    ∀ j < K, (∀ k < K, LaneFinite (f ob) (laneOf W h k) ∧ LaneFinite (f xb) (laneOf W x k) ∧
        LaneFinite (f (biasOf (m.bias true))) (P k j) ∧ LaneFinite (f (biasOf (m.bias false))) (U k j)) →
      RoundsTo (f ob)
        (((List.range K).map fun k => laneNumber (f ob) (laneOf W h k) * laneNumber (f (biasOf (m.bias true))) (P k j)).sum +
          ((List.range K).map fun k => laneNumber (f xb) (laneOf W x k) * laneNumber (f (biasOf (m.bias false))) (U k j)).sum)
        (laneOf W (m.recur t ob xb h x) j)) ∧
  ∀ (s : State) (r : Run), s.core.queues[(16 : Fin 22)].run = some r → s.energyOk s.core = true → s.core.fab.stopping = false →
    let f := s.core.fab
    let now := s.chip.now
    (∀ row0 n z sw ty port eoi pf d a x y rest, r.cmd = .mmul row0 n z sw ty port none eoi pf d → r.n ≤ n.toNat →
      f.intoPort port = some a → f.seen a now = x :: y :: rest → x.kind = .data → y.kind = .data →
      ∃ t u, exec .mxeRowFiring s = .next t ∧ t.core.queues[(16 : Fin 22)].run = some u ∧ u.n = r.n + 1 ∧
        u.until_ = now + 6 ∧ t.core.fab.arcs[a].fifo = f.arcs[a].fifo.drop 2 ∧
        t.core.mxe = s.core.mxe.fireRow ty (((f.portType port).map (·.bias)).getD 0) z (row0.toNat + r.n)
          (rowBytes x.data ++ rowBytes y.data) ∧
        t.core.loc = s.core.loc ∧ t.core.sq = s.core.sq ∧ t.others = s.others ∧ t.chip = s.chip) ∧
    (∀ port ty bias d a k, r.cmd = .ldb (.port port) ty bias none d → r.pre < 512 → r.idx ≤ r.pre →
      f.intoPort port = some a →
      s.portHead port = some k →
      (k.kind = .data → ∃ t u, exec .mxePortToken s = .next t ∧ t.core.queues[(16 : Fin 22)].run = some u ∧
        u.pre = r.pre + 1 ∧ t.core.fab.arcs[a].fifo = f.arcs[a].fifo.drop 1 ∧
        t.core.mxe.tile false = (s.core.mxe.fill (64 * r.pre) (rowBytes k.data)).tile false ∧
        t.core.mxe.tile true = s.core.mxe.tile true ∧ t.core.mxe.acc = s.core.mxe.acc ∧
        (r.pre + 1 = 512 → t.core.mxe.valid false = true ∧ t.core.mxe.ty false = ty ∧ t.core.mxe.bias false = bias) ∧
        (r.pre + 1 < 512 → t.core.mxe.valid false = s.core.mxe.valid false) ∧
        t.core.loc = s.core.loc ∧ t.core.sq = s.core.sq) ∧
      (k.kind = .eoi → ∃ t, exec .mxePortToken s = .next t ∧
        t.core.queues[(16 : Fin 22)].stop = some (cPORT port .eoi) ∧ t.core.queues[(16 : Fin 22)].run = none ∧
        t.core.sq = { s.core.sq with raised := s.core.sq.raised ++ [⟨cPORT port .eoi, 0, now⟩] })) ∧
    (∀ q ty bias port fwd eoi d a x h b c, r.cmd = .recur q ty bias port fwd eoi d → r.done = false →
      f.intoPort port = some a → s.portHead port = some x → x.kind = .data →
      let p := s.core.wheel % f.rots[q].depth
      f.rstart[q].slots[p]? = some b → f.rots[q].slots[p]? = some c → f.tapToken q now = some h → b.state = .active →
      b.pend = false → c.hold = false → c.pend = false → x.tag = h.tag → a ∉ f.tapInputs q →
      ∃ t u k, exec .recurCapture s = .next t ∧ t.core.queues[(16 : Fin 22)].run = some u ∧ u.n = r.n + 1 ∧
        t.core.fab.rots[q].inj = f.rots[q].inj ++ [⟨p, k, now + 8, true, fwd.isSome⟩] ∧
        k.data = s.core.mxe.recur ty (biasOf bias) (((f.portType port).map (·.bias)).getD 0) h.data x.data ∧
        k.tag = h.tag ∧ k.kind = .data ∧ k.gen = c.gen ∧
        OneSlot f.rots[q].slots t.core.fab.rots[q].slots p (fun z => { z with pend := true }) ∧
        t.core.fab.arcs[a].fifo = f.arcs[a].fifo.drop 1 ∧ t.core.mxe = s.core.mxe ∧ t.core.loc = s.core.loc) ∧
    (∀ q ty bias port eoi d a x b, r.cmd = .recur q ty bias port none eoi d → (f.tapInputs q).Nodup →
      let p := s.core.wheel % f.rots[q].depth
      let due := fun (y : Inject) => y.phase = p ∧ y.recur = true ∧ y.fwd = false ∧ y.from_ ≤ now
      f.rots[q].inj = a ++ x :: b → (∀ y ∈ a, ¬ due y) → due x →
      ∃ t, exec .recurInject s = .next t ∧
        (∀ e ∈ f.tapInputs q, t.core.fab.arcs[e].fifo = (now, x.tok) :: f.arcs[e].fifo) ∧
        OneSlot f.rots[q].slots t.core.fab.rots[q].slots p (fun z => { z with pend := false }) ∧
        t.core.fab.rots[q].inj = f.rots[q].inj.filter (fun y => y ≠ x) ∧ t.core.mxe = s.core.mxe)

/-- R50, R222, R280, R289, R292, R293, R346, R354. The model's choices in it: a SYE performs a blocking access of a sequencer in
the cycle in which the sequencer issues, at its turn (log entries 15, 62); the order of blocks and WENDs at a round's close (63);
one level of units below the root (64); the flits between peers (112), their requests to a SYE (134), and the devices of a peer
barrier group (129). -/
def Obligations.SynchronisationActs : Prop :=
  (∀ (s : State) (d : Fin 4) (r : SyeReq), s.chip.dies[d].skips = false → s.chip.dies[d].sye.used = false →
    s.chip.dies[d].sye.nextReq = some r → (∀ x ∈ s.chip.dies[d].sye.reqs, Unbudgeted s x.part) →
    let y := s.chip.dies[d].sye
    r ∈ y.reqs ∧ (y.last < r.rid → ∀ x ∈ y.reqs, y.last < x.rid → r.rid ≤ x.rid) ∧
    (r.rid ≤ y.last → ∀ x ∈ y.reqs, x.rid ≤ y.last ∧ r.rid ≤ x.rid) ∧
    ((∀ x ∈ y.reqs, x.src = 1 ∧ x.dev = 0 ∧ x.granted = false) → exec (.syeAccess d) s = .next { s with chip := { s.chip with
      dies := s.chip.dies.set d { s.chip.dies[d] with sye := { y with
        reqs := y.reqs.map fun z => if z = r then { z with granted := true } else z
        last := r.rid } } } }) ∧
    ((∀ x ∈ y.reqs, x.src ≠ 1) →
    (∀ a k b, y.kept = a ++ k :: b → (∀ z ∈ a, ¬ (z.rid = r.rid ∧ z.seq = r.seq)) → k.rid = r.rid → k.seq = r.seq →
      r.dev = 0 → r.core = s.core.cid → (∃ g ∈ s.core.loc.greqs, g.id = r.id) →
      ∃ t, exec (.syeAccess d) s = .next t ∧ t.chip.dies[d].sye.reqs = y.reqs.filter (fun x => x ≠ r) ∧
        t.chip.dies[d].sye.last = r.rid ∧ t.core.loc.served = s.core.loc.served ++ [k.rep] ∧ t.chip.parts = s.chip.parts) ∧
    (∀ op fm x cmp, r.what = .atom op fm x cmp → (∀ k ∈ y.kept, ¬ (k.rid = r.rid ∧ k.seq = r.seq)) →
      s.chip.parts[r.part].place r.pa = .device → Unowned s r.part →
      s.chip.parts[r.part].dctl.toNat % 2 = 0 → Memory.wf s.chip.parts[r.part].mem = true →
      ∃ t, exec (.syeAccess d) s = .next t ∧ t.chip.dies[d].sye.reqs = y.reqs.filter (fun x => x ≠ r) ∧
        t.chip.dies[d].sye.last = r.rid ∧ t.chip.dies[d].sye.used = true ∧
        t.rdPhys r.part r.pa fm.bytes =
          leBytes (atomNew op fm (leNat (s.rdPhys r.part r.pa fm.bytes)) x.toNat cmp.toNat) fm.bytes ∧
        (r.dev = 0 → r.core = s.core.cid → (∃ g ∈ s.core.loc.greqs, g.id = r.id) →
          ∃ a, t.core.loc.served = s.core.loc.served ++ [a] ∧ a.id = r.id ∧ a.bad = none ∧
            a.old = BitVec.ofNat 64 (leNat (s.rdPhys r.part r.pa fm.bytes))) ∧
        (r.dev ≠ 0 → t.core.loc = s.core.loc ∧ ∃ z,
          let port := Fin.ofNat 16 (look 0 r.dev.toNat s.chip.route)
          t.chip.links[port].replies = s.chip.links[port].replies ++ [z])))) ∧
  (∀ (s : State) (d : Fin 4) (r : GReq) (y : SyeReq) n, s.core.loc.greqs = [r] → r.src = 1 → s.core.sq.may = true →
    s.grantOf r = some (d, y) → s.chip.dies[d].skips = false → s.chip.dies[d].sye.used = false →
    (∀ k ∈ s.chip.dies[d].sye.kept, ¬ (k.rid = y.rid ∧ k.seq = y.seq)) → r.what = .load n →
    s.chip.parts[y.part].place y.pa = .device → Unowned s y.part →
    ∃ t a, exec .globalAccessComplete s = .next t ∧ t.core.loc.greqs = [] ∧ t.core.loc.served = s.core.loc.served ++ [a] ∧
      a.id = r.id ∧ a.bad = none ∧ a.bytes = s.rdPhys y.part y.pa n ∧ t.chip.dies[d].sye.used = true ∧
      t.chip.dies[d].sye.reqs = s.chip.dies[d].sye.reqs.filter (fun x => x ≠ y)) ∧
  (∀ (s : State) (t : Nat) (w : Fin 64) (k : Task) (r : Round) (rest : List Round), s.chip.tasks[t]? = some k →
    (k.window w).open_ = r :: rest →
    ((∀ n, r.nc = some n → r.ends.length < n) → exec (.windowRoundClose t w) s = .next s) ∧
    (∀ n, r.nc = some n → n ≤ r.ends.length → (∀ q ∈ r.reqs, q.out ≠ none) → r.told = true → s.blocksOver t = true →
      Unbudgeted s k.part → ∃ u k', exec (.windowRoundClose t w) s = .next u ∧ u.chip.tasks[t]? = some k' ∧
        k'.window w = { k.window w with
          round := (k.window w).round + 1
          open_ := rest } ∧
        (s.core.task = some t → ∀ e ∈ r.ends, e.lcid = s.core.sq.lcid.toNat → ∃ b ∈ u.core.blocks, b.opr = e.opr ∧
          b.old = none ∧ b.stat = BitVec.ofNat 32 (1 + 4 + (k.window w).round % 2 ^ 16 * 2 ^ 16)))) ∧
  (∀ (s : State) (t : Nat) (b : Fin 64) (k : Task), s.chip.tasks[t]? = some k →
    let x := look .start b.val k.barriers
    (∀ d : Fin 4, k.coresOn d ≠ 0 → d ≠ k.rootDie → d ∉ x.up →
      (x.arr.filter fun a => a.die = d).length = k.coresOn d →
      Unbudgeted s k.part → ∃ u k', exec (.barrierArrival t b d) s = .next u ∧ u.chip.tasks[t]? = some k' ∧
        look .start b.val k'.barriers = { x with up := x.up ++ [d] } ∧ OnlyCharged s.core u.core ∧
        u.others.length = s.others.length) ∧
    (x.arr ≠ [] → (x.arr.filter fun a => a.die = k.rootDie).length = k.coresOn k.rootDie →
      (∀ d : Fin 4, k.coresOn d ≠ 0 → d ≠ k.rootDie → d ∈ x.up) → Unbudgeted s k.part →
      let g := look .none b.val s.chip.parts[k.part].groups
      let released := fun (u : State) => ∃ k', u.chip.tasks[t]? = some k' ∧
        look .start b.val k'.barriers = ⟨x.gen + 1, [], [], false⟩
      let told := fun (u : State) => ∃ k', u.chip.tasks[t]? = some k' ∧ look .start b.val k'.barriers = { x with told := true }
      ((g.gangs = 0 ∨ ∀ a ∈ x.arr, a.sys = false) →
        ((∀ a ∈ x.arr, a.sys = false) → ∃ u, exec (.barrierRelease t b) s = .next u ∧ released u ∧
          (s.core.task = some t → ∀ a ∈ x.arr, a.lcid = s.core.sq.lcid.toNat → ∃ z ∈ u.core.blocks, z.opr = a.opr ∧
            z.fin = true ∧ z.stat = BitVec.ofNat 32 (1 + x.gen % 2 ^ 16 * 2 ^ 16) ∧
            (∀ y ∈ x.arr, y.pts.toNat ≤ z.pts.toNat) ∧ (z.pts = 0 ∨ ∃ y ∈ x.arr, z.pts = y.pts))) ∧
        (∀ a, x.arr = [a] → a.sys = true → s.core.task = some t → a.lcid = s.core.sq.lcid.toNat →
          ∃ u, exec (.barrierRelease t b) s = .next u ∧ released u ∧ u.core.l1 = [] ∧ ∃ z ∈ u.core.blocks, z.opr = a.opr ∧
            z.fin = true ∧ z.pts = a.pts)) ∧
      (g.gangs ≠ 0 → (∃ a ∈ x.arr, a.sys = true) →
        (x.told = false → g.up = none → ∃ u, exec (.barrierRelease t b) s = .next u ∧ told u ∧ OnlyCharged s.core u.core) ∧
        (∀ port, x.told = false → g.up = some port → s.chip.links[port].canSend 3 = true → ∃ u f,
          exec (.barrierRelease t b) s = .next u ∧ told u ∧ OnlyCharged s.core u.core ∧
          u.chip.links[port].sent = s.chip.links[port].sent ++ [f] ∧ f.vc = 3) ∧
        (x.told = true → (g.send ≠ 0 ∨ (g.up = none ∧ (s.toldGangs k.part b).length + g.came < g.gangs) ∨
          (g.up ≠ none ∧ g.free = 0)) → exec (.barrierRelease t b) s = .next s) ∧
        (x.told = true → g.send = 0 → (g.up = none → g.gangs ≤ (s.toldGangs k.part b).length + g.came) →
          (g.up ≠ none → g.free ≠ 0) → ∃ u, exec (.barrierRelease t b) s = .next u ∧ released u ∧
          (canon .none s.chip.parts[k.part].groups = true → (look .none b.val u.chip.parts[k.part].groups).send = g.down) ∧
          (s.core.task = some t → ∀ a ∈ x.arr, a.lcid = s.core.sq.lcid.toNat → ∃ z ∈ u.core.blocks, z.opr = a.opr ∧
            z.fin = true ∧ ∀ e ∈ s.toldGangs k.part b, ∀ y ∈ (look .start b.val e.2.barriers).arr,
              y.pts.toNat ≤ z.pts.toNat))))) ∧
  (∀ (s : State) (r : Run) (i : Inval), s.core.queues[(21 : Fin 22)].run = some r → r.stage = 0 →
    s.chip.invals.find? (fun x => x.core = some s.core.cid) = some i → i.units = [] →
    i.owing = [] → s.energyOk s.core = true →
    (∀ sel done, r.cmd = .inva sel done → ∃ u q, exec .xltComplete s = .next u ∧ u.core.loc.reqs = s.core.loc.reqs ++ [q] ∧
      q.who = .command 21 ∧ q.acc = .write [(done.toNat, [1, 0, 0, 0])] true ∧
      u.chip.invals = s.chip.invals.filter (fun x => x ≠ i)) ∧
    (∀ page n sel done, r.cmd = .invr page n sel done → ∃ u q, exec .xltComplete s = .next u ∧
      u.core.loc.reqs = s.core.loc.reqs ++ [q] ∧ q.who = .command 21 ∧
      q.acc = .write [(done.toNat, [1, 0, 0, 0])] true ∧ u.chip.invals = s.chip.invals.filter (fun x => x ≠ i))) ∧
  (∀ (s : State) (j : Fin 256) (r : Replay) (bs : List Byte), s.replayOn j = some r → r.from_ = none →
    s.chip.parts[r.part].hubMay = true →
    (s.chip.queues[j].tail - s.chip.queues[j].head).toNat < 64 → (s.nodeBytes r).1 = .ok bs →
    s.chip.parts[r.part].isDying (descOf bs).asid = false →
    ∃ u, exec (.replayNodeAppend j) s = .next u ∧ u.chip.queues[j].tail = s.chip.queues[j].tail + 1 ∧
      u.chip.queues[j].head = s.chip.queues[j].head ∧
      (r.next + 1 < r.nodes → u.replayOn j = some { r with next := r.next + 1 }) ∧
      (r.nodes ≤ r.next + 1 → u.replayOn j = none))

/-- R93, R94, R308–R319, R336, R337, R341. The model's choices in it: how cores leave a task, and when a torn gang is gone (log
entry 84); the fault record of a fault tied to no core (85); that a KILL ends a pre-empted task with CONTEXT_DYING (86); which
checks of a restore can fail (29); that EXIT retires with a cause that a handler holds (124); idle cycles of rounds (97); the
task a PREEMPT asks (110); where the engines and ports stop (116); what a record holds where R315 gives no format (115); what a
budget holds back of the hub's own work (66). -/
def Obligations.TasksEndAndMove : Prop :=
  ∀ (s : State) (t : Nat) (k : Task), s.chip.tasks[t]? = some k →
    let c := s.core
    let now := s.chip.now
    let running := k.state = .running ∨ k.state = .stopping
    (c.task = some t → c.retired = none → c.fault = none → c.sq.raised = [] → c.settled = true → c.queuesEmpty = true →
      ((c.sq.ending = some .exit → c.stoppedQueue = none → c.fabricEnded now = true → ∃ u r, exec .coreRetire s = .next u ∧
        u.core = { c with
          retired := some .exit
          active := true } ∧
        (u.chip.tasks[t]?).map (·.retired) = some (k.retired ++ [r]) ∧ r.lcid = c.sq.lcid.toNat ∧ r.how = some .exit ∧
        r.cycle = c.sq.ctr.cycle) ∧
      (c.sq.ending = some .abort → ∃ u r, exec .coreRetire s = .next u ∧ u.core = { c with
          retired := some .abort
          active := true } ∧
        (u.chip.tasks[t]?).map (·.retired) = some (k.retired ++ [r]) ∧ r.how = some .abort))) ∧
    (running → k.retired.length = k.nlc → s.faultOf t k = none → s.chip.parts[k.part].hubMay = true → Unbudgeted s k.part →
      ∃ u k', exec (.taskComplete t) s = .next u ∧
      u.chip.tasks[t]? = some k' ∧ k'.state = .done ∧ k'.version = [] ∧
      ((∃ r ∈ k.retired, r.how = some .abort) → k'.status = 2) ∧
      ((∀ r ∈ k.retired, r.how ≠ some .abort) → k'.status = 1)) ∧
    (∀ f, running ∨ k.state = .preempted → s.faultOf t k = some f → ∃ u k', exec (.teardown t) s = .next u ∧
      u.chip.tasks[t]? = some k' ∧ k'.state = .torn ∧ k'.fault = some f ∧ k'.faultTime = BitVec.ofNat 64 s.chip.time ∧ k'.version = [] ∧
      k'.windows = [] ∧ k'.barriers = [] ∧
      (c.task = some t → u.core.occ now = 0 ∧ (k.packOwed = false → u.core.loc.reqs = []) ∧ u.core.loc.greqs = [] ∧
        ∀ q : Fin 22, u.core.queues[q] = ⟨[], none, none⟩)) ∧
    (k.state = .torn → k.packOwed = false → Unbudgeted s k.part →
      (∀ x ∈ s.core :: s.others, x.task = some t → x.occ (s.clockOf x.cid) = 0 ∧ x.circuitTokens = false) →
      ∃ u k', exec (.regionRelease t) s = .next u ∧ u.chip.tasks[t]? = some k' ∧ k'.state = .completing ∧ k'.status = 3 ∧
        (c.task = some t → (∀ x ∈ s.others, x.task ≠ some t) → u.core.task = none ∧ u.core.cid = c.cid)) ∧
    (running → ∃ u k', exec (.watchdog t) s = .next u ∧ u.chip.tasks[t]? = some k' ∧
      ((∃ x ∈ s.core :: s.others, x.task = some t ∧ x.active = true) → k'.idle = 0) ∧
      ((∀ x ∈ s.core :: s.others, x.task = some t → x.active = false) → s.allBeen t k = true →
        (s.taskOutstanding t k = false → k'.idle = k.idle) ∧
        (s.taskOutstanding t k = true → (∀ x ∈ s.core :: s.others, x.task = some t → x.refused = false ∧ x.sq.debug ≠ .halted) →
          (2 ^ (13 + k.desc.wdlog) ≤ k.idle + 1 → s.chip.parts[k.part].hubMay = true) → k'.idle = k.idle + 1)) ∧
      (k'.idle < 2 ^ (13 + k.desc.wdlog) → k'.fault = k.fault) ∧
      (2 ^ (13 + k.desc.wdlog) ≤ k'.idle → k.fault = none →
        k'.fault = some (⟨cWATCHDOG, 0, 0, 0, 0⟩, 0xFFFFFFFF, 0))) ∧
    (∀ j, s.chip.boot = .up → s.runningOf j = some t → ∃ u, exec (.preempt j 1) s = .next u ∧
      u.chip.tasks[t]? = some { k with
        state := .stopping
        packOwed := true } ∧
      (c.task = some t → u.core = { c with preempting := true }) ∧ (c.task ≠ some t → u.core = c)) ∧
    (k.state = .stopping → s.faultOf t k = none → k.retired.length ≠ k.nlc →
      (∀ x ∈ s.core :: s.others, x.task = some t → x.captured = true ∨ x.retired ≠ none) →
      s.chip.parts[k.part].hubMay = true → Unbudgeted s k.part → ∃ u k', exec (.preemptAck t) s = .next u ∧ u.chip.tasks[t]? = some k' ∧ k'.state = .preempted ∧
        k'.packOwed = false ∧
        (∀ j, k.queue = some j → u.chip.queues[j].returned = t :: s.chip.queues[j].returned) ∧
        (c.task = some t → c.retired = none → ∃ v ∈ k'.saved, v.lcid = c.sq.lcid.toNat ∧ v.core.sq.g = c.sq.g ∧
          v.core.sq.pc = c.sq.pc ∧ v.pts = c.finalPts ∧ v.core.loc.mem = c.loc.mem ∧ v.core.loc.fe = c.loc.fe ∧
          v.core.loc.handles = c.loc.handles ∧ v.core.loc.regions = c.loc.regions)) ∧
    (∀ j p v, s.chip.queues[j].part = some p → s.chip.boot = .up → s.chip.parts[p].ownsAsid v = true →
      (s.chip.parts[p].hubMay = false → exec (.kill j (v.setWidth 32)) s = .next { s with chip := { s.chip with
        waiting := s.chip.waiting ++ [.kill j (v.setWidth 32)] } }) ∧
      (s.chip.parts[p].hubMay = true →
        ∃ u, exec (.kill j (v.setWidth 32)) s = .next u ∧ v.toNat ∈ u.chip.parts[p].dying ∧
        (k.part = p → k.asid = v → TaskFaults s u t cTEARDOWN_REQUEST ∧
          (k.state = .preempted → ∃ x, u.chip.tasks[t]? = some x ∧ x.state = .completing ∧ x.status = 6)))) ∧
    (c.fab.stopping = true → ∀ n : Fin 32, c.fab.cells[n].conf ≠ none → c.fab.cells[n].quiet = false →
      c.cellQuiet n now = true → ∃ u, exec (.nodeQuiesce ⟨n.val, by omega⟩) s = .next u ∧
        u.core.fab.cells[n].quiet = true ∧
        (∀ a ∈ c.fab.targets n 0 ++ c.fab.targets n 1, c.fab.loopOf a = none → u.core.fab.arcs[a].flag = true) ∧
        u.core.loc = c.loc ∧ u.core.sq = c.sq) ∧
    (c.fab.stopping = true → c.captured = false → c.fault = none → c.allQuiet = true →
      c.enginesStopped now = true → (∀ r ∈ c.sq.raised, r.at_ < now) → Unbudgeted s (s.partOf c) → ∃ u, exec .coreCapture s = .next u ∧
        u.core.captured = true ∧ u.core.l1 = [] ∧ u.core.wb = [] ∧ u.core.sq = c.sq ∧
        u.core.loc.mem = c.loc.mem ∧ u.core.loc.handles = c.loc.handles ∧ u.core.fab = c.fab) ∧
    (c.task = some t → k.state = .running → c.fault = none → k.cores.length < k.nlc → ∀ v, k.nextRound c.sq.lcid.toNat = some v →
      (c.retired ≠ none ∨ c.captured = true) → Unbudgeted s k.part →
      (v.ok = true → ∃ u k', exec .roundYield s = .next u ∧ u.core.sq.lcid = v.core.sq.lcid ∧
        u.core.sq.g = v.core.sq.g ∧ u.core.sq.ctr.pts = v.pts ∧ u.core.task = some t ∧ u.core.cid = c.cid ∧
        u.chip.tasks[t]? = some k' ∧ ∀ w ∈ k'.saved, w.lcid ≠ v.lcid) ∧
      (v.ok = false → ∃ u f, exec .roundYield s = .next u ∧ u.core.fault = some f ∧ f.cause = cRESTORE_BAD ∧
        u.core.task = some t ∧ u.core.cid = c.cid))

/-- R332–R335, R345, R349–R353, R358, R361, R366, R367, R373. The model's choices in it: a rejected flit and the third retrain
(log entry 73); credits and the flits that answer (112); a doorbell of a queue with EN = 0 (76); a malformed record of a GRAPH
doorbell or a MEAS (78, 81); a change that R358 forbids (88); the picks of a dispatch step (98, 110); a host's read of a
doubleword (117); the width of a host's write (130); the hub's clock and the start of its Quartz period (7, 89); what a budget
holds back of the hub's accesses, and that an access held back is presented again (66). -/
def Obligations.HubServesItsHosts : Prop :=
  ∀ (s : State), s.chip.boot = .up →
    (s.chip.time < s.chip.dispatchAt → exec .dispatchStep s = .next s) ∧
    (s.chip.dispatchAt ≤ s.chip.time → ∃ u, exec .dispatchStep s = .next u ∧ u.chip.dispatchAt = s.chip.dispatchAt + 4) ∧
    (∀ p T x r m v, s.topOf p T = (some x, r) → r.needOf p x.head = (some m, v) →
      ((v.freeCores p).length < m → s.dispatchPart p T = v) ∧
      (m ≤ (v.freeCores p).length → x.head.task = none → ∃ k, (s.dispatchPart p T).chip.tasks[r.chip.tasks.length]? = some k ∧
        k.desc = x.head.desc ∧ k.part = p ∧ k.queue = some x.j)) ∧
    (∀ j v, s.chip.queues[j].dev = false → s.chip.queues[j].en = true → ∀ p, s.chip.queues[j].part = some p →
      s.chip.parts[p].dying = [] → s.chip.parts[p].hubMay = true → exec (.tailDoorbell j v) s = .next { s with chip := { s.chip with
        queues := s.chip.queues.set j (if 64 < (v - s.chip.queues[j].head).toNat then { s.chip.queues[j] with
          ovr := true
          en := false } else { s.chip.queues[j] with tail := v }) } }) ∧
    (∀ j p pa n, s.chip.queues[j].dev = true → s.chip.queues[j].part = some p → pa.toNat % 64 = 0 →
      pa.toNat + 0x240 ≤ s.chip.parts[p].devBytes → s.chip.parts[p].hubMay = true → Unowned s p → leNat (s.rdPhys p pa.toNat 4) = n →
      let clear := ∀ b ∈ (s.rdPhys p pa.toNat 64).drop 4, b = 0
      (1 ≤ n → n ≤ 256 → clear → ∃ u r, exec (.graphDoorbell j pa) s = .next u ∧
        u.chip.replays = s.chip.replays ++ [(j, r)] ∧ r.gva = pa.toNat ∧
        r.part = p ∧ r.from_ = none ∧ r.nodes = n ∧ r.next = 0 ∧ r.on = false) ∧
      ((n = 0 ∨ 256 < n ∨ ¬ clear) → ∃ u, exec (.graphDoorbell j pa) s = .next u ∧ u.chip.replays = s.chip.replays)) ∧
    (∀ (j : Fin 256) (v : Word),
      exec (.hostRegisterWrite (BitVec.ofNat 21 (0x1000 * j.val + 0x008)) v) s = .next { s with chip := { s.chip with
        queues := s.chip.queues.set j { s.chip.queues[j] with qbase := v &&& ~~~0xFFF#64 } } } ∧
      exec (.hostRegisterWrite (BitVec.ofNat 21 (0x1000 * j.val + 0x028)) v) s = .next { s with chip := { s.chip with
        queues := s.chip.queues.set j { s.chip.queues[j] with pack := v &&& ~~~0xF#64 } } } ∧
      exec (.hostRegisterWrite (BitVec.ofNat 21 (0x1000 * j.val + 0x014)) v) s =
        exec (.tailDoorbell j (v.setWidth 32)) s) ∧
    (∀ (p : Fin 64) (v : Word),
      exec (.hostRegisterWrite (BitVec.ofNat 21 (0x100000 + 0x4000 * p.val + 0x040)) v) s = .next { s with chip := { s.chip with
        parts := s.chip.parts.set p { s.chip.parts[p] with uesta := s.chip.parts[p].uesta &&& ~~~(v.setWidth 32) } } }) ∧
    (let reads := fun (o : Nat) (v : Nat) =>
        exec (.hostRegisterRead (BitVec.ofNat 21 o)) s = .next { s with chip := { s.chip with hostData := leBytes v 8 } }
     (∀ j : Fin 256,
        let q := s.chip.queues[j]
        let at_ := 0x1000 * j.val
        reads (at_ + 0x008) q.qbase.toNat ∧ reads (at_ + 0x010) (q.head.toNat + 2 ^ 32 * q.tail.toNat) ∧
        reads (at_ + 0x028) q.pack.toNat ∧ reads (at_ + 0x018) 0 ∧ reads (at_ + 0x020) 0 ∧ reads (at_ + 0x030) 0) ∧
     ∀ p : Fin 64,
        let q := s.chip.parts[p]
        let at_ := 0x100000 + 0x4000 * p.val
        reads at_ q.pclu.toNat ∧ reads (at_ + 0x018) q.pchn.toNat ∧ reads (at_ + 0x030) q.epre.toNat ∧
        reads (at_ + 0x040) (q.uesta.toNat + 2 ^ 32 * q.uemsk.toNat) ∧ reads (at_ + 0x080) (q.rhead.toNat + 2 ^ 32 * q.rtail.toNat) ∧
        reads (at_ + 0x180) 0) ∧
    (∀ p, s.chip.parts[p].hubMay = true → ∃ u, exec (.dbmvRead p) s = .next u ∧
      u.chip.hostData = leBytes (look 0 s.chip.parts[p].dbmx.toNat s.chip.parts[p].dirty).toNat 8 ∧
      (canon 0 s.chip.parts[p].dirty = true → look 0 s.chip.parts[p].dbmx.toNat u.chip.parts[p].dirty = 0) ∧
      u.core = s.core ∧ u.others = s.others) ∧
    (∀ p pa, s.chip.parts[p].phub.getLsbD 0 = true → s.chip.parts[p].hubMay = true → pa.toNat % 64 = 0 →
      pa.toNat + 0x140 ≤ s.chip.parts[p].devBytes → Unowned s p →
      let m := measOf p (s.rdPhys p pa.toNat 0x140)
      1 ≤ m.passes → m.passes ≤ 16 → m.result % 64 = 0 → m.saveSize % 65536 = 0 →
      ∃ u, exec (.meas p pa) s = .next u ∧ u.chip.meas = s.chip.meas ++ [m] ∧ u.core = s.core) ∧
    (∀ p, s.chip.parts[p].hubMay = false →
      let held := fun (i : Instr) => exec i s = .next { s with chip := { s.chip with waiting := s.chip.waiting ++ [i] } }
      (∀ off bs, s.chip.parts[p].inAperture off.toNat bs.length = true → held (.hostWrite p off bs)) ∧
      (∀ off n, s.chip.parts[p].inAperture off.toNat n = true → held (.hostRead p off n)) ∧
      (∀ port pa bs, s.chip.links[port].up = true → pa.toNat + bs.length ≤ s.chip.parts[p].devBytes →
        held (.peerWrite port p pa bs)) ∧
      (∀ port pa n, s.chip.links[port].up = true → pa.toNat + n ≤ s.chip.parts[p].devBytes → held (.peerRead port p pa n)) ∧
      held (.dbmvRead p)) ∧
    (∀ p, s.chip.parts[p].hubMay = true → Unowned s p → s.chip.parts[p].dctl.toNat % 2 = 0 → Memory.wf s.chip.parts[p].mem = true →
      canon .zero s.chip.parts[p].lines = true →
      let onlySpent := fun (u : State) => ∀ i : Fin 64, u.chip.parts[i] = { s.chip.parts[i] with spent := u.chip.parts[i].spent }
      (∀ off bs, s.chip.parts[p].inAperture off.toNat bs.length = true →
        let pa := off.toNat - s.chip.parts[p].aperBase.toNat
        pa + bs.length ≤ s.chip.parts[p].devBytes → ∃ u, exec (.hostWrite p off bs) s = .next u ∧ StoredAt s u p pa bs ∧
          u.core = s.core ∧ u.others = s.others) ∧
      (∀ off n, s.chip.parts[p].inAperture off.toNat n = true →
        let pa := off.toNat - s.chip.parts[p].aperBase.toNat
        pa + n ≤ s.chip.parts[p].devBytes → ∃ u, exec (.hostRead p off n) s = .next u ∧
          ReadsAt s p pa n u.chip.hostData ∧ onlySpent u ∧ u.core = s.core) ∧
      (∀ port pa bs, s.chip.links[port].up = true → pa.toNat + bs.length ≤ s.chip.parts[p].devBytes →
        ∃ u, exec (.peerWrite port p pa bs) s = .next u ∧ StoredAt s u p pa.toNat bs ∧ u.core = s.core) ∧
      (∀ port pa n, s.chip.links[port].up = true → pa.toNat + n ≤ s.chip.parts[p].devBytes →
        ∃ u, exec (.peerRead port p pa n) s = .next u ∧ ReadsAt s p pa.toNat n u.chip.peerData ∧
          onlySpent u ∧ u.core = s.core ∧ ∃ z, u.chip.links[port].replies = s.chip.links[port].replies ++ [z])) ∧
    (∀ (port : Fin 16) (f : Flit), s.chip.links[port].up = true →
      let l := s.chip.links[port]
      let open_ := l.training = false ∧ l.resent < 7 ∧ l.replays < 7
      let leads := fun (u : State) (x : Link) => u.chip.links = s.chip.links.set port x ∧ x.up = true ∧ u.core = s.core
      (open_ → flitGood f = true → f.seq = l.expect → f.nk = false → ∃ u x, exec (.flitReceive port f) s = .next u ∧ leads u x ∧
        x.expect = l.expect + 1 ∧ x.accepted = l.accepted ++ [f] ∧ x.replays = 0 ∧ x.retrains = 0 ∧
        (∀ i : Fin 4, i ≠ 3 → (i ≠ 1 ∨ l.replies = []) → x.credits[i] = l.credits[i] + f.cred.toNat / 2 ^ (4 * i.val) % 16) ∧
        (∀ a g b, f.ak = true → l.buffer = a ++ g :: b → (∀ y ∈ a, y.seq ≠ f.aseq) → g.seq = f.aseq →
          ∃ more, x.buffer = b ++ more) ∧
        (s.portMay port = false → x.sent = l.sent) ∧
        (f.ak = false → f.payload ≠ 0 → l.nakDue = false → l.replies = [] → s.portMay port = true → l.canSend 3 = true → ∃ r, x.sent = l.sent ++ [r] ∧
          x.buffer = l.buffer ++ [r] ∧ r.seq = l.next ∧ r.ak = true ∧ r.aseq = f.seq ∧ r.nk = false ∧ flitGood r = true)) ∧
      (open_ → (flitGood f = false ∨ f.seq ≠ l.expect) → ∃ u x, exec (.flitReceive port f) s = .next u ∧ leads u x ∧
        x.expect = l.expect ∧ x.accepted = l.accepted ∧ x.replays = l.replays + 1 ∧
        (s.portMay port = false ∨ (l.replies = [] ∧ l.canSend 3 = false) → x.nakDue = true ∧ x.sent = l.sent) ∧
        (s.portMay port = true → l.replies = [] → l.canSend 3 = true → ∃ r, x.sent = l.sent ++ [r] ∧ r.nk = true ∧ r.aseq = l.expect)) ∧
      (open_ → flitGood f = true → f.seq = l.expect → f.ak = false → f.nk = true → f.aseq ≠ l.next →
        (∀ a g b, l.buffer = a ++ g :: b → (∀ y ∈ a, y.seq ≠ f.aseq) → g.seq = f.aseq →
          ∃ u x more, exec (.flitReceive port f) s = .next u ∧ leads u x ∧ x.sent = l.sent ++ g :: b ++ more ∧
            x.naked = f.aseq ∧ x.resent = if l.naked = f.aseq then l.resent + 1 else 1) ∧
        ((∀ y ∈ l.buffer, y.seq ≠ f.aseq) → ∃ u, exec (.flitReceive port f) s = .next u ∧ u.chip.links[port].up = false)) ∧
      (l.training = false → l.resent = 7 → l.naked = f.aseq → flitGood f = true → f.seq = l.expect → f.ak = false → f.nk = true →
        f.aseq ≠ l.next → (∃ y ∈ l.buffer, y.seq = f.aseq) →
        (l.retrainsOut < 3 → ∃ u x, exec (.flitReceive port f) s = .next u ∧ leads u x ∧ x.training = true) ∧
        (3 ≤ l.retrainsOut → ∃ u, exec (.flitReceive port f) s = .next u ∧ u.chip.links[port].up = false)) ∧
      (l.training = false → l.replays = 7 → (flitGood f = false ∨ f.seq ≠ l.expect) →
        (l.retrains < 3 → l.resent < 8 → ∃ u x, exec (.flitReceive port f) s = .next u ∧ leads u x ∧ x.training = true) ∧
        (3 ≤ l.retrains → ∃ u, exec (.flitReceive port f) s = .next u ∧ u.chip.links[port].up = false)) ∧
      (l.training = true → exec (.flitReceive port f) s = .next s) ∧
      (∃ u x more, exec (.linkRetrain port (.ends true false)) s = .next u ∧ leads u x ∧ x.training = false ∧
        x.retrains = l.retrains + bit (l.training && decide (8 ≤ l.replays)) ∧
        x.retrainsOut = l.retrainsOut + bit (l.training && decide (8 ≤ l.resent)) ∧ x.replays = 0 ∧ x.resent = 0 ∧ x.sent = l.sent ++ l.buffer ++ more ∧
        x.buffer = l.buffer ++ more) ∧
      (∃ u, exec (.linkRetrain port (.ends true true)) s = .next u ∧ u.chip.links[port].up = true ∧
        u.chip.links[port].expect = 0 ∧ u.chip.links[port].next = 0 ∧ u.chip.links[port].buffer = [] ∧
        (∀ g ∈ u.core.loc.greqs, ∀ x, g.sent = some x → x.port = port → x.lost = true) ∧
        (∀ i, s.core.task = some i →
          (∃ g ∈ s.core.loc.greqs, g.sync = none ∧ ∃ x, g.sent = some x ∧ x.port = port ∧ x.lost = false) →
          AdmittedFaults s u i (cLINK port.val 0))) ∧
      (∀ r ∈ [Retrain.fails, .bufferEcc, .ends false false], ∃ u, exec (.linkRetrain port r) s = .next u ∧
        u.chip.links[port].up = false)) ∧
    (∀ p k v, exec (.partitionConfigure p (.budget k v)) s = .next { s with chip := { s.chip with
      parts := s.chip.parts.set p { s.chip.parts[p] with qb := s.chip.parts[p].qb.set k v } } }) ∧
    (∀ p b, (∃ x ∈ s.chip.tasks, x.part = p ∧ x.state ≠ .done) → exec (.partitionConfigure p (.clusters b)) s = .next s) ∧
    (∃ u, exec .quartzPeriod s = .next u ∧ u.core = s.core ∧ u.others = s.others ∧ ∀ p : Fin 64,
      (∀ d : Fin 4, s.chip.dies[d].skips = false → s.chip.clock d % 8192 = 0 → ∀ e ∈ u.chip.parts[p].used, budgetDie e.1 ≠ d.val) ∧
      (s.chip.base % 8192 = 0 → ∀ e ∈ u.chip.parts[p].used, budgetDie e.1 ≠ 4) ∧
      (∀ e ∈ s.chip.parts[p].used, (budgetDie e.1 = 4 → s.chip.base % 8192 ≠ 0) →
        (∀ d : Fin 4, budgetDie e.1 = d.val → s.chip.dies[d].skips = true ∨ s.chip.clock d % 8192 ≠ 0) →
        e ∈ u.chip.parts[p].used))

/-- R303, R322–R324, R348, R360–R363, R369, R378–R382. The model's choices in it: the tasks that depend on a SYE (log entry 65); a
die's clock as a count of edges (6, 89); a step of the boot that fails, and its time base (90); HALT of a halted and RESUME of a
running core (92); the transaction engine (118). -/
def Obligations.DeviceEvents : Prop :=
  ∀ (s : State),
    (∀ ok, ∃ u, exec (.boot ok) s = .next u ∧ u.core = s.core ∧ u.others = s.others ∧
      (s.chip.boot = .step 1 → u.chip.boot = .step 2 ∧ u.chip.time = 0) ∧
      (s.chip.boot = .step 2 → firmwareOk s.chip.flash s.chip.fuses = true → u.chip.boot = .step 3) ∧
      (s.chip.boot = .step 2 → firmwareOk s.chip.flash s.chip.fuses = false →
        u.chip.boot = .failed 2 ∧ u.chip.bootError = 2) ∧
      (s.chip.boot = .step 3 → u.chip.boot = .step 4) ∧
      (s.chip.boot = .step 4 → ok = true → u.chip.boot = .step 5) ∧
      (s.chip.boot = .step 4 → ok = false → u.chip.boot = .failed 4 ∧ u.chip.bootError = 4) ∧
      (s.chip.boot = .step 5 → u.chip.boot = .step 6 ∧ u.chip.weights[15] = 0 ∧ u.chip.found = [] ∧ ∀ p : Fin 64,
        let f := look Machine.Part.none p.val s.chip.flash.parts
        let q := u.chip.parts[p]
        q.pclu = f.pclu ∧ q.pbnk = f.pbnk ∧ q.pchn = f.pchn ∧ q.plnk = f.plnk ∧ q.psye = f.psye ∧ q.phub = f.phub ∧
        q.pasid = f.pasid ∧ q.mem = [] ∧ q.ring = [] ∧ q.uesta = 0 ∧ q.rtail = 0 ∧
        (s.chip.found = [] → q.cecnt = 0 ∧ q.errs = []) ∧
        (∀ time core x b, s.chip.found = [(time, .ecc core x b)] → u.chip.eccOwner core x = some p →
          (b = true → q.cecnt = 1) ∧
          (b = false → ∃ e, q.errs = [e] ∧ e.time = BitVec.ofNat 64 time ∧ e.cause = eccCause x))) ∧
      (s.chip.boot = .step 6 → u.chip.boot = .up ∧
        u.chip.measured = some (Config.shake256 s.chip.flash.firmware)) ∧
      (s.chip.boot = .up → u = s)) ∧
    (∀ x n, (x = Instr.conventionalReset ∧ n = s.chip.resets + 1 ∨ ∃ r, x = .railFault r ∧ n = 0) →
      ∃ u, exec x s = .next u ∧ u.chip.boot = .step 1 ∧ u.chip.resets = n ∧ u.chip.flash = s.chip.flash ∧
        u.chip.fuses = s.chip.fuses ∧ u.chip.hostMem = s.chip.hostMem ∧ u.chip.peerMem = s.chip.peerMem ∧
        u.chip.tasks = [] ∧ u.core = State.reset.core ∧ u.others = State.reset.others) ∧
    (s.chip.boot ≠ .up → ∀ off, exec (.hostRegisterRead off) s =
      .next { s with chip := { s.chip with hostData := List.replicate 8 0 } }) ∧
    (∃ u, exec .functionLevelReset s = .next u ∧ (∀ i, TaskFaults s u i cTEARDOWN_REQUEST) ∧
      (∀ (i : Nat) (k : Task), s.chip.tasks[i]? = some k → k.state = .preempted → ∃ x : Task, u.chip.tasks[i]? = some x ∧
        x.state = .done ∧ x.saved = []) ∧ u.chip.replays = [] ∧
      ∀ j : Fin 256, u.chip.queues[j].head = 0 ∧ u.chip.queues[j].tail = 0 ∧ u.chip.queues[j].qbase = 0) ∧
    (∀ (k : Fin 8) (kind : Fin 5), ∃ u, exec (.ucieLinkFail k kind) s = .next u ∧ u.chip.ucieDown[k] = true ∧
      ∀ i x, s.chip.tasks[i]? = some x →
        (s.chip.parts[x.part].onDie (k.val / 2) = true ∨
          k.val % 2 = 1 ∧ s.chip.parts[x.part].onDie ((k.val / 2 + 1) % 4) = true) →
        AdmittedFaults s u i (cUCIE k.val kind.val)) ∧
    (∀ (b : Fin 128) o lines n, s.chip.boot = .step n → n ≤ 5 → exec (.tenantTag b o lines) s =
      .next { s with chip := { s.chip with found := s.chip.found ++ [(s.chip.time, .tenant b o lines)] } }) ∧
    (∀ (b : Fin 128) o lines, (∀ n, s.chip.boot = .step n → 5 < n) → ∃ u, exec (.tenantTag b o lines) s = .next u ∧
      (∀ i x, s.chip.tasks[i]? = some x → s.chip.parts[x.part].pbnk.getLsbD b.val = true →
        TaskFaults s u i (cTENANT b.val o)) ∧
      (∀ (p : Fin 64) (ln : Nat), canon .zero s.chip.parts[p].lines = true → s.chip.parts[p].pbnk.getLsbD b.val = true →
        ln ∈ lines → s.chip.parts[p].homeBank (ln * 128) = b.val → ln * 128 < s.chip.parts[p].devBytes →
        u.poisoned p (ln * 128) = true)) ∧
    (∀ (x : Fin 64), ∃ u, exec (.thermalTrip x) s = .next u ∧ u.chip.down.getLsbD x.val = true ∧
      (∀ y : Nat, y ≠ x.val → u.chip.down.getLsbD y = s.chip.down.getLsbD y) ∧
      ∀ i k, s.chip.tasks[i]? = some k → s.chip.parts[k.part].pclu.getLsbD x.val = true →
        AdmittedFaults s u i (cCLUSTER_DOWN x.val)) ∧
    (∀ (d : Fin 4), ∃ u, exec (.syeLost d) s = .next u ∧ u.chip.dies[d].sye.reqs = [] ∧ u.chip.dies[d].sye.kept = [] ∧
      ∀ i k, s.chip.tasks[i]? = some k →
        ((∃ c ∈ k.cores, dieOf c = d) ∨ s.chip.parts[k.part].pbnk.toNat / 2 ^ (32 * d.val) % 2 ^ 32 ≠ 0) →
        AdmittedFaults s u i (cSYE_LOST d.val)) ∧
    (∀ (d : Fin 4) n, (∃ u, exec (.clockStretch d n) s = .next u ∧
      u.chip.dies[d].stretch = s.chip.dies[d].stretch + BitVec.ofNat 64 n ∧
      u.chip.dies[d].owed = s.chip.dies[d].owed + n ∧ u.chip.now = s.chip.now ∧ u.core = s.core) ∧
      (s.chip.dies[d].owed ≠ 0 → let x := (s.meetEdge d).chip.dies[d]
        x.skips = true ∧ x.lag = s.chip.dies[d].lag + 1 ∧ x.owed + 1 = s.chip.dies[d].owed)) ∧
    (∀ n x b, s.chip.boot = .step n → n ≤ 5 →
      let kept := s.chip.found ++ [(s.chip.time, FoundError.ecc s.core.cid x b)]
      ((b = true ∨ ∀ port, x ≠ .link port) → exec (.uncorrectableError s.core.cid x b) s =
        .next { s with chip := { s.chip with found := kept } }) ∧
      (∀ port, x = .link port → b = false → s.chip.links[port].up = true →
        ∃ u, exec (.uncorrectableError s.core.cid x b) s = .next u ∧ u.chip.links[port].up = false ∧ u.chip.found = kept)) ∧
    (s.chip.boot = .up → ∀ x,
      let owner := match x with
        | .link port => s.chip.partOfPort port
        | _ => s.chip.partOfCore s.core.cid
      (owner = none → exec (.uncorrectableError s.core.cid x true) s = .next s) ∧
      (∀ port, x = .link port → s.chip.links[port].up = true →
        ∃ u, exec (.uncorrectableError s.core.cid x false) s = .next u ∧ u.chip.links[port].up = false ∧
          ∀ p, owner = some p → ∃ e, u.chip.parts[p].errs = s.chip.parts[p].errs ++ [e] ∧ e.kind = 4 ∧
            e.cause = cLINK port.val 3) ∧
      (∀ p, owner = some p →
        (∃ u, exec (.uncorrectableError s.core.cid x true) s = .next u ∧ u.core = s.core ∧
          u.chip.parts[p].cecnt.toNat = min (s.chip.parts[p].cecnt.toNat + 1) (2 ^ 32 - 1)) ∧
        (s.core.task ≠ none → (∀ port, x ≠ .link port) → ∃ u e, exec (.uncorrectableError s.core.cid x false) s = .next u ∧
          u.core.sq = { s.core.sq with raised := s.core.sq.raised ++ [⟨eccCause x, 0, s.chip.now⟩] } ∧
          u.chip.parts[p].errs = s.chip.parts[p].errs ++ [e] ∧ e.kind = 3 ∧ e.cause = eccCause x ∧
          e.addr = eccAddr x))) ∧
    (∀ n, (s.chip.measured = none → exec (.attestationRequest n) s = .next s) ∧
      (∀ fw, s.chip.measured = some fw → ∃ u r, exec (.attestationRequest n) s = .next u ∧ u.chip.report = some r ∧
        r.nonce = n ∧ r.fwdig = fw ∧ r.svn = s.chip.flash.svn ∧ r.resets = s.chip.resets ∧ u.core = s.core)) ∧
    (let x := s.core.cid
     let q := s.core.sq
     (s.debugDenied x = true → ∀ i ∈ [Instr.debugNop x, .debugHalt x, .debugStep x, .debugResume x, .debugStatus x],
       ∃ u, exec i s = .next u ∧ Answers u 1 0 ∧ u.core = s.core) ∧
     (s.debugDenied x = false →
       (∃ u, exec (.debugNop x) s = .next u ∧ Answers u 0 0 ∧ u.core = s.core) ∧
       (∃ u, exec (.debugStatus x) s = .next u ∧ Answers u 0 (q.dcause.setWidth 64) ∧ u.core = s.core) ∧
       (s.core.task ≠ none → q.debug ≠ .halted → ∃ u, exec (.debugHalt x) s = .next u ∧ Answers u 0 0 ∧
         u.core = { s.core with sq := { q with debug := .halting } }) ∧
       (q.debug ≠ .halted → ∃ u, exec (.debugStep x) s = .next u ∧ Answers u 3 0 ∧ u.core = s.core) ∧
       (s.core.task ≠ none → q.debug = .halted →
         (∃ u, exec (.debugStep x) s = .next u ∧ Answers u 0 0 ∧
           u.core = { s.core with sq := { q with debug := .stepping } }) ∧
         (∃ u, exec (.debugResume x) s = .next u ∧ Answers u 0 0 ∧ u.core = { s.core with sq := { q with
           cause := q.dcause
           debug := .running
           skipBrk := true } }) ∧
         (∀ r : Fin 32, ∃ u, exec (.debugRead x 0 (BitVec.ofNat 32 r.val)) s = .next u ∧ Answers u 0 (s.rg r) ∧
           u.core = s.core) ∧
         (∀ (r : Fin 32) v, r ≠ 0 → ∃ u, exec (.debugWrite x 0 (BitVec.ofNat 32 r.val) v) s = .next u ∧ Answers u 0 0 ∧
           u.core = { s.core with sq := { q with g := q.g.set r v } }))) ∧
     (∀ jtag req, s.chip.dpq = [] → ∃ u, exec (.debugTransact jtag req) s = .next u ∧ u.core = s.core ∧
       (∃ e : DebugReq, u.chip.dpq = [e] ∧ e.jtag = jtag ∧ e.came = s.chip.base ∧ e.req = req ∧
         (e.early = true ↔ s.chip.boot ≠ .up)) ∧
       (jtag = false → u.chip.dpreq = req ∧ (u.chip.dprsp).status = 0xFF)) ∧
     (∀ e rest, s.chip.dpq = e :: rest → e.jtag = false →
       (e.early = true → ∃ u, s.debugEngine = .next u ∧ u.chip.dpq = rest ∧ (u.chip.dprsp).status = 1 ∧ u.core = s.core) ∧
       (e.early = false → e.req.toNat / 2 ^ 8 % 2 ^ 8 = x.toNat → s.debugDenied x = false →
         (7 ≤ e.req.toNat % 2 ^ 4 ∨ e.req.toNat / 2 ^ 48 % 2 ^ 16 ≠ 0) →
         ∃ u, s.debugEngine = .next u ∧ u.chip.dpq = rest ∧ (u.chip.dprsp).status = 2 ∧ u.core = s.core)))

/-! ### The whole machine -/

/-- R32, R46, R193, R380, R382. By the model's choice NLC, PBASE, LCID, DREF and every other register of a core that R32 names
only for a task start stand so after reset (log entries 2, 12), what firmware builds is empty (13), and device memory reads 0
(1). -/
def Obligations.ResetState : Prop :=
  let s := State.reset
  s.chip.boot = .step 1 ∧ s.chip.now = 0 ∧ s.chip.time = 0 ∧ s.chip.tasks = [] ∧ s.stage = 0 ∧
  (s.core :: s.others).map (·.cid) = (List.range 256).map (BitVec.ofNat 8) ∧
  (∀ c ∈ s.core :: s.others,
    c.task = none ∧ c.sq.pc = 0 ∧ c.sq.g = Vector.replicate 32 0 ∧ c.sq.c = Vector.replicate 8 false ∧
    c.sq.lc = Vector.replicate 3 0 ∧ c.sq.ls = Vector.replicate 3 0 ∧ c.sq.le = Vector.replicate 3 0 ∧
    c.sq.repc = 0 ∧ c.sq.reps = 0 ∧ c.sq.flight = [] ∧ c.sq.pins = 0 ∧
    c.sq.lcid = 0 ∧ c.sq.nlc = 0 ∧ c.sq.pbase = 0 ∧ c.sq.dcause = 0 ∧
    c.sq.cause = 0 ∧ c.sq.trappc = 0 ∧ c.sq.trapslot = 0 ∧ c.sq.tvec = 0 ∧ c.sq.tcfg = 0 ∧
    c.sq.dgen = 0 ∧ c.sq.dref = 0 ∧ c.sq.mseed = 0 ∧ c.sq.lease = 64 ∧ c.sq.split = 0 ∧ c.sq.ctr = .zero ∧
    c.sq.pms = Vector.replicate 4 0 ∧ c.sq.bka = Vector.replicate 8 0 ∧ c.sq.bkc = Vector.replicate 8 0 ∧
    (∀ a, rdByte c.loc.mem a = 0 ∧ look false a c.loc.fe = false) ∧
    (∀ h : Fin 32, c.loc.handles[h] = .zero) ∧ c.loc.bt = Vector.replicate 32 0 ∧
    c.l1 = [] ∧ c.tlb = [] ∧ c.cpeTlb = []) ∧
  s.rc 0 = true ∧
  (∀ p : Fin 64, s.chip.parts[p].mem = [] ∧ s.chip.parts[p].lines = [] ∧ s.chip.parts[p].ring = [] ∧
    s.chip.parts[p].uesta = 0) ∧
  MemoriesCanonical s

/-- R34–R36, R39, R40, R237, R310. -/
def Obligations.StepRunsDecoded : Prop :=
  ∀ s : State, IssuesNext s →
    let go := fun (o : Out) => thenGo (thenGo o fun t => s.boundary t) fun u => .next u.issued
    (∀ w, s.core.sq.target = none → s.core.textAt s.core.sq.pc.toNat = some w → pairBit w = false → majorOf w ≠ 0x29 →
      (∀ i, decodeScalar w = .ok i → step s = go (exec i (s.place .lone))) ∧
      (∀ r, decodeScalar w = .error r → step s = go (exec (.illegalInstruction w) (s.place .lone)))) ∧
    (∀ w0 w1 w2 w3, s.core.found = .cmd w0 w1 w2 w3 →
      (∀ i, decCommand w0.toNat w1.toNat w2.toNat w3.toNat = .ok i → step s = go (exec i (s.place .lone))) ∧
      (∀ r, decCommand w0.toNat w1.toNat w2.toNat w3.toNat = .error r →
        step s = go (exec (.illegalInstruction w0) (s.place .lone)))) ∧
    (∀ w0 w1 i0 i1, s.core.found = .pair w0 w1 → decodeScalar w0 = .ok i0 → decodeScalar w1 = .ok i1 →
      (s.place .first).core.illegalHere i0 = false → (s.place .second).core.illegalHere i1 = false →
      pairOk w0 w1 = true → step s = go (s.execPair i0 i1)) ∧
    (∀ t : State, s.core.sq.asyncPending s.chip.now = false → s.core.sq.debug = .running →
      (t.core.sq.after ≠ .trapped → t.core.sq.after ≠ .waits → s.boundary t = .next (t.finish s)) ∧
      (t.core.sq.after = .trapped → s.boundary t = .next (t.settle.onSq fun q => { q with skipBrk := false })) ∧
      (t.core.sq.after = .waits → s.boundary t = .next t.settle) ∧
      (t.core.sq.after = .seq → (∀ k : Fin 3, s.core.sq.lc[k] = 0) → s.core.lastWord.toNat % 4 = 0 →
        (t.finish s).core.sq.pc = s.core.lastWord + 4 ∧ (t.finish s).core.sq.held = 0)) ∧
    (∀ t : State, s.core.sq.asyncPending s.chip.now = true → s.core.sq.debug = .running → t.core.sq.after ≠ .trapped →
      ∀ u, exec .asyncCauseEntry s = .next u → s.boundary t = .next u.settle) ∧
    (∀ t : State, s.core.sq.asyncPending s.chip.now = false → s.core.sq.debug = .stepping → t.core.sq.after ≠ .trapped →
      t.core.sq.after ≠ .waits → (t.finish s).core.sq.ending = none → (t.finish s).core.sq.held = 0 →
      ∃ u, s.boundary t = .next u ∧ u.core.sq.debug = .halted ∧ u.core.sq.cause = BitVec.ofNat 32 cDEBUG_STEP.toNat)

/-- The tables of the worked examples in 03, 04, 08, 09, 11, 13, 14, 15 and 18. -/
def Obligations.DecodesWrittenWords : Prop :=
  decodeScalar 0x82510980#32 = .ok (.add 5 2 2 .w32 true false) ∧ pairBit 0x82510980#32 = true ∧
  decodeScalar 0x026109C0#32 = .ok (.add 6 2 2 .w32 true true) ∧
  decodeScalar 0x04710104#32 = .ok (.div 7 2 0 .w32 false) ∧
  decodeScalar 0x14200600#32 = .ok (.li 2 0x600) ∧
  decodeScalar 0x56028011#32 = .ok (.wrc 5 0x011) ∧
  decodeScalar 0x46403004#32 = .ok (.loopImm 0 3 4) ∧
  decodeScalar 0x48404001#32 = .ok (.repImm 4 1) ∧
  decodeScalar 0x22314000#32 = .ok (.stl 3 2 .b4 0) ∧
  decodeScalar 0x2C010060#32 = .ok (.hcfg 2 3) ∧
  decodeScalar 0x2C800461#32 = .ok (.hget 8 true 3) ∧
  decodeScalar 0x2E710013#32 = .ok (.minc 7 2 0 .ml4) ∧
  decodeScalar 0x30501C48#32 = .ok (.radm 5 7 true 1) ∧
  decodeScalar 0x3004808C#32 = .ok (.rsave 9 .clear 1) ∧
  decodeScalar (0x58000030#32 + 3#32 * 0x8000#32) = .ok (.trap 3) ∧
  decodeCommand (0x00000000#32 ++ 0x00000000#32 ++ 0x00000100#32 ++ 0x52400001#32) = .ok (.sdld 1 0x100) ∧
  decodeCommand (0x00000000#32 ++ 0x00000700#32 ++ 0x00000000#32 ++ 0x52402212#32) =
    .ok (.copy 0 false (some 0x700) 1 2 none ⟨none, none, none⟩) ∧
  decodeCommand (0x00000000#32 ++ 0x00001000#32 ++ 0x000001A0#32 ++ 0x52600000#32) =
    .ok (.ldb (.spad 0x1000) .dk8 6 none ⟨none, none, none⟩) ∧
  decodeCommand (0x14000200#32 ++ 0x00000000#32 ++ 0x00100000#32 ++ 0x528020A0#32) =
    .ok (.atomw .add .fp32 .gang 0x100000 0x200 5) ∧
  ∀ w : Half, majorOf w = 0 → decodeScalar w = .error .reservedMajor

/-- R35–R37, R236, R237: no bit of an encoding is dropped. (A few bits of commands are ignored by the decoder, so that
the other direction is stated of scalar words only.) -/
def Obligations.EncodingRoundTrip : Prop :=
  (∀ (i : Instr) (p : Bool) (w : Half), i.wf = true → encodeWord p i = some w →
    pairBit w = p ∧ decodeScalar w = .ok i) ∧
  (∀ (w : Half) (i : Instr), decodeScalar w = .ok i → i.wf = true ∧ encodeWord (pairBit w) i = some w) ∧
  (∀ (i : Instr) (c : Quad), i.wf = true → encodeCommand i = some c →
    decodeCommand c = .ok i ∧ majorOf (c.setWidth 32) = 0x29 ∧ pairBit (c.setWidth 32) = false)

/-- The invariant of the memories over every step of the machine; it holds after reset by `ResetState`. -/
def Obligations.EveryStepKeepsMemoriesCanonical : Prop :=
  ∀ s : State, MemoriesCanonical s → ∃ t, step s = .next t ∧ MemoriesCanonical t
end

