-- ==== Sys2Proof/Laws/Sparse.lean ====
section
/-! SUPPORT. The laws of the sparse stores: a read after a write, the canonical form, and the same for the bytes of a
memory. -/

namespace Sys2Proof.Laws

open Sys2Proof.Machine

variable {α : Type}

theorem canonFrom_mono [DecidableEq α] {d : α} {lo lo' : Nat} (h : lo' ≤ lo) :
    ∀ {l : Sparse α}, canonFrom d lo l = true → canonFrom d lo' l = true
  | [], _ => rfl
  | (j, v) :: r, hl => by
    simp only [canonFrom, Bool.and_eq_true, decide_eq_true_eq] at hl ⊢
    exact ⟨⟨by omega, hl.1.2⟩, hl.2⟩

/-- Below the first number of a canonical store everything reads as unlisted. -/
theorem look_of_lt [DecidableEq α] {d : α} {lo k : Nat} (h : k < lo) :
    ∀ {l : Sparse α}, canonFrom d lo l = true → look d k l = d
  | [], _ => rfl
  | (j, v) :: r, hl => by
    simp only [canonFrom, Bool.and_eq_true, decide_eq_true_eq] at hl
    simp [look, show k < j by omega]

theorem canonFrom_cons? [DecidableEq α] {d : α} {lo k : Nat} {v : α} {r : Sparse α} (h : lo ≤ k)
    (hr : canonFrom d (k + 1) r = true) : canonFrom d lo (cons? d k v r) = true := by
  unfold cons?
  split
  · exact canonFrom_mono (by omega) hr
  · simp [canonFrom, *]

theorem canonFrom_put [DecidableEq α] {d : α} {k : Nat} {v : α} :
    ∀ {lo : Nat} {l : Sparse α}, lo ≤ k → canonFrom d lo l = true → canonFrom d lo (put d k v l) = true
  | lo, [], h, _ => canonFrom_cons? h rfl
  | lo, (j, w) :: r, h, hl => by
    simp only [canonFrom, Bool.and_eq_true, decide_eq_true_eq] at hl
    unfold put
    split
    · exact canonFrom_cons? h (by simp [canonFrom, hl.1.2, hl.2]; omega)
    · split
      · next hj => subst hj; exact canonFrom_cons? h hl.2
      · simp only [canonFrom, Bool.and_eq_true, decide_eq_true_eq]
        exact ⟨hl.1, canonFrom_put (by omega) hl.2⟩

/-- Writing keeps the canonical form. -/
theorem canon_put [DecidableEq α] {d : α} {k : Nat} {v : α} {l : Sparse α} (h : canon d l = true) :
    canon d (put d k v l) = true := canonFrom_put (Nat.zero_le _) h

theorem look_cons? [DecidableEq α] {d : α} {lo k i : Nat} {v : α} {r : Sparse α} (hk : k < lo)
    (hr : canonFrom d lo r = true) : look d i (cons? d k v r) = if i = k then v else look d i r := by
  unfold cons?
  split
  · next hv =>
    split
    · next hi => subst hi; rw [hv]; exact look_of_lt hk hr
    · rfl
  · simp only [look]
    split
    · next hi =>
      rw [if_neg (by omega)]
      exact (look_of_lt (by omega) hr).symm
    · simp only [eq_comm]

theorem look_put_from [DecidableEq α] {d : α} {k i : Nat} {v : α} :
    ∀ {lo : Nat} {l : Sparse α}, canonFrom d lo l = true →
      look d i (put d k v l) = if i = k then v else look d i l
  | lo, [], _ => by
    exact look_cons? (d := d) (lo := k + 1) (k := k) (i := i) (v := v) (r := []) (Nat.lt_succ_self k) rfl
  | lo, (j, w) :: r, hl => by
    have hl' := hl
    simp only [canonFrom, Bool.and_eq_true, decide_eq_true_eq] at hl
    unfold put
    split
    · next h =>
      exact look_cons? (lo := j) h (by simp [canonFrom, hl.1.2, hl.2])
    · split
      · next hj =>
        subst hj
        rw [look_cons? (lo := j + 1) (by omega) hl.2]
        by_cases hi : i = j
        · simp [hi]
        · simp only [if_neg hi, look, if_neg (Ne.symm hi)]
          split
          · exact look_of_lt (by omega) hl.2
          · rfl
      · next h1 h2 =>
        simp only [look]
        split
        · rw [if_neg (by omega)]
        · split
          · next hj => subst hj; rw [if_neg h2]
          · exact look_put_from hl.2

/-- A read after a write: the value written at that number, every other number as before. -/
theorem look_put [DecidableEq α] {d : α} {k i : Nat} {v : α} {l : Sparse α} (h : canon d l = true) :
    look d i (put d k v l) = if i = k then v else look d i l := look_put_from h

theorem canonFrom_keepIf [DecidableEq α] {d : α} (p : Nat → Bool) :
    ∀ {lo : Nat} {l : Sparse α}, canonFrom d lo l = true → canonFrom d lo (keepIf p l) = true
  | lo, [], _ => rfl
  | lo, (j, v) :: r, hl => by
    simp only [canonFrom, Bool.and_eq_true, decide_eq_true_eq] at hl
    have ih := canonFrom_keepIf p hl.2
    unfold keepIf at ih ⊢
    simp only [List.filter]
    split
    · simp only [canonFrom, Bool.and_eq_true, decide_eq_true_eq]; exact ⟨hl.1, ih⟩
    · exact canonFrom_mono (by omega) ih

/-- Dropping entries keeps the canonical form. -/
theorem canon_keepIf [DecidableEq α] {d : α} (p : Nat → Bool) {l : Sparse α} (h : canon d l = true) :
    canon d (keepIf p l) = true := canonFrom_keepIf p h

/-! ### Memories -/

theorem wf_wrByte {m : List Host.Cell} {a : Nat} {b : Byte} (h : Memory.wf m = true) :
    Memory.wf (wrByte m a b) = true := canon_put h

/-- Storing bytes keeps the canonical form. -/
theorem wf_wrBytes : ∀ {bs : List Byte} {m : List Host.Cell} {a : Nat}, Memory.wf m = true →
    Memory.wf (wrBytes m a bs) = true
  | [], _, _, h => h
  | b :: r, m, a, h => wf_wrBytes (bs := r) (m := wrByte m a b) (wf_wrByte h)

theorem wf_wrNat {m : List Host.Cell} {a n x : Nat} (h : Memory.wf m = true) : Memory.wf (wrNat m a n x) = true :=
  wf_wrBytes h

theorem wf_clearFrom {m : List Host.Cell} {lo : Nat} (h : Memory.wf m = true) :
    Memory.wf (clearFrom m lo) = true := canon_keepIf _ h

theorem rdByte_wrByte {m : List Host.Cell} {a i : Nat} {b : Byte} (h : Memory.wf m = true) :
    rdByte (wrByte m a b) i = if i = a then b else rdByte m i := look_put h

/-- A byte outside the span written reads as before. -/
theorem rdByte_wrBytes_of_not_mem : ∀ {bs : List Byte} {m : List Host.Cell} {a i : Nat}, Memory.wf m = true →
    (i < a ∨ a + bs.length ≤ i) → rdByte (wrBytes m a bs) i = rdByte m i
  | [], _, _, _, _, _ => rfl
  | b :: r, m, a, i, h, hi => by
    simp only [List.length_cons] at hi
    rw [wrBytes, rdByte_wrBytes_of_not_mem (wf_wrByte h) (by omega), rdByte_wrByte h, if_neg (by omega)]

@[simp] theorem length_leBytes : ∀ {n x : Nat}, (leBytes x n).length = n
  | 0, _ => rfl
  | n + 1, x => by simp [leBytes, length_leBytes]

@[simp] theorem length_rdBytes {m : List Host.Cell} : ∀ {n a : Nat}, (rdBytes m a n).length = n
  | 0, _ => rfl
  | n + 1, a => by simp [rdBytes, length_rdBytes]

/-- Reading the span just written gives the bytes written. -/
theorem rdBytes_wrBytes : ∀ {bs : List Byte} {m : List Host.Cell} {a : Nat}, Memory.wf m = true →
    rdBytes (wrBytes m a bs) a bs.length = bs
  | [], _, _, _ => rfl
  | b :: r, m, a, h => by
    have h1 : rdByte (wrBytes (wrByte m a b) (a + 1) r) a = b := by
      rw [rdByte_wrBytes_of_not_mem (wf_wrByte h) (by omega), rdByte_wrByte h, if_pos rfl]
    simp [wrBytes, rdBytes, h1, rdBytes_wrBytes (wf_wrByte (a := a) (b := b) h)]

/-- The number of the bytes of a number, at their width. -/
theorem leNat_leBytes : ∀ {n x : Nat}, leNat (leBytes x n) = x % 256 ^ n
  | 0, x => by simp [leBytes, leNat, Nat.mod_one]
  | n + 1, x => by
    simp only [leBytes, leNat, leNat_leBytes, BitVec.toNat_ofNat]
    rw [Nat.pow_succ 256 n, Nat.mul_comm (256 ^ n) 256, Nat.mod_mul]

/-- A number stored at a width reads back at that width. -/
theorem rdNat_wrNat {m : List Host.Cell} {a n x : Nat} (h : Memory.wf m = true) :
    rdNat (wrNat m a n x) a n = x % 256 ^ n := by
  unfold rdNat wrNat
  have := rdBytes_wrBytes (bs := leBytes x n) (a := a) h
  rw [length_leBytes] at this
  rw [this, leNat_leBytes]

theorem rdByte_wrNat_of_not_mem {m : List Host.Cell} {a n x i : Nat} (h : Memory.wf m = true)
    (hi : i < a ∨ a + n ≤ i) : rdByte (wrNat m a n x) i = rdByte m i :=
  rdByte_wrBytes_of_not_mem h (by simpa using hi)

end Sys2Proof.Laws
end

