-- ==== Sys2Proof/Laws/State.lean ====
section
/-! SUPPORT. One law for each field of the state under each of the named updates: what the update writes reads back, and
every other field is as before. With them no proof unfolds a record update. -/

namespace Sys2Proof.Laws

open Sys2Proof.Machine

@[simp] theorem getElem_mapAll {α β : Type} {n : Nat} (f : α → β) (v : Vector α n) (i : Nat) (h : i < n) :
    (Vector.mapAll f v)[i] = f v[i] := by simp [Vector.mapAll]

theorem mapAll_eq_map {α β : Type} {n : Nat} (f : α → β) (v : Vector α n) : Vector.mapAll f v = v.map f := by
  ext i h
  simp

/-! ### `onCore` -/

@[simp] theorem onCore_core (s : State) (f : Core → Core) : (s.onCore f).core = f s.core := rfl
@[simp] theorem onCore_others (s : State) (f : Core → Core) : (s.onCore f).others = s.others := rfl
@[simp] theorem onCore_chip (s : State) (f : Core → Core) : (s.onCore f).chip = s.chip := rfl
@[simp] theorem onCore_inbox (s : State) (f : Core → Core) : (s.onCore f).inbox = s.inbox := rfl
@[simp] theorem onCore_stage (s : State) (f : Core → Core) : (s.onCore f).stage = s.stage := rfl
@[simp] theorem onCore_fresh (s : State) (f : Core → Core) : (s.onCore f).fresh = s.fresh := rfl

/-! ### `onSq` -/

@[simp] theorem onSq_others (s : State) (f : Sq → Sq) : (s.onSq f).others = s.others := rfl
@[simp] theorem onSq_chip (s : State) (f : Sq → Sq) : (s.onSq f).chip = s.chip := rfl
@[simp] theorem onSq_inbox (s : State) (f : Sq → Sq) : (s.onSq f).inbox = s.inbox := rfl
@[simp] theorem onSq_stage (s : State) (f : Sq → Sq) : (s.onSq f).stage = s.stage := rfl
@[simp] theorem onSq_fresh (s : State) (f : Sq → Sq) : (s.onSq f).fresh = s.fresh := rfl
@[simp] theorem onSq_core_cid (s : State) (f : Sq → Sq) : (s.onSq f).core.cid = s.core.cid := rfl
@[simp] theorem onSq_core_task (s : State) (f : Sq → Sq) : (s.onSq f).core.task = s.core.task := rfl
@[simp] theorem onSq_core_tick (s : State) (f : Sq → Sq) : (s.onSq f).core.tick = s.core.tick := rfl
@[simp] theorem onSq_core_stage (s : State) (f : Sq → Sq) : (s.onSq f).core.stage = s.core.stage := rfl
@[simp] theorem onSq_core_text (s : State) (f : Sq → Sq) : (s.onSq f).core.text = s.core.text := rfl
@[simp] theorem onSq_core_sq (s : State) (f : Sq → Sq) : (s.onSq f).core.sq = f s.core.sq := rfl
@[simp] theorem onSq_core_loc (s : State) (f : Sq → Sq) : (s.onSq f).core.loc = s.core.loc := rfl
@[simp] theorem onSq_core_fab (s : State) (f : Sq → Sq) : (s.onSq f).core.fab = s.core.fab := rfl
@[simp] theorem onSq_core_queues (s : State) (f : Sq → Sq) : (s.onSq f).core.queues = s.core.queues := rfl
@[simp] theorem onSq_core_order (s : State) (f : Sq → Sq) : (s.onSq f).core.order = s.core.order := rfl
@[simp] theorem onSq_core_donePts (s : State) (f : Sq → Sq) : (s.onSq f).core.donePts = s.core.donePts := rfl
@[simp] theorem onSq_core_floor (s : State) (f : Sq → Sq) : (s.onSq f).core.floor = s.core.floor := rfl
@[simp] theorem onSq_core_rotAt (s : State) (f : Sq → Sq) : (s.onSq f).core.rotAt = s.core.rotAt := rfl
@[simp] theorem onSq_core_lastCh (s : State) (f : Sq → Sq) : (s.onSq f).core.lastCh = s.core.lastCh := rfl
@[simp] theorem onSq_core_mxe (s : State) (f : Sq → Sq) : (s.onSq f).core.mxe = s.core.mxe := rfl
@[simp] theorem onSq_core_syeSeq (s : State) (f : Sq → Sq) : (s.onSq f).core.syeSeq = s.core.syeSeq := rfl
@[simp] theorem onSq_core_blocks (s : State) (f : Sq → Sq) : (s.onSq f).core.blocks = s.core.blocks := rfl
@[simp] theorem onSq_core_l1 (s : State) (f : Sq → Sq) : (s.onSq f).core.l1 = s.core.l1 := rfl
@[simp] theorem onSq_core_wb (s : State) (f : Sq → Sq) : (s.onSq f).core.wb = s.core.wb := rfl
@[simp] theorem onSq_core_tlb (s : State) (f : Sq → Sq) : (s.onSq f).core.tlb = s.core.tlb := rfl
@[simp] theorem onSq_core_cpeTlb (s : State) (f : Sq → Sq) : (s.onSq f).core.cpeTlb = s.core.cpeTlb := rfl
@[simp] theorem onSq_core_events (s : State) (f : Sq → Sq) : (s.onSq f).core.events = s.core.events := rfl
@[simp] theorem onSq_core_active (s : State) (f : Sq → Sq) : (s.onSq f).core.active = s.core.active := rfl
@[simp] theorem onSq_core_refused (s : State) (f : Sq → Sq) : (s.onSq f).core.refused = s.core.refused := rfl
@[simp] theorem onSq_core_removed (s : State) (f : Sq → Sq) : (s.onSq f).core.removed = s.core.removed := rfl
@[simp] theorem onSq_core_ended (s : State) (f : Sq → Sq) : (s.onSq f).core.ended = s.core.ended := rfl
@[simp] theorem onSq_core_begun (s : State) (f : Sq → Sq) : (s.onSq f).core.begun = s.core.begun := rfl
@[simp] theorem onSq_core_retired (s : State) (f : Sq → Sq) : (s.onSq f).core.retired = s.core.retired := rfl
@[simp] theorem onSq_core_preempting (s : State) (f : Sq → Sq) : (s.onSq f).core.preempting = s.core.preempting := rfl
@[simp] theorem onSq_core_captured (s : State) (f : Sq → Sq) : (s.onSq f).core.captured = s.core.captured := rfl
@[simp] theorem onSq_core_idle (s : State) (f : Sq → Sq) : (s.onSq f).core.idle = s.core.idle := rfl
@[simp] theorem onSq_core_fault (s : State) (f : Sq → Sq) : (s.onSq f).core.fault = s.core.fault := rfl
@[simp] theorem onSq_core_sig (s : State) (f : Sq → Sq) : (s.onSq f).core.sig = s.core.sig := rfl

/-! ### `onLoc` -/

@[simp] theorem onLoc_others (s : State) (f : Local → Local) : (s.onLoc f).others = s.others := rfl
@[simp] theorem onLoc_chip (s : State) (f : Local → Local) : (s.onLoc f).chip = s.chip := rfl
@[simp] theorem onLoc_inbox (s : State) (f : Local → Local) : (s.onLoc f).inbox = s.inbox := rfl
@[simp] theorem onLoc_stage (s : State) (f : Local → Local) : (s.onLoc f).stage = s.stage := rfl
@[simp] theorem onLoc_fresh (s : State) (f : Local → Local) : (s.onLoc f).fresh = s.fresh := rfl
@[simp] theorem onLoc_core_cid (s : State) (f : Local → Local) : (s.onLoc f).core.cid = s.core.cid := rfl
@[simp] theorem onLoc_core_task (s : State) (f : Local → Local) : (s.onLoc f).core.task = s.core.task := rfl
@[simp] theorem onLoc_core_tick (s : State) (f : Local → Local) : (s.onLoc f).core.tick = s.core.tick := rfl
@[simp] theorem onLoc_core_stage (s : State) (f : Local → Local) : (s.onLoc f).core.stage = s.core.stage := rfl
@[simp] theorem onLoc_core_text (s : State) (f : Local → Local) : (s.onLoc f).core.text = s.core.text := rfl
@[simp] theorem onLoc_core_sq (s : State) (f : Local → Local) : (s.onLoc f).core.sq = s.core.sq := rfl
@[simp] theorem onLoc_core_loc (s : State) (f : Local → Local) : (s.onLoc f).core.loc = f s.core.loc := rfl
@[simp] theorem onLoc_core_fab (s : State) (f : Local → Local) : (s.onLoc f).core.fab = s.core.fab := rfl
@[simp] theorem onLoc_core_queues (s : State) (f : Local → Local) : (s.onLoc f).core.queues = s.core.queues := rfl
@[simp] theorem onLoc_core_order (s : State) (f : Local → Local) : (s.onLoc f).core.order = s.core.order := rfl
@[simp] theorem onLoc_core_donePts (s : State) (f : Local → Local) : (s.onLoc f).core.donePts = s.core.donePts := rfl
@[simp] theorem onLoc_core_floor (s : State) (f : Local → Local) : (s.onLoc f).core.floor = s.core.floor := rfl
@[simp] theorem onLoc_core_rotAt (s : State) (f : Local → Local) : (s.onLoc f).core.rotAt = s.core.rotAt := rfl
@[simp] theorem onLoc_core_lastCh (s : State) (f : Local → Local) : (s.onLoc f).core.lastCh = s.core.lastCh := rfl
@[simp] theorem onLoc_core_mxe (s : State) (f : Local → Local) : (s.onLoc f).core.mxe = s.core.mxe := rfl
@[simp] theorem onLoc_core_syeSeq (s : State) (f : Local → Local) : (s.onLoc f).core.syeSeq = s.core.syeSeq := rfl
@[simp] theorem onLoc_core_blocks (s : State) (f : Local → Local) : (s.onLoc f).core.blocks = s.core.blocks := rfl
@[simp] theorem onLoc_core_l1 (s : State) (f : Local → Local) : (s.onLoc f).core.l1 = s.core.l1 := rfl
@[simp] theorem onLoc_core_wb (s : State) (f : Local → Local) : (s.onLoc f).core.wb = s.core.wb := rfl
@[simp] theorem onLoc_core_tlb (s : State) (f : Local → Local) : (s.onLoc f).core.tlb = s.core.tlb := rfl
@[simp] theorem onLoc_core_cpeTlb (s : State) (f : Local → Local) : (s.onLoc f).core.cpeTlb = s.core.cpeTlb := rfl
@[simp] theorem onLoc_core_events (s : State) (f : Local → Local) : (s.onLoc f).core.events = s.core.events := rfl
@[simp] theorem onLoc_core_active (s : State) (f : Local → Local) : (s.onLoc f).core.active = s.core.active := rfl
@[simp] theorem onLoc_core_refused (s : State) (f : Local → Local) : (s.onLoc f).core.refused = s.core.refused := rfl
@[simp] theorem onLoc_core_removed (s : State) (f : Local → Local) : (s.onLoc f).core.removed = s.core.removed := rfl
@[simp] theorem onLoc_core_ended (s : State) (f : Local → Local) : (s.onLoc f).core.ended = s.core.ended := rfl
@[simp] theorem onLoc_core_begun (s : State) (f : Local → Local) : (s.onLoc f).core.begun = s.core.begun := rfl
@[simp] theorem onLoc_core_retired (s : State) (f : Local → Local) : (s.onLoc f).core.retired = s.core.retired := rfl
@[simp] theorem onLoc_core_preempting (s : State) (f : Local → Local) : (s.onLoc f).core.preempting = s.core.preempting := rfl
@[simp] theorem onLoc_core_captured (s : State) (f : Local → Local) : (s.onLoc f).core.captured = s.core.captured := rfl
@[simp] theorem onLoc_core_idle (s : State) (f : Local → Local) : (s.onLoc f).core.idle = s.core.idle := rfl
@[simp] theorem onLoc_core_fault (s : State) (f : Local → Local) : (s.onLoc f).core.fault = s.core.fault := rfl
@[simp] theorem onLoc_core_sig (s : State) (f : Local → Local) : (s.onLoc f).core.sig = s.core.sig := rfl

/-! ### `onFab` -/

@[simp] theorem onFab_others (s : State) (f : Fabric → Fabric) : (s.onFab f).others = s.others := rfl
@[simp] theorem onFab_chip (s : State) (f : Fabric → Fabric) : (s.onFab f).chip = s.chip := rfl
@[simp] theorem onFab_inbox (s : State) (f : Fabric → Fabric) : (s.onFab f).inbox = s.inbox := rfl
@[simp] theorem onFab_stage (s : State) (f : Fabric → Fabric) : (s.onFab f).stage = s.stage := rfl
@[simp] theorem onFab_fresh (s : State) (f : Fabric → Fabric) : (s.onFab f).fresh = s.fresh := rfl
@[simp] theorem onFab_core_cid (s : State) (f : Fabric → Fabric) : (s.onFab f).core.cid = s.core.cid := rfl
@[simp] theorem onFab_core_task (s : State) (f : Fabric → Fabric) : (s.onFab f).core.task = s.core.task := rfl
@[simp] theorem onFab_core_tick (s : State) (f : Fabric → Fabric) : (s.onFab f).core.tick = s.core.tick := rfl
@[simp] theorem onFab_core_stage (s : State) (f : Fabric → Fabric) : (s.onFab f).core.stage = s.core.stage := rfl
@[simp] theorem onFab_core_text (s : State) (f : Fabric → Fabric) : (s.onFab f).core.text = s.core.text := rfl
@[simp] theorem onFab_core_sq (s : State) (f : Fabric → Fabric) : (s.onFab f).core.sq = s.core.sq := rfl
@[simp] theorem onFab_core_loc (s : State) (f : Fabric → Fabric) : (s.onFab f).core.loc = s.core.loc := rfl
@[simp] theorem onFab_core_fab (s : State) (f : Fabric → Fabric) : (s.onFab f).core.fab = f s.core.fab := rfl
@[simp] theorem onFab_core_queues (s : State) (f : Fabric → Fabric) : (s.onFab f).core.queues = s.core.queues := rfl
@[simp] theorem onFab_core_order (s : State) (f : Fabric → Fabric) : (s.onFab f).core.order = s.core.order := rfl
@[simp] theorem onFab_core_donePts (s : State) (f : Fabric → Fabric) : (s.onFab f).core.donePts = s.core.donePts := rfl
@[simp] theorem onFab_core_floor (s : State) (f : Fabric → Fabric) : (s.onFab f).core.floor = s.core.floor := rfl
@[simp] theorem onFab_core_rotAt (s : State) (f : Fabric → Fabric) : (s.onFab f).core.rotAt = s.core.rotAt := rfl
@[simp] theorem onFab_core_lastCh (s : State) (f : Fabric → Fabric) : (s.onFab f).core.lastCh = s.core.lastCh := rfl
@[simp] theorem onFab_core_mxe (s : State) (f : Fabric → Fabric) : (s.onFab f).core.mxe = s.core.mxe := rfl
@[simp] theorem onFab_core_syeSeq (s : State) (f : Fabric → Fabric) : (s.onFab f).core.syeSeq = s.core.syeSeq := rfl
@[simp] theorem onFab_core_blocks (s : State) (f : Fabric → Fabric) : (s.onFab f).core.blocks = s.core.blocks := rfl
@[simp] theorem onFab_core_l1 (s : State) (f : Fabric → Fabric) : (s.onFab f).core.l1 = s.core.l1 := rfl
@[simp] theorem onFab_core_wb (s : State) (f : Fabric → Fabric) : (s.onFab f).core.wb = s.core.wb := rfl
@[simp] theorem onFab_core_tlb (s : State) (f : Fabric → Fabric) : (s.onFab f).core.tlb = s.core.tlb := rfl
@[simp] theorem onFab_core_cpeTlb (s : State) (f : Fabric → Fabric) : (s.onFab f).core.cpeTlb = s.core.cpeTlb := rfl
@[simp] theorem onFab_core_events (s : State) (f : Fabric → Fabric) : (s.onFab f).core.events = s.core.events := rfl
@[simp] theorem onFab_core_active (s : State) (f : Fabric → Fabric) : (s.onFab f).core.active = s.core.active := rfl
@[simp] theorem onFab_core_refused (s : State) (f : Fabric → Fabric) : (s.onFab f).core.refused = s.core.refused := rfl
@[simp] theorem onFab_core_removed (s : State) (f : Fabric → Fabric) : (s.onFab f).core.removed = s.core.removed := rfl
@[simp] theorem onFab_core_ended (s : State) (f : Fabric → Fabric) : (s.onFab f).core.ended = s.core.ended := rfl
@[simp] theorem onFab_core_begun (s : State) (f : Fabric → Fabric) : (s.onFab f).core.begun = s.core.begun := rfl
@[simp] theorem onFab_core_retired (s : State) (f : Fabric → Fabric) : (s.onFab f).core.retired = s.core.retired := rfl
@[simp] theorem onFab_core_preempting (s : State) (f : Fabric → Fabric) : (s.onFab f).core.preempting = s.core.preempting := rfl
@[simp] theorem onFab_core_captured (s : State) (f : Fabric → Fabric) : (s.onFab f).core.captured = s.core.captured := rfl
@[simp] theorem onFab_core_idle (s : State) (f : Fabric → Fabric) : (s.onFab f).core.idle = s.core.idle := rfl
@[simp] theorem onFab_core_fault (s : State) (f : Fabric → Fabric) : (s.onFab f).core.fault = s.core.fault := rfl
@[simp] theorem onFab_core_sig (s : State) (f : Fabric → Fabric) : (s.onFab f).core.sig = s.core.sig := rfl

/-! ### `onChip` -/

@[simp] theorem onChip_core (s : State) (f : Chip → Chip) : (s.onChip f).core = s.core := rfl
@[simp] theorem onChip_others (s : State) (f : Chip → Chip) : (s.onChip f).others = s.others := rfl
@[simp] theorem onChip_chip (s : State) (f : Chip → Chip) : (s.onChip f).chip = f s.chip := rfl
@[simp] theorem onChip_inbox (s : State) (f : Chip → Chip) : (s.onChip f).inbox = s.inbox := rfl
@[simp] theorem onChip_stage (s : State) (f : Chip → Chip) : (s.onChip f).stage = s.stage := rfl
@[simp] theorem onChip_fresh (s : State) (f : Chip → Chip) : (s.onChip f).fresh = s.fresh := rfl

/-! ### The small updates made of them -/

@[simp] theorem post_others (s : State) (n : Nat) (x : Landing) : (s.post n x).others = s.others := rfl
@[simp] theorem post_chip (s : State) (n : Nat) (x : Landing) : (s.post n x).chip = s.chip := rfl
@[simp] theorem post_inbox (s : State) (n : Nat) (x : Landing) : (s.post n x).inbox = s.inbox := rfl
@[simp] theorem post_stage (s : State) (n : Nat) (x : Landing) : (s.post n x).stage = s.stage := rfl
@[simp] theorem post_fresh (s : State) (n : Nat) (x : Landing) : (s.post n x).fresh = s.fresh := rfl
@[simp] theorem post_core_cid (s : State) (n : Nat) (x : Landing) : (s.post n x).core.cid = s.core.cid := rfl
@[simp] theorem post_core_task (s : State) (n : Nat) (x : Landing) : (s.post n x).core.task = s.core.task := rfl
@[simp] theorem post_core_tick (s : State) (n : Nat) (x : Landing) : (s.post n x).core.tick = s.core.tick := rfl
@[simp] theorem post_core_stage (s : State) (n : Nat) (x : Landing) : (s.post n x).core.stage = s.core.stage := rfl
@[simp] theorem post_core_text (s : State) (n : Nat) (x : Landing) : (s.post n x).core.text = s.core.text := rfl
@[simp] theorem post_core_loc (s : State) (n : Nat) (x : Landing) : (s.post n x).core.loc = s.core.loc := rfl
@[simp] theorem post_core_fab (s : State) (n : Nat) (x : Landing) : (s.post n x).core.fab = s.core.fab := rfl
@[simp] theorem post_core_queues (s : State) (n : Nat) (x : Landing) : (s.post n x).core.queues = s.core.queues := rfl
@[simp] theorem post_core_order (s : State) (n : Nat) (x : Landing) : (s.post n x).core.order = s.core.order := rfl
@[simp] theorem post_core_donePts (s : State) (n : Nat) (x : Landing) : (s.post n x).core.donePts = s.core.donePts := rfl
@[simp] theorem post_core_floor (s : State) (n : Nat) (x : Landing) : (s.post n x).core.floor = s.core.floor := rfl
@[simp] theorem post_core_rotAt (s : State) (n : Nat) (x : Landing) : (s.post n x).core.rotAt = s.core.rotAt := rfl
@[simp] theorem post_core_lastCh (s : State) (n : Nat) (x : Landing) : (s.post n x).core.lastCh = s.core.lastCh := rfl
@[simp] theorem post_core_mxe (s : State) (n : Nat) (x : Landing) : (s.post n x).core.mxe = s.core.mxe := rfl
@[simp] theorem post_core_syeSeq (s : State) (n : Nat) (x : Landing) : (s.post n x).core.syeSeq = s.core.syeSeq := rfl
@[simp] theorem post_core_blocks (s : State) (n : Nat) (x : Landing) : (s.post n x).core.blocks = s.core.blocks := rfl
@[simp] theorem post_core_l1 (s : State) (n : Nat) (x : Landing) : (s.post n x).core.l1 = s.core.l1 := rfl
@[simp] theorem post_core_wb (s : State) (n : Nat) (x : Landing) : (s.post n x).core.wb = s.core.wb := rfl
@[simp] theorem post_core_tlb (s : State) (n : Nat) (x : Landing) : (s.post n x).core.tlb = s.core.tlb := rfl
@[simp] theorem post_core_cpeTlb (s : State) (n : Nat) (x : Landing) : (s.post n x).core.cpeTlb = s.core.cpeTlb := rfl
@[simp] theorem post_core_events (s : State) (n : Nat) (x : Landing) : (s.post n x).core.events = s.core.events := rfl
@[simp] theorem post_core_active (s : State) (n : Nat) (x : Landing) : (s.post n x).core.active = s.core.active := rfl
@[simp] theorem post_core_refused (s : State) (n : Nat) (x : Landing) : (s.post n x).core.refused = s.core.refused := rfl
@[simp] theorem post_core_removed (s : State) (n : Nat) (x : Landing) : (s.post n x).core.removed = s.core.removed := rfl
@[simp] theorem post_core_ended (s : State) (n : Nat) (x : Landing) : (s.post n x).core.ended = s.core.ended := rfl
@[simp] theorem post_core_begun (s : State) (n : Nat) (x : Landing) : (s.post n x).core.begun = s.core.begun := rfl
@[simp] theorem post_core_retired (s : State) (n : Nat) (x : Landing) : (s.post n x).core.retired = s.core.retired := rfl
@[simp] theorem post_core_preempting (s : State) (n : Nat) (x : Landing) : (s.post n x).core.preempting = s.core.preempting := rfl
@[simp] theorem post_core_captured (s : State) (n : Nat) (x : Landing) : (s.post n x).core.captured = s.core.captured := rfl
@[simp] theorem post_core_idle (s : State) (n : Nat) (x : Landing) : (s.post n x).core.idle = s.core.idle := rfl
@[simp] theorem post_core_fault (s : State) (n : Nat) (x : Landing) : (s.post n x).core.fault = s.core.fault := rfl
@[simp] theorem post_core_sig (s : State) (n : Nat) (x : Landing) : (s.post n x).core.sig = s.core.sig := rfl
@[simp] theorem post_core_sq (s : State) (n : Nat) (x : Landing) : (s.post n x).core.sq = { s.core.sq with flight := s.core.sq.flight ++ [⟨s.chip.now + n, x⟩] } := rfl

@[simp] theorem goes_others (s : State) (a : After) : (s.goes a).others = s.others := rfl
@[simp] theorem goes_chip (s : State) (a : After) : (s.goes a).chip = s.chip := rfl
@[simp] theorem goes_inbox (s : State) (a : After) : (s.goes a).inbox = s.inbox := rfl
@[simp] theorem goes_stage (s : State) (a : After) : (s.goes a).stage = s.stage := rfl
@[simp] theorem goes_fresh (s : State) (a : After) : (s.goes a).fresh = s.fresh := rfl
@[simp] theorem goes_core_cid (s : State) (a : After) : (s.goes a).core.cid = s.core.cid := rfl
@[simp] theorem goes_core_task (s : State) (a : After) : (s.goes a).core.task = s.core.task := rfl
@[simp] theorem goes_core_tick (s : State) (a : After) : (s.goes a).core.tick = s.core.tick := rfl
@[simp] theorem goes_core_stage (s : State) (a : After) : (s.goes a).core.stage = s.core.stage := rfl
@[simp] theorem goes_core_text (s : State) (a : After) : (s.goes a).core.text = s.core.text := rfl
@[simp] theorem goes_core_loc (s : State) (a : After) : (s.goes a).core.loc = s.core.loc := rfl
@[simp] theorem goes_core_fab (s : State) (a : After) : (s.goes a).core.fab = s.core.fab := rfl
@[simp] theorem goes_core_queues (s : State) (a : After) : (s.goes a).core.queues = s.core.queues := rfl
@[simp] theorem goes_core_order (s : State) (a : After) : (s.goes a).core.order = s.core.order := rfl
@[simp] theorem goes_core_donePts (s : State) (a : After) : (s.goes a).core.donePts = s.core.donePts := rfl
@[simp] theorem goes_core_floor (s : State) (a : After) : (s.goes a).core.floor = s.core.floor := rfl
@[simp] theorem goes_core_rotAt (s : State) (a : After) : (s.goes a).core.rotAt = s.core.rotAt := rfl
@[simp] theorem goes_core_lastCh (s : State) (a : After) : (s.goes a).core.lastCh = s.core.lastCh := rfl
@[simp] theorem goes_core_mxe (s : State) (a : After) : (s.goes a).core.mxe = s.core.mxe := rfl
@[simp] theorem goes_core_syeSeq (s : State) (a : After) : (s.goes a).core.syeSeq = s.core.syeSeq := rfl
@[simp] theorem goes_core_blocks (s : State) (a : After) : (s.goes a).core.blocks = s.core.blocks := rfl
@[simp] theorem goes_core_l1 (s : State) (a : After) : (s.goes a).core.l1 = s.core.l1 := rfl
@[simp] theorem goes_core_wb (s : State) (a : After) : (s.goes a).core.wb = s.core.wb := rfl
@[simp] theorem goes_core_tlb (s : State) (a : After) : (s.goes a).core.tlb = s.core.tlb := rfl
@[simp] theorem goes_core_cpeTlb (s : State) (a : After) : (s.goes a).core.cpeTlb = s.core.cpeTlb := rfl
@[simp] theorem goes_core_events (s : State) (a : After) : (s.goes a).core.events = s.core.events := rfl
@[simp] theorem goes_core_active (s : State) (a : After) : (s.goes a).core.active = s.core.active := rfl
@[simp] theorem goes_core_refused (s : State) (a : After) : (s.goes a).core.refused = s.core.refused := rfl
@[simp] theorem goes_core_removed (s : State) (a : After) : (s.goes a).core.removed = s.core.removed := rfl
@[simp] theorem goes_core_ended (s : State) (a : After) : (s.goes a).core.ended = s.core.ended := rfl
@[simp] theorem goes_core_begun (s : State) (a : After) : (s.goes a).core.begun = s.core.begun := rfl
@[simp] theorem goes_core_retired (s : State) (a : After) : (s.goes a).core.retired = s.core.retired := rfl
@[simp] theorem goes_core_preempting (s : State) (a : After) : (s.goes a).core.preempting = s.core.preempting := rfl
@[simp] theorem goes_core_captured (s : State) (a : After) : (s.goes a).core.captured = s.core.captured := rfl
@[simp] theorem goes_core_idle (s : State) (a : After) : (s.goes a).core.idle = s.core.idle := rfl
@[simp] theorem goes_core_fault (s : State) (a : After) : (s.goes a).core.fault = s.core.fault := rfl
@[simp] theorem goes_core_sig (s : State) (a : After) : (s.goes a).core.sig = s.core.sig := rfl
@[simp] theorem goes_core_sq (s : State) (a : After) : (s.goes a).core.sq = { s.core.sq with after := a } := rfl

@[simp] theorem event_others (s : State) (k : Fin 23) (n : Nat) : (s.event k n).others = s.others := rfl
@[simp] theorem event_chip (s : State) (k : Fin 23) (n : Nat) : (s.event k n).chip = s.chip := rfl
@[simp] theorem event_inbox (s : State) (k : Fin 23) (n : Nat) : (s.event k n).inbox = s.inbox := rfl
@[simp] theorem event_stage (s : State) (k : Fin 23) (n : Nat) : (s.event k n).stage = s.stage := rfl
@[simp] theorem event_fresh (s : State) (k : Fin 23) (n : Nat) : (s.event k n).fresh = s.fresh := rfl
@[simp] theorem event_core_cid (s : State) (k : Fin 23) (n : Nat) : (s.event k n).core.cid = s.core.cid := rfl
@[simp] theorem event_core_task (s : State) (k : Fin 23) (n : Nat) : (s.event k n).core.task = s.core.task := rfl
@[simp] theorem event_core_tick (s : State) (k : Fin 23) (n : Nat) : (s.event k n).core.tick = s.core.tick := rfl
@[simp] theorem event_core_stage (s : State) (k : Fin 23) (n : Nat) : (s.event k n).core.stage = s.core.stage := rfl
@[simp] theorem event_core_text (s : State) (k : Fin 23) (n : Nat) : (s.event k n).core.text = s.core.text := rfl
@[simp] theorem event_core_sq (s : State) (k : Fin 23) (n : Nat) : (s.event k n).core.sq = s.core.sq := rfl
@[simp] theorem event_core_loc (s : State) (k : Fin 23) (n : Nat) : (s.event k n).core.loc = s.core.loc := rfl
@[simp] theorem event_core_fab (s : State) (k : Fin 23) (n : Nat) : (s.event k n).core.fab = s.core.fab := rfl
@[simp] theorem event_core_queues (s : State) (k : Fin 23) (n : Nat) : (s.event k n).core.queues = s.core.queues := rfl
@[simp] theorem event_core_order (s : State) (k : Fin 23) (n : Nat) : (s.event k n).core.order = s.core.order := rfl
@[simp] theorem event_core_donePts (s : State) (k : Fin 23) (n : Nat) : (s.event k n).core.donePts = s.core.donePts := rfl
@[simp] theorem event_core_floor (s : State) (k : Fin 23) (n : Nat) : (s.event k n).core.floor = s.core.floor := rfl
@[simp] theorem event_core_rotAt (s : State) (k : Fin 23) (n : Nat) : (s.event k n).core.rotAt = s.core.rotAt := rfl
@[simp] theorem event_core_lastCh (s : State) (k : Fin 23) (n : Nat) : (s.event k n).core.lastCh = s.core.lastCh := rfl
@[simp] theorem event_core_mxe (s : State) (k : Fin 23) (n : Nat) : (s.event k n).core.mxe = s.core.mxe := rfl
@[simp] theorem event_core_syeSeq (s : State) (k : Fin 23) (n : Nat) : (s.event k n).core.syeSeq = s.core.syeSeq := rfl
@[simp] theorem event_core_blocks (s : State) (k : Fin 23) (n : Nat) : (s.event k n).core.blocks = s.core.blocks := rfl
@[simp] theorem event_core_l1 (s : State) (k : Fin 23) (n : Nat) : (s.event k n).core.l1 = s.core.l1 := rfl
@[simp] theorem event_core_wb (s : State) (k : Fin 23) (n : Nat) : (s.event k n).core.wb = s.core.wb := rfl
@[simp] theorem event_core_tlb (s : State) (k : Fin 23) (n : Nat) : (s.event k n).core.tlb = s.core.tlb := rfl
@[simp] theorem event_core_cpeTlb (s : State) (k : Fin 23) (n : Nat) : (s.event k n).core.cpeTlb = s.core.cpeTlb := rfl
@[simp] theorem event_core_active (s : State) (k : Fin 23) (n : Nat) : (s.event k n).core.active = s.core.active := rfl
@[simp] theorem event_core_refused (s : State) (k : Fin 23) (n : Nat) : (s.event k n).core.refused = s.core.refused := rfl
@[simp] theorem event_core_removed (s : State) (k : Fin 23) (n : Nat) : (s.event k n).core.removed = s.core.removed := rfl
@[simp] theorem event_core_ended (s : State) (k : Fin 23) (n : Nat) : (s.event k n).core.ended = s.core.ended := rfl
@[simp] theorem event_core_begun (s : State) (k : Fin 23) (n : Nat) : (s.event k n).core.begun = s.core.begun := rfl
@[simp] theorem event_core_retired (s : State) (k : Fin 23) (n : Nat) : (s.event k n).core.retired = s.core.retired := rfl
@[simp] theorem event_core_preempting (s : State) (k : Fin 23) (n : Nat) : (s.event k n).core.preempting = s.core.preempting := rfl
@[simp] theorem event_core_captured (s : State) (k : Fin 23) (n : Nat) : (s.event k n).core.captured = s.core.captured := rfl
@[simp] theorem event_core_idle (s : State) (k : Fin 23) (n : Nat) : (s.event k n).core.idle = s.core.idle := rfl
@[simp] theorem event_core_fault (s : State) (k : Fin 23) (n : Nat) : (s.event k n).core.fault = s.core.fault := rfl
@[simp] theorem event_core_sig (s : State) (k : Fin 23) (n : Nat) : (s.event k n).core.sig = s.core.sig := rfl
@[simp] theorem event_core_events (s : State) (k : Fin 23) (n : Nat) : (s.event k n).core.events = s.core.events.set k (s.core.events[k] + n) := rfl

@[simp] theorem act_others (s : State)  : (s.act).others = s.others := rfl
@[simp] theorem act_chip (s : State)  : (s.act).chip = s.chip := rfl
@[simp] theorem act_inbox (s : State)  : (s.act).inbox = s.inbox := rfl
@[simp] theorem act_stage (s : State)  : (s.act).stage = s.stage := rfl
@[simp] theorem act_fresh (s : State)  : (s.act).fresh = s.fresh := rfl
@[simp] theorem act_core_cid (s : State)  : (s.act).core.cid = s.core.cid := rfl
@[simp] theorem act_core_task (s : State)  : (s.act).core.task = s.core.task := rfl
@[simp] theorem act_core_tick (s : State)  : (s.act).core.tick = s.core.tick := rfl
@[simp] theorem act_core_stage (s : State)  : (s.act).core.stage = s.core.stage := rfl
@[simp] theorem act_core_text (s : State)  : (s.act).core.text = s.core.text := rfl
@[simp] theorem act_core_sq (s : State)  : (s.act).core.sq = s.core.sq := rfl
@[simp] theorem act_core_loc (s : State)  : (s.act).core.loc = s.core.loc := rfl
@[simp] theorem act_core_fab (s : State)  : (s.act).core.fab = s.core.fab := rfl
@[simp] theorem act_core_queues (s : State)  : (s.act).core.queues = s.core.queues := rfl
@[simp] theorem act_core_order (s : State)  : (s.act).core.order = s.core.order := rfl
@[simp] theorem act_core_donePts (s : State)  : (s.act).core.donePts = s.core.donePts := rfl
@[simp] theorem act_core_floor (s : State)  : (s.act).core.floor = s.core.floor := rfl
@[simp] theorem act_core_rotAt (s : State)  : (s.act).core.rotAt = s.core.rotAt := rfl
@[simp] theorem act_core_lastCh (s : State)  : (s.act).core.lastCh = s.core.lastCh := rfl
@[simp] theorem act_core_mxe (s : State)  : (s.act).core.mxe = s.core.mxe := rfl
@[simp] theorem act_core_syeSeq (s : State)  : (s.act).core.syeSeq = s.core.syeSeq := rfl
@[simp] theorem act_core_blocks (s : State)  : (s.act).core.blocks = s.core.blocks := rfl
@[simp] theorem act_core_l1 (s : State)  : (s.act).core.l1 = s.core.l1 := rfl
@[simp] theorem act_core_wb (s : State)  : (s.act).core.wb = s.core.wb := rfl
@[simp] theorem act_core_tlb (s : State)  : (s.act).core.tlb = s.core.tlb := rfl
@[simp] theorem act_core_cpeTlb (s : State)  : (s.act).core.cpeTlb = s.core.cpeTlb := rfl
@[simp] theorem act_core_events (s : State)  : (s.act).core.events = s.core.events := rfl
@[simp] theorem act_core_refused (s : State)  : (s.act).core.refused = s.core.refused := rfl
@[simp] theorem act_core_removed (s : State)  : (s.act).core.removed = s.core.removed := rfl
@[simp] theorem act_core_ended (s : State)  : (s.act).core.ended = s.core.ended := rfl
@[simp] theorem act_core_begun (s : State)  : (s.act).core.begun = s.core.begun := rfl
@[simp] theorem act_core_retired (s : State)  : (s.act).core.retired = s.core.retired := rfl
@[simp] theorem act_core_preempting (s : State)  : (s.act).core.preempting = s.core.preempting := rfl
@[simp] theorem act_core_captured (s : State)  : (s.act).core.captured = s.core.captured := rfl
@[simp] theorem act_core_idle (s : State)  : (s.act).core.idle = s.core.idle := rfl
@[simp] theorem act_core_fault (s : State)  : (s.act).core.fault = s.core.fault := rfl
@[simp] theorem act_core_sig (s : State)  : (s.act).core.sig = s.core.sig := rfl
@[simp] theorem act_core_active (s : State)  : (s.act).core.active = true := rfl

@[simp] theorem stalls_others (s : State) (k : Stall) : (s.stalls k).others = s.others := rfl
@[simp] theorem stalls_chip (s : State) (k : Stall) : (s.stalls k).chip = s.chip := rfl
@[simp] theorem stalls_inbox (s : State) (k : Stall) : (s.stalls k).inbox = s.inbox := rfl
@[simp] theorem stalls_stage (s : State) (k : Stall) : (s.stalls k).stage = s.stage := rfl
@[simp] theorem stalls_fresh (s : State) (k : Stall) : (s.stalls k).fresh = s.fresh := rfl
@[simp] theorem stalls_core_cid (s : State) (k : Stall) : (s.stalls k).core.cid = s.core.cid := rfl
@[simp] theorem stalls_core_task (s : State) (k : Stall) : (s.stalls k).core.task = s.core.task := rfl
@[simp] theorem stalls_core_tick (s : State) (k : Stall) : (s.stalls k).core.tick = s.core.tick := rfl
@[simp] theorem stalls_core_stage (s : State) (k : Stall) : (s.stalls k).core.stage = s.core.stage := rfl
@[simp] theorem stalls_core_text (s : State) (k : Stall) : (s.stalls k).core.text = s.core.text := rfl
@[simp] theorem stalls_core_loc (s : State) (k : Stall) : (s.stalls k).core.loc = s.core.loc := rfl
@[simp] theorem stalls_core_fab (s : State) (k : Stall) : (s.stalls k).core.fab = s.core.fab := rfl
@[simp] theorem stalls_core_queues (s : State) (k : Stall) : (s.stalls k).core.queues = s.core.queues := rfl
@[simp] theorem stalls_core_order (s : State) (k : Stall) : (s.stalls k).core.order = s.core.order := rfl
@[simp] theorem stalls_core_donePts (s : State) (k : Stall) : (s.stalls k).core.donePts = s.core.donePts := rfl
@[simp] theorem stalls_core_floor (s : State) (k : Stall) : (s.stalls k).core.floor = s.core.floor := rfl
@[simp] theorem stalls_core_rotAt (s : State) (k : Stall) : (s.stalls k).core.rotAt = s.core.rotAt := rfl
@[simp] theorem stalls_core_lastCh (s : State) (k : Stall) : (s.stalls k).core.lastCh = s.core.lastCh := rfl
@[simp] theorem stalls_core_mxe (s : State) (k : Stall) : (s.stalls k).core.mxe = s.core.mxe := rfl
@[simp] theorem stalls_core_syeSeq (s : State) (k : Stall) : (s.stalls k).core.syeSeq = s.core.syeSeq := rfl
@[simp] theorem stalls_core_blocks (s : State) (k : Stall) : (s.stalls k).core.blocks = s.core.blocks := rfl
@[simp] theorem stalls_core_l1 (s : State) (k : Stall) : (s.stalls k).core.l1 = s.core.l1 := rfl
@[simp] theorem stalls_core_wb (s : State) (k : Stall) : (s.stalls k).core.wb = s.core.wb := rfl
@[simp] theorem stalls_core_tlb (s : State) (k : Stall) : (s.stalls k).core.tlb = s.core.tlb := rfl
@[simp] theorem stalls_core_cpeTlb (s : State) (k : Stall) : (s.stalls k).core.cpeTlb = s.core.cpeTlb := rfl
@[simp] theorem stalls_core_events (s : State) (k : Stall) : (s.stalls k).core.events = s.core.events := rfl
@[simp] theorem stalls_core_active (s : State) (k : Stall) : (s.stalls k).core.active = s.core.active := rfl
@[simp] theorem stalls_core_refused (s : State) (k : Stall) : (s.stalls k).core.refused = s.core.refused := rfl
@[simp] theorem stalls_core_removed (s : State) (k : Stall) : (s.stalls k).core.removed = s.core.removed := rfl
@[simp] theorem stalls_core_ended (s : State) (k : Stall) : (s.stalls k).core.ended = s.core.ended := rfl
@[simp] theorem stalls_core_begun (s : State) (k : Stall) : (s.stalls k).core.begun = s.core.begun := rfl
@[simp] theorem stalls_core_retired (s : State) (k : Stall) : (s.stalls k).core.retired = s.core.retired := rfl
@[simp] theorem stalls_core_preempting (s : State) (k : Stall) : (s.stalls k).core.preempting = s.core.preempting := rfl
@[simp] theorem stalls_core_captured (s : State) (k : Stall) : (s.stalls k).core.captured = s.core.captured := rfl
@[simp] theorem stalls_core_idle (s : State) (k : Stall) : (s.stalls k).core.idle = s.core.idle := rfl
@[simp] theorem stalls_core_fault (s : State) (k : Stall) : (s.stalls k).core.fault = s.core.fault := rfl
@[simp] theorem stalls_core_sig (s : State) (k : Stall) : (s.stalls k).core.sig = s.core.sig := rfl
@[simp] theorem stalls_core_sq (s : State) (k : Stall) : (s.stalls k).core.sq = { s.core.sq with ctr := s.core.sq.ctr.stall k } := rfl

@[simp] theorem raiseAsync_others (s : State) (c : Cause) (p : BitVec 6) : (s.raiseAsync c p).others = s.others := rfl
@[simp] theorem raiseAsync_chip (s : State) (c : Cause) (p : BitVec 6) : (s.raiseAsync c p).chip = s.chip := rfl
@[simp] theorem raiseAsync_inbox (s : State) (c : Cause) (p : BitVec 6) : (s.raiseAsync c p).inbox = s.inbox := rfl
@[simp] theorem raiseAsync_stage (s : State) (c : Cause) (p : BitVec 6) : (s.raiseAsync c p).stage = s.stage := rfl
@[simp] theorem raiseAsync_fresh (s : State) (c : Cause) (p : BitVec 6) : (s.raiseAsync c p).fresh = s.fresh := rfl
@[simp] theorem raiseAsync_core_cid (s : State) (c : Cause) (p : BitVec 6) : (s.raiseAsync c p).core.cid = s.core.cid := rfl
@[simp] theorem raiseAsync_core_task (s : State) (c : Cause) (p : BitVec 6) : (s.raiseAsync c p).core.task = s.core.task := rfl
@[simp] theorem raiseAsync_core_tick (s : State) (c : Cause) (p : BitVec 6) : (s.raiseAsync c p).core.tick = s.core.tick := rfl
@[simp] theorem raiseAsync_core_stage (s : State) (c : Cause) (p : BitVec 6) : (s.raiseAsync c p).core.stage = s.core.stage := rfl
@[simp] theorem raiseAsync_core_text (s : State) (c : Cause) (p : BitVec 6) : (s.raiseAsync c p).core.text = s.core.text := rfl
@[simp] theorem raiseAsync_core_loc (s : State) (c : Cause) (p : BitVec 6) : (s.raiseAsync c p).core.loc = s.core.loc := rfl
@[simp] theorem raiseAsync_core_fab (s : State) (c : Cause) (p : BitVec 6) : (s.raiseAsync c p).core.fab = s.core.fab := rfl
@[simp] theorem raiseAsync_core_queues (s : State) (c : Cause) (p : BitVec 6) : (s.raiseAsync c p).core.queues = s.core.queues := rfl
@[simp] theorem raiseAsync_core_order (s : State) (c : Cause) (p : BitVec 6) : (s.raiseAsync c p).core.order = s.core.order := rfl
@[simp] theorem raiseAsync_core_donePts (s : State) (c : Cause) (p : BitVec 6) : (s.raiseAsync c p).core.donePts = s.core.donePts := rfl
@[simp] theorem raiseAsync_core_floor (s : State) (c : Cause) (p : BitVec 6) : (s.raiseAsync c p).core.floor = s.core.floor := rfl
@[simp] theorem raiseAsync_core_rotAt (s : State) (c : Cause) (p : BitVec 6) : (s.raiseAsync c p).core.rotAt = s.core.rotAt := rfl
@[simp] theorem raiseAsync_core_lastCh (s : State) (c : Cause) (p : BitVec 6) : (s.raiseAsync c p).core.lastCh = s.core.lastCh := rfl
@[simp] theorem raiseAsync_core_mxe (s : State) (c : Cause) (p : BitVec 6) : (s.raiseAsync c p).core.mxe = s.core.mxe := rfl
@[simp] theorem raiseAsync_core_syeSeq (s : State) (c : Cause) (p : BitVec 6) : (s.raiseAsync c p).core.syeSeq = s.core.syeSeq := rfl
@[simp] theorem raiseAsync_core_blocks (s : State) (c : Cause) (p : BitVec 6) : (s.raiseAsync c p).core.blocks = s.core.blocks := rfl
@[simp] theorem raiseAsync_core_l1 (s : State) (c : Cause) (p : BitVec 6) : (s.raiseAsync c p).core.l1 = s.core.l1 := rfl
@[simp] theorem raiseAsync_core_wb (s : State) (c : Cause) (p : BitVec 6) : (s.raiseAsync c p).core.wb = s.core.wb := rfl
@[simp] theorem raiseAsync_core_tlb (s : State) (c : Cause) (p : BitVec 6) : (s.raiseAsync c p).core.tlb = s.core.tlb := rfl
@[simp] theorem raiseAsync_core_cpeTlb (s : State) (c : Cause) (p : BitVec 6) : (s.raiseAsync c p).core.cpeTlb = s.core.cpeTlb := rfl
@[simp] theorem raiseAsync_core_events (s : State) (c : Cause) (p : BitVec 6) : (s.raiseAsync c p).core.events = s.core.events := rfl
@[simp] theorem raiseAsync_core_active (s : State) (c : Cause) (p : BitVec 6) : (s.raiseAsync c p).core.active = s.core.active := rfl
@[simp] theorem raiseAsync_core_refused (s : State) (c : Cause) (p : BitVec 6) : (s.raiseAsync c p).core.refused = s.core.refused := rfl
@[simp] theorem raiseAsync_core_removed (s : State) (c : Cause) (p : BitVec 6) : (s.raiseAsync c p).core.removed = s.core.removed := rfl
@[simp] theorem raiseAsync_core_ended (s : State) (c : Cause) (p : BitVec 6) : (s.raiseAsync c p).core.ended = s.core.ended := rfl
@[simp] theorem raiseAsync_core_begun (s : State) (c : Cause) (p : BitVec 6) : (s.raiseAsync c p).core.begun = s.core.begun := rfl
@[simp] theorem raiseAsync_core_retired (s : State) (c : Cause) (p : BitVec 6) : (s.raiseAsync c p).core.retired = s.core.retired := rfl
@[simp] theorem raiseAsync_core_preempting (s : State) (c : Cause) (p : BitVec 6) : (s.raiseAsync c p).core.preempting = s.core.preempting := rfl
@[simp] theorem raiseAsync_core_captured (s : State) (c : Cause) (p : BitVec 6) : (s.raiseAsync c p).core.captured = s.core.captured := rfl
@[simp] theorem raiseAsync_core_idle (s : State) (c : Cause) (p : BitVec 6) : (s.raiseAsync c p).core.idle = s.core.idle := rfl
@[simp] theorem raiseAsync_core_fault (s : State) (c : Cause) (p : BitVec 6) : (s.raiseAsync c p).core.fault = s.core.fault := rfl
@[simp] theorem raiseAsync_core_sig (s : State) (c : Cause) (p : BitVec 6) : (s.raiseAsync c p).core.sig = s.core.sig := rfl
@[simp] theorem raiseAsync_core_sq (s : State) (c : Cause) (p : BitVec 6) : (s.raiseAsync c p).core.sq = { s.core.sq with raised := s.core.sq.raised ++ [⟨c, p, s.chip.now⟩] } := rfl

@[simp] theorem spadWrite_others (s : State) (a : Nat) (bs : List Byte) : (s.spadWrite a bs).others = s.others := rfl
@[simp] theorem spadWrite_chip (s : State) (a : Nat) (bs : List Byte) : (s.spadWrite a bs).chip = s.chip := rfl
@[simp] theorem spadWrite_inbox (s : State) (a : Nat) (bs : List Byte) : (s.spadWrite a bs).inbox = s.inbox := rfl
@[simp] theorem spadWrite_stage (s : State) (a : Nat) (bs : List Byte) : (s.spadWrite a bs).stage = s.stage := rfl
@[simp] theorem spadWrite_fresh (s : State) (a : Nat) (bs : List Byte) : (s.spadWrite a bs).fresh = s.fresh := rfl
@[simp] theorem spadWrite_core_cid (s : State) (a : Nat) (bs : List Byte) : (s.spadWrite a bs).core.cid = s.core.cid := rfl
@[simp] theorem spadWrite_core_task (s : State) (a : Nat) (bs : List Byte) : (s.spadWrite a bs).core.task = s.core.task := rfl
@[simp] theorem spadWrite_core_tick (s : State) (a : Nat) (bs : List Byte) : (s.spadWrite a bs).core.tick = s.core.tick := rfl
@[simp] theorem spadWrite_core_stage (s : State) (a : Nat) (bs : List Byte) : (s.spadWrite a bs).core.stage = s.core.stage := rfl
@[simp] theorem spadWrite_core_text (s : State) (a : Nat) (bs : List Byte) : (s.spadWrite a bs).core.text = s.core.text := rfl
@[simp] theorem spadWrite_core_sq (s : State) (a : Nat) (bs : List Byte) : (s.spadWrite a bs).core.sq = s.core.sq := rfl
@[simp] theorem spadWrite_core_fab (s : State) (a : Nat) (bs : List Byte) : (s.spadWrite a bs).core.fab = s.core.fab := rfl
@[simp] theorem spadWrite_core_queues (s : State) (a : Nat) (bs : List Byte) : (s.spadWrite a bs).core.queues = s.core.queues := rfl
@[simp] theorem spadWrite_core_order (s : State) (a : Nat) (bs : List Byte) : (s.spadWrite a bs).core.order = s.core.order := rfl
@[simp] theorem spadWrite_core_donePts (s : State) (a : Nat) (bs : List Byte) : (s.spadWrite a bs).core.donePts = s.core.donePts := rfl
@[simp] theorem spadWrite_core_floor (s : State) (a : Nat) (bs : List Byte) : (s.spadWrite a bs).core.floor = s.core.floor := rfl
@[simp] theorem spadWrite_core_rotAt (s : State) (a : Nat) (bs : List Byte) : (s.spadWrite a bs).core.rotAt = s.core.rotAt := rfl
@[simp] theorem spadWrite_core_lastCh (s : State) (a : Nat) (bs : List Byte) : (s.spadWrite a bs).core.lastCh = s.core.lastCh := rfl
@[simp] theorem spadWrite_core_mxe (s : State) (a : Nat) (bs : List Byte) : (s.spadWrite a bs).core.mxe = s.core.mxe := rfl
@[simp] theorem spadWrite_core_syeSeq (s : State) (a : Nat) (bs : List Byte) : (s.spadWrite a bs).core.syeSeq = s.core.syeSeq := rfl
@[simp] theorem spadWrite_core_blocks (s : State) (a : Nat) (bs : List Byte) : (s.spadWrite a bs).core.blocks = s.core.blocks := rfl
@[simp] theorem spadWrite_core_l1 (s : State) (a : Nat) (bs : List Byte) : (s.spadWrite a bs).core.l1 = s.core.l1 := rfl
@[simp] theorem spadWrite_core_wb (s : State) (a : Nat) (bs : List Byte) : (s.spadWrite a bs).core.wb = s.core.wb := rfl
@[simp] theorem spadWrite_core_tlb (s : State) (a : Nat) (bs : List Byte) : (s.spadWrite a bs).core.tlb = s.core.tlb := rfl
@[simp] theorem spadWrite_core_cpeTlb (s : State) (a : Nat) (bs : List Byte) : (s.spadWrite a bs).core.cpeTlb = s.core.cpeTlb := rfl
@[simp] theorem spadWrite_core_events (s : State) (a : Nat) (bs : List Byte) : (s.spadWrite a bs).core.events = s.core.events := rfl
@[simp] theorem spadWrite_core_active (s : State) (a : Nat) (bs : List Byte) : (s.spadWrite a bs).core.active = s.core.active := rfl
@[simp] theorem spadWrite_core_refused (s : State) (a : Nat) (bs : List Byte) : (s.spadWrite a bs).core.refused = s.core.refused := rfl
@[simp] theorem spadWrite_core_removed (s : State) (a : Nat) (bs : List Byte) : (s.spadWrite a bs).core.removed = s.core.removed := rfl
@[simp] theorem spadWrite_core_ended (s : State) (a : Nat) (bs : List Byte) : (s.spadWrite a bs).core.ended = s.core.ended := rfl
@[simp] theorem spadWrite_core_begun (s : State) (a : Nat) (bs : List Byte) : (s.spadWrite a bs).core.begun = s.core.begun := rfl
@[simp] theorem spadWrite_core_retired (s : State) (a : Nat) (bs : List Byte) : (s.spadWrite a bs).core.retired = s.core.retired := rfl
@[simp] theorem spadWrite_core_preempting (s : State) (a : Nat) (bs : List Byte) : (s.spadWrite a bs).core.preempting = s.core.preempting := rfl
@[simp] theorem spadWrite_core_captured (s : State) (a : Nat) (bs : List Byte) : (s.spadWrite a bs).core.captured = s.core.captured := rfl
@[simp] theorem spadWrite_core_idle (s : State) (a : Nat) (bs : List Byte) : (s.spadWrite a bs).core.idle = s.core.idle := rfl
@[simp] theorem spadWrite_core_fault (s : State) (a : Nat) (bs : List Byte) : (s.spadWrite a bs).core.fault = s.core.fault := rfl
@[simp] theorem spadWrite_core_sig (s : State) (a : Nat) (bs : List Byte) : (s.spadWrite a bs).core.sig = s.core.sig := rfl
@[simp] theorem spadWrite_core_loc (s : State) (a : Nat) (bs : List Byte) : (s.spadWrite a bs).core.loc = { s.core.loc with mem := wrBytes s.core.loc.mem a bs } := rfl

@[simp] theorem leaveHandler_others (s : State)  : (s.leaveHandler).others = s.others := onSq_others s _
@[simp] theorem leaveHandler_chip (s : State)  : (s.leaveHandler).chip = s.chip := onSq_chip s _
@[simp] theorem leaveHandler_inbox (s : State)  : (s.leaveHandler).inbox = s.inbox := onSq_inbox s _
@[simp] theorem leaveHandler_stage (s : State)  : (s.leaveHandler).stage = s.stage := onSq_stage s _
@[simp] theorem leaveHandler_fresh (s : State)  : (s.leaveHandler).fresh = s.fresh := onSq_fresh s _
@[simp] theorem leaveHandler_core_cid (s : State)  : (s.leaveHandler).core.cid = s.core.cid := onSq_core_cid s _
@[simp] theorem leaveHandler_core_task (s : State)  : (s.leaveHandler).core.task = s.core.task := onSq_core_task s _
@[simp] theorem leaveHandler_core_tick (s : State)  : (s.leaveHandler).core.tick = s.core.tick := onSq_core_tick s _
@[simp] theorem leaveHandler_core_stage (s : State)  : (s.leaveHandler).core.stage = s.core.stage := onSq_core_stage s _
@[simp] theorem leaveHandler_core_text (s : State)  : (s.leaveHandler).core.text = s.core.text := onSq_core_text s _
@[simp] theorem leaveHandler_core_loc (s : State)  : (s.leaveHandler).core.loc = s.core.loc := onSq_core_loc s _
@[simp] theorem leaveHandler_core_fab (s : State)  : (s.leaveHandler).core.fab = s.core.fab := onSq_core_fab s _
@[simp] theorem leaveHandler_core_queues (s : State)  : (s.leaveHandler).core.queues = s.core.queues := onSq_core_queues s _
@[simp] theorem leaveHandler_core_order (s : State)  : (s.leaveHandler).core.order = s.core.order := onSq_core_order s _
@[simp] theorem leaveHandler_core_donePts (s : State)  : (s.leaveHandler).core.donePts = s.core.donePts := onSq_core_donePts s _
@[simp] theorem leaveHandler_core_floor (s : State)  : (s.leaveHandler).core.floor = s.core.floor := onSq_core_floor s _
@[simp] theorem leaveHandler_core_rotAt (s : State)  : (s.leaveHandler).core.rotAt = s.core.rotAt := onSq_core_rotAt s _
@[simp] theorem leaveHandler_core_lastCh (s : State)  : (s.leaveHandler).core.lastCh = s.core.lastCh := onSq_core_lastCh s _
@[simp] theorem leaveHandler_core_mxe (s : State)  : (s.leaveHandler).core.mxe = s.core.mxe := onSq_core_mxe s _
@[simp] theorem leaveHandler_core_syeSeq (s : State)  : (s.leaveHandler).core.syeSeq = s.core.syeSeq := onSq_core_syeSeq s _
@[simp] theorem leaveHandler_core_blocks (s : State)  : (s.leaveHandler).core.blocks = s.core.blocks := onSq_core_blocks s _
@[simp] theorem leaveHandler_core_l1 (s : State)  : (s.leaveHandler).core.l1 = s.core.l1 := onSq_core_l1 s _
@[simp] theorem leaveHandler_core_wb (s : State)  : (s.leaveHandler).core.wb = s.core.wb := onSq_core_wb s _
@[simp] theorem leaveHandler_core_tlb (s : State)  : (s.leaveHandler).core.tlb = s.core.tlb := onSq_core_tlb s _
@[simp] theorem leaveHandler_core_cpeTlb (s : State)  : (s.leaveHandler).core.cpeTlb = s.core.cpeTlb := onSq_core_cpeTlb s _
@[simp] theorem leaveHandler_core_events (s : State)  : (s.leaveHandler).core.events = s.core.events := onSq_core_events s _
@[simp] theorem leaveHandler_core_active (s : State)  : (s.leaveHandler).core.active = s.core.active := onSq_core_active s _
@[simp] theorem leaveHandler_core_refused (s : State)  : (s.leaveHandler).core.refused = s.core.refused := onSq_core_refused s _
@[simp] theorem leaveHandler_core_removed (s : State)  : (s.leaveHandler).core.removed = s.core.removed := onSq_core_removed s _
@[simp] theorem leaveHandler_core_ended (s : State)  : (s.leaveHandler).core.ended = s.core.ended := onSq_core_ended s _
@[simp] theorem leaveHandler_core_begun (s : State)  : (s.leaveHandler).core.begun = s.core.begun := onSq_core_begun s _
@[simp] theorem leaveHandler_core_retired (s : State)  : (s.leaveHandler).core.retired = s.core.retired := onSq_core_retired s _
@[simp] theorem leaveHandler_core_preempting (s : State)  : (s.leaveHandler).core.preempting = s.core.preempting := onSq_core_preempting s _
@[simp] theorem leaveHandler_core_captured (s : State)  : (s.leaveHandler).core.captured = s.core.captured := onSq_core_captured s _
@[simp] theorem leaveHandler_core_idle (s : State)  : (s.leaveHandler).core.idle = s.core.idle := onSq_core_idle s _
@[simp] theorem leaveHandler_core_fault (s : State)  : (s.leaveHandler).core.fault = s.core.fault := onSq_core_fault s _
@[simp] theorem leaveHandler_core_sig (s : State)  : (s.leaveHandler).core.sig = s.core.sig := onSq_core_sig s _

@[simp] theorem onTask_others (s : State) (t : Nat) (f : Task → Task) : (s.onTask t f).others = s.others := rfl
@[simp] theorem onTask_inbox (s : State) (t : Nat) (f : Task → Task) : (s.onTask t f).inbox = s.inbox := rfl
@[simp] theorem onTask_stage (s : State) (t : Nat) (f : Task → Task) : (s.onTask t f).stage = s.stage := rfl
@[simp] theorem onTask_fresh (s : State) (t : Nat) (f : Task → Task) : (s.onTask t f).fresh = s.fresh := rfl
@[simp] theorem onTask_core (s : State) (t : Nat) (f : Task → Task) : (s.onTask t f).core = s.core := rfl
@[simp] theorem onTask_chip (s : State) (t : Nat) (f : Task → Task) : (s.onTask t f).chip = { s.chip with tasks := s.chip.tasks.modify t f } := rfl

@[simp] theorem onPart_others (s : State) (p : Fin 64) (f : Part → Part) : (s.onPart p f).others = s.others := rfl
@[simp] theorem onPart_inbox (s : State) (p : Fin 64) (f : Part → Part) : (s.onPart p f).inbox = s.inbox := rfl
@[simp] theorem onPart_stage (s : State) (p : Fin 64) (f : Part → Part) : (s.onPart p f).stage = s.stage := rfl
@[simp] theorem onPart_fresh (s : State) (p : Fin 64) (f : Part → Part) : (s.onPart p f).fresh = s.fresh := rfl
@[simp] theorem onPart_core (s : State) (p : Fin 64) (f : Part → Part) : (s.onPart p f).core = s.core := rfl
@[simp] theorem onPart_chip (s : State) (p : Fin 64) (f : Part → Part) : (s.onPart p f).chip = { s.chip with parts := s.chip.parts.set p (f s.chip.parts[p]) } := rfl

/-! ### The scratchpad accesses of the sequencer -/

@[simp] theorem sqReads_others (s : State) (a : Nat) : (s.sqReads a).others = s.others := rfl
@[simp] theorem sqReads_chip (s : State) (a : Nat) : (s.sqReads a).chip = s.chip := rfl
@[simp] theorem sqReads_inbox (s : State) (a : Nat) : (s.sqReads a).inbox = s.inbox := rfl
@[simp] theorem sqReads_stage (s : State) (a : Nat) : (s.sqReads a).stage = s.stage := rfl
@[simp] theorem sqReads_fresh (s : State) (a : Nat) : (s.sqReads a).fresh = s.fresh := rfl
@[simp] theorem sqReads_core_cid (s : State) (a : Nat) : (s.sqReads a).core.cid = s.core.cid := rfl
@[simp] theorem sqReads_core_task (s : State) (a : Nat) : (s.sqReads a).core.task = s.core.task := rfl
@[simp] theorem sqReads_core_tick (s : State) (a : Nat) : (s.sqReads a).core.tick = s.core.tick := rfl
@[simp] theorem sqReads_core_stage (s : State) (a : Nat) : (s.sqReads a).core.stage = s.core.stage := rfl
@[simp] theorem sqReads_core_text (s : State) (a : Nat) : (s.sqReads a).core.text = s.core.text := rfl
@[simp] theorem sqReads_core_loc (s : State) (a : Nat) : (s.sqReads a).core.loc = s.core.loc := rfl
@[simp] theorem sqReads_core_fab (s : State) (a : Nat) : (s.sqReads a).core.fab = s.core.fab := rfl
@[simp] theorem sqReads_core_queues (s : State) (a : Nat) : (s.sqReads a).core.queues = s.core.queues := rfl
@[simp] theorem sqReads_core_order (s : State) (a : Nat) : (s.sqReads a).core.order = s.core.order := rfl
@[simp] theorem sqReads_core_donePts (s : State) (a : Nat) : (s.sqReads a).core.donePts = s.core.donePts := rfl
@[simp] theorem sqReads_core_floor (s : State) (a : Nat) : (s.sqReads a).core.floor = s.core.floor := rfl
@[simp] theorem sqReads_core_rotAt (s : State) (a : Nat) : (s.sqReads a).core.rotAt = s.core.rotAt := rfl
@[simp] theorem sqReads_core_lastCh (s : State) (a : Nat) : (s.sqReads a).core.lastCh = s.core.lastCh := rfl
@[simp] theorem sqReads_core_mxe (s : State) (a : Nat) : (s.sqReads a).core.mxe = s.core.mxe := rfl
@[simp] theorem sqReads_core_syeSeq (s : State) (a : Nat) : (s.sqReads a).core.syeSeq = s.core.syeSeq := rfl
@[simp] theorem sqReads_core_blocks (s : State) (a : Nat) : (s.sqReads a).core.blocks = s.core.blocks := rfl
@[simp] theorem sqReads_core_l1 (s : State) (a : Nat) : (s.sqReads a).core.l1 = s.core.l1 := rfl
@[simp] theorem sqReads_core_wb (s : State) (a : Nat) : (s.sqReads a).core.wb = s.core.wb := rfl
@[simp] theorem sqReads_core_tlb (s : State) (a : Nat) : (s.sqReads a).core.tlb = s.core.tlb := rfl
@[simp] theorem sqReads_core_cpeTlb (s : State) (a : Nat) : (s.sqReads a).core.cpeTlb = s.core.cpeTlb := rfl
@[simp] theorem sqReads_core_active (s : State) (a : Nat) : (s.sqReads a).core.active = s.core.active := rfl
@[simp] theorem sqReads_core_refused (s : State) (a : Nat) : (s.sqReads a).core.refused = s.core.refused := rfl
@[simp] theorem sqReads_core_removed (s : State) (a : Nat) : (s.sqReads a).core.removed = s.core.removed := rfl
@[simp] theorem sqReads_core_ended (s : State) (a : Nat) : (s.sqReads a).core.ended = s.core.ended := rfl
@[simp] theorem sqReads_core_begun (s : State) (a : Nat) : (s.sqReads a).core.begun = s.core.begun := rfl
@[simp] theorem sqReads_core_retired (s : State) (a : Nat) : (s.sqReads a).core.retired = s.core.retired := rfl
@[simp] theorem sqReads_core_preempting (s : State) (a : Nat) : (s.sqReads a).core.preempting = s.core.preempting := rfl
@[simp] theorem sqReads_core_captured (s : State) (a : Nat) : (s.sqReads a).core.captured = s.core.captured := rfl
@[simp] theorem sqReads_core_idle (s : State) (a : Nat) : (s.sqReads a).core.idle = s.core.idle := rfl
@[simp] theorem sqReads_core_fault (s : State) (a : Nat) : (s.sqReads a).core.fault = s.core.fault := rfl
@[simp] theorem sqReads_core_sig (s : State) (a : Nat) : (s.sqReads a).core.sig = s.core.sig := rfl

@[simp] theorem sqWrites_others (s : State) (a : Nat) : (s.sqWrites a).others = s.others := rfl
@[simp] theorem sqWrites_chip (s : State) (a : Nat) : (s.sqWrites a).chip = s.chip := rfl
@[simp] theorem sqWrites_inbox (s : State) (a : Nat) : (s.sqWrites a).inbox = s.inbox := rfl
@[simp] theorem sqWrites_stage (s : State) (a : Nat) : (s.sqWrites a).stage = s.stage := rfl
@[simp] theorem sqWrites_fresh (s : State) (a : Nat) : (s.sqWrites a).fresh = s.fresh := rfl
@[simp] theorem sqWrites_core_cid (s : State) (a : Nat) : (s.sqWrites a).core.cid = s.core.cid := rfl
@[simp] theorem sqWrites_core_task (s : State) (a : Nat) : (s.sqWrites a).core.task = s.core.task := rfl
@[simp] theorem sqWrites_core_tick (s : State) (a : Nat) : (s.sqWrites a).core.tick = s.core.tick := rfl
@[simp] theorem sqWrites_core_stage (s : State) (a : Nat) : (s.sqWrites a).core.stage = s.core.stage := rfl
@[simp] theorem sqWrites_core_text (s : State) (a : Nat) : (s.sqWrites a).core.text = s.core.text := rfl
@[simp] theorem sqWrites_core_fab (s : State) (a : Nat) : (s.sqWrites a).core.fab = s.core.fab := rfl
@[simp] theorem sqWrites_core_queues (s : State) (a : Nat) : (s.sqWrites a).core.queues = s.core.queues := rfl
@[simp] theorem sqWrites_core_order (s : State) (a : Nat) : (s.sqWrites a).core.order = s.core.order := rfl
@[simp] theorem sqWrites_core_donePts (s : State) (a : Nat) : (s.sqWrites a).core.donePts = s.core.donePts := rfl
@[simp] theorem sqWrites_core_floor (s : State) (a : Nat) : (s.sqWrites a).core.floor = s.core.floor := rfl
@[simp] theorem sqWrites_core_rotAt (s : State) (a : Nat) : (s.sqWrites a).core.rotAt = s.core.rotAt := rfl
@[simp] theorem sqWrites_core_lastCh (s : State) (a : Nat) : (s.sqWrites a).core.lastCh = s.core.lastCh := rfl
@[simp] theorem sqWrites_core_mxe (s : State) (a : Nat) : (s.sqWrites a).core.mxe = s.core.mxe := rfl
@[simp] theorem sqWrites_core_syeSeq (s : State) (a : Nat) : (s.sqWrites a).core.syeSeq = s.core.syeSeq := rfl
@[simp] theorem sqWrites_core_blocks (s : State) (a : Nat) : (s.sqWrites a).core.blocks = s.core.blocks := rfl
@[simp] theorem sqWrites_core_l1 (s : State) (a : Nat) : (s.sqWrites a).core.l1 = s.core.l1 := rfl
@[simp] theorem sqWrites_core_wb (s : State) (a : Nat) : (s.sqWrites a).core.wb = s.core.wb := rfl
@[simp] theorem sqWrites_core_tlb (s : State) (a : Nat) : (s.sqWrites a).core.tlb = s.core.tlb := rfl
@[simp] theorem sqWrites_core_cpeTlb (s : State) (a : Nat) : (s.sqWrites a).core.cpeTlb = s.core.cpeTlb := rfl
@[simp] theorem sqWrites_core_active (s : State) (a : Nat) : (s.sqWrites a).core.active = s.core.active := rfl
@[simp] theorem sqWrites_core_refused (s : State) (a : Nat) : (s.sqWrites a).core.refused = s.core.refused := rfl
@[simp] theorem sqWrites_core_removed (s : State) (a : Nat) : (s.sqWrites a).core.removed = s.core.removed := rfl
@[simp] theorem sqWrites_core_ended (s : State) (a : Nat) : (s.sqWrites a).core.ended = s.core.ended := rfl
@[simp] theorem sqWrites_core_begun (s : State) (a : Nat) : (s.sqWrites a).core.begun = s.core.begun := rfl
@[simp] theorem sqWrites_core_retired (s : State) (a : Nat) : (s.sqWrites a).core.retired = s.core.retired := rfl
@[simp] theorem sqWrites_core_preempting (s : State) (a : Nat) : (s.sqWrites a).core.preempting = s.core.preempting := rfl
@[simp] theorem sqWrites_core_captured (s : State) (a : Nat) : (s.sqWrites a).core.captured = s.core.captured := rfl
@[simp] theorem sqWrites_core_idle (s : State) (a : Nat) : (s.sqWrites a).core.idle = s.core.idle := rfl
@[simp] theorem sqWrites_core_fault (s : State) (a : Nat) : (s.sqWrites a).core.fault = s.core.fault := rfl
@[simp] theorem sqWrites_core_sig (s : State) (a : Nat) : (s.sqWrites a).core.sig = s.core.sig := rfl
@[simp] theorem sqWrites_core_loc.mem (s : State) (a : Nat) : (s.sqWrites a).core.loc.mem = s.core.loc.mem := rfl
@[simp] theorem sqWrites_core_loc.fe (s : State) (a : Nat) : (s.sqWrites a).core.loc.fe = s.core.loc.fe := rfl
@[simp] theorem sqWrites_core_loc.handles (s : State) (a : Nat) : (s.sqWrites a).core.loc.handles = s.core.loc.handles := rfl
@[simp] theorem sqWrites_core_loc.reqs (s : State) (a : Nat) : (s.sqWrites a).core.loc.reqs = s.core.loc.reqs := rfl
@[simp] theorem sqWrites_core_sq.g (s : State) (a : Nat) : (s.sqWrites a).core.sq.g = s.core.sq.g := rfl
@[simp] theorem sqWrites_core_sq.c (s : State) (a : Nat) : (s.sqWrites a).core.sq.c = s.core.sq.c := rfl
@[simp] theorem sqWrites_core_sq.pc (s : State) (a : Nat) : (s.sqWrites a).core.sq.pc = s.core.sq.pc := rfl
@[simp] theorem sqWrites_core_sq.flight (s : State) (a : Nat) : (s.sqWrites a).core.sq.flight = s.core.sq.flight := rfl

@[simp] theorem sqRmw_others (s : State) (a : Nat) : (s.sqRmw a).others = s.others := rfl
@[simp] theorem sqRmw_chip (s : State) (a : Nat) : (s.sqRmw a).chip = s.chip := rfl
@[simp] theorem sqRmw_inbox (s : State) (a : Nat) : (s.sqRmw a).inbox = s.inbox := rfl
@[simp] theorem sqRmw_stage (s : State) (a : Nat) : (s.sqRmw a).stage = s.stage := rfl
@[simp] theorem sqRmw_fresh (s : State) (a : Nat) : (s.sqRmw a).fresh = s.fresh := rfl
@[simp] theorem sqRmw_core_cid (s : State) (a : Nat) : (s.sqRmw a).core.cid = s.core.cid := rfl
@[simp] theorem sqRmw_core_task (s : State) (a : Nat) : (s.sqRmw a).core.task = s.core.task := rfl
@[simp] theorem sqRmw_core_tick (s : State) (a : Nat) : (s.sqRmw a).core.tick = s.core.tick := rfl
@[simp] theorem sqRmw_core_stage (s : State) (a : Nat) : (s.sqRmw a).core.stage = s.core.stage := rfl
@[simp] theorem sqRmw_core_text (s : State) (a : Nat) : (s.sqRmw a).core.text = s.core.text := rfl
@[simp] theorem sqRmw_core_fab (s : State) (a : Nat) : (s.sqRmw a).core.fab = s.core.fab := rfl
@[simp] theorem sqRmw_core_queues (s : State) (a : Nat) : (s.sqRmw a).core.queues = s.core.queues := rfl
@[simp] theorem sqRmw_core_order (s : State) (a : Nat) : (s.sqRmw a).core.order = s.core.order := rfl
@[simp] theorem sqRmw_core_donePts (s : State) (a : Nat) : (s.sqRmw a).core.donePts = s.core.donePts := rfl
@[simp] theorem sqRmw_core_floor (s : State) (a : Nat) : (s.sqRmw a).core.floor = s.core.floor := rfl
@[simp] theorem sqRmw_core_rotAt (s : State) (a : Nat) : (s.sqRmw a).core.rotAt = s.core.rotAt := rfl
@[simp] theorem sqRmw_core_lastCh (s : State) (a : Nat) : (s.sqRmw a).core.lastCh = s.core.lastCh := rfl
@[simp] theorem sqRmw_core_mxe (s : State) (a : Nat) : (s.sqRmw a).core.mxe = s.core.mxe := rfl
@[simp] theorem sqRmw_core_syeSeq (s : State) (a : Nat) : (s.sqRmw a).core.syeSeq = s.core.syeSeq := rfl
@[simp] theorem sqRmw_core_blocks (s : State) (a : Nat) : (s.sqRmw a).core.blocks = s.core.blocks := rfl
@[simp] theorem sqRmw_core_l1 (s : State) (a : Nat) : (s.sqRmw a).core.l1 = s.core.l1 := rfl
@[simp] theorem sqRmw_core_wb (s : State) (a : Nat) : (s.sqRmw a).core.wb = s.core.wb := rfl
@[simp] theorem sqRmw_core_tlb (s : State) (a : Nat) : (s.sqRmw a).core.tlb = s.core.tlb := rfl
@[simp] theorem sqRmw_core_cpeTlb (s : State) (a : Nat) : (s.sqRmw a).core.cpeTlb = s.core.cpeTlb := rfl
@[simp] theorem sqRmw_core_active (s : State) (a : Nat) : (s.sqRmw a).core.active = s.core.active := rfl
@[simp] theorem sqRmw_core_refused (s : State) (a : Nat) : (s.sqRmw a).core.refused = s.core.refused := rfl
@[simp] theorem sqRmw_core_removed (s : State) (a : Nat) : (s.sqRmw a).core.removed = s.core.removed := rfl
@[simp] theorem sqRmw_core_ended (s : State) (a : Nat) : (s.sqRmw a).core.ended = s.core.ended := rfl
@[simp] theorem sqRmw_core_begun (s : State) (a : Nat) : (s.sqRmw a).core.begun = s.core.begun := rfl
@[simp] theorem sqRmw_core_retired (s : State) (a : Nat) : (s.sqRmw a).core.retired = s.core.retired := rfl
@[simp] theorem sqRmw_core_preempting (s : State) (a : Nat) : (s.sqRmw a).core.preempting = s.core.preempting := rfl
@[simp] theorem sqRmw_core_captured (s : State) (a : Nat) : (s.sqRmw a).core.captured = s.core.captured := rfl
@[simp] theorem sqRmw_core_idle (s : State) (a : Nat) : (s.sqRmw a).core.idle = s.core.idle := rfl
@[simp] theorem sqRmw_core_fault (s : State) (a : Nat) : (s.sqRmw a).core.fault = s.core.fault := rfl
@[simp] theorem sqRmw_core_sig (s : State) (a : Nat) : (s.sqRmw a).core.sig = s.core.sig := rfl
@[simp] theorem sqRmw_core_loc.mem (s : State) (a : Nat) : (s.sqRmw a).core.loc.mem = s.core.loc.mem := rfl
@[simp] theorem sqRmw_core_loc.fe (s : State) (a : Nat) : (s.sqRmw a).core.loc.fe = s.core.loc.fe := rfl
@[simp] theorem sqRmw_core_loc.handles (s : State) (a : Nat) : (s.sqRmw a).core.loc.handles = s.core.loc.handles := rfl
@[simp] theorem sqRmw_core_loc.reqs (s : State) (a : Nat) : (s.sqRmw a).core.loc.reqs = s.core.loc.reqs := rfl
@[simp] theorem sqRmw_core_sq.g (s : State) (a : Nat) : (s.sqRmw a).core.sq.g = s.core.sq.g := rfl
@[simp] theorem sqRmw_core_sq.c (s : State) (a : Nat) : (s.sqRmw a).core.sq.c = s.core.sq.c := rfl
@[simp] theorem sqRmw_core_sq.pc (s : State) (a : Nat) : (s.sqRmw a).core.sq.pc = s.core.sq.pc := rfl
@[simp] theorem sqRmw_core_sq.flight (s : State) (a : Nat) : (s.sqRmw a).core.sq.flight = s.core.sq.flight := rfl

/-! ### Free values and registers -/

@[simp] theorem take_fst (s : State) : s.take.1 = s.fresh := rfl
@[simp] theorem take_core (s : State) : s.take.2.core = s.core := rfl
@[simp] theorem take_others (s : State) : s.take.2.others = s.others := rfl
@[simp] theorem take_chip (s : State) : s.take.2.chip = s.chip := rfl
@[simp] theorem take_fresh (s : State) : s.take.2.fresh = s.fresh + 1 := rfl

/-- R33: g0 reads 0 and c0 reads 1, whatever stands there. -/
@[simp] theorem rg_zero (s : State) : s.rg 0 = 0 := rfl
@[simp] theorem rc_zero (s : State) : s.rc 0 = true := rfl

theorem rg_of_ne (s : State) {r : Fin 32} (h : r ≠ 0) : s.rg r = s.core.sq.g[r] := if_neg h
theorem rc_of_ne (s : State) {r : Fin 8} (h : r ≠ 0) : s.rc r = s.core.sq.c[r] := if_neg h

end Sys2Proof.Laws
end

