-- ==== Sys2Proof/Laws/Ops.lean ====
section
/-! SUPPORT. One law for each shared operation of the machine that says what it can do: writes landing, taking an
exception, the stores of the scratchpad and of device memory; and that each of them keeps the memories canonical. -/

namespace Sys2Proof.Laws

open Sys2Proof.Machine

/-! ### Landing (R41, R42, R44) -/

/-- A landing changes the sequencer, the local memory side and, where SPLIT shrinks the L1, its lines; nothing else. -/
theorem land1_frame (c : Core) (w : Landing) : ∃ q l a b, c.land1 w = { c with
    sq := q
    loc := l
    l1 := a
    wb := b } := by
  cases w <;> simp only [Core.land1]
  case creg n v =>
    split
    · split <;> exact ⟨_, _, _, _, rfl⟩
    · exact ⟨_, _, _, _, rfl⟩
  all_goals exact ⟨_, _, _, _, rfl⟩

theorem landAll_frame : ∀ (l : List Flight) (c : Core), ∃ q m a b, c.landAll l = { c with
    sq := q
    loc := m
    l1 := a
    wb := b }
  | [], c => ⟨c.sq, c.loc, c.l1, c.wb, rfl⟩
  | f :: r, c => by
    obtain ⟨q, l, a, b, h⟩ := land1_frame c f.wr
    obtain ⟨q', l', a', b', h'⟩ := landAll_frame r (c.land1 f.wr)
    exact ⟨q', l', a', b', by rw [Core.landAll, h', h]⟩

theorem drain_frame (c : Core) : ∃ q l a b, c.drain = { c with
    sq := q
    loc := l
    l1 := a
    wb := b } := landAll_frame _ _

theorem landDue_frame (c : Core) (now : Nat) : ∃ q l a b, c.landDue now = { c with
    sq := q
    loc := l
    l1 := a
    wb := b } := landAll_frame _ _

theorem wf_land1 (c : Core) (w : Landing) (h : Memory.wf c.loc.mem = true) : Memory.wf (c.land1 w).loc.mem = true := by
  cases w <;> simp only [Core.land1] <;> try exact h
  split
  · split <;> exact wf_clearFrom h
  · exact h

theorem wf_landAll : ∀ (l : List Flight) (c : Core), Memory.wf c.loc.mem = true → Memory.wf (c.landAll l).loc.mem = true
  | [], _, h => h
  | f :: r, c, h => wf_landAll r _ (wf_land1 c f.wr h)

/-- Landing keeps the scratchpad canonical. -/
theorem wf_drain (c : Core) (h : Memory.wf c.loc.mem = true) : Memory.wf c.drain.loc.mem = true := wf_landAll _ _ h

theorem wf_landDue (c : Core) (now : Nat) (h : Memory.wf c.loc.mem = true) : Memory.wf (c.landDue now).loc.mem = true :=
  wf_landAll _ _ h

/-- A landing adds no write to those in flight. -/
theorem land1_flight (c : Core) (w : Landing) : (c.land1 w).sq.flight = c.sq.flight := by
  cases w with
  | loop l v =>
    simp only [Core.land1, Sq.wl]
    repeat' split
    all_goals rfl
  | creg n v =>
    have h : (c.sq.setCreg n v).flight = c.sq.flight := by
      simp [Sq.setCreg, apply_ite Sq.flight, apply_dite Sq.flight]
    simp only [Core.land1]
    split
    · split <;> exact h
    · exact h
  | _ => rfl

theorem landAll_flight : ∀ (l : List Flight) (c : Core), (c.landAll l).sq.flight = c.sq.flight
  | [], _ => rfl
  | f :: r, c => by rw [Core.landAll, landAll_flight r, land1_flight]

/-- R44: once everything has landed nothing is in flight. -/
theorem drain_flight (c : Core) : c.drain.sq.flight = [] := landAll_flight _ _

/-! ### Taking an exception (R304, R306, R308) -/

/-- The three ends of a synchronous cause: the handler, NESTED to the CMP, or the cause itself to the CMP. -/
theorem takeSync_cases (c : Core) (k : Cause) (i : TrapInfo) :
    (c.sq.enables k = true ∧ c.sq.inHandler = false ∧ c.takeSync k i = c.enterHandler k i) ∨
    (c.sq.enables k = true ∧ c.sq.inHandler = true ∧ c.takeSync k i = c.faultTask cNESTED k i) ∨
    (c.sq.enables k = false ∧ c.takeSync k i = c.faultTask k 0 i) := by
  unfold Core.takeSync
  cases c.sq.enables k <;> cases c.sq.inHandler <;> simp

@[simp] theorem enterHandler_loc (c : Core) (k : Cause) (i : TrapInfo) : (c.enterHandler k i).loc = c.drain.loc := rfl
@[simp] theorem faultTask_loc (c : Core) (k j : Cause) (i : TrapInfo) : (c.faultTask k j i).loc = c.drain.loc := rfl

/-- However a cause is taken, what the local memory side holds is what it holds once every write has landed. -/
theorem takeSync_loc (c : Core) (k : Cause) (i : TrapInfo) : (c.takeSync k i).loc = c.drain.loc := by
  obtain ⟨-, -, h⟩ | ⟨-, -, h⟩ | ⟨-, h⟩ := takeSync_cases c k i <;> rw [h]
  · exact enterHandler_loc c k i
  · exact faultTask_loc c _ _ i
  · exact faultTask_loc c _ _ i

/-- Raising a cause changes the core in turn alone, by `takeSync`. -/
theorem raise_eq (s : State) (k : Cause) : ∃ c, c = s.core.takeSync k ⟨s.core.sq.pc, s.core.sq.slot.bit, false, 0, 0⟩ ∧
    s.raise k = { s with core := c } := ⟨_, rfl, rfl⟩

@[simp] theorem raise_chip (s : State) (k : Cause) : (s.raise k).chip = s.chip := by
  obtain ⟨c, -, h⟩ := raise_eq s k
  rw [h]

@[simp] theorem raise_others (s : State) (k : Cause) : (s.raise k).others = s.others := by
  obtain ⟨c, -, h⟩ := raise_eq s k
  rw [h]

@[simp] theorem raise_inbox (s : State) (k : Cause) : (s.raise k).inbox = s.inbox := by
  obtain ⟨c, -, h⟩ := raise_eq s k
  rw [h]

@[simp] theorem raise_fresh (s : State) (k : Cause) : (s.raise k).fresh = s.fresh := by
  obtain ⟨c, -, h⟩ := raise_eq s k
  rw [h]

theorem raise_loc (s : State) (k : Cause) : (s.raise k).core.loc = s.core.drain.loc := by
  obtain ⟨c, hc, h⟩ := raise_eq s k
  rw [h]
  show c.loc = _
  rw [hc, takeSync_loc]

theorem wf_raise (s : State) (k : Cause) (h : Memory.wf s.core.loc.mem = true) :
    Memory.wf (s.raise k).core.loc.mem = true := by
  rw [raise_loc]
  exact wf_drain _ h

/-! ### Stores (R70, R203) -/

theorem wf_spadWrite (s : State) (a : Nat) (bs : List Byte) (h : Memory.wf s.core.loc.mem = true) :
    Memory.wf (s.spadWrite a bs).core.loc.mem = true := wf_wrBytes h

/-- A byte outside a store reads as before. -/
theorem spad_spadWrite (s : State) {a i : Nat} {bs : List Byte} (h : Memory.wf s.core.loc.mem = true)
    (hi : i < a ∨ a + bs.length ≤ i) : (s.spadWrite a bs).spad i = s.spad i := rdByte_wrBytes_of_not_mem h hi

/-- Storing at a place changes memories outside the cores alone. -/
@[simp] theorem wrPhys_core (s : State) (p : Fin 64) (pa : Nat) (bs : List Byte) : (s.wrPhys p pa bs).core = s.core := by
  unfold State.wrPhys
  split
  · exact onPart_core s p _
  · exact onChip_core s _
  · exact onChip_core s _
  · rfl

@[simp] theorem wrPhys_others (s : State) (p : Fin 64) (pa : Nat) (bs : List Byte) :
    (s.wrPhys p pa bs).others = s.others := by
  unfold State.wrPhys
  split
  · exact onPart_others s p _
  · exact onChip_others s _
  · exact onChip_others s _
  · rfl

/-! ### The memories together -/

/-- Reset lists nothing in any memory. -/
theorem reset_wf : Memory.wf State.reset.core.loc.mem = true ∧ Memory.wf State.reset.chip.hostMem = true ∧
    Memory.wf State.reset.chip.peerMem = true ∧ Memory.wf Machine.Part.none.mem = true := by decide

/-- An update of the core in turn keeps the memories canonical where its own scratchpad stays canonical. -/
theorem canonical_core {s : State} (h : MemoriesCanonical s) (c : Core) (hc : Memory.wf c.loc.mem = true) :
    MemoriesCanonical { s with core := c } where
  cores := by
    intro x hx
    rcases List.mem_cons.mp hx with rfl | hx
    · exact hc
    · exact h.cores x (List.mem_cons_of_mem _ hx)
  saved := h.saved
  parts := h.parts
  host := h.host
  peer := h.peer

theorem canonical_onSq {s : State} (h : MemoriesCanonical s) (f : Sq → Sq) : MemoriesCanonical (s.onSq f) :=
  canonical_core h _ (h.cores s.core List.mem_cons_self)

theorem canonical_onFab {s : State} (h : MemoriesCanonical s) (f : Fabric → Fabric) : MemoriesCanonical (s.onFab f) :=
  canonical_core h _ (h.cores s.core List.mem_cons_self)

theorem canonical_spadWrite {s : State} (h : MemoriesCanonical s) (a : Nat) (bs : List Byte) :
    MemoriesCanonical (s.spadWrite a bs) := canonical_core h _ (wf_wrBytes (h.cores s.core List.mem_cons_self))

theorem canonical_raise {s : State} (h : MemoriesCanonical s) (k : Cause) : MemoriesCanonical (s.raise k) := by
  have hw := wf_raise s k (h.cores s.core List.mem_cons_self)
  obtain ⟨c, -, hc⟩ := raise_eq s k
  rw [hc] at hw ⊢
  exact canonical_core h c hw

theorem canonical_onPart {s : State} (h : MemoriesCanonical s) (p : Fin 64) (f : Part → Part)
    (hf : Memory.wf (f s.chip.parts[p]).mem = true) : MemoriesCanonical (s.onPart p f) where
  cores := h.cores
  saved := h.saved
  parts := by
    intro q
    show Memory.wf (s.chip.parts.set p.val (f s.chip.parts[p]))[q.val].mem = true
    rw [Vector.getElem_set]
    split
    · exact hf
    · exact h.parts q
  host := h.host
  peer := h.peer

theorem canonical_host {s : State} (h : MemoriesCanonical s) (m : List Host.Cell) (hm : Memory.wf m = true) :
    MemoriesCanonical (s.onChip fun x => { x with hostMem := m }) :=
  ⟨h.cores, h.saved, h.parts, hm, h.peer⟩

theorem canonical_peer {s : State} (h : MemoriesCanonical s) (m : List Host.Cell) (hm : Memory.wf m = true) :
    MemoriesCanonical (s.onChip fun x => { x with peerMem := m }) :=
  ⟨h.cores, h.saved, h.parts, h.host, hm⟩

/-- Storing at a place keeps every memory canonical. -/
theorem canonical_wrPhys {s : State} (h : MemoriesCanonical s) (p : Fin 64) (pa : Nat) (bs : List Byte) :
    MemoriesCanonical (s.wrPhys p pa bs) := by
  unfold State.wrPhys
  split
  · exact canonical_onPart h p _ (wf_wrBytes (h.parts p))
  · exact canonical_host h _ (wf_wrBytes h.host)
  · exact canonical_peer h _ (wf_wrBytes h.peer)
  · exact h

end Sys2Proof.Laws
end

