-- ==== Sys2Proof/Laws/PerInstr.lean ====
section
/-! SUPPORT. The family Encoding of LAWS.json: what holds of every instruction as syntax, one lemma for each constructor
of `Instr`. -/

namespace Sys2Proof.Laws

theorem bit_lt (b : Bool) : bit b < 2 := by cases b <;> decide
theorem width_lt (w : Width) : w.code < 4 := by cases w <;> decide
theorem ldSz_lt (z : LdSz) : z.code < 8 := by cases z <;> decide
theorem stSz_lt (z : StSz) : z.code < 8 := by cases z <;> decide
theorem micaWid_lt (w : MicaWid) : w.code < 4 := by cases w <;> decide
theorem saveMode_lt (m : SaveMode) : m.code < 4 := by cases m <;> decide
theorem scope_lt (s : Scope) : s.code < 32 := by cases s <;> decide
theorem slotSel_lt (x : SlotSel) : x.gb < 32 ∧ bit x.flag < 2 := by
  cases x with
  | one r => exact ⟨r.isLt, bit_lt _⟩
  | all => exact ⟨by decide, by decide⟩

theorem bit_false : bit false = 0 := rfl

/-- The scalar encoding of an instruction, where it has one, leaves the pair bit 0 and its major is not the header's of a
command (R35); and a scalar word is no command. -/
def Encoding.Statement (i : Instr) : Prop :=
  (∀ n, encodeScalar i = some n → n < 2 ^ 31 ∧ n / 2 ^ 25 ≠ 0x29) ∧ (encodeScalar i ≠ none → encodeCommand i = none)

theorem encoding_none {i : Instr} (h : encodeScalar i = none) : Encoding.Statement i :=
  ⟨fun n hn => (Option.some_ne_none n (hn.symm.trans h)).elim, fun hn => (hn h).elim⟩

theorem encoding_some {i : Instr} {m : Nat} (h : encodeScalar i = some m) (hm : m < 2 ^ 31 ∧ m / 2 ^ 25 ≠ 0x29)
    (hc : encodeCommand i = none) : Encoding.Statement i :=
  ⟨fun n hn => by cases hn.symm.trans h; exact hm, fun _ => hc⟩

theorem Encoding.add (x0 : GReg) (x1 : GReg) (x2 : GReg) (x3 : Width) (x4 : Bool) (x5 : Bool) : Encoding.Statement (.add x0 x1 x2 x3 x4 x5) := by
  have h0 := x0.isLt
  have h1 := x1.isLt
  have h2 := x2.isLt
  have h3 := width_lt x3
  have h4 := bit_lt x4
  have h5 := bit_lt x5
  exact encoding_some rfl (by simp only [rrr, aluFn]; omega) rfl

theorem Encoding.sub (x0 : GReg) (x1 : GReg) (x2 : GReg) (x3 : Width) (x4 : Bool) (x5 : Bool) : Encoding.Statement (.sub x0 x1 x2 x3 x4 x5) := by
  have h0 := x0.isLt
  have h1 := x1.isLt
  have h2 := x2.isLt
  have h3 := width_lt x3
  have h4 := bit_lt x4
  have h5 := bit_lt x5
  exact encoding_some rfl (by simp only [rrr, aluFn]; omega) rfl

theorem Encoding.and (x0 : GReg) (x1 : GReg) (x2 : GReg) : Encoding.Statement (.and x0 x1 x2) := by
  have h0 := x0.isLt
  have h1 := x1.isLt
  have h2 := x2.isLt
  exact encoding_some rfl (by simp only [rrr]; omega) rfl

theorem Encoding.or (x0 : GReg) (x1 : GReg) (x2 : GReg) : Encoding.Statement (.or x0 x1 x2) := by
  have h0 := x0.isLt
  have h1 := x1.isLt
  have h2 := x2.isLt
  exact encoding_some rfl (by simp only [rrr]; omega) rfl

theorem Encoding.xor (x0 : GReg) (x1 : GReg) (x2 : GReg) : Encoding.Statement (.xor x0 x1 x2) := by
  have h0 := x0.isLt
  have h1 := x1.isLt
  have h2 := x2.isLt
  exact encoding_some rfl (by simp only [rrr]; omega) rfl

theorem Encoding.andn (x0 : GReg) (x1 : GReg) (x2 : GReg) : Encoding.Statement (.andn x0 x1 x2) := by
  have h0 := x0.isLt
  have h1 := x1.isLt
  have h2 := x2.isLt
  exact encoding_some rfl (by simp only [rrr]; omega) rfl

theorem Encoding.shl (x0 : GReg) (x1 : GReg) (x2 : GReg) (x3 : Width) (x4 : Bool) : Encoding.Statement (.shl x0 x1 x2 x3 x4) := by
  have h0 := x0.isLt
  have h1 := x1.isLt
  have h2 := x2.isLt
  have h3 := width_lt x3
  have h4 := bit_lt x4
  exact encoding_some rfl (by simp only [rrr, aluFn, bit_false]; omega) rfl

theorem Encoding.shr (x0 : GReg) (x1 : GReg) (x2 : GReg) (x3 : Width) (x4 : Bool) : Encoding.Statement (.shr x0 x1 x2 x3 x4) := by
  have h0 := x0.isLt
  have h1 := x1.isLt
  have h2 := x2.isLt
  have h3 := width_lt x3
  have h4 := bit_lt x4
  exact encoding_some rfl (by simp only [rrr, aluFn, bit_false]; omega) rfl

theorem Encoding.sar (x0 : GReg) (x1 : GReg) (x2 : GReg) (x3 : Width) (x4 : Bool) : Encoding.Statement (.sar x0 x1 x2 x3 x4) := by
  have h0 := x0.isLt
  have h1 := x1.isLt
  have h2 := x2.isLt
  have h3 := width_lt x3
  have h4 := bit_lt x4
  exact encoding_some rfl (by simp only [rrr, aluFn, bit_false]; omega) rfl

theorem Encoding.ror (x0 : GReg) (x1 : GReg) (x2 : GReg) (x3 : Width) (x4 : Bool) : Encoding.Statement (.ror x0 x1 x2 x3 x4) := by
  have h0 := x0.isLt
  have h1 := x1.isLt
  have h2 := x2.isLt
  have h3 := width_lt x3
  have h4 := bit_lt x4
  exact encoding_some rfl (by simp only [rrr, aluFn, bit_false]; omega) rfl

theorem Encoding.min (x0 : GReg) (x1 : GReg) (x2 : GReg) (x3 : Width) (x4 : Bool) : Encoding.Statement (.min x0 x1 x2 x3 x4) := by
  have h0 := x0.isLt
  have h1 := x1.isLt
  have h2 := x2.isLt
  have h3 := width_lt x3
  have h4 := bit_lt x4
  exact encoding_some rfl (by simp only [rrr, aluFn, bit_false]; omega) rfl

theorem Encoding.max (x0 : GReg) (x1 : GReg) (x2 : GReg) (x3 : Width) (x4 : Bool) : Encoding.Statement (.max x0 x1 x2 x3 x4) := by
  have h0 := x0.isLt
  have h1 := x1.isLt
  have h2 := x2.isLt
  have h3 := width_lt x3
  have h4 := bit_lt x4
  exact encoding_some rfl (by simp only [rrr, aluFn, bit_false]; omega) rfl

theorem Encoding.slt (x0 : GReg) (x1 : GReg) (x2 : GReg) (x3 : Width) (x4 : Bool) : Encoding.Statement (.slt x0 x1 x2 x3 x4) := by
  have h0 := x0.isLt
  have h1 := x1.isLt
  have h2 := x2.isLt
  have h3 := width_lt x3
  have h4 := bit_lt x4
  exact encoding_some rfl (by simp only [rrr, aluFn, bit_false]; omega) rfl

theorem Encoding.seq (x0 : GReg) (x1 : GReg) (x2 : GReg) (x3 : Width) : Encoding.Statement (.seq x0 x1 x2 x3) := by
  have h0 := x0.isLt
  have h1 := x1.isLt
  have h2 := x2.isLt
  have h3 := width_lt x3
  exact encoding_some rfl (by simp only [rrr, aluFn, bit_false]; omega) rfl

theorem Encoding.mul (x0 : GReg) (x1 : GReg) (x2 : GReg) (x3 : Width) (x4 : Bool) (x5 : Bool) : Encoding.Statement (.mul x0 x1 x2 x3 x4 x5) := by
  have h0 := x0.isLt
  have h1 := x1.isLt
  have h2 := x2.isLt
  have h3 := width_lt x3
  have h4 := bit_lt x4
  have h5 := bit_lt x5
  exact encoding_some rfl (by simp only [rrr, aluFn]; omega) rfl

theorem Encoding.mulh (x0 : GReg) (x1 : GReg) (x2 : GReg) (x3 : Width) (x4 : Bool) : Encoding.Statement (.mulh x0 x1 x2 x3 x4) := by
  have h0 := x0.isLt
  have h1 := x1.isLt
  have h2 := x2.isLt
  have h3 := width_lt x3
  have h4 := bit_lt x4
  exact encoding_some rfl (by simp only [rrr, aluFn, bit_false]; omega) rfl

theorem Encoding.div (x0 : GReg) (x1 : GReg) (x2 : GReg) (x3 : Width) (x4 : Bool) : Encoding.Statement (.div x0 x1 x2 x3 x4) := by
  have h0 := x0.isLt
  have h1 := x1.isLt
  have h2 := x2.isLt
  have h3 := width_lt x3
  have h4 := bit_lt x4
  exact encoding_some rfl (by simp only [rrr, aluFn, bit_false]; omega) rfl

theorem Encoding.rem (x0 : GReg) (x1 : GReg) (x2 : GReg) (x3 : Width) (x4 : Bool) : Encoding.Statement (.rem x0 x1 x2 x3 x4) := by
  have h0 := x0.isLt
  have h1 := x1.isLt
  have h2 := x2.isLt
  have h3 := width_lt x3
  have h4 := bit_lt x4
  exact encoding_some rfl (by simp only [rrr, aluFn, bit_false]; omega) rfl

theorem Encoding.ceq (x0 : CReg) (x1 : GReg) (x2 : GReg) (x3 : Width) : Encoding.Statement (.ceq x0 x1 x2 x3) := by
  have h0 := x0.isLt
  have h1 := x1.isLt
  have h2 := x2.isLt
  have h3 := width_lt x3
  exact encoding_some rfl (by simp only [rrr, aluFn, bit_false]; omega) rfl

theorem Encoding.cne (x0 : CReg) (x1 : GReg) (x2 : GReg) (x3 : Width) : Encoding.Statement (.cne x0 x1 x2 x3) := by
  have h0 := x0.isLt
  have h1 := x1.isLt
  have h2 := x2.isLt
  have h3 := width_lt x3
  exact encoding_some rfl (by simp only [rrr, aluFn, bit_false]; omega) rfl

theorem Encoding.clt (x0 : CReg) (x1 : GReg) (x2 : GReg) (x3 : Width) (x4 : Bool) : Encoding.Statement (.clt x0 x1 x2 x3 x4) := by
  have h0 := x0.isLt
  have h1 := x1.isLt
  have h2 := x2.isLt
  have h3 := width_lt x3
  have h4 := bit_lt x4
  exact encoding_some rfl (by simp only [rrr, aluFn, bit_false]; omega) rfl

theorem Encoding.cge (x0 : CReg) (x1 : GReg) (x2 : GReg) (x3 : Width) (x4 : Bool) : Encoding.Statement (.cge x0 x1 x2 x3 x4) := by
  have h0 := x0.isLt
  have h1 := x1.isLt
  have h2 := x2.isLt
  have h3 := width_lt x3
  have h4 := bit_lt x4
  exact encoding_some rfl (by simp only [rrr, aluFn, bit_false]; omega) rfl

theorem Encoding.ctst (x0 : CReg) (x1 : GReg) (x2 : GReg) (x3 : Width) : Encoding.Statement (.ctst x0 x1 x2 x3) := by
  have h0 := x0.isLt
  have h1 := x1.isLt
  have h2 := x2.isLt
  have h3 := width_lt x3
  exact encoding_some rfl (by simp only [rrr, aluFn, bit_false]; omega) rfl

theorem Encoding.addi (x0 : GReg) (x1 : GReg) (x2 : BitVec 15) : Encoding.Statement (.addi x0 x1 x2) := by
  have h0 := x0.isLt
  have h1 := x1.isLt
  have h2 := x2.isLt
  exact encoding_some rfl (by simp only [rri]; omega) rfl

theorem Encoding.andi (x0 : GReg) (x1 : GReg) (x2 : BitVec 15) : Encoding.Statement (.andi x0 x1 x2) := by
  have h0 := x0.isLt
  have h1 := x1.isLt
  have h2 := x2.isLt
  exact encoding_some rfl (by simp only [rri]; omega) rfl

theorem Encoding.ori (x0 : GReg) (x1 : GReg) (x2 : BitVec 15) : Encoding.Statement (.ori x0 x1 x2) := by
  have h0 := x0.isLt
  have h1 := x1.isLt
  have h2 := x2.isLt
  exact encoding_some rfl (by simp only [rri]; omega) rfl

theorem Encoding.xori (x0 : GReg) (x1 : GReg) (x2 : BitVec 15) : Encoding.Statement (.xori x0 x1 x2) := by
  have h0 := x0.isLt
  have h1 := x1.isLt
  have h2 := x2.isLt
  exact encoding_some rfl (by simp only [rri]; omega) rfl

theorem Encoding.shli (x0 : GReg) (x1 : GReg) (x2 : Width) (x3 : Bool) (x4 : BitVec 6) : Encoding.Statement (.shli x0 x1 x2 x3 x4) := by
  have h0 := x0.isLt
  have h1 := x1.isLt
  have h2 := width_lt x2
  have h3 := bit_lt x3
  have h4 := x4.isLt
  exact encoding_some rfl (by simp only [rri]; omega) rfl

theorem Encoding.shri (x0 : GReg) (x1 : GReg) (x2 : Width) (x3 : Bool) (x4 : BitVec 6) : Encoding.Statement (.shri x0 x1 x2 x3 x4) := by
  have h0 := x0.isLt
  have h1 := x1.isLt
  have h2 := width_lt x2
  have h3 := bit_lt x3
  have h4 := x4.isLt
  exact encoding_some rfl (by simp only [rri]; omega) rfl

theorem Encoding.sari (x0 : GReg) (x1 : GReg) (x2 : Width) (x3 : Bool) (x4 : BitVec 6) : Encoding.Statement (.sari x0 x1 x2 x3 x4) := by
  have h0 := x0.isLt
  have h1 := x1.isLt
  have h2 := width_lt x2
  have h3 := bit_lt x3
  have h4 := x4.isLt
  exact encoding_some rfl (by simp only [rri]; omega) rfl

theorem Encoding.rori (x0 : GReg) (x1 : GReg) (x2 : Width) (x3 : Bool) (x4 : BitVec 6) : Encoding.Statement (.rori x0 x1 x2 x3 x4) := by
  have h0 := x0.isLt
  have h1 := x1.isLt
  have h2 := width_lt x2
  have h3 := bit_lt x3
  have h4 := x4.isLt
  exact encoding_some rfl (by simp only [rri]; omega) rfl

theorem Encoding.ceqi (x0 : CReg) (x1 : GReg) (x2 : BitVec 12) : Encoding.Statement (.ceqi x0 x1 x2) := by
  have h0 := x0.isLt
  have h1 := x1.isLt
  have h2 := x2.isLt
  exact encoding_some rfl (by simp only [rri]; omega) rfl

theorem Encoding.cnei (x0 : CReg) (x1 : GReg) (x2 : BitVec 12) : Encoding.Statement (.cnei x0 x1 x2) := by
  have h0 := x0.isLt
  have h1 := x1.isLt
  have h2 := x2.isLt
  exact encoding_some rfl (by simp only [rri]; omega) rfl

theorem Encoding.clti (x0 : CReg) (x1 : GReg) (x2 : BitVec 12) : Encoding.Statement (.clti x0 x1 x2) := by
  have h0 := x0.isLt
  have h1 := x1.isLt
  have h2 := x2.isLt
  exact encoding_some rfl (by simp only [rri]; omega) rfl

theorem Encoding.cgei (x0 : CReg) (x1 : GReg) (x2 : BitVec 12) : Encoding.Statement (.cgei x0 x1 x2) := by
  have h0 := x0.isLt
  have h1 := x1.isLt
  have h2 := x2.isLt
  exact encoding_some rfl (by simp only [rri]; omega) rfl

theorem Encoding.cltui (x0 : CReg) (x1 : GReg) (x2 : BitVec 12) : Encoding.Statement (.cltui x0 x1 x2) := by
  have h0 := x0.isLt
  have h1 := x1.isLt
  have h2 := x2.isLt
  exact encoding_some rfl (by simp only [rri]; omega) rfl

theorem Encoding.cgeui (x0 : CReg) (x1 : GReg) (x2 : BitVec 12) : Encoding.Statement (.cgeui x0 x1 x2) := by
  have h0 := x0.isLt
  have h1 := x1.isLt
  have h2 := x2.isLt
  exact encoding_some rfl (by simp only [rri]; omega) rfl

theorem Encoding.ctsti (x0 : CReg) (x1 : GReg) (x2 : BitVec 12) : Encoding.Statement (.ctsti x0 x1 x2) := by
  have h0 := x0.isLt
  have h1 := x1.isLt
  have h2 := x2.isLt
  exact encoding_some rfl (by simp only [rri]; omega) rfl

theorem Encoding.li (x0 : GReg) (x1 : BitVec 20) : Encoding.Statement (.li x0 x1) := by
  have h0 := x0.isLt
  have h1 := x1.isLt
  exact encoding_some rfl (by simp only [ri20]; omega) rfl

theorem Encoding.lis (x0 : GReg) (x1 : BitVec 20) : Encoding.Statement (.lis x0 x1) := by
  have h0 := x0.isLt
  have h1 := x1.isLt
  exact encoding_some rfl (by simp only [ri20]; omega) rfl

theorem Encoding.clz (x0 : GReg) (x1 : GReg) : Encoding.Statement (.clz x0 x1) := by
  have h0 := x0.isLt
  have h1 := x1.isLt
  exact encoding_some rfl (by simp only [rrr]; omega) rfl

theorem Encoding.ctz (x0 : GReg) (x1 : GReg) : Encoding.Statement (.ctz x0 x1) := by
  have h0 := x0.isLt
  have h1 := x1.isLt
  exact encoding_some rfl (by simp only [rrr]; omega) rfl

theorem Encoding.popc (x0 : GReg) (x1 : GReg) : Encoding.Statement (.popc x0 x1) := by
  have h0 := x0.isLt
  have h1 := x1.isLt
  exact encoding_some rfl (by simp only [rrr]; omega) rfl

theorem Encoding.brev (x0 : GReg) (x1 : GReg) : Encoding.Statement (.brev x0 x1) := by
  have h0 := x0.isLt
  have h1 := x1.isLt
  exact encoding_some rfl (by simp only [rrr]; omega) rfl

theorem Encoding.bswap (x0 : GReg) (x1 : GReg) : Encoding.Statement (.bswap x0 x1) := by
  have h0 := x0.isLt
  have h1 := x1.isLt
  exact encoding_some rfl (by simp only [rrr]; omega) rfl

theorem Encoding.sel (x0 : GReg) (x1 : GReg) (x2 : GReg) (x3 : CReg) : Encoding.Statement (.sel x0 x1 x2 x3) := by
  have h0 := x0.isLt
  have h1 := x1.isLt
  have h2 := x2.isLt
  have h3 := x3.isLt
  exact encoding_some rfl (by simp only [rrr]; omega) rfl

theorem Encoding.seln (x0 : GReg) (x1 : GReg) (x2 : GReg) (x3 : CReg) : Encoding.Statement (.seln x0 x1 x2 x3) := by
  have h0 := x0.isLt
  have h1 := x1.isLt
  have h2 := x2.isLt
  have h3 := x3.isLt
  exact encoding_some rfl (by simp only [rrr]; omega) rfl

theorem Encoding.mfc (x0 : GReg) (x1 : CReg) : Encoding.Statement (.mfc x0 x1) := by
  have h0 := x0.isLt
  have h1 := x1.isLt
  exact encoding_some rfl (by simp only [rrr]; omega) rfl

theorem Encoding.mtc (x0 : CReg) (x1 : GReg) : Encoding.Statement (.mtc x0 x1) := by
  have h0 := x0.isLt
  have h1 := x1.isLt
  exact encoding_some rfl (by simp only [rrr]; omega) rfl

theorem Encoding.cand (x0 : CReg) (x1 : CReg) (x2 : CReg) : Encoding.Statement (.cand x0 x1 x2) := by
  have h0 := x0.isLt
  have h1 := x1.isLt
  have h2 := x2.isLt
  exact encoding_some rfl (by simp only [rrr]; omega) rfl

theorem Encoding.cor (x0 : CReg) (x1 : CReg) (x2 : CReg) : Encoding.Statement (.cor x0 x1 x2) := by
  have h0 := x0.isLt
  have h1 := x1.isLt
  have h2 := x2.isLt
  exact encoding_some rfl (by simp only [rrr]; omega) rfl

theorem Encoding.cxor (x0 : CReg) (x1 : CReg) (x2 : CReg) : Encoding.Statement (.cxor x0 x1 x2) := by
  have h0 := x0.isLt
  have h1 := x1.isLt
  have h2 := x2.isLt
  exact encoding_some rfl (by simp only [rrr]; omega) rfl

theorem Encoding.candn (x0 : CReg) (x1 : CReg) (x2 : CReg) : Encoding.Statement (.candn x0 x1 x2) := by
  have h0 := x0.isLt
  have h1 := x1.isLt
  have h2 := x2.isLt
  exact encoding_some rfl (by simp only [rrr]; omega) rfl

theorem Encoding.addsh (x0 : GReg) (x1 : GReg) (x2 : BitVec 6) : Encoding.Statement (.addsh x0 x1 x2) := by
  have h0 := x0.isLt
  have h1 := x1.isLt
  have h2 := x2.isLt
  exact encoding_some rfl (by simp only [rri]; omega) rfl

theorem Encoding.wrapi (x0 : GReg) (x1 : GReg) (x2 : BitVec 6) (x3 : BitVec 6) : Encoding.Statement (.wrapi x0 x1 x2 x3) := by
  have h0 := x0.isLt
  have h1 := x1.isLt
  have h2 := x2.isLt
  have h3 := x3.isLt
  exact encoding_some rfl (by simp only [rri]; omega) rfl

theorem Encoding.alignu (x0 : GReg) (x1 : GReg) (x2 : BitVec 6) : Encoding.Statement (.alignu x0 x1 x2) := by
  have h0 := x0.isLt
  have h1 := x1.isLt
  have h2 := x2.isLt
  exact encoding_some rfl (by simp only [rri]; omega) rfl

theorem Encoding.mov (x0 : GReg) (x1 : GReg) : Encoding.Statement (.mov x0 x1) := by
  have h0 := x0.isLt
  have h1 := x1.isLt
  exact encoding_some rfl (by simp only [rrr]; omega) rfl

theorem Encoding.sxb (x0 : GReg) (x1 : GReg) : Encoding.Statement (.sxb x0 x1) := by
  have h0 := x0.isLt
  have h1 := x1.isLt
  exact encoding_some rfl (by simp only [rrr]; omega) rfl

theorem Encoding.sxh (x0 : GReg) (x1 : GReg) : Encoding.Statement (.sxh x0 x1) := by
  have h0 := x0.isLt
  have h1 := x1.isLt
  exact encoding_some rfl (by simp only [rrr]; omega) rfl

theorem Encoding.sxw (x0 : GReg) (x1 : GReg) : Encoding.Statement (.sxw x0 x1) := by
  have h0 := x0.isLt
  have h1 := x1.isLt
  exact encoding_some rfl (by simp only [rrr]; omega) rfl

theorem Encoding.zxb (x0 : GReg) (x1 : GReg) : Encoding.Statement (.zxb x0 x1) := by
  have h0 := x0.isLt
  have h1 := x1.isLt
  exact encoding_some rfl (by simp only [rrr]; omega) rfl

theorem Encoding.zxh (x0 : GReg) (x1 : GReg) : Encoding.Statement (.zxh x0 x1) := by
  have h0 := x0.isLt
  have h1 := x1.isLt
  exact encoding_some rfl (by simp only [rrr]; omega) rfl

theorem Encoding.zxw (x0 : GReg) (x1 : GReg) : Encoding.Statement (.zxw x0 x1) := by
  have h0 := x0.isLt
  have h1 := x1.isLt
  exact encoding_some rfl (by simp only [rrr]; omega) rfl

theorem Encoding.mfl (x0 : GReg) (x1 : Fin 9) : Encoding.Statement (.mfl x0 x1) := by
  have h0 := x0.isLt
  have h1 := x1.isLt
  exact encoding_some rfl (by simp only [rrr]; omega) rfl

theorem Encoding.mtl (x0 : Fin 9) (x1 : GReg) : Encoding.Statement (.mtl x0 x1) := by
  have h0 := x0.isLt
  have h1 := x1.isLt
  exact encoding_some rfl (by simp only [rrr]; omega) rfl

theorem Encoding.ldl (x0 : GReg) (x1 : GReg) (x2 : LdSz) (x3 : BitVec 12) : Encoding.Statement (.ldl x0 x1 x2 x3) := by
  have h0 := x0.isLt
  have h1 := x1.isLt
  have h2 := ldSz_lt x2
  have h3 := x3.isLt
  exact encoding_some rfl (by simp only [rri]; omega) rfl

theorem Encoding.stl (x0 : GReg) (x1 : GReg) (x2 : StSz) (x3 : BitVec 12) : Encoding.Statement (.stl x0 x1 x2 x3) := by
  have h0 := x0.isLt
  have h1 := x1.isLt
  have h2 := stSz_lt x2
  have h3 := x3.isLt
  exact encoding_some rfl (by simp only [rri]; omega) rfl

theorem Encoding.ldg (x0 : GReg) (x1 : GReg) (x2 : LdSz) (x3 : BitVec 12) : Encoding.Statement (.ldg x0 x1 x2 x3) := by
  have h0 := x0.isLt
  have h1 := x1.isLt
  have h2 := ldSz_lt x2
  have h3 := x3.isLt
  exact encoding_some rfl (by simp only [rri]; omega) rfl

theorem Encoding.stg (x0 : GReg) (x1 : GReg) (x2 : StSz) (x3 : BitVec 12) : Encoding.Statement (.stg x0 x1 x2 x3) := by
  have h0 := x0.isLt
  have h1 := x1.isLt
  have h2 := stSz_lt x2
  have h3 := x3.isLt
  exact encoding_some rfl (by simp only [rri]; omega) rfl

theorem Encoding.ldlx (x0 : GReg) (x1 : GReg) (x2 : GReg) (x3 : BitVec 2) (x4 : LdSz) : Encoding.Statement (.ldlx x0 x1 x2 x3 x4) := by
  have h0 := x0.isLt
  have h1 := x1.isLt
  have h2 := x2.isLt
  have h3 := x3.isLt
  have h4 := ldSz_lt x4
  exact encoding_some rfl (by simp only [rrr]; omega) rfl

theorem Encoding.stlx (x0 : GReg) (x1 : GReg) (x2 : GReg) (x3 : BitVec 2) (x4 : StSz) : Encoding.Statement (.stlx x0 x1 x2 x3 x4) := by
  have h0 := x0.isLt
  have h1 := x1.isLt
  have h2 := x2.isLt
  have h3 := x3.isLt
  have h4 := stSz_lt x4
  exact encoding_some rfl (by simp only [rrr]; omega) rfl

theorem Encoding.ldgx (x0 : GReg) (x1 : GReg) (x2 : GReg) (x3 : BitVec 2) (x4 : LdSz) : Encoding.Statement (.ldgx x0 x1 x2 x3 x4) := by
  have h0 := x0.isLt
  have h1 := x1.isLt
  have h2 := x2.isLt
  have h3 := x3.isLt
  have h4 := ldSz_lt x4
  exact encoding_some rfl (by simp only [rrr]; omega) rfl

theorem Encoding.stgx (x0 : GReg) (x1 : GReg) (x2 : GReg) (x3 : BitVec 2) (x4 : StSz) : Encoding.Statement (.stgx x0 x1 x2 x3 x4) := by
  have h0 := x0.isLt
  have h1 := x1.isLt
  have h2 := x2.isLt
  have h3 := x3.isLt
  have h4 := stSz_lt x4
  exact encoding_some rfl (by simp only [rrr]; omega) rfl

theorem Encoding.ldf (x0 : GReg) (x1 : GReg) (x2 : Bool) (x3 : BitVec 12) : Encoding.Statement (.ldf x0 x1 x2 x3) := by
  have h0 := x0.isLt
  have h1 := x1.isLt
  have h2 := bit_lt x2
  have h3 := x3.isLt
  exact encoding_some rfl (by simp only [rri]; omega) rfl

theorem Encoding.ldfp (x0 : GReg) (x1 : GReg) (x2 : Bool) (x3 : BitVec 12) : Encoding.Statement (.ldfp x0 x1 x2 x3) := by
  have h0 := x0.isLt
  have h1 := x1.isLt
  have h2 := bit_lt x2
  have h3 := x3.isLt
  exact encoding_some rfl (by simp only [rri]; omega) rfl

theorem Encoding.ste (x0 : GReg) (x1 : GReg) (x2 : BitVec 12) : Encoding.Statement (.ste x0 x1 x2) := by
  have h0 := x0.isLt
  have h1 := x1.isLt
  have h2 := x2.isLt
  exact encoding_some rfl (by simp only [rri]; omega) rfl

theorem Encoding.stf (x0 : GReg) (x1 : GReg) (x2 : BitVec 12) : Encoding.Statement (.stf x0 x1 x2) := by
  have h0 := x0.isLt
  have h1 := x1.isLt
  have h2 := x2.isLt
  exact encoding_some rfl (by simp only [rri]; omega) rfl

theorem Encoding.hcfg (x0 : GReg) (x1 : Fin 32) : Encoding.Statement (.hcfg x0 x1) := by
  have h0 := x0.isLt
  have h1 := x1.isLt
  exact encoding_some rfl (by simp only [rrr]; omega) rfl

theorem Encoding.hget (x0 : GReg) (x1 : Bool) (x2 : Fin 32) : Encoding.Statement (.hget x0 x1 x2) := by
  have h0 := x0.isLt
  have h1 := bit_lt x1
  have h2 := x2.isLt
  exact encoding_some rfl (by simp only [rrr]; omega) rfl

theorem Encoding.hwaitc (x0 : GReg) (x1 : Fin 32) : Encoding.Statement (.hwaitc x0 x1) := by
  have h0 := x0.isLt
  have h1 := x1.isLt
  exact encoding_some rfl (by simp only [rrr]; omega) rfl

theorem Encoding.hwaitp (x0 : GReg) (x1 : Fin 32) : Encoding.Statement (.hwaitp x0 x1) := by
  have h0 := x0.isLt
  have h1 := x1.isLt
  exact encoding_some rfl (by simp only [rrr]; omega) rfl

theorem Encoding.hadvc (x0 : GReg) (x1 : Fin 32) : Encoding.Statement (.hadvc x0 x1) := by
  have h0 := x0.isLt
  have h1 := x1.isLt
  exact encoding_some rfl (by simp only [rrr]; omega) rfl

theorem Encoding.hadvp (x0 : GReg) (x1 : Fin 32) : Encoding.Statement (.hadvp x0 x1) := by
  have h0 := x0.isLt
  have h1 := x1.isLt
  exact encoding_some rfl (by simp only [rrr]; omega) rfl

theorem Encoding.hroll (x0 : GReg) (x1 : Fin 32) : Encoding.Statement (.hroll x0 x1) := by
  have h0 := x0.isLt
  have h1 := x1.isLt
  exact encoding_some rfl (by simp only [rrr]; omega) rfl

theorem Encoding.hpslot (x0 : GReg) (x1 : GReg) (x2 : Fin 32) : Encoding.Statement (.hpslot x0 x1 x2) := by
  have h0 := x0.isLt
  have h1 := x1.isLt
  have h2 := x2.isLt
  exact encoding_some rfl (by simp only [rrr]; omega) rfl

theorem Encoding.hcslot (x0 : GReg) (x1 : GReg) (x2 : Fin 32) : Encoding.Statement (.hcslot x0 x1 x2) := by
  have h0 := x0.isLt
  have h1 := x1.isLt
  have h2 := x2.isLt
  exact encoding_some rfl (by simp only [rrr]; omega) rfl

theorem Encoding.hown (x0 : GReg) (x1 : Fin 32) : Encoding.Statement (.hown x0 x1) := by
  have h0 := x0.isLt
  have h1 := x1.isLt
  exact encoding_some rfl (by simp only [rrr]; omega) rfl

theorem Encoding.wpr (x0 : GReg) (x1 : Fin 8) : Encoding.Statement (.wpr x0 x1) := by
  have h0 := x0.isLt
  have h1 := x1.isLt
  exact encoding_some rfl (by simp only [rrr]; omega) rfl

theorem Encoding.wpw (x0 : GReg) (x1 : Fin 8) : Encoding.Statement (.wpw x0 x1) := by
  have h0 := x0.isLt
  have h1 := x1.isLt
  exact encoding_some rfl (by simp only [rrr]; omega) rfl

theorem Encoding.carm (x0 : GReg) (x1 : Fin 16) : Encoding.Statement (.carm x0 x1) := by
  have h0 := x0.isLt
  have h1 := x1.isLt
  exact encoding_some rfl (by simp only [rrr]; omega) rfl

theorem Encoding.mcfg (x0 : GReg) (x1 : Fin 8) : Encoding.Statement (.mcfg x0 x1) := by
  have h0 := x0.isLt
  have h1 := x1.isLt
  exact encoding_some rfl (by simp only [rrr]; omega) rfl

theorem Encoding.mcfgRd (x0 : GReg) (x1 : Bool) (x2 : Fin 8) : Encoding.Statement (.mcfgRd x0 x1 x2) := by
  have h0 := x0.isLt
  have h1 := bit_lt x1
  have h2 := x2.isLt
  exact encoding_some rfl (by simp only [rrr]; omega) rfl

theorem Encoding.mcfgClr (x0 : Fin 8) : Encoding.Statement (.mcfgClr x0) := by
  have h0 := x0.isLt
  exact encoding_some rfl (by simp only [rrr]; omega) rfl

theorem Encoding.mld (x0 : GReg) (x1 : GReg) (x2 : GReg) (x3 : MicaWid) : Encoding.Statement (.mld x0 x1 x2 x3) := by
  have h0 := x0.isLt
  have h1 := x1.isLt
  have h2 := x2.isLt
  have h3 := micaWid_lt x3
  exact encoding_some rfl (by simp only [rrr]; omega) rfl

theorem Encoding.mldg (x0 : GReg) (x1 : GReg) (x2 : GReg) (x3 : MicaWid) : Encoding.Statement (.mldg x0 x1 x2 x3) := by
  have h0 := x0.isLt
  have h1 := x1.isLt
  have h2 := x2.isLt
  have h3 := micaWid_lt x3
  exact encoding_some rfl (by simp only [rrr]; omega) rfl

theorem Encoding.mldl (x0 : GReg) (x1 : GReg) (x2 : GReg) (x3 : MicaWid) : Encoding.Statement (.mldl x0 x1 x2 x3) := by
  have h0 := x0.isLt
  have h1 := x1.isLt
  have h2 := x2.isLt
  have h3 := micaWid_lt x3
  exact encoding_some rfl (by simp only [rrr]; omega) rfl

theorem Encoding.mldlg (x0 : GReg) (x1 : GReg) (x2 : GReg) (x3 : MicaWid) : Encoding.Statement (.mldlg x0 x1 x2 x3) := by
  have h0 := x0.isLt
  have h1 := x1.isLt
  have h2 := x2.isLt
  have h3 := micaWid_lt x3
  exact encoding_some rfl (by simp only [rrr]; omega) rfl

theorem Encoding.minc (x0 : GReg) (x1 : GReg) (x2 : GReg) (x3 : MicaWid) : Encoding.Statement (.minc x0 x1 x2 x3) := by
  have h0 := x0.isLt
  have h1 := x1.isLt
  have h2 := x2.isLt
  have h3 := micaWid_lt x3
  exact encoding_some rfl (by simp only [rrr]; omega) rfl

theorem Encoding.mincg (x0 : GReg) (x1 : GReg) (x2 : GReg) (x3 : MicaWid) : Encoding.Statement (.mincg x0 x1 x2 x3) := by
  have h0 := x0.isLt
  have h1 := x1.isLt
  have h2 := x2.isLt
  have h3 := micaWid_lt x3
  exact encoding_some rfl (by simp only [rrr]; omega) rfl

theorem Encoding.radm (x0 : Fin 32) (x1 : GReg) (x2 : Bool) (x3 : Fin 8) : Encoding.Statement (.radm x0 x1 x2 x3) := by
  have h0 := x0.isLt
  have h1 := x1.isLt
  have h2 := bit_lt x2
  have h3 := x3.isLt
  exact encoding_some rfl (by simp only [rrr]; omega) rfl

theorem Encoding.rret (x0 : SlotSel) (x1 : Fin 8) : Encoding.Statement (.rret x0 x1) := by
  have h0 := slotSel_lt x0
  have h1 := x1.isLt
  exact encoding_some rfl (by simp only [rrr]; omega) rfl

theorem Encoding.rhold (x0 : SlotSel) (x1 : Fin 8) : Encoding.Statement (.rhold x0 x1) := by
  have h0 := slotSel_lt x0
  have h1 := x1.isLt
  exact encoding_some rfl (by simp only [rrr]; omega) rfl

theorem Encoding.rrel (x0 : SlotSel) (x1 : Fin 8) : Encoding.Statement (.rrel x0 x1) := by
  have h0 := slotSel_lt x0
  have h1 := x1.isLt
  exact encoding_some rfl (by simp only [rrr]; omega) rfl

theorem Encoding.rsave (x0 : GReg) (x1 : SaveMode) (x2 : Fin 8) : Encoding.Statement (.rsave x0 x1 x2) := by
  have h0 := x0.isLt
  have h1 := saveMode_lt x1
  have h2 := x2.isLt
  exact encoding_some rfl (by simp only [rrr]; omega) rfl

theorem Encoding.rload (x0 : GReg) (x1 : Bool) (x2 : Bool) (x3 : Fin 8) : Encoding.Statement (.rload x0 x1 x2 x3) := by
  have h0 := x0.isLt
  have h1 := bit_lt x1
  have h2 := bit_lt x2
  have h3 := x3.isLt
  exact encoding_some rfl (by simp only [rrr]; omega) rfl

theorem Encoding.rmap (x0 : GReg) (x1 : Fin 8) : Encoding.Statement (.rmap x0 x1) := by
  have h0 := x0.isLt
  have h1 := x1.isLt
  exact encoding_some rfl (by simp only [rrr]; omega) rfl

theorem Encoding.rstat (x0 : GReg) (x1 : SlotSel) (x2 : Fin 8) : Encoding.Statement (.rstat x0 x1 x2) := by
  have h0 := x0.isLt
  have h1 := slotSel_lt x1
  have h2 := x2.isLt
  exact encoding_some rfl (by simp only [rrr]; omega) rfl

theorem Encoding.br (x0 : CReg) (x1 : Bool) (x2 : BitVec 21) : Encoding.Statement (.br x0 x1 x2) := by
  have h0 := x0.isLt
  have h1 := bit_lt x1
  have h2 := x2.isLt
  exact encoding_some rfl (by simp only [brR]; omega) rfl

theorem Encoding.call (x0 : BitVec 21) : Encoding.Statement (.call x0) := by
  have h0 := x0.isLt
  exact encoding_some rfl (by simp only [brR]; omega) rfl

theorem Encoding.jr (x0 : GReg) : Encoding.Statement (.jr x0) := by
  have h0 := x0.isLt
  exact encoding_some rfl (by simp only [rrr]; omega) rfl

theorem Encoding.jalr (x0 : GReg) (x1 : GReg) : Encoding.Statement (.jalr x0 x1) := by
  have h0 := x0.isLt
  have h1 := x1.isLt
  exact encoding_some rfl (by simp only [rrr]; omega) rfl

theorem Encoding.loopReg (x0 : Fin 3) (x1 : GReg) (x2 : BitVec 12) : Encoding.Statement (.loopReg x0 x1 x2) := by
  have h0 := x0.isLt
  have h1 := x1.isLt
  have h2 := x2.isLt
  exact encoding_some rfl (by simp only [lpR]; omega) rfl

theorem Encoding.loopImm (x0 : Fin 3) (x1 : BitVec 10) (x2 : BitVec 12) : Encoding.Statement (.loopImm x0 x1 x2) := by
  have h0 := x0.isLt
  have h1 := x1.isLt
  have h2 := x2.isLt
  exact encoding_some rfl (by simp only [lpR]; omega) rfl

theorem Encoding.repReg (x0 : GReg) (x1 : BitVec 12) : Encoding.Statement (.repReg x0 x1) := by
  have h0 := x0.isLt
  have h1 := x1.isLt
  exact encoding_some rfl (by simp only [lpR]; omega) rfl

theorem Encoding.repImm (x0 : BitVec 10) (x1 : BitVec 12) : Encoding.Statement (.repImm x0 x1) := by
  have h0 := x0.isLt
  have h1 := x1.isLt
  exact encoding_some rfl (by simp only [lpR]; omega) rfl

theorem Encoding.pin (x0 : BitVec 12) : Encoding.Statement (.pin x0) := by
  have h0 := x0.isLt
  exact encoding_some rfl (by simp only [lpR]; omega) rfl

theorem Encoding.dx (x0 : Fin 1024) (x1 : BitVec 5) (x2 : BitVec 5) (x3 : BitVec 5) : Encoding.Statement (.dx x0 x1 x2 x3) := by
  have h0 := x0.isLt
  have h1 := x1.isLt
  have h2 := x2.isLt
  have h3 := x3.isLt
  exact encoding_some rfl (by omega) rfl

theorem Encoding.rdc (x0 : GReg) (x1 : BitVec 12) : Encoding.Statement (.rdc x0 x1) := by
  have h0 := x0.isLt
  have h1 := x1.isLt
  exact encoding_some rfl (by simp only [rri]; omega) rfl

theorem Encoding.wrc (x0 : GReg) (x1 : BitVec 12) : Encoding.Statement (.wrc x0 x1) := by
  have h0 := x0.isLt
  have h1 := x1.isLt
  exact encoding_some rfl (by simp only [rri]; omega) rfl

theorem Encoding.wrcSplit (x0 : GReg) : Encoding.Statement (.wrcSplit x0) := by
  have h0 := x0.isLt
  exact encoding_some rfl (by simp only [rri]; omega) rfl

theorem Encoding.wrcPins (x0 : GReg) : Encoding.Statement (.wrcPins x0) := by
  have h0 := x0.isLt
  exact encoding_some rfl (by simp only [rri]; omega) rfl

theorem Encoding.wrcLease (x0 : GReg) : Encoding.Statement (.wrcLease x0) := by
  have h0 := x0.isLt
  exact encoding_some rfl (by simp only [rri]; omega) rfl

theorem Encoding.wrcBkc (x0 : GReg) (x1 : Fin 8) : Encoding.Statement (.wrcBkc x0 x1) := by
  have h0 := x0.isLt
  have h1 := x1.isLt
  exact encoding_some rfl (by simp only [rri]; omega) rfl

theorem Encoding.fence (x0 : Scope) : Encoding.Statement (.fence x0) := by
  have h0 := scope_lt x0
  exact encoding_some rfl (by simp only [rrr]; omega) rfl

theorem Encoding.dload (x0 : GReg) (x1 : GReg) : Encoding.Statement (.dload x0 x1) := by
  have h0 := x0.isLt
  have h1 := x1.isLt
  exact encoding_some rfl (by simp only [rrr]; omega) rfl

theorem Encoding.dread (x0 : GReg) (x1 : GReg) (x2 : Fin 3) : Encoding.Statement (.dread x0 x1 x2) := by
  have h0 := x0.isLt
  have h1 := x1.isLt
  have h2 := x2.isLt
  exact encoding_some rfl (by simp only [rrr]; omega) rfl

theorem Encoding.trap (x0 : Fin 32) : Encoding.Statement (.trap x0) := by
  have h0 := x0.isLt
  exact encoding_some rfl (by simp only [rrr]; omega) rfl

theorem Encoding.teardown (x0 : Nat) : Encoding.Statement (.teardown x0) :=
  encoding_none rfl

theorem Encoding.regionRelease (x0 : Nat) : Encoding.Statement (.regionRelease x0) :=
  encoding_none rfl

theorem Encoding.watchdog (x0 : Nat) : Encoding.Statement (.watchdog x0) :=
  encoding_none rfl

theorem Encoding.cellFiring (x0 : Fin 32) : Encoding.Statement (.cellFiring x0) :=
  encoding_none rfl

theorem Encoding.tokenPush (x0 : Fin 32) : Encoding.Statement (.tokenPush x0) :=
  encoding_none rfl

theorem Encoding.markerFiring (x0 : Fin 32) : Encoding.Statement (.markerFiring x0) :=
  encoding_none rfl

theorem Encoding.argwEffect (x0 : Fin 32) : Encoding.Statement (.argwEffect x0) :=
  encoding_none rfl

theorem Encoding.slotInject (x0 : Fin 8) : Encoding.Statement (.slotInject x0) :=
  encoding_none rfl

theorem Encoding.slotCapture (x0 : Fin 8) : Encoding.Statement (.slotCapture x0) :=
  encoding_none rfl

theorem Encoding.rotSaveComplete (x0 : Fin 8) : Encoding.Statement (.rotSaveComplete x0) :=
  encoding_none rfl

theorem Encoding.slotExit (x0 : Fin 8) : Encoding.Statement (.slotExit x0) :=
  encoding_none rfl

theorem Encoding.exitPortPush (x0 : Fin 8) : Encoding.Statement (.exitPortPush x0) :=
  encoding_none rfl

theorem Encoding.bankEngineAccess (x0 : Fin 32) : Encoding.Statement (.bankEngineAccess x0) :=
  encoding_none rfl

theorem Encoding.requestAged (x0 : Fin 32) : Encoding.Statement (.requestAged x0) :=
  encoding_none rfl

theorem Encoding.circuitPassBegin (x0 : Fin 16) : Encoding.Statement (.circuitPassBegin x0) :=
  encoding_none rfl

theorem Encoding.circuitTransfer (x0 : Fin 16) : Encoding.Statement (.circuitTransfer x0) :=
  encoding_none rfl

theorem Encoding.pageWalk (x0 : Nat) : Encoding.Statement (.pageWalk x0) :=
  encoding_none rfl

theorem Encoding.invalidationAck (x0 : Nat) : Encoding.Statement (.invalidationAck x0) :=
  encoding_none rfl

theorem Encoding.feedh (x0 : Fin 4) (x1 : Bool) (x2 : Bool) (x3 : Fin 16) (x4 : BitVec 24) (x5 : Decl) : Encoding.Statement (.feedh x0 x1 x2 x3 x4 x5) :=
  encoding_none rfl

theorem Encoding.feeda (x0 : Fin 4) (x1 : Bool) (x2 : Bool) (x3 : Bool) (x4 : Fin 16) (x5 : BitVec 48) (x6 : Fin 16) (x7 : Decl) : Encoding.Statement (.feeda x0 x1 x2 x3 x4 x5 x6 x7) :=
  encoding_none rfl

theorem Encoding.feedi (x0 : Fin 4) (x1 : Bool) (x2 : Fin 16) (x3 : Half) (x4 : Half) (x5 : Decl) : Encoding.Statement (.feedi x0 x1 x2 x3 x4 x5) :=
  encoding_none rfl

theorem Encoding.feedm (x0 : Fin 4) (x1 : Fin 16) (x2 : Decl) : Encoding.Statement (.feedm x0 x1 x2) :=
  encoding_none rfl

theorem Encoding.drainh (x0 : Fin 4) (x1 : Bool) (x2 : Bool) (x3 : Fin 16) (x4 : Decl) : Encoding.Statement (.drainh x0 x1 x2 x3 x4) :=
  encoding_none rfl

theorem Encoding.draina (x0 : Fin 4) (x1 : Bool) (x2 : Bool) (x3 : Bool) (x4 : Fin 16) (x5 : BitVec 48) (x6 : Fin 16) (x7 : Decl) : Encoding.Statement (.draina x0 x1 x2 x3 x4 x5 x6 x7) :=
  encoding_none rfl

theorem Encoding.drainx (x0 : Fin 4) (x1 : Fin 16) (x2 : Decl) : Encoding.Statement (.drainx x0 x1 x2) :=
  encoding_none rfl

theorem Encoding.feedPush (x0 : Fin 4) : Encoding.Statement (.feedPush x0) :=
  encoding_none rfl

theorem Encoding.drainTake (x0 : Fin 4) : Encoding.Statement (.drainTake x0) :=
  encoding_none rfl

theorem Encoding.sdld (x0 : Fin 16) (x1 : BitVec 24) : Encoding.Statement (.sdld x0 x1) :=
  encoding_none rfl

theorem Encoding.copy (x0 : Fin 8) (x1 : Bool) (x2 : Option (BitVec 24)) (x3 : Fin 16) (x4 : Fin 16) (x5 : Option Hist) (x6 : Decl) : Encoding.Statement (.copy x0 x1 x2 x3 x4 x5 x6) :=
  encoding_none rfl

theorem Encoding.hcopy (x0 : Fin 8) (x1 : Bool) (x2 : Option (BitVec 24)) (x3 : Fin 16) (x4 : Fin 16) (x5 : Hist) (x6 : Decl) : Encoding.Statement (.hcopy x0 x1 x2 x3 x4 x5 x6) :=
  encoding_none rfl

theorem Encoding.gather (x0 : Fin 8) (x1 : Bool) (x2 : Option (BitVec 24)) (x3 : Fin 16) (x4 : Fin 16) (x5 : BitVec 24) (x6 : Decl) : Encoding.Statement (.gather x0 x1 x2 x3 x4 x5 x6) :=
  encoding_none rfl

theorem Encoding.scatter (x0 : Fin 8) (x1 : Bool) (x2 : Option (BitVec 24)) (x3 : Fin 16) (x4 : Fin 16) (x5 : BitVec 24) (x6 : Decl) : Encoding.Statement (.scatter x0 x1 x2 x3 x4 x5 x6) :=
  encoding_none rfl

theorem Encoding.selacc (x0 : Fin 8) (x1 : BitVec 24) (x2 : Fin 16) (x3 : Option (Fin 16)) (x4 : BitVec 6) (x5 : Decl) : Encoding.Statement (.selacc x0 x1 x2 x3 x4 x5) :=
  encoding_none rfl

theorem Encoding.ldb (x0 : LdbSrc) (x1 : MxTy) (x2 : BitVec 8) (x3 : Option (Fin 16)) (x4 : Decl) : Encoding.Statement (.ldb x0 x1 x2 x3 x4) :=
  encoding_none rfl

theorem Encoding.mmul (x0 : BitVec 7) (x1 : BitVec 7) (x2 : Bool) (x3 : Bool) (x4 : MxTy) (x5 : Fin 16) (x6 : Option (Fin 16)) (x7 : Bool) (x8 : Option Prefetch) (x9 : Decl) : Encoding.Statement (.mmul x0 x1 x2 x3 x4 x5 x6 x7 x8 x9) :=
  encoding_none rfl

theorem Encoding.gmul (x0 : BitVec 7) (x1 : BitVec 7) (x2 : Bool) (x3 : Bool) (x4 : MxTy) (x5 : BitVec 8) (x6 : Fin 16) (x7 : BitVec 24) (x8 : Option (Fin 16)) (x9 : Decl) : Encoding.Statement (.gmul x0 x1 x2 x3 x4 x5 x6 x7 x8 x9) :=
  encoding_none rfl

theorem Encoding.rdacc (x0 : BitVec 7) (x1 : BitVec 7) (x2 : Bool) (x3 : RdFmt) (x4 : BitVec 8) (x5 : RdDst) (x6 : Decl) : Encoding.Statement (.rdacc x0 x1 x2 x3 x4 x5 x6) :=
  encoding_none rfl

theorem Encoding.recur (x0 : Fin 8) (x1 : MxTy) (x2 : BitVec 8) (x3 : Fin 16) (x4 : Option (Fin 16)) (x5 : Bool) (x6 : Decl) : Encoding.Statement (.recur x0 x1 x2 x3 x4 x5 x6) :=
  encoding_none rfl

theorem Encoding.atom (x0 : AtomOp) (x1 : AtomFmt) (x2 : SyeScope) (x3 : BitVec 48) (x4 : BitVec 24) : Encoding.Statement (.atom x0 x1 x2 x3 x4) :=
  encoding_none rfl

theorem Encoding.mmerge (x0 : MicaWid) (x1 : SyeScope) (x2 : BitVec 48) (x3 : BitVec 5) (x4 : BitVec 8) (x5 : BitVec 24) : Encoding.Statement (.mmerge x0 x1 x2 x3 x4 x5) :=
  encoding_none rfl

theorem Encoding.atomw (x0 : AtomOp) (x1 : AtomFmt) (x2 : SyeScope) (x3 : BitVec 48) (x4 : BitVec 24) (x5 : Fin 64) : Encoding.Statement (.atomw x0 x1 x2 x3 x4 x5) :=
  encoding_none rfl

theorem Encoding.mmergew (x0 : MicaWid) (x1 : SyeScope) (x2 : BitVec 48) (x3 : BitVec 5) (x4 : BitVec 8) (x5 : BitVec 24) (x6 : Fin 64) : Encoding.Statement (.mmergew x0 x1 x2 x3 x4 x5 x6) :=
  encoding_none rfl

theorem Encoding.wend (x0 : SyeScope) (x1 : BitVec 12) (x2 : BitVec 24) (x3 : Fin 64) : Encoding.Statement (.wend x0 x1 x2 x3) :=
  encoding_none rfl

theorem Encoding.barr (x0 : SyeScope) (x1 : Fin 64) (x2 : BitVec 24) : Encoding.Statement (.barr x0 x1 x2) :=
  encoding_none rfl

theorem Encoding.syeAccess (x0 : Fin 4) : Encoding.Statement (.syeAccess x0) :=
  encoding_none rfl

theorem Encoding.windowRoundClose (x0 : Nat) (x1 : Fin 64) : Encoding.Statement (.windowRoundClose x0 x1) :=
  encoding_none rfl

theorem Encoding.barrierArrival (x0 : Nat) (x1 : Fin 64) (x2 : Fin 4) : Encoding.Statement (.barrierArrival x0 x1 x2) :=
  encoding_none rfl

theorem Encoding.barrierRelease (x0 : Nat) (x1 : Fin 64) : Encoding.Statement (.barrierRelease x0 x1) :=
  encoding_none rfl

theorem Encoding.snap (x0 : BitVec 24) (x1 : Decl) : Encoding.Statement (.snap x0 x1) :=
  encoding_none rfl

theorem Encoding.argw (x0 : Fin 32) (x1 : Half) (x2 : Decl) : Encoding.Statement (.argw x0 x1 x2) :=
  encoding_none rfl

theorem Encoding.radmc (x0 : Fin 8) (x1 : Fin 32) (x2 : Bool) (x3 : Half) : Encoding.Statement (.radmc x0 x1 x2 x3) :=
  encoding_none rfl

theorem Encoding.rretc (x0 : Fin 8) (x1 : PhaseSel) : Encoding.Statement (.rretc x0 x1) :=
  encoding_none rfl

theorem Encoding.rholdc (x0 : Fin 8) (x1 : PhaseSel) : Encoding.Statement (.rholdc x0 x1) :=
  encoding_none rfl

theorem Encoding.rrelc (x0 : Fin 8) (x1 : PhaseSel) : Encoding.Statement (.rrelc x0 x1) :=
  encoding_none rfl

theorem Encoding.rsavec (x0 : Fin 8) (x1 : SaveMode) (x2 : Half) : Encoding.Statement (.rsavec x0 x1 x2) :=
  encoding_none rfl

theorem Encoding.rloadc (x0 : Fin 8) (x1 : Bool) (x2 : Bool) (x3 : Half) : Encoding.Statement (.rloadc x0 x1 x2 x3) :=
  encoding_none rfl

theorem Encoding.rmapc (x0 : Fin 8) (x1 : Half) : Encoding.Statement (.rmapc x0 x1) :=
  encoding_none rfl

theorem Encoding.launch (x0 : BitVec 24) (x1 : Fin 256) : Encoding.Statement (.launch x0 x1) :=
  encoding_none rfl

theorem Encoding.replay (x0 : BitVec 48) (x1 : Fin 256) : Encoding.Statement (.replay x0 x1) :=
  encoding_none rfl

theorem Encoding.replayNodeAppend (x0 : Fin 256) : Encoding.Statement (.replayNodeAppend x0) :=
  encoding_none rfl

theorem Encoding.invr (x0 : Half) (x1 : BitVec 16) (x2 : AsidSel) (x3 : BitVec 24) : Encoding.Statement (.invr x0 x1 x2 x3) :=
  encoding_none rfl

theorem Encoding.inva (x0 : AsidSel) (x1 : BitVec 24) : Encoding.Statement (.inva x0 x1) :=
  encoding_none rfl

theorem Encoding.commandPortIssue (x0 : Fin 16) : Encoding.Statement (.commandPortIssue x0) :=
  encoding_none rfl

theorem Encoding.commandBegin (x0 : Fin 9) : Encoding.Statement (.commandBegin x0) :=
  encoding_none rfl

theorem Encoding.commandComplete (x0 : Fin 22) : Encoding.Statement (.commandComplete x0) :=
  encoding_none rfl

theorem Encoding.cmpCircuitCarry (x0 : Nat) : Encoding.Statement (.cmpCircuitCarry x0) :=
  encoding_none rfl

theorem Encoding.taskComplete (x0 : Nat) : Encoding.Statement (.taskComplete x0) :=
  encoding_none rfl

theorem Encoding.tailDoorbell (x0 : Fin 256) (x1 : Half) : Encoding.Statement (.tailDoorbell x0 x1) :=
  encoding_none rfl

theorem Encoding.graphDoorbell (x0 : Fin 256) (x1 : Word) : Encoding.Statement (.graphDoorbell x0 x1) :=
  encoding_none rfl

theorem Encoding.kill (x0 : Fin 256) (x1 : Half) : Encoding.Statement (.kill x0 x1) :=
  encoding_none rfl

theorem Encoding.preempt (x0 : Fin 256) (x1 : Half) : Encoding.Statement (.preempt x0 x1) :=
  encoding_none rfl

theorem Encoding.nodeQuiesce (x0 : Fin 48) : Encoding.Statement (.nodeQuiesce x0) :=
  encoding_none rfl

theorem Encoding.preemptAck (x0 : Nat) : Encoding.Statement (.preemptAck x0) :=
  encoding_none rfl

theorem Encoding.hostRegisterWrite (x0 : BitVec 21) (x1 : Word) : Encoding.Statement (.hostRegisterWrite x0 x1) :=
  encoding_none rfl

theorem Encoding.dbmvRead (x0 : Fin 64) : Encoding.Statement (.dbmvRead x0) :=
  encoding_none rfl

theorem Encoding.hostRegisterRead (x0 : BitVec 21) : Encoding.Statement (.hostRegisterRead x0) :=
  encoding_none rfl

theorem Encoding.meas (x0 : Fin 64) (x1 : Word) : Encoding.Statement (.meas x0 x1) :=
  encoding_none rfl

theorem Encoding.hostWrite (x0 : Fin 64) (x1 : BitVec 48) (x2 : List Byte) : Encoding.Statement (.hostWrite x0 x1 x2) :=
  encoding_none rfl

theorem Encoding.hostRead (x0 : Fin 64) (x1 : BitVec 48) (x2 : Nat) : Encoding.Statement (.hostRead x0 x1 x2) :=
  encoding_none rfl

theorem Encoding.peerWrite (x0 : Fin 16) (x1 : Fin 64) (x2 : BitVec 48) (x3 : List Byte) : Encoding.Statement (.peerWrite x0 x1 x2 x3) :=
  encoding_none rfl

theorem Encoding.peerRead (x0 : Fin 16) (x1 : Fin 64) (x2 : BitVec 48) (x3 : Nat) : Encoding.Statement (.peerRead x0 x1 x2 x3) :=
  encoding_none rfl

theorem Encoding.flitReceive (x0 : Fin 16) (x1 : Flit) : Encoding.Statement (.flitReceive x0 x1) :=
  encoding_none rfl

theorem Encoding.linkRetrain (x0 : Fin 16) (x1 : Retrain) : Encoding.Statement (.linkRetrain x0 x1) :=
  encoding_none rfl

theorem Encoding.ucieLinkFail (x0 : Fin 8) (x1 : Fin 5) : Encoding.Statement (.ucieLinkFail x0 x1) :=
  encoding_none rfl

theorem Encoding.tenantTag (x0 : Fin 128) (x1 : Bool) (x2 : List Nat) : Encoding.Statement (.tenantTag x0 x1 x2) :=
  encoding_none rfl

theorem Encoding.clockStretch (x0 : Fin 4) (x1 : Nat) : Encoding.Statement (.clockStretch x0 x1) :=
  encoding_none rfl

theorem Encoding.thermalTrip (x0 : Fin 64) : Encoding.Statement (.thermalTrip x0) :=
  encoding_none rfl

theorem Encoding.railFault (x0 : Fin 5) : Encoding.Statement (.railFault x0) :=
  encoding_none rfl

theorem Encoding.boot (x0 : Bool) : Encoding.Statement (.boot x0) :=
  encoding_none rfl

theorem Encoding.attestationRequest (x0 : BitVec 256) : Encoding.Statement (.attestationRequest x0) :=
  encoding_none rfl

theorem Encoding.debugNop (x0 : BitVec 8) : Encoding.Statement (.debugNop x0) :=
  encoding_none rfl

theorem Encoding.debugHalt (x0 : BitVec 8) : Encoding.Statement (.debugHalt x0) :=
  encoding_none rfl

theorem Encoding.debugStep (x0 : BitVec 8) : Encoding.Statement (.debugStep x0) :=
  encoding_none rfl

theorem Encoding.debugResume (x0 : BitVec 8) : Encoding.Statement (.debugResume x0) :=
  encoding_none rfl

theorem Encoding.debugRead (x0 : BitVec 8) (x1 : Fin 16) (x2 : Half) : Encoding.Statement (.debugRead x0 x1 x2) :=
  encoding_none rfl

theorem Encoding.debugWrite (x0 : BitVec 8) (x1 : Fin 16) (x2 : Half) (x3 : Word) : Encoding.Statement (.debugWrite x0 x1 x2 x3) :=
  encoding_none rfl

theorem Encoding.debugStatus (x0 : BitVec 8) : Encoding.Statement (.debugStatus x0) :=
  encoding_none rfl

theorem Encoding.debugTransact (x0 : Bool) (x1 : Quad) : Encoding.Statement (.debugTransact x0 x1) :=
  encoding_none rfl

theorem Encoding.illegalInstruction (x0 : Half) : Encoding.Statement (.illegalInstruction x0) :=
  encoding_none rfl

theorem Encoding.uncorrectableError (x0 : BitVec 8) (x1 : EccSite) (x2 : Bool) : Encoding.Statement (.uncorrectableError x0 x1 x2) :=
  encoding_none rfl

theorem Encoding.syeLost (x0 : Fin 4) : Encoding.Statement (.syeLost x0) :=
  encoding_none rfl

theorem Encoding.partitionConfigure (x0 : Fin 64) (x1 : PartChange) : Encoding.Statement (.partitionConfigure x0 x1) :=
  encoding_none rfl

theorem Encoding.exit : Encoding.Statement (.exit) := by
  exact encoding_some rfl (by decide) rfl

theorem Encoding.abort : Encoding.Statement (.abort) := by
  exact encoding_some rfl (by decide) rfl

theorem Encoding.dfence : Encoding.Statement (.dfence) := by
  exact encoding_some rfl (by decide) rfl

theorem Encoding.brk : Encoding.Statement (.brk) := by
  exact encoding_some rfl (by decide) rfl

theorem Encoding.eret : Encoding.Statement (.eret) := by
  exact encoding_some rfl (by decide) rfl

theorem Encoding.writeLands : Encoding.Statement (.writeLands) :=
  encoding_none rfl

theorem Encoding.repetition : Encoding.Statement (.repetition) :=
  encoding_none rfl

theorem Encoding.ptsTick : Encoding.Statement (.ptsTick) :=
  encoding_none rfl

theorem Encoding.asyncCauseEntry : Encoding.Statement (.asyncCauseEntry) :=
  encoding_none rfl

theorem Encoding.coreRetire : Encoding.Statement (.coreRetire) :=
  encoding_none rfl

theorem Encoding.cellPass : Encoding.Statement (.cellPass) :=
  encoding_none rfl

theorem Encoding.cellSelect : Encoding.Statement (.cellSelect) :=
  encoding_none rfl

theorem Encoding.cellSteer : Encoding.Statement (.cellSteer) :=
  encoding_none rfl

theorem Encoding.cellMerge : Encoding.Statement (.cellMerge) :=
  encoding_none rfl

theorem Encoding.cellDelay : Encoding.Statement (.cellDelay) :=
  encoding_none rfl

theorem Encoding.cellSink : Encoding.Statement (.cellSink) :=
  encoding_none rfl

theorem Encoding.cellLeave : Encoding.Statement (.cellLeave) :=
  encoding_none rfl

theorem Encoding.cellAdd : Encoding.Statement (.cellAdd) :=
  encoding_none rfl

theorem Encoding.cellSub : Encoding.Statement (.cellSub) :=
  encoding_none rfl

theorem Encoding.cellMul : Encoding.Statement (.cellMul) :=
  encoding_none rfl

theorem Encoding.cellMac : Encoding.Statement (.cellMac) :=
  encoding_none rfl

theorem Encoding.cellMin : Encoding.Statement (.cellMin) :=
  encoding_none rfl

theorem Encoding.cellMax : Encoding.Statement (.cellMax) :=
  encoding_none rfl

theorem Encoding.cellAbs : Encoding.Statement (.cellAbs) :=
  encoding_none rfl

theorem Encoding.cellAnd : Encoding.Statement (.cellAnd) :=
  encoding_none rfl

theorem Encoding.cellOr : Encoding.Statement (.cellOr) :=
  encoding_none rfl

theorem Encoding.cellXor : Encoding.Statement (.cellXor) :=
  encoding_none rfl

theorem Encoding.cellShl : Encoding.Statement (.cellShl) :=
  encoding_none rfl

theorem Encoding.cellShr : Encoding.Statement (.cellShr) :=
  encoding_none rfl

theorem Encoding.cellSar : Encoding.Statement (.cellSar) :=
  encoding_none rfl

theorem Encoding.cellRshr : Encoding.Statement (.cellRshr) :=
  encoding_none rfl

theorem Encoding.cellReq : Encoding.Statement (.cellReq) :=
  encoding_none rfl

theorem Encoding.cellPeq : Encoding.Statement (.cellPeq) :=
  encoding_none rfl

theorem Encoding.cellPne : Encoding.Statement (.cellPne) :=
  encoding_none rfl

theorem Encoding.cellPlt : Encoding.Statement (.cellPlt) :=
  encoding_none rfl

theorem Encoding.cellPge : Encoding.Statement (.cellPge) :=
  encoding_none rfl

theorem Encoding.cellFadd : Encoding.Statement (.cellFadd) :=
  encoding_none rfl

theorem Encoding.cellFsub : Encoding.Statement (.cellFsub) :=
  encoding_none rfl

theorem Encoding.cellFmul : Encoding.Statement (.cellFmul) :=
  encoding_none rfl

theorem Encoding.cellFma : Encoding.Statement (.cellFma) :=
  encoding_none rfl

theorem Encoding.cellFmin : Encoding.Statement (.cellFmin) :=
  encoding_none rfl

theorem Encoding.cellFmax : Encoding.Statement (.cellFmax) :=
  encoding_none rfl

theorem Encoding.cellFabs : Encoding.Statement (.cellFabs) :=
  encoding_none rfl

theorem Encoding.cellFneg : Encoding.Statement (.cellFneg) :=
  encoding_none rfl

theorem Encoding.cellFexp2 : Encoding.Statement (.cellFexp2) :=
  encoding_none rfl

theorem Encoding.cellFlog2 : Encoding.Statement (.cellFlog2) :=
  encoding_none rfl

theorem Encoding.cellFrcp : Encoding.Statement (.cellFrcp) :=
  encoding_none rfl

theorem Encoding.cellFrsq : Encoding.Statement (.cellFrsq) :=
  encoding_none rfl

theorem Encoding.cellFdiv : Encoding.Statement (.cellFdiv) :=
  encoding_none rfl

theorem Encoding.cellFpeq : Encoding.Statement (.cellFpeq) :=
  encoding_none rfl

theorem Encoding.cellFplt : Encoding.Statement (.cellFplt) :=
  encoding_none rfl

theorem Encoding.cellDkmul : Encoding.Statement (.cellDkmul) :=
  encoding_none rfl

theorem Encoding.cellDkdot : Encoding.Statement (.cellDkdot) :=
  encoding_none rfl

theorem Encoding.cellDkmax : Encoding.Statement (.cellDkmax) :=
  encoding_none rfl

theorem Encoding.cellCvt : Encoding.Statement (.cellCvt) :=
  encoding_none rfl

theorem Encoding.cellNarrow : Encoding.Statement (.cellNarrow) :=
  encoding_none rfl

theorem Encoding.cellWiden : Encoding.Statement (.cellWiden) :=
  encoding_none rfl

theorem Encoding.cellBcast : Encoding.Statement (.cellBcast) :=
  encoding_none rfl

theorem Encoding.cellShuf : Encoding.Statement (.cellShuf) :=
  encoding_none rfl

theorem Encoding.cellZip : Encoding.Statement (.cellZip) :=
  encoding_none rfl

theorem Encoding.cellUnzip : Encoding.Statement (.cellUnzip) :=
  encoding_none rfl

theorem Encoding.cellSlide : Encoding.Statement (.cellSlide) :=
  encoding_none rfl

theorem Encoding.cellRsum : Encoding.Statement (.cellRsum) :=
  encoding_none rfl

theorem Encoding.cellRmax : Encoding.Statement (.cellRmax) :=
  encoding_none rfl

theorem Encoding.cellRmin : Encoding.Statement (.cellRmin) :=
  encoding_none rfl

theorem Encoding.cellLdx : Encoding.Statement (.cellLdx) :=
  encoding_none rfl

theorem Encoding.cellLdv : Encoding.Statement (.cellLdv) :=
  encoding_none rfl

theorem Encoding.cellLds : Encoding.Statement (.cellLds) :=
  encoding_none rfl

theorem Encoding.cellStx : Encoding.Statement (.cellStx) :=
  encoding_none rfl

theorem Encoding.cellStv : Encoding.Statement (.cellStv) :=
  encoding_none rfl

theorem Encoding.cellSts : Encoding.Statement (.cellSts) :=
  encoding_none rfl

theorem Encoding.cellMadd : Encoding.Statement (.cellMadd) :=
  encoding_none rfl

theorem Encoding.cellMest : Encoding.Statement (.cellMest) :=
  encoding_none rfl

theorem Encoding.cellMlvl : Encoding.Statement (.cellMlvl) :=
  encoding_none rfl

theorem Encoding.cellSemit : Encoding.Statement (.cellSemit) :=
  encoding_none rfl

theorem Encoding.cellCemit : Encoding.Statement (.cellCemit) :=
  encoding_none rfl

theorem Encoding.rotAdmit : Encoding.Statement (.rotAdmit) :=
  encoding_none rfl

theorem Encoding.rotRetire : Encoding.Statement (.rotRetire) :=
  encoding_none rfl

theorem Encoding.rotHold : Encoding.Statement (.rotHold) :=
  encoding_none rfl

theorem Encoding.rotRelease : Encoding.Statement (.rotRelease) :=
  encoding_none rfl

theorem Encoding.rotSave : Encoding.Statement (.rotSave) :=
  encoding_none rfl

theorem Encoding.rotLoad : Encoding.Statement (.rotLoad) :=
  encoding_none rfl

theorem Encoding.rotMap : Encoding.Statement (.rotMap) :=
  encoding_none rfl

theorem Encoding.xltComplete : Encoding.Statement (.xltComplete) :=
  encoding_none rfl

theorem Encoding.cpeRowAccess : Encoding.Statement (.cpeRowAccess) :=
  encoding_none rfl

theorem Encoding.mxeRowFiring : Encoding.Statement (.mxeRowFiring) :=
  encoding_none rfl

theorem Encoding.recurCapture : Encoding.Statement (.recurCapture) :=
  encoding_none rfl

theorem Encoding.recurInject : Encoding.Statement (.recurInject) :=
  encoding_none rfl

theorem Encoding.dispatchStep : Encoding.Statement (.dispatchStep) :=
  encoding_none rfl

theorem Encoding.roundYield : Encoding.Statement (.roundYield) :=
  encoding_none rfl

theorem Encoding.coreCapture : Encoding.Statement (.coreCapture) :=
  encoding_none rfl

theorem Encoding.quartzPeriod : Encoding.Statement (.quartzPeriod) :=
  encoding_none rfl

theorem Encoding.conventionalReset : Encoding.Statement (.conventionalReset) :=
  encoding_none rfl

theorem Encoding.functionLevelReset : Encoding.Statement (.functionLevelReset) :=
  encoding_none rfl

theorem Encoding.globalAccessComplete : Encoding.Statement (.globalAccessComplete) :=
  encoding_none rfl

theorem Encoding.mxePortToken : Encoding.Statement (.mxePortToken) :=
  encoding_none rfl

end Sys2Proof.Laws
end

