-- ==== Sys2Proof/Tests/Slice0.lean ====
section
/-! SUPPORT. Tests: words of the encodings written out from their tables, ill-formed terms that the check refuses, and
for each statement states that meet its hypotheses. -/

open Sys2Proof Sys2Proof.Machine

namespace Sys2Proof.Tests

set_option Elab.async false

/-! ### Words written out bit by bit from the encoding tables of 03, 04, 08–16 and 18 -/

/-- The word decodes to the instruction, and the instruction encodes to the word. -/
def readsAs (e : Half × Instr) : Bool :=
  (match decodeScalar e.1 with
    | .ok i => decide (i = e.2)
    | .error _ => false) && decide (encodeWord false e.2 = some e.1)

theorem test_words_alu : (([
    (0x03F8A580#32, .add 31 17 9 .w32 true false),
    (0x021F5641#32, .sub 1 30 21 .w16 false true),
    (0x0300FC02#32, .and 16 1 31),
    (0x02282003#32, .or 2 16 8),
    (0x024F8404#32, .xor 4 31 1),
    (0x02814005#32, .andn 8 2 16),
    (0x02329F48#32, .shl 3 5 7 .w8 true),
    (0x02933009#32, .shr 9 6 12 .w64 false),
    (0x02AA794A#32, .sar 10 20 30 .w32 true),
    (0x02BB660B#32, .ror 11 22 25 .w16 false),
    (0x02CC0C50#32, .min 12 24 3 .w64 true),
    (0x02DD7711#32, .max 13 26 29 .w8 false)] : List (Half × Instr)).all readsAs) = true := by decide

theorem test_words_multiply_compare : (([
    (0x02EE3D54#32, .slt 14 28 15 .w32 true),
    (0x02F6BA15#32, .seq 15 13 14 .w16),
    (0x0529D0C0#32, .mul 18 19 20 .w64 true true),
    (0x055BED01#32, .mulh 21 23 27 .w32 false),
    (0x05D59744#32, .div 29 11 5 .w8 true),
    (0x05E51205#32, .rem 30 10 4 .w16 false),
    (0x067F8500#32, .ceq 7 31 1 .w32),
    (0x06117B01#32, .cne 1 2 30 .w8),
    (0x06284442#32, .clt 2 16 17 .w64 true),
    (0x06442603#32, .cge 4 8 9 .w16 false),
    (0x06563404#32, .ctst 5 12 13 .w64),
    (0x08327FFE#32, .addi 3 4 0x7FFE)] : List (Half × Instr)).all readsAs) = true := by decide

theorem test_words_immediate : (([
    (0x0A535555#32, .andi 5 6 0x5555),
    (0x0C744001#32, .ori 7 8 0x4001),
    (0x0E952AAA#32, .xori 9 10 0x2AAA),
    (0x10110621#32, .shli 1 2 .w32 true 0x21),
    (0x1032183F#32, .shri 3 4 .w16 false 0x3F),
    (0x10532E01#32, .sari 5 6 .w8 true 1),
    (0x10743020#32, .rori 7 8 .w64 false 0x20),
    (0x121F8801#32, .ceqi 1 31 0x801),
    (0x12281FFF#32, .cnei 2 16 0xFFF),
    (0x1230A555#32, .clti 3 1 0x555),
    (0x124F3AAA#32, .cgei 4 30 0xAAA),
    (0x12514123#32, .cltui 5 2 0x123)] : List (Half × Instr)).all readsAs) = true := by decide

theorem test_words_immediate_bit : (([
    (0x12645C00#32, .cgeui 6 8 0xC00),
    (0x127263FF#32, .ctsti 7 4 0x3FF),
    (0x15180001#32, .li 17 0x80001),
    (0x17FB3C6D#32, .lis 31 0xB3C6D),
    (0x181F8000#32, .clz 1 31),
    (0x182F0001#32, .ctz 2 30),
    (0x184E8002#32, .popc 4 29),
    (0x188E0003#32, .brev 8 28),
    (0x190D8004#32, .bswap 16 27),
    (0x1836540D#32, .sel 3 12 21 5),
    (0x186C2817#32, .seln 6 24 10 7),
    (0x19330020#32, .mfc 19 6)] : List (Half × Instr)).all readsAs) = true := by decide

theorem test_words_bit_move : (([
    (0x183C8021#32, .mtc 3 25),
    (0x18111022#32, .cand 1 2 4),
    (0x18220423#32, .cor 2 4 1),
    (0x18408824#32, .cxor 4 1 2),
    (0x18728C25#32, .candn 7 5 3),
    (0x1B45802D#32, .addsh 20 11 0x2D),
    (0x1B66956A#32, .wrapi 22 13 0x15 0x2A),
    (0x1B772F80#32, .alignu 23 14 0x3E),
    (0x1D838000#32, .mov 24 7),
    (0x1D908001#32, .sxb 25 1),
    (0x1DA10002#32, .sxh 26 2),
    (0x1DB18003#32, .sxw 27 3)] : List (Half × Instr)).all readsAs) = true := by decide

theorem test_words_move_memory : (([
    (0x1DC20004#32, .zxb 28 4),
    (0x1DD28005#32, .zxh 29 5),
    (0x1DE30006#32, .zxw 30 6),
    (0x1DF40010#32, .mfl 31 8),
    (0x1C588011#32, .mtl 5 17),
    (0x20116801#32, .ldl 1 2 .i64 0x801),
    (0x223227FF#32, .stl 3 4 .b2 0x7FF),
    (0x24531123#32, .ldg 5 6 .n8 0x123),
    (0x26746FFF#32, .stg 7 8 .b8 0xFFF),
    (0x28952C63#32, .ldlx 9 10 11 3 .n16),
    (0x28C6B854#32, .stlx 12 13 14 2 .b4),
    (0x28F8442D#32, .ldgx 15 16 17 1 .n32)] : List (Half × Instr)).all readsAs) = true := by decide

theorem test_words_memory_full_empty : (([
    (0x2929D018#32, .stgx 18 19 20 0 .b1),
    (0x2B5B0404#32, .ldf 21 22 false 0x404),
    (0x2B7C3008#32, .ldfp 23 24 true 8),
    (0x2B9D4FFC#32, .ste 25 26 0xFFC),
    (0x2BBE6010#32, .stf 27 28 0x10),
    (0x2C0E83C0#32, .hcfg 29 30),
    (0x2C1007E1#32, .hget 1 true 31),
    (0x2C0103A2#32, .hwaitc 2 29),
    (0x2C018383#32, .hwaitp 3 28),
    (0x2C020364#32, .hadvc 4 27),
    (0x2C028345#32, .hadvp 5 26),
    (0x2C030326#32, .hroll 6 25)] : List (Half × Instr)).all readsAs) = true := by decide

theorem test_words_handle : (([
    (0x2C740307#32, .hpslot 7 8 24),
    (0x2C9502E8#32, .hcslot 9 10 23),
    (0x2C0582C9#32, .hown 11 22),
    (0x2CC000EA#32, .wpr 12 7),
    (0x2C0680AB#32, .wpw 13 5),
    (0x2C0701EC#32, .carm 14 15),
    (0x2E078070#32, .mcfg 15 7),
    (0x2F0004D0#32, .mcfgRd 16 true 5),
    (0x2E000160#32, .mcfgClr 6),
    (0x2F194C01#32, .mld 17 18 19 .ml2),
    (0x2F4AD819#32, .mldg 20 21 22 .ml4),
    (0x2F7C6422#32, .mldl 23 24 25 .ml8)] : List (Half × Instr)).all readsAs) = true := by decide

theorem test_words_handle_mica : (([
    (0x2FADF00A#32, .mldlg 26 27 28 .ml2),
    (0x2FDF7C13#32, .minc 29 30 31 .ml4),
    (0x2E11942B#32, .mincg 1 3 5 .ml8),
    (0x30902C30#32, .radm 9 11 false 6),
    (0x30001C29#32, .rret (.one 7) 5),
    (0x30000062#32, .rhold .all 4),
    (0x30007C1B#32, .rrel (.one 31) 3),
    (0x30068054#32, .rsave 13 .thaw 2),
    (0x300780BD#32, .rload 15 true false 7),
    (0x3008800E#32, .rmap 17 1),
    (0x31305437#32, .rstat 19 (.one 21) 6),
    (0x417FFFFE#32, .br 5 true 0x1FFFFE)] : List (Half × Instr)).all readsAs) = true := by decide

theorem test_words_rotation_branch : (([
    (0x42100001#32, .call 0x100001),
    (0x440F8000#32, .jr 31),
    (0x45F38001#32, .jalr 31 7),
    (0x47260803#32, .loopReg 2 19 0x803),
    (0x46EAA005#32, .loopImm 1 0x2AA 5),
    (0x482E0001#32, .repReg 23 1),
    (0x487FF002#32, .repImm 0x3FF 2),
    (0x4A40003F#32, .pin 0x3F),
    (0x515287D0#32, .dx 0x2A5 1 30 16),
    (0x5590005C#32, .rdc 25 0x05C),
    (0x560D8060#32, .wrc 27 0x060),
    (0x58018000#32, .fence .device)] : List (Half × Instr)).all readsAs) = true := by decide

theorem test_words_loop_system : (([
    (0x58000010#32, .exit),
    (0x58000011#32, .abort),
    (0x580E7420#32, .dload 28 29),
    (0x58000021#32, .dfence),
    (0x59EF8822#32, .dread 30 31 2),
    (0x580A8030#32, .trap 21),
    (0x58000031#32, .brk),
    (0x58000032#32, .eret),
    (0x56008038#32, .wrcSplit 1),
    (0x56010012#32, .wrcPins 2),
    (0x56018031#32, .wrcLease 3),
    (0x5602006D#32, .wrcBkc 4 5)] : List (Half × Instr)).all readsAs) = true := by decide

/-- The four words decode to the command, and the command encodes to them. -/
def quadAs (e : Half × Half × Half × Half × Instr) : Bool :=
  let c : Quad := e.2.2.2.1 ++ e.2.2.1 ++ e.2.1 ++ e.1
  (match decodeCommand c with
    | .ok i => decide (i = e.2.2.2.2)
    | .error _ => false) && decide (encodeCommand e.2.2.2.2 = some c) && e.2.2.2.2.wf

theorem test_commands_feed_drain_copy : (([
    (0x52000D19, 0x00ABCDEF, 0x00000000, 0x00000251,
      .feedh 3 true true 9 0xABCDEF ⟨some ⟨17, 2⟩, none, none⟩),
    (0x52002607, 0x89ABCDEF, 0x00054567, 0x3E500000,
      .feeda 1 true false false 7 0x456789ABCDEF 5 ⟨none, none, some ⟨5, 15⟩⟩),
    (0x5200401F, 0xDEADBEEF, 0x12345678, 0x00000000,
      .feedi 0 true 15 0xDEADBEEF 0x12345678 ⟨none, none, none⟩),
    (0x52006801, 0x00000000, 0x00000000, 0x00087A51,
      .feedm 2 1 ⟨some ⟨17, 2⟩, some ⟨30, 0⟩, none⟩),
    (0x52200813, 0x00000000, 0x00000000, 0x3E500000,
      .drainh 2 false true 3 ⟨none, none, some ⟨5, 15⟩⟩),
    (0x52202104, 0x00001234, 0x000F0000, 0x00000000,
      .draina 0 false true false 4 0x001234 15 ⟨none, none, none⟩),
    (0x52204C08, 0x00000000, 0x00000000, 0x00000251,
      .drainx 3 8 ⟨some ⟨17, 2⟩, none, none⟩),
    (0x5240000B, 0x00000190, 0x00000000, 0x00000000,
      .sdld 11 0x190),
    (0x5240373C, 0x001F587F, 0x00000700, 0x3E500251,
      .copy 5 true (some 0x700) 3 12 (some ⟨0x7F, 8, 0xFA⟩) ⟨some ⟨17, 2⟩, none, some ⟨5, 15⟩⟩)] : List (Half × Half × Half × Half × Instr)).all quadAs) = true := by decide

theorem test_commands_copy_matrix : (([
    (0x52404612, 0x00000100, 0x000007C0, 0x00000000,
      .gather 1 false (some 0x7C0) 1 2 0x100 ⟨none, none, none⟩),
    (0x52407DED, 0x00000FFC, 0x00000000, 0x00000000,
      .scatter 7 true none 14 13 0xFFC ⟨none, none, none⟩),
    (0x52408A69, 0x0000003F, 0x00000040, 0x00000000,
      .selacc 2 0x40 6 (some 9) 63 ⟨none, none, none⟩),
    (0x52408260, 0x0000005F, 0x00000080, 0x00000000,
      .selacc 0 0x80 6 none 31 ⟨none, none, none⟩),
    (0x5240B05A, 0x00003A80, 0x00000000, 0x00000000,
      .hcopy 4 false none 5 10 ⟨0x80, 10, 1⟩ ⟨none, none, none⟩),
    (0x52600150, 0x000001A0, 0x00001000, 0x00000000,
      .ldb (.spad 0x1000) .dk8 6 (some 5) ⟨none, none, none⟩),
    (0x5260000C, 0x00000025, 0x00000000, 0x00000000,
      .ldb (.port 12) .bf16 0 none ⟨none, none, none⟩),
    (0x52600000, 0x00000002, 0x00000000, 0x00000204,
      .ldb .slot .i8 0 none ⟨some ⟨4, 0⟩, none, none⟩),
    (0x5260232D, 0x00212A55, 0x00740267, 0x00000000,
      .mmul 0x55 0x2A true false .dk8 13 (some 2) true (some ⟨some 9, .bf16, 0, some 14⟩) ⟨none, none, none⟩)] : List (Half × Half × Half × Half × Instr)).all quadAs) = true := by decide

theorem test_commands_matrix_sync : (([
    (0x52604007, 0x3E227E01, 0x00000104, 0x00000000,
      .gmul 0x01 0x7E false true .dk8 0xF8 7 0x104 none ⟨none, none, none⟩),
    (0x52606000, 0x01610403, 0x00000FC0, 0x00000000,
      .rdacc 3 4 true .dk8 5 (.spad 0xFC0) ⟨none, none, none⟩),
    (0x52606206, 0x002A0000, 0x00000000, 0x00000000,
      .rdacc 0 0 false .fp32 0 (.port 6 true) ⟨none, none, none⟩),
    (0x5260811F, 0x02E00006, 0x00000000, 0x00000000,
      .recur 6 .dk8 0x0B 15 (some 1) false ⟨none, none, none⟩),
    (0x528001C7, 0x89ABCDE8, 0x00004567, 0x00000FE0,
      .atom .cas .n64 .device 0x456789ABCDE8 0xFE0),
    (0x52800099, 0x00100004, 0x06050000, 0x00000040,
      .mmerge .ml4 .gang 0x100004 6 5 0x40),
    (0x528020A0, 0x00100000, 0x00000000, 0x14000200,
      .atomw .add .fp32 .gang 0x100000 0x200 5),
    (0x52802229, 0x00000080, 0x03FF0000, 0xFC000020,
      .mmergew .ml8 .system 0x80 3 0xFF 0x20 63),
    (0x52804080, 0x00000001, 0x00000000, 0x14000240,
      .wend .gang 1 0x240 5)] : List (Half × Half × Half × Half × Instr)).all quadAs) = true := by decide

theorem test_commands_sync_stat_rotation : (([
    (0x52806100, 0x00000021, 0x00000000, 0x00000400,
      .barr .die 33 0x400),
    (0x52A00000, 0x00000440, 0x00000000, 0x00000251,
      .snap 0x440 ⟨some ⟨17, 2⟩, none, none⟩),
    (0x52A02000, 0x00000015, 0xCAFEF00D, 0x00000000,
      .argw 21 0xCAFEF00D ⟨none, none, none⟩),
    (0x52C00000, 0x0000019D, 0x00001234, 0x00000000,
      .radmc 5 19 true 0x1234),
    (0x52C02000, 0x00000003, 0x00000029, 0x00000000,
      .rretc 3 (.one 41)),
    (0x52C04000, 0x00000106, 0x00000000, 0x00000000,
      .rholdc 6 .all),
    (0x52C06000, 0x00000007, 0x00000001, 0x00000000,
      .rrelc 7 (.one 1)),
    (0x52C08000, 0x00000401, 0x00000800, 0x00000000,
      .rsavec 1 .clear 0x800),
    (0x52C0A000, 0x00000902, 0x00000840, 0x00000000,
      .rloadc 2 true true 0x840)] : List (Half × Half × Half × Half × Instr)).all quadAs) = true := by decide

theorem test_commands_rotation_launch_translation : (([
    (0x52C0C000, 0x00000004, 0x00000880, 0x00000000,
      .rmapc 4 0x880),
    (0x52E00000, 0x00000FC0, 0x00000081, 0x00000000,
      .launch 0xFC0 0x81),
    (0x52E02000, 0x89ABCD40, 0x007F4567, 0x00000000,
      .replay 0x456789ABCD40 0x7F),
    (0x53000000, 0x00400020, 0x001F0000, 0x01000300,
      .invr 0x00400020 31 .self 0x300),
    (0x53002000, 0x00000000, 0x0000BEEF, 0x00000304,
      .inva (.asid 0xBEEF) 0x304)] : List (Half × Half × Half × Half × Instr)).all quadAs) = true := by decide
/-! ### Small states -/

/-- A module of one core that is up, in core cycle 1000, its core in turn with task 0 and no text. -/
def tiny : State :=
  { State.reset with
    others := []
    core := { State.reset.core with task := some 0 }
    chip := { Chip.reset with
      boot := .up
      now := 1000
      base := 1000 } }

def withG (s : State) (r : Fin 32) (v : Word) : State := s.onSq fun q => { q with g := q.g.set r v }

def withMem (s : State) (l : List Host.Cell) : State := s.onLoc fun x => { x with mem := l }

/-- The outcome is a next state of which `p` holds. -/
def nextIs (o : Out) (p : State → Bool) : Bool := match o with
  | .next t => p t
  | _ => false

/-! ### The scalar statements: their hypotheses are met (R33–R73) -/

theorem witness_FixedRegisters : (1 : Fin 32) ≠ 0 ∧ (7 : Fin 8) ≠ 0 := by decide

/-- A divisor of 0 and one of −1. -/
theorem witness_MultiplyDivideResults :
    operand (tiny.rg 0) .w32 false = 0 ∧ operand ((withG tiny 1 0xFFFFFFFF).rg 1) .w32 false ≠ 0 := by decide

/-- R60: 0x6000_0000 divided by 0 at width 32 is all ones, the remainder the dividend (the worked example of 03). -/
theorem test_divide_by_zero :
    nextIs (exec (.div 7 2 0 .w32 false) (withG tiny 2 0x60000000))
      (fun t => t.core.sq.flight == [⟨1012, .g 7 0xFFFFFFFFFFFFFFFF⟩]) = true ∧
    nextIs (exec (.rem 8 2 0 .w32 false) (withG tiny 2 0x60000000))
      (fun t => t.core.sq.flight == [⟨1012, .g 8 0x60000000⟩]) = true := by decide

/-- R57: the same example's sums: one wraps, one saturates as signed, one fits as unsigned. -/
theorem test_add_wraps_and_saturates :
    nextIs (exec (.add 4 2 2 .w32 false false) (withG tiny 2 0x60000000))
      (fun t => t.core.sq.flight == [⟨1001, .g 4 0xFFFFFFFFC0000000⟩]) = true ∧
    nextIs (exec (.add 5 2 2 .w32 true false) (withG tiny 2 0x60000000))
      (fun t => t.core.sq.flight == [⟨1001, .g 5 0x7FFFFFFF⟩]) = true ∧
    nextIs (exec (.add 6 2 2 .w32 true true) (withG tiny 2 0x60000000))
      (fun t => t.core.sq.flight == [⟨1001, .g 6 0xC0000000⟩]) = true := by decide

theorem witness_PlainFrame : plainDest (.mul 3 1 2 .w64 false false) = some (.g 3, 3) ∧
    plainDest (.mtl 8 1) = some (.loop 8, 1) ∧ plainDest (.ceqi 7 1 0) = some (.c 7, 1) := by decide

/-- Two writes of g5 in flight, the later one issued first; one of c3; nothing to write back. -/
def flying : State := tiny.onSq fun q => { q with
  flight := [⟨1000, .g 5 1⟩, ⟨999, .g 5 2⟩, ⟨1000, .c 3 true⟩, ⟨1001, .g 6 3⟩] }

theorem witness_WritesLandInOrder : flying.core.wb = [] ∧
    (∀ f ∈ flying.core.sq.flight, f.at_ ≤ flying.chip.now → f.wr.target ≠ none) ∧
    flying.core.sq.flight = [] ++ ⟨1000, .g 5 1⟩ :: [⟨999, .g 5 2⟩, ⟨1000, .c 3 true⟩, ⟨1001, .g 6 3⟩] ∧
    nextIs (exec .writeLands flying) (fun t => t.rg 5 == 1 && t.rc 3 && t.rg 6 == 0) = true := by decide

/-- A scratchpad of 16 MiB: its last eight bytes, the first address past it, a misaligned one. -/
theorem witness_LocalLoads : tiny.spadSize = 0x1000000 ∧
    nextIs (exec (.ldl 2 1 .i64 0) (withG (withMem tiny [(0xFFFFF8, 0x80), (0xFFFFFF, 0x01)]) 1 0xFFFFF8))
      (fun t => t.core.sq.flight == [⟨1004, .g 2 0x0100000000000080⟩]) = true ∧
    exec (.ldl 2 1 .i64 0) (withG tiny 1 0x1000000) = .next ((withG tiny 1 0x1000000).raise cLOCAL_BOUNDS) ∧
    exec (.ldl 2 1 .n16 1) tiny = .next (tiny.raise cMISALIGNED) := by
  refine ⟨by decide, by decide, by rfl, by rfl⟩

/-- R69: a load of i8 extends its sign, one of n8 does not. -/
theorem test_load_sign :
    nextIs (exec (.ldl 2 0 .i8 4) (withMem tiny [(4, 0xFF)]))
      (fun t => t.core.sq.flight == [⟨1004, .g 2 0xFFFFFFFFFFFFFFFF⟩]) = true ∧
    nextIs (exec (.ldl 2 0 .n8 4) (withMem tiny [(4, 0xFF)]))
      (fun t => t.core.sq.flight == [⟨1004, .g 2 0xFF⟩]) = true := by decide

theorem witness_LocalStores : Memory.wf tiny.core.loc.mem = true ∧
    nextIs (exec (.stl 2 1 .b4 0) (withG (withG tiny 2 0x123400FF) 1 0xFFFFFC))
      (fun t => t.core.loc.mem == [(0xFFFFFC, 0xFF), (0xFFFFFE, 0x34), (0xFFFFFF, 0x12)]) = true ∧
    exec (.stl 2 1 .b1 0) (withG tiny 1 0x1000000) = .next ((withG tiny 1 0x1000000).raise cLOCAL_BOUNDS) ∧
    exec (.stl 2 0 .b8 4) tiny = .next (tiny.raise cMISALIGNED) := by
  refine ⟨by decide, by decide, by rfl, by rfl⟩

/-- The word at 8 is full, as at the start of the cycle. -/
def fullAt8 : State := (withMem tiny [(8, 0xFE)]).onLoc fun l => { l with
  fe := [(2, true)]
  festart := [(2, true)] }

theorem witness_FullEmptyWords : canon false fullAt8.core.loc.fe = true ∧ Memory.wf fullAt8.core.loc.mem = true ∧
    look false 2 fullAt8.core.loc.festart = true ∧ fullAt8.core.loc.olderWaiter (bankOf 8) 1000 = false ∧
    nextIs (exec (.ldf 3 0 false 8) fullAt8) (fun t => t.core.loc.fe == [] && t.core.sq.wait == none) = true ∧
    nextIs (exec (.ldfp 3 0 true 8) fullAt8) (fun t => t.core.loc.fe == [(2, true)]) = true ∧
    nextIs (exec (.ldf 3 0 false 12) fullAt8) (fun t => t.core.sq.after == .waits) = true ∧
    nextIs (exec (.ste 3 0 12) fullAt8) (fun t => t.core.loc.fe == [(2, true), (3, true)]) = true ∧
    nextIs (exec (.ste 3 0 8) fullAt8) (fun t => t.core.sq.after == .waits) = true ∧
    nextIs (exec (.stf 3 0 8) fullAt8) (fun t => t.core.loc.mem == []) = true := by decide

theorem witness_FullEmptyWords_stops :
    exec (.ldf 3 0 false 6) tiny = .next (tiny.raise cMISALIGNED) ∧
    exec (.ste 3 1 0) (withG tiny 1 0x1000000) = .next ((withG tiny 1 0x1000000).raise cLOCAL_BOUNDS) ∧
    exec (.stf 3 0 1) tiny = .next (tiny.raise cMISALIGNED) := by
  refine ⟨by rfl, by rfl, by rfl⟩

/-- The descriptor of the worked example in 09: BASE 0x1000, SLOTSZ 1, NSLOT 4. -/
def described : State := withG (withMem tiny [(0x201, 0x10), (0x203, 0x01), (0x204, 0x40)]) 2 0x200

theorem witness_HandleConfiguration : described.core.handleBusy 3 = false ∧
    nextIs (exec (.hcfg 2 3) described) (fun t => t.core.loc.handles[3].base == 0x1000 && t.core.loc.handles[3].slotsz == 1
      && t.core.loc.handles[3].nslot == 4 && !t.core.loc.handles[3].own) = true ∧
    exec (.hcfg 1 3) tiny = .next (tiny.raise cHANDLE_CFG) ∧
    exec (.hcfg 1 3) (withG tiny 1 8) = .next ((withG tiny 1 8).raise cMISALIGNED) ∧
    exec (.hcfg 1 3) (withG tiny 1 0x1000000) = .next ((withG tiny 1 0x1000000).raise cLOCAL_BOUNDS) := by
  refine ⟨by decide, by decide, by rfl, by rfl, by rfl⟩

/-- A handle of four slots, two of them filled; `busy` holds it for a command that has begun. -/
def fourSlots (pi ci : BitVec 16) : Handle :=
  { Handle.zero with
    base := 0x1000
    slotsz := 1
    nslot := 4
    pi := pi
    ci := ci }

def handled (n : Word) : State := withG (tiny.onLoc fun l => { l with
  handles := l.handles.set 3 (fourSlots 3 1)
  hstart := l.hstart.set 3 (fourSlots 3 1) }) 4 n

theorem witness_HandleCounts : (handled 2).core.loc.hstart[(3 : Fin 32)].slotsz ≠ 0 ∧
    nextIs (exec (.hwaitc 4 3) (handled 2)) (fun t => t.core.sq.after == .seq) = true ∧
    nextIs (exec (.hwaitc 4 3) (handled 3)) (fun t => t.core.sq.after == .waits) = true ∧
    nextIs (exec (.hwaitp 4 3) (handled 2)) (fun t => t.core.sq.after == .seq) = true ∧
    nextIs (exec (.hwaitp 4 3) (handled 4)) (fun t => t.core.sq.after == .waits) = true ∧
    nextIs (exec (.hadvc 4 3) (handled 2)) (fun t => t.core.loc.handles[3].ci == 3) = true ∧
    nextIs (exec (.hroll 4 3) (handled 2)) (fun t => t.core.loc.handles[3].pi == 1) = true ∧
    nextIs (exec (.hadvp 4 3) (handled 2)) (fun t => t.core.loc.handles[3].pi == 5) = true ∧
    nextIs (exec (.hpslot 5 4 3) (handled 2)) (fun t => t.core.sq.flight == [⟨1002, .g 5 0x1040⟩]) = true ∧
    nextIs (exec (.hcslot 5 4 3) (handled 2)) (fun t => t.core.sq.flight == [⟨1002, .g 5 0x10C0⟩]) = true := by decide

theorem witness_HandleCounts_stops :
    exec (.hwaitc 4 3) (handled 5) = .next ((handled 5).raise cHANDLE_COUNT) ∧
    exec (.hadvc 4 3) (handled 3) = .next ((handled 3).raise cHANDLE_COUNT) ∧
    exec (.hroll 4 3) (handled 3) = .next ((handled 3).raise cHANDLE_COUNT) ∧
    exec (.hadvp 4 3) (handled 3) = .next ((handled 3).raise cHANDLE_COUNT) ∧
    exec (.hadvc 4 2) (handled 0) = .next ((handled 0).raise cHANDLE_CFG) ∧
    exec (.hown 4 2) (handled 1) = .next ((handled 1).raise cHANDLE_CFG) := by
  refine ⟨by rfl, by rfl, by rfl, by rfl, by rfl, by rfl⟩

/-- R197: HOWN gives the handle to this core for the rotation and slot of the register. -/
theorem test_handle_owned : nextIs (exec (.hown 4 3) (handled 0x3FFFF)) (fun t => t.core.loc.handles[3].own
    && t.core.loc.handles[3].oq == 7 && t.core.loc.handles[3].os == 63 && t.core.loc.handles[3].og == 255) = true := by
  decide

/-- WP[5] stands at 0x610; circuit 2 is one of passes, circuit 3 is not configured. -/
def pointed : State := withG (tiny.onLoc fun l => { l with
  wpstart := l.wpstart.set 5 0x610
  circ := l.circ.set 2 { l.circ[2] with cfg := some ⟨0, false, true, false, 0, 0, 0, 0, 0, 0⟩ } }) 4 0x610

theorem witness_WritePointersAndArming :
    nextIs (exec (.wpw 4 5) pointed) (fun t => t.core.sq.after == .seq) = true ∧
    nextIs (exec (.wpw 4 5) (withG pointed 4 0x611)) (fun t => t.core.sq.after == .waits) = true ∧
    nextIs (exec (.carm 4 2) pointed) (fun t => t.core.loc.circ[2].armed == 0x610) = true ∧
    exec (.carm 4 3) pointed = .next (pointed.raise cILLEGAL_INSTRUCTION) := by
  refine ⟨by decide, by decide, by decide, by rfl⟩

/-- The descriptor of the worked example in 11: BASE 0xC0, SIZE 64, V = 1, L = 1, WID = 1. -/
def micaDesc : State := withMem tiny [(0, 0xC0), (8, 0x40), (12, 0x07)]

theorem witness_MicaRegions :
    nextIs (exec (.mcfg 0 0) micaDesc)
      (fun t => t.core.sq.flight == [⟨1002, .region 0 ⟨0xC0, 64, true, true, 1, 0, false, false⟩⟩]) = true ∧
    nextIs (exec (.mcfg 0 0) tiny) (fun t => t.core.sq.flight.length == 1) = true ∧
    exec (.mcfg 0 0) (withMem tiny [(12, 0x07)]) = .next ((withMem tiny [(12, 0x07)]).raise cMICA_CFG) ∧
    exec (.mcfg 1 0) (withG tiny 1 8) = .next ((withG tiny 1 8).raise cMISALIGNED) ∧
    exec (.mcfg 1 0) (withG tiny 1 0x1000000) = .next ((withG tiny 1 0x1000000).raise cLOCAL_BOUNDS) := by
  refine ⟨by decide, by decide, by rfl, by rfl, by rfl⟩

/-- The same region in force, level 3 in field 0 of the word at 0xC4; MSEED as after a start of a task. -/
def micaLocal : State := withG (withG ((withMem tiny [(0xC4, 0x03)]).onLoc fun l => { l with
  regions := l.regions.set 0 ⟨0xC0, 64, true, true, 1, 0, false, false⟩ }) 2 0xC4) 7 23

/-- 11's worked example: ml4 at S = 0, level 3 plus a weight of 23 makes level 5, whose estimate is 31.0. -/
theorem witness_MicaLocalAccess :
    nextIs (exec (.minc 7 2 0 .ml4) micaLocal) (fun t => t.core.loc.mem == [(0xC4, 0x05)])
      = true ∧
    nextIs (exec (.mld 8 2 0 .ml4) (withMem micaLocal [(0xC4, 0x05)]))
      (fun t => t.core.sq.flight == [⟨1006, .g 8 0x41F80000⟩]) = true ∧
    nextIs (exec (.mldl 8 2 0 .ml4) micaLocal) (fun t => t.core.sq.flight == [⟨1004, .g 8 3⟩]) = true ∧
    exec (.mld 8 2 0 .ml8) micaLocal = .next (micaLocal.raise cMICA_WIDTH) ∧
    exec (.mld 8 2 1 .ml4) (withG micaLocal 1 8) = .next ((withG micaLocal 1 8).raise cMICA_REGION) ∧
    exec (.mld 8 1 0 .ml4) (withG micaLocal 1 0x100) = .next ((withG micaLocal 1 0x100).raise cMICA_REGION) ∧
    exec (.minc 1 2 0 .ml4) (withG micaLocal 1 65536) = .next ((withG micaLocal 1 65536).raise cMICA_WEIGHT) := by
  refine ⟨by decide, by decide, by decide, by rfl, by rfl, by rfl, by rfl⟩

/-- Saturation: level 15 of field 0, once with TS = 0 and once with TS = 1. -/
def micaTop (ts : Bool) : State := withG (withG ((withMem tiny [(0xC4, 0x0F)]).onLoc fun l => { l with
  regions := l.regions.set 0 ⟨0xC0, 64, true, true, 1, 0, false, ts⟩ }) 2 0xC4) 7 1

theorem witness_MicaLocalAccess_saturation :
    nextIs (exec (.minc 7 2 0 .ml4) (micaTop false)) (fun t => t.core.loc.regions[0].sat && t.core.loc.mem == [(0xC4, 0x0F)])
      = true ∧
    nextIs (exec (.minc 7 2 0 .ml4) (micaTop true)) (fun t => t.core.sq.after == .trapped || t.core.fault.isSome)
      = true := by decide

/-- An access that waits, its answer served with four bytes. -/
def answered (bad : Option Cause) : State :=
  (tiny.onSq fun q => { q with wait := some ⟨.global, 0, 0, 7, 990⟩ }).onLoc fun l =>
    { l with served := [⟨7, [0xFE, 0xFF, 0xFF, 0xFF], 5, 999, 0, false, bad⟩] }

theorem witness_BlockingGlobalAccess :
    nextIs (exec (.ldg 3 0 .i32 8) tiny) (fun t => t.core.sq.after == .waits && t.core.loc.greqs.length == 1) = true ∧
    nextIs (exec (.stg 3 0 .b8 8) tiny) (fun t => t.core.sq.after == .waits && t.core.loc.greqs.length == 1) = true ∧
    nextIs (exec (.ldg 3 0 .i32 8) (tiny.onSq fun q => { q with wait := some ⟨.global, 0, 0, 7, 990⟩ }))
      (fun t => t.core.sq.after == .waits) = true ∧
    nextIs (exec (.ldg 3 0 .i32 8) (answered none))
      (fun t => t.core.sq.flight == [⟨1001, .g 3 0xFFFFFFFFFFFFFFFE⟩] && t.core.loc.served == [] && t.core.sq.ctr.pts == 5)
      = true ∧
    nextIs (exec (.stg 3 0 .b4 8) (answered none)) (fun t => t.core.sq.wait == none && t.core.sq.after == .seq) = true ∧
    (answered none).core.sq.waitOf .global = some ⟨.global, 0, 0, 7, 990⟩ := by decide

theorem witness_BlockingGlobalAccess_stops :
    exec (.ldg 3 1 .i32 0) (withG tiny 1 0x1000000000000) = .next ((withG tiny 1 0x1000000000000).raise cGLOBAL_RANGE) ∧
    exec (.ldg 3 0 .i32 2) tiny = .next (tiny.raise cMISALIGNED) ∧
    exec (.stg 3 0 .b8 4) tiny = .next (tiny.raise cMISALIGNED) ∧
    nextIs (exec (.ldg 3 0 .i32 8) (answered (some (cXLT 0 .notPresent)))) (fun t => t.core.fault.isSome) = true := by
  refine ⟨by rfl, by rfl, by rfl, by decide⟩

/-- A global mica access waits too: its region is entry 1, of SYNC-free memory from 0x4000_0000. -/
def micaGlobal : State := withG (tiny.onLoc fun l => { l with
  regions := l.regions.set 1 ⟨0x40000000, 64, true, false, 1, 0, false, false⟩ }) 2 0x40000004

/-- The same with the wait at its end: field 0 of four bits was asked for, and the word holds 2. -/
def micaWaited (keeps : Word) : State := (micaGlobal.onSq fun q => { q with wait := some ⟨.global, 0x40000004, keeps, 7, 990⟩ }).onLoc
  fun l => { l with served := [⟨7, [2, 0, 0, 0], 5, 999, 0, true, none⟩] }

/-- The entry in force as the wait ends has the width that was asked for, or another. -/
theorem witness_BlockingGlobalAccess_micaEnds :
    nextIs (exec (.mldg 3 2 0 .ml4) (micaWaited 128)) (fun t => t.core.sq.flight == [⟨1001, .g 3 0x40400000⟩]) = true ∧
    nextIs (exec (.mldlg 3 2 0 .ml4) (micaWaited 128)) (fun t => t.core.sq.flight == [⟨1001, .g 3 2⟩]) = true ∧
    nextIs (exec (.mincg 3 2 0 .ml4) (micaWaited 128)) (fun t => t.core.sq.minc == 1 && t.core.loc.regions[1].sat) = true ∧
    nextIs (exec (.mldlg 3 2 0 .ml4) (micaWaited 64)) (fun t => (t.core.fault.map (·.cause)) == some cMICA_WIDTH) = true ∧
    nextIs (exec (.mincg 3 2 0 .ml4) (micaWaited 64)) (fun t => t.core.sq.minc == 1 && !t.core.loc.regions[1].sat) = true := by decide

theorem witness_BlockingGlobalAccess_mica :
    nextIs (exec (.mldg 3 2 0 .ml4) micaGlobal) (fun t => t.core.sq.after == .waits && t.core.loc.greqs.length == 1) = true ∧
    nextIs (exec (.mincg 3 2 0 .ml4) micaGlobal) (fun t => t.core.sq.after == .waits && t.core.loc.greqs.length == 1)
      = true := by decide

/-- R227: Est(5) is 31.0 at S = 0 (the worked example of 11). -/
theorem test_mica_estimate : estBits 0 5 = 0x41F80000 ∧ estBits 0 2 = 0x40400000 ∧ estBits 0 15 = 0x46FFFE00 := by decide

/-! ### Control flow, exceptions, control registers -/

/-- R78: a branch taken and one not; the target of the example's LOOP is past its end word where the count is 0. -/
theorem witness_BranchesAndCalls : tiny.rc 0 = !false ∧ tiny.rc 1 = false ∧
    nextIs (exec (.br 0 false 0x1FFFFF) (tiny.onSq fun q => { q with pc := 0x20 }))
      (fun t => t.core.sq.after == .jump 0x1C 2) = true ∧
    nextIs (exec (.br 1 false 1) tiny) (fun t => t.core.sq.after == .seq) = true ∧
    nextIs (exec (.jalr 31 31) (withG tiny 31 0x40))
      (fun t => t.core.sq.after == .jump 0x40 3 && t.core.sq.flight == [⟨1001, .g 31 4⟩]) = true := by decide

/-- The text of the worked example in 04, its REPS and its first repetitions. -/
def loops : State := (tiny.onCore fun c => { c with text :=
    [0x14300005, 0x14503004, 0x56028011, 0x46403004, 0x48404001, 0x22314000, 0x08318001, 0x08210010, 0x58000010] }).onSq
  fun q => { q with
    pc := 0x10
    reps := 0x3004 }

theorem witness_LoopsRepeatsAndPin :
    nextIs (exec (.loopImm 0 3 4) loops) (fun t => t.core.sq.flight ==
      [⟨1001, .loop 0 3⟩, ⟨1001, .loop 3 0x14⟩, ⟨1001, .loop 6 0x20⟩]) = true ∧
    nextIs (exec (.loopReg 0 0 4) loops) (fun t => t.core.sq.after == .jump 0x24 2) = true ∧
    nextIs (exec (.repImm 4 1) loops) (fun t => t.core.sq.repc == 4 && t.core.sq.after == .rep 4
      && t.core.sq.pins == 0x80000000) = true ∧
    nextIs (exec (.repReg 1 1) (withG loops 1 0x10000)) (fun t => t.core.sq.repc == 65535) = true ∧
    nextIs (exec (.pin 4) loops) (fun t => t.core.sq.pins == 0x43000005 && t.core.sq.after == .held 1) = true ∧
    exec (.loopImm 0 3 1) (loops.place .first) = .next ((loops.place .first).raise cILLEGAL_INSTRUCTION) ∧
    exec (.repImm 4 2) loops = .next (loops.raise cILLEGAL_INSTRUCTION) ∧
    exec (.pin 0x041) loops = .next (loops.raise cILLEGAL_INSTRUCTION) ∧
    exec (.pin 5) loops = .next (loops.trapAt cFETCH_BOUNDS 0x24 0) := by
  refine ⟨by decide, by decide, by decide, by decide, by decide, by rfl, by rfl, by rfl, by rfl⟩

/-- R85–R87: the second repetition of the example's STL has off12 4; the first is the word itself; SEL 11 is illegal. -/
def repeating (reps : Word) : State := (loops.onSq fun q => { q with
  pc := 0x14
  repc := 3
  reps := reps
  pins := 0x80000000 })

theorem witness_LoopsRepeatsAndPin_repetition :
    (repeating 0x1000000003004).core.text[(0x14 : Nat) / 4]? = some 0x22314000 ∧
    (repeating 0x1000000003004).core.sq.latch = none ∧
    nextIs (exec .repetition (repeating 0x3004)) (fun t => t.core.sq.latch == some 0x22314000) = true ∧
    nextIs (exec .repetition (repeating 0x1000000003004)) (fun t => t.core.sq.latch == some 0x22314004) = true ∧
    nextIs (exec .repetition (repeating 0x1000000003804)) (fun t => t.core.sq.latch == some 0x22314004) = true ∧
    exec .repetition (repeating 0x5804) = .next ((repeating 0x5804).raise cILLEGAL_INSTRUCTION) := by
  refine ⟨by decide, by decide, by decide, by decide, by decide, by rfl⟩

def fullQueue (k : Fin 22) : State := tiny.onCore fun c => { c with
  queues := c.queues.set k ⟨List.replicate 32 (.fence 0 .core 0), none, none⟩ }

theorem witness_FenceExitAbort : (∀ k : Fin 22, tiny.core.queues[k].ents.length + 0 < 32) ∧
    (fullQueue 21).core.queues[(21 : Fin 22)].ents.length = 32 ∧
    nextIs (exec (.fence .gang) tiny) (fun t => t.core.order == 1 && t.core.queues[21].ents == [.fence 0 .gang 1000]) = true ∧
    nextIs (exec (.fence .system) tiny) (fun t => t.core.l1 == [] && t.core.queues[0].ents == [.fence 0 .system 1000])
      = true ∧
    nextIs (exec (.fence .die) (fullQueue 21)) (fun t => t.core.sq.after == .waits) = true ∧
    nextIs (exec .exit tiny) (fun t => t.core.sq.ending == some .exit) = true ∧
    nextIs (exec .abort (fullQueue 21)) (fun t => t.core.queues[21].ents == []) = true := by decide

/-- TVEC 0x2B, every cause enabled, and H. -/
def handlers (h : Bool) : State := tiny.onSq fun q => { q with
  pc := 0x1C
  tvec := 0x2B
  tcfg := 0x1FF
  trapslot := if h then 0x40000 else 0 }

/-- R306, R307: an entry, an entry while H is 1, and one whose class is not enabled. -/
theorem witness_SynchronousEntry : (handlers false).core.sq.tcfg.getLsbD 2 = true ∧
    (handlers false).core.sq.trapslot.getLsbD 18 = false ∧ (handlers true).core.sq.trapslot.getLsbD 18 = true ∧
    nextIs (exec (.trap 31) (handlers false)) (fun t => t.core.sq.cause == 0x03F && t.core.sq.trappc == 0x20
      && t.core.sq.pc == 0x28 && t.core.sq.held == 3 && t.core.sq.trapslot == 0x40000) = true ∧
    nextIs (exec .brk (handlers false)) (fun t => t.core.sq.cause == 0x011 && t.core.sq.trappc == 0x1C) = true ∧
    nextIs (exec (.illegalInstruction 0) (handlers false)) (fun t => t.core.sq.cause == 0x001) = true ∧
    nextIs (exec (.trap 0) (handlers true)) (fun t => (t.core.fault.map (·.cause)) == some 0x01B) = true ∧
    nextIs (exec (.trap 0) tiny) (fun t => (t.core.fault.map (·.cause)) == some 0x020) = true := by decide

/-- R307: ERET in a handler entered during a repeat, and one outside every handler. -/
theorem witness_ReturnFromHandler :
    nextIs (exec .eret ((handlers true).onSq fun q => { q with
      trapslot := 0xC0003
      trappc := 0x24 }))
      (fun t => t.core.sq.after == .jump 0x24 3 && t.core.sq.pins == 0x80000000 && t.core.sq.trapslot == 0x80003) = true ∧
    nextIs (exec .eret (handlers false)) (fun t => (t.core.fault.map (·.cause)) == some 0x01A) = true := by decide

/-- A cause of rotation 2 raised in cycle 999, at phase 5. -/
def raisedIn (s : State) (l : List Raised) : State := s.onSq fun q => { q with raised := l }

theorem witness_AsynchronousEntry :
    (handlers false).core.sq.enables (cROT 2 .slot) = true ∧ tiny.core.sq.enables (cROT 2 .slot) = false ∧
    (cROT 1 .slot).toNat < (cROT 2 .slot).toNat ∧
    nextIs (exec .asyncCauseEntry (raisedIn (handlers false) [⟨cROT 2 .slot, 5, 999⟩]))
      (fun t => t.core.sq.trapslot == 0x40016 && t.core.sq.pc == 0x28 && t.core.sq.trappc == 0x1C && t.core.sq.raised == [])
      = true ∧
    nextIs (exec .asyncCauseEntry (raisedIn (handlers true) [⟨cROT 2 .slot, 5, 999⟩]))
      (fun t => t.core.sq.heldCause == some (cROT 2 .slot, 5) && t.core.sq.pc == 0x1C) = true ∧
    nextIs (exec .asyncCauseEntry (raisedIn tiny [⟨cROT 2 .slot, 5, 999⟩]))
      (fun t => (t.core.fault.map (·.cause)) == some (cROT 2 .slot)) = true ∧
    nextIs (exec .asyncCauseEntry (raisedIn (handlers false) [⟨cROT 1 .slot, 5, 999⟩, ⟨cROT 2 .slot, 5, 999⟩]))
      (fun t => (t.core.fault.map fun f => (f.cause, f.second)) == some (cROT 1 .slot, cROT 2 .slot)) = true ∧
    nextIs (exec .asyncCauseEntry ((handlers false).onSq fun q => { q with heldCause := some (cROT 2 .slot, 5) }))
      (fun t => t.core.sq.trapslot == 0x40016 && t.core.sq.heldCause == none) = true := by decide

theorem witness_ControlRegisterReads : cregAssigned 0x004 = false ∧ cregAssigned 0xFFF = false ∧
    nextIs (exec (.rdc 3 0x031) tiny) (fun t => t.core.sq.flight == [⟨1002, .g 3 64⟩]) = true ∧
    exec (.rdc 3 0x004) tiny = .next (tiny.raise cILLEGAL_CREG) := by
  refine ⟨by decide, by decide, by decide, by rfl⟩

/-- R49, R186, R207: LEASE is brought into 8–256; a SPLIT of 5 is ignored, of 4 is not. -/
theorem witness_ControlRegisterWrites : cregAssigned 0x06F = true ∧
    nextIs (exec (.wrcLease 1) (withG tiny 1 7)) (fun t => t.core.sq.flight == [⟨1002, .creg 0x031 8⟩]) = true ∧
    nextIs (exec (.wrcLease 1) (withG tiny 1 257)) (fun t => t.core.sq.flight == [⟨1002, .creg 0x031 256⟩]) = true ∧
    nextIs (exec (.wrcSplit 1) (withG tiny 1 4)) (fun t => t.core.sq.flight == [⟨1002, .creg 0x038 4⟩]) = true ∧
    exec (.wrcSplit 1) (withG tiny 1 5) = .next (withG tiny 1 5) ∧
    exec (.wrc 1 0x001) (tiny) = .next (tiny.post 2 (.creg 0x001 0)) ∧
    exec (.wrc 1 0x004) tiny = .next (tiny.raise cILLEGAL_CREG) := by
  refine ⟨by decide, by decide, by decide, by decide, by rfl, by rfl, by rfl⟩

/-- Bytes on both sides of the smaller scratchpad's end, both words full. -/
def brim : Core := { (withMem tiny [(0xBFFFFF, 1), (0xC00000, 2)]).core with loc := { tiny.core.loc with
  mem := [(0xBFFFFF, 1), (0xC00000, 2)]
  fe := [(0x2FFFFF, true), (0x300000, true)] } }

theorem witness_SplitResizesTheScratchpad : Memory.wf brim.loc.mem = true ∧ canon false brim.loc.fe = true ∧
    (brim.land1 (.creg 0x038 4)).loc.mem = [(0xBFFFFF, 1)] ∧ (brim.land1 (.creg 0x038 4)).loc.fe = [(0x2FFFFF, true)] ∧
    (({ brim with l1 := [(5, ⟨true, 0, 0, 0⟩)], sq := { brim.sq with split := 4 } } : Core).land1 (.creg 0x038 0)).wb.length
      = 1 := by decide

/-! ### Commands, rotations, the dictionary, logical time -/

/-- A FEEDI to port 0, into which no arc leads out of: it is queued; a fence of 32 entries fills FEED queue 0; a base at
2^24 of a local DRAINA is ill-formed; INVA's word lies past the scratchpad. -/
theorem witness_CommandsEnterTheirQueue : queueOf (.feedi 0 false 0 1 2 ⟨none, none, none⟩) = some 0 ∧
    tiny.cmdCheck (.rretc 0 .all) = some (cROT 0 .unconf) ∧
    tiny.cmdCheck (.inva .self 0xFFFFFC) = none ∧
    tiny.cmdCheck (.copy 0 false none 0 1 none ⟨none, none, none⟩) = none ∧
    nextIs (exec (.copy 3 false none 0 1 none ⟨none, none, none⟩) tiny)
      (fun t => t.core.queues[11].ents.length == 1 && t.core.order == 1) = true ∧
    nextIs (exec (.copy 3 false none 0 1 none ⟨none, none, none⟩) (fullQueue 11)) (fun t => t.core.sq.after == .waits)
      = true ∧
    nextIs (exec (.draina 0 false false false 4 0x1000000 0 ⟨none, none, none⟩) (handlers false))
      (fun t => t.core.sq.cause == 0x004) = true := by decide

/-- Rotation 2 of depth 6 with an empty table, handle 5 of four slots with two of them filled. -/
def turning : State := (tiny.onFab fun f => { f with
    rots := f.rots.set 2 { Rot.none with
      cfg := some ⟨6, 0, 3, false, 1, 4⟩
      slots := List.replicate 6 .zero }
    rstart := f.rstart.set 2 { Rot.none with
      cfg := some ⟨6, 0, 3, false, 1, 4⟩
      slots := List.replicate 6 .zero } }).onLoc fun l => { l with
  handles := l.handles.set 5 (fourSlots 3 1)
  hstart := l.hstart.set 5 (fourSlots 3 1) }

theorem witness_RotationInstructionsEnterTheQueue :
    nextIs (exec (.radm 5 1 true 2) (withG turning 1 9)) (fun t => t.core.queues[19].ents.length == 1) = true ∧
    nextIs (exec (.rret (.one 1) 2) (withG turning 1 5)) (fun t => t.core.queues[19].ents.length == 1) = true ∧
    nextIs (exec (.rsave 1 .clear 2) (withG turning 1 0xFFFA40)) (fun t => t.core.queues[19].ents.length == 1) = true ∧
    nextIs (exec (.rmap 1 2) (withG turning 1 0xFFFFC0)) (fun t => t.core.queues[19].ents.length == 1) = true ∧
    exec (.rret (.one 1) 2) (withG turning 1 6) = .next ((withG turning 1 6).raise (cROT 2 .phase)) ∧
    exec (.radm 4 1 true 2) turning = .next (turning.raise (cROT 2 .handle)) ∧
    exec (.rsave 1 .clear 2) (withG turning 1 0xFFFA80) = .next ((withG turning 1 0xFFFA80).raise cLOCAL_BOUNDS) ∧
    exec (.rmap 1 2) (withG turning 1 0x20) = .next ((withG turning 1 0x20).raise cMISALIGNED) ∧
    exec (.rrel .all 3) turning = .next (turning.raise (cROT 3 .unconf)) := by
  refine ⟨by decide, by decide, by decide, by decide, by rfl, by rfl, by rfl, by rfl, by rfl⟩

theorem witness_RotationStatus :
    nextIs (exec (.rstat 3 (.one 1) 2) (withG turning 1 5)) (fun t => t.core.sq.flight == [⟨1002, .g 3 0⟩]) = true ∧
    nextIs (exec (.rstat 3 .all 2) turning) (fun t => t.core.sq.flight == [⟨1002, .g 3 0x606⟩]) = true ∧
    exec (.rstat 3 (.one 1) 2) (withG turning 1 6) = .next ((withG turning 1 6).raise (cROT 2 .phase)) ∧
    exec (.rstat 3 .all 1) turning = .next (turning.raise (cROT 1 .unconf)) := by
  refine ⟨by decide, by decide, by rfl, by rfl⟩

/-- The source descriptor of the worked example in 13, at 0x100: base 0x400, E 2, two dimensions 2 × 16 and 4 × 4. -/
def sdescribed : State := withMem tiny [(0x101, 0x04), (0x108, 0x12), (0x110, 2), (0x118, 16), (0x120, 4), (0x128, 4)]

theorem witness_DescriptorLoad : descBad (rdNat sdescribed.core.loc.mem 0x100 144) = false ∧
    nextIs (exec (.sdld 1 0x100) sdescribed) (fun t => t.core.sq.flight ==
      [⟨1001, .sd 1 ⟨0x400, 2, 1, false, [⟨2, 16⟩, ⟨4, 4⟩]⟩⟩]) = true ∧
    (Instr.sdld 1 0x108).wf = false ∧
    nextIs (exec (.sdld 1 0x100) (withMem (handlers false) [(0x109, 0x01)])) (fun t => t.core.sq.cause == 0x004) = true := by
  decide +kernel

theorem witness_DescriptorLoad_bounds : nextIs (exec (.sdld 1 0xFFFF80) (handlers false)) (fun t => t.core.sq.cause == 0x006) = true := by decide

/-- Entry 3 of the worked example in 12: FEEDI.EOI to port 0 with its two holes. -/
def expanding : State := (withG tiny 4 0x12340).onLoc fun l => { l with
  dict := [(3, ⟨0x52004010, 0x8000001BF0303E81⟩)] }

/-- DX of line 19: w1 is g4, w2 is −2 shifted left by 6. -/
theorem witness_DictionaryWords : (look .invalid 3 expanding.core.loc.dict).map.getLsbD 63 = true ∧
    anyMeet (holesOf 0x8000001BF0303E81) = false ∧
    (∀ j : Fin 3, (holeOf 0x8000001BF0303E81 j).pos + (holeOf 0x8000001BF0303E81 j).wid ≤ 128) ∧
    nextIs (exec (.dx 3 4 30 0) expanding) (fun t => t.core.queues[0].ents ==
      [.cmd (.feedi 0 true 0 0x12340 0xFFFFFF80 ⟨none, none, none⟩) (0#12 ++ 48#6) 0 0 none]) = true ∧
    nextIs (exec (.dx 2 4 30 0) (handlers false)) (fun t => t.core.sq.cause == 0x33B
      && fld t.core.sq.trapslot.toNat 8 10 == 2) = true := by decide

/-- A dictionary image at 0x100 whose record 3 is the example's with PORT = 1. -/
def image : State := withG (withG (withMem tiny [(0x160, 0x11), (0x161, 0x40), (0x163, 0x52), (0x170, 0x81), (0x171, 0x3E),
  (0x172, 0x30), (0x173, 0xF0), (0x174, 0x1B), (0x177, 0x80)]) 5 0x100) 6 0x403

theorem witness_DictionaryWords_load : canon .invalid image.core.loc.dict = true ∧
    nextIs (exec (.dload 5 6) image) (fun t => t.core.loc.dict == [(3, ⟨0x52004011, 0x8000001BF0303E81⟩)]
      && t.core.sq.dgen == 1 && t.core.sq.dref == 0x8000000000000000) = true ∧
    nextIs (exec (.dread 7 6 0) (withG expanding 6 3)) (fun t => t.core.sq.flight == [⟨1002, .g 7 0x52004010⟩]) = true ∧
    nextIs (exec (.dread 7 6 2) (withG expanding 6 1023)) (fun t => t.core.sq.flight == [⟨1002, .g 7 0⟩]) = true ∧
    exec (.dread 7 6 2) (withG expanding 6 1024) = .next ((withG expanding 6 1024).raise cDICT_RANGE) ∧
    nextIs (exec (.dload 5 6) (withG (handlers false) 6 0x003)) (fun t => t.core.sq.cause == 0x33D) = true ∧
    nextIs (exec (.dload 5 6) (withG (withG (handlers false) 5 0x10) 6 0x403)) (fun t => t.core.sq.cause == 0x007) = true ∧
    nextIs (exec (.dload 5 6) (withG (withG (handlers false) 5 0xFFFFA0) 6 0x403)) (fun t => t.core.sq.cause == 0x006) = true ∧
    nextIs (exec (.dload 5 6) (withG (withMem (handlers false) [(0x77, 0x80)]) 6 0x403)) (fun t => t.core.sq.cause == 0x33C)
      = true := by
  refine ⟨by decide, by decide, by decide, by decide, by rfl, by decide, by decide, by decide, by decide⟩

theorem witness_LogicalTimeTick : (255 : Word).toNat % 256 = 255 ∧
    nextIs (exec .ptsTick (tiny.onSq fun q => { q with ctr := { q.ctr with cycle := 255 } }))
      (fun t => t.core.sq.ctr.pts == 1 && t.core.fab.cells[31].pts == 1) = true ∧
    exec .ptsTick tiny = .next tiny := by
  refine ⟨by decide, by decide, by rfl⟩

/-! ### The fabric -/

/-- A configuration word: operation, TYPE, DTYPE, PROD0 and AUX; every input from an arc, one token of each, OBIAS 6. -/
def cellWord (op ty dty prod aux : Nat) : Quad := .ofNat 128
  (op + ty * 2 ^ 8 + dty * 2 ^ 12 + (1 + 2 ^ 6 + 2 ^ 12) * 2 ^ 16 + (1 + 2 ^ 3 + 2 ^ 6) * 2 ^ 34 + prod * 2 ^ 43 + 6 * 2 ^ 64 +
    aux * 2 ^ 72)

/-- An arc of depth 4. -/
def arcOf (src dst : Fin 64) (j : Fin 4) (fmt : BitVec 4) : Arc :=
  { Arc.none with cfg := some ⟨src, false, false, dst, j, 4, false, fmt, false, 6, 0⟩ }

def tokOf (d : Nat) : Token := ⟨.ofNat 512 d, 0, .data, false, 0, 0, 0⟩

/-- Cell 9 fed by ports 0, 1 and 2 through arcs 0, 1 and 2, feeding port 3 through arc 3. -/
def wired (op ty dty prod aux : Nat) : State := tiny.onFab fun f => { f with
  cells := f.cells.set 9 { f.cells[9] with
    conf := some (cellWord op ty dty prod aux)
    const := 0x00010003 }
  arcs := (((f.arcs.set 0 (arcOf 32 9 0 (.ofNat 4 ty))).set 1 (arcOf 33 9 1 (.ofNat 4 ty))).set 2
    (arcOf 34 9 2 (.ofNat 4 ty))).set 3 (arcOf 9 35 0 (.ofNat 4 dty)) }

/-- The same with a latched firing. -/
def latched (op ty dty prod aux : Nat) (a b d : List Nat) (path : Option Nat) : State :=
  (wired op ty dty prod aux).onFab fun f =>
    { f with fire := some ⟨9, [(0, a.map tokOf), (1, b.map tokOf), (2, d.map tokOf)], path, none, none⟩ }

/-- The low w bits of the first token that the operation pushes. -/
def pushed (w : Nat) (i : Instr) (s : State) : Option Nat := match exec i s with
  | .next t => (t.core.fab.cells[9].pipe.head?.bind fun e => e.2.head?).map fun u => u.tok.data.toNat % 2 ^ w
  | _ => none

/-- R152, R153, at i64, lane 0. -/
theorem test_integer_cells : (([
    (.cellAdd, 0x10, 0x7FFFFFFFFFFFFFFF, 1, 0, 0, 0x8000000000000000), (.cellMac, 0x13, 3, 4, 5, 0, 17),
    (.cellAbs, 0x16, 0xFFFFFFFFFFFFFFFB, 0, 0, 0, 5), (.cellSar, 0x1C, 0x8000000000000000, 63, 0, 0, 0xFFFFFFFFFFFFFFFF),
    (.cellRshr, 0x1D, 5, 1, 0, 0, 3), (.cellReq, 0x1E, 10, 0, 0, 1, 16), (.cellPlt, 0x21, 0xFFFFFFFFFFFFFFFF, 1, 0, 0, 1)] :
    List (Instr × Nat × Nat × Nat × Nat × Nat × Nat)).all fun e =>
      pushed 64 e.1 (latched e.2.1 3 3 1 e.2.2.2.2.2.1 [e.2.2.1] [e.2.2.2.1] [e.2.2.2.2.1] none) == some e.2.2.2.2.2.2) = true := by
  decide +kernel

/-- A result of fp32 lanes. -/
def fp32 (f : RVal → RVal → RVal → RVal) (a b d : Nat) : Nat :=
  (encFp 24 .nearest (f (decFp 24 a) (decFp 24 b) (decFp 24 d))).1

/-- R154, R155: the exact results of a lane of each operation, and one sum through a cell. -/
theorem test_floating_cells :
    pushed 32 .cellFadd (latched 0x40 10 10 1 0 [0x3F800000] [0x3F800000] [] none) = some 0x40000000 ∧
    fp32 (fun x y _ => mulR x y) 0x40000000 0x40400000 0 = 0x40C00000 ∧ fp32 fmaR 0x40000000 0x40400000 0x3F800000 = 0x40E00000 ∧
    fp32 (fun x y _ => minR x y) 0x3F800000 0x40000000 0 = 0x3F800000 ∧
    fp32 (fun x y _ => maxR x y) 0x3F800000 0x40000000 0 = 0x40000000 ∧
    fp32 (fun x _ _ => exp2R x) 0x40400000 0 0 = 0x41000000 ∧ fp32 (fun x _ _ => log2R x) 0x41000000 0 0 = 0x40400000 ∧
    fp32 (fun x _ _ => recipR x) 0x40800000 0 0 = 0x3E800000 ∧ fp32 (fun x _ _ => rsqrtR x) 0x40800000 0 0 = 0x3F000000 ∧
    fp32 (fun x y _ => divR x y) 0x40C00000 0x40400000 0 = 0x40000000 ∧
    fp32 (fun x y _ => addR x (negR y)) 0x3F800000 0x3F800000 0 = 0 := by decide +kernel

/-- R154: −0 equals +0; 1 is less than 2. -/
theorem test_floating_predicates :
    pushed 32 .cellFpeq (latched 0x4D 10 6 1 0 [0x80000000] [0] [] none) = some 1 ∧
    pushed 32 .cellFplt (latched 0x4E 10 6 1 0 [0x3F800000] [0x40000000] [] none) = some 1 := by decide +kernel

/-- R124, R155: at bias 6, 0x01 is 1 and 0x40 is 10^6 (the worked example of 14). -/
theorem test_decade_cells :
    (pushed 32 .cellDkmul (latched 0x60 8 8 1 0 [0x01] [0x40] [] none)).map (· % 256) = some 0x40 ∧
    (pushed 32 .cellDkmax (latched 0x62 8 8 1 0 [0x01] [0x40] [] none)).map (· % 256) = some 0x40 ∧
    pushed 32 .cellDkdot (latched 0x61 8 10 1 0 [0x01] [0x01] [] none) = some 0x3F800000 := by decide +kernel

/-- R156–R158: conversions of i32, and shuffles and reductions of the i64 lanes 1, 2, 3. -/
theorem test_conversion_shuffle_reduction_cells :
    pushed 32 .cellCvt (latched 0x70 2 10 1 0 [3] [] [] none) = some 0x40400000 ∧
    pushed 64 .cellWiden (latched 0x72 2 3 2 0 [0xFFFFFFFF] [] [] none) = some 0xFFFFFFFFFFFFFFFF ∧
    pushed 64 .cellNarrow (latched 0x71 3 2 1 0 [2 + 3 * 2 ^ 64, 0] [] [] none) = some 0x300000002 ∧
    pushed 64 .cellShuf (latched 0x81 3 3 1 0 [1 + 2 * 2 ^ 64 + 3 * 2 ^ 128] [2] [] none) = some 3 ∧
    pushed 128 .cellUnzip (latched 0x83 3 3 1 0 [1 + 2 * 2 ^ 64 + 3 * 2 ^ 128] [7] [] none) = some (1 + 3 * 2 ^ 64) ∧
    pushed 64 .cellRsum (latched 0x88 3 3 1 0 [1 + 2 * 2 ^ 64 + 3 * 2 ^ 128] [] [] none) = some 6 := by decide +kernel

/-- R107–R109, R151, R163, R164. -/
theorem test_routing_cells :
    pushed 32 .cellPass (latched 0x01 2 2 1 0 [5] [] [] none) = some 5 ∧
    pushed 32 .cellSelect (latched 0x02 2 2 1 0 [5] [6] [1] none) = some 5 ∧
    pushed 32 .cellSteer (latched 0x03 2 2 1 0 [5] [] [] (some 0)) = some 5 ∧
    pushed 32 .cellMerge (latched 0x04 2 2 1 0 [5] [6] [] (some 1)) = some 6 ∧
    nextIs (exec .cellMerge (latched 0x04 2 2 1 0 [5] [6] [] none))
      (fun t => t.core.sq.raised == [⟨cCELL 9 .path, 0, 1000⟩]) = true ∧
    nextIs (exec .cellSink (latched 0x06 2 2 0 0 [5] [] [] none)) (fun t => t.core.fab.fire == none) = true ∧
    pushed 32 .cellLeave (latched 0x07 2 2 1 0 [5] [6] [0] none) = some 5 := by decide +kernel

/-- One token of each input in its FIFO: the cell fires; then its result reaches arc 3 a latency later. -/
def fed : State := (wired 0x10 2 2 1 0).onFab fun f => { f with
  arcs := ((f.arcs.set 0 { f.arcs[0] with fifo := [(990, tokOf 5)] }).set 1 { f.arcs[1] with fifo := [(990, tokOf 6)] }).set 2
    { f.arcs[2] with fifo := [(990, tokOf 7)] } }

theorem witness_CellFires :
    fed.core.fab.inputs 9 = [(0, 0), (1, 1), (2, 2)] ∧ fed.core.fab.outs 9 1000 = [(3, 1)] ∧
    fed.core.fab.cells[(9 : Fin 32)].member = none ∧ fed.energyOk fed.core = true ∧
    (∀ e ∈ fed.core.fab.inputs 9, fed.core.fab.loopOf e.2 = none ∧
      fed.core.fab.cells[(9 : Fin 32)].need e.1 ≤ (fed.core.fab.scan e.2 1000).1 ∧ (fed.core.fab.scan e.2 1000).2 = false) ∧
    fed.core.fab.room 3 1000 1 = true ∧
    nextIs (exec (.cellFiring 9) fed) (fun t => (t.core.fab.fire.map (·.ins)) ==
      some [(0, [tokOf 5]), (1, [tokOf 6]), (2, [tokOf 7])] && t.core.fab.arcs[3].reserved == 1) = true := by
  decide +kernel

theorem witness_TokensEnterTheirChannels :
    nextIs (exec (.tokenPush 9) ((wired 0x10 2 2 1 0).onFab fun f => { f with
      cells := f.cells.set 9 { f.cells[9] with pipe := [(1000, [⟨3, tokOf 11, false⟩]), (1001, [⟨3, tokOf 12, false⟩])] }
      arcs := f.arcs.set 3 { f.arcs[3] with reserved := 2 } }))
      (fun t => (t.core.fab.arcs[3].fifo.map (·.2)) == [tokOf 11] && t.core.fab.arcs[3].reserved == 1
        && t.core.fab.cells[9].pipe.length == 1) = true := by decide +kernel

/-- Two targets on distinct channels; a cause that is raised; and one of a member's firing, at a live slot. -/
theorem witness_FiringsEnd :
    ((wired 0x10 2 2 1 0).core.fab.targets 9 0 ++ (wired 0x10 2 2 1 0).core.fab.targets 9 1).Nodup ∧
    (((latched 0x10 2 2 1 0 [5] [6] [7] none).finishFire ⟨9, [], none, none, none⟩ ⟨[1], [], none, []⟩ none).core.fab.cells[
      (9 : Fin 32)].fires = 1) ∧
    (((latched 0x10 2 2 1 0 [5] [6] [7] none).finishFire ⟨9, [], none, none, none⟩ ⟨[1], [], some .overflow, []⟩ none).core.fab.cells[
      (9 : Fin 32)].stopped = true) ∧
    ((((wired 0x10 2 2 1 0).onFab fun f => { f with rots := f.rots.set 1 { Rot.none with
        cfg := some ⟨2, 9, 3, false, 1, 2⟩
        slots := [.zero, { Slot.zero with state := .active }] } }).finishFire ⟨9, [], none, some (1, 1), none⟩
      ⟨[1], [], some .overflow, []⟩ none).core.fab.rots[(1 : Fin 8)].slots[1]?.map (·.state)) = some .faulted := by
  decide +kernel

/-- A closed input on every used arc: the marker fires. -/
theorem witness_MarkersAndRewrites :
    let s := (wired 0x10 2 2 1 0).onFab fun f => { f with
      cells := f.cells.set 9 { f.cells[9] with rewrite := [0x55, 0x66] }
      arcs := ((f.arcs.set 0 { f.arcs[0] with fifo := [(990, .marker 0)] }).set 1
        { f.arcs[1] with fifo := [(990, .marker 0)] }).set 2 { f.arcs[2] with fifo := [(990, .marker 0)] } }
    (∀ e ∈ s.core.fab.inputs 9, s.core.fab.loopOf e.2 = none ∧ s.core.fab.scan e.2 1000 = (0, true)) ∧
    (∀ a ∈ s.core.fab.targets 9 0 ++ s.core.fab.targets 9 1, s.core.fab.loopOf a = none ∧ s.core.fab.room a 1000 1 = true) ∧
    s.core.fab.statArcs 9 = [] ∧
    nextIs (exec (.markerFiring 9) s) (fun t => t.core.fab.cells[9].marked && t.core.fab.cells[9].pipe.length == 1
      && nextIs (exec (.argwEffect 9) t) fun u => u.core.fab.cells[9].const == 0x66) = true ∧
    nextIs (exec (.argwEffect 9) s) (fun t => t.core.fab.cells[9].rewrite == [0x55, 0x66]) = true := by decide +kernel

/-- A memory-port cell whose constant is 0, its sixteen lanes at the words from an address up. -/
def porting (op ty : Nat) (at_ : Nat) (data : Nat) (m : List Host.Cell) : State :=
  ((latched op ty 2 1 0 [((List.range 16).map fun i => (at_ + 4 * i) * 2 ^ (32 * i)).foldl (· + ·) 0] [data] [] none).onCell 9
    fun c => { c with const := 0 }).onLoc fun l => { l with
      mem := m
      regions := l.regions.set 0 ⟨0, 0x1000, true, true, 1, 0, false, false⟩ }

theorem witness_MemoryPortCellResults :
    Memory.wf (porting 0xA0 2 0x40 0 [(0x40, 9), (0x44, 7)]).core.loc.mem = true ∧
    pushed 32 .cellLdx (porting 0xA0 2 0x40 0 [(0x40, 9), (0x44, 7)]) = some 9 ∧
    pushed 32 .cellLdv (porting 0xA1 2 0x40 0 [(0x40, 9), (0x44, 7)]) = some 9 ∧
    pushed 32 .cellLds (porting 0xA2 2 0x40 0 [(0, 8), (0x44, 7)]) = some 8 ∧
    nextIs (exec .cellStx (porting 0xA4 2 0x40 0x0000000800000007 [])) (fun t => rdNat t.core.loc.mem 0x44 4 == 8) = true ∧
    nextIs (exec .cellStv (porting 0xA5 2 0x80 0x0000000800000007 [])) (fun t => rdNat t.core.loc.mem 0x84 4 == 8) = true ∧
    nextIs (exec .cellSts (porting 0xA6 2 0x0D 0 [])) (fun t => rdNat t.core.loc.mem 0 4 == 0x0D) = true := by decide +kernel

theorem witness_MemoryPortCellResults_mica :
    pushed 32 .cellMlvl (porting 0xAA 12 0x40 0 [(0x40, 3)]) = some 3 ∧
    nextIs (exec .cellMadd (porting 0xA8 12 0x40 0 [(0x40, 3)])) (fun t => rdNat t.core.loc.mem 0x40 4 == 3) = true := by
  decide +kernel
/-! ### Rotations, banks, circuits, translation -/

/-- A begun command. -/
def started (i : Instr) : Run where
  cmd := i
  node := 0
  pts := 0
  order := 0
  via := none
  begin_ := 990
  src := .zero
  dst := .zero
  slotA := 0
  slotB := 0
  slotO := 0
  n := 0
  asked := 0
  pre := 0
  stage := 0
  wait := []
  rows := []
  bytes := []
  srow := none
  sdata := []
  smask := []
  irows := []
  pend := []
  bad := none
  idx := 0
  op := none
  hist := []
  sel := .start
  old := 0
  stat := 0
  until_ := 0
  done := false

/-- Command i begun, or waiting at the head, in queue k. -/
def begun (s : State) (k : Fin 22) (r : Run) : State := s.onCore fun c => { c with
  queues := c.queues.set k ⟨[], some r, none⟩ }

def queuedAt (s : State) (k : Fin 22) (i : Instr) : State := s.onCore fun c => { c with
  queues := c.queues.set k ⟨[.cmd i 0 0 0 none], none, none⟩ }

/-- Rotation 2 of turning with the tap at cell 0, fed by cell 1 through arc 5, its exit port 3 feeding cell 6 through arc
8. The slots at the start of the cycle are x, the present ones y. -/
def rotating (x y : Slot) (fifo : List (Nat × Token)) (inj : List Inject) (buf : List Token) : State := tiny.onFab fun f =>
  { f with
    cells := (f.cells.set 0 { f.cells[0] with conf := some (cellWord 0x10 2 2 (1 + 2 ^ 7 + 2 ^ 9) 0) }).set 1 { f.cells[1] with
      conf := some (cellWord 0x10 2 2 (1 + 2 ^ 7 + 2 ^ 9) 0) }
    arcs := (f.arcs.set 5 { arcOf 1 0 0 2 with fifo := fifo }).set 8 (arcOf 35 6 0 2)
    ports := f.ports.set 3 { f.ports[3] with buf := buf }
    rstart := f.rstart.set 2 { Rot.none with
      cfg := some ⟨2, 0, 3, false, 3, 2⟩
      slots := [x, .zero] }
    rots := f.rots.set 2 { Rot.none with
      cfg := some ⟨2, 0, 3, false, 3, 2⟩
      slots := [y, .zero]
      inj := inj } }

def slotIn (x : SlotState) : Slot := { Slot.zero with state := x }

theorem witness_RotationTap :
    let s := rotating (slotIn .active) { slotIn .active with pend := true } [] [⟨0, tokOf 7, 1000, false, false⟩] []
    (s.core.fab.tapInputs 2) = [5] ∧ s.core.wheel % 2 = 0 ∧
    nextIs (exec (.slotInject 2) s) (fun t => t.core.fab.arcs[5].fifo == [(1000, tokOf 7)]
      && !(t.core.fab.rots[2].slots.any (·.pend)) && t.core.fab.rots[2].inj.isEmpty) = true ∧
    nextIs (exec (.slotExit 2) (rotating (slotIn .leaving) (slotIn .leaving) [(999, tokOf 7)] [] [tokOf 1]))
      (fun t => t.core.fab.ports[3].buf == [tokOf 1, tokOf 7] && t.core.fab.rots[2].slots == [.zero, .zero]) = true ∧
    nextIs (exec (.exitPortPush 2) (rotating .zero .zero [] [] [tokOf 1]))
      (fun t => t.core.fab.ports[3].buf == [] && (t.core.fab.arcs[8].fifo.map (·.2)) == [tokOf 1]) = true := by
  decide +kernel

theorem witness_Saves :
    let s := queuedAt (rotating .zero .zero [] [] []) 19 (.rsavec 2 .clear 0x80)
    let v : Save := ⟨.clear, 0x80, 990, 0, [], none, false⟩
    nextIs (exec .rotSave s) (fun t => t.core.fab.rots[2].save == some ⟨.clear, 0x80, 1000, 0, [], none, false⟩) = true ∧
    nextIs (exec (.slotCapture 2) ((rotating (slotIn .held) (slotIn .held) [(999, tokOf 7)] [] []).onFab fun f => { f with
      rots := f.rots.set 2 { f.rots[2] with save := some v } })) (fun t =>
        (t.core.fab.rots[2].save.map (·.ents)) == some [⟨0, 2, 0, some (tokOf 7)⟩] && t.core.loc.reqs.length == 2) = true ∧
    nextIs (exec (.rotSaveComplete 2) (begun ((rotating (slotIn .held) (slotIn .held) [] [] []).onFab fun f => { f with
      rots := f.rots.set 2 { f.rots[2] with save := some { v with hdr := some 5 } } }) 19 (started (.rsavec 2 .clear 0x80))))
      (fun t => t.core.fab.rots[2].save == none && t.core.fab.rots[2].slots == [.zero, .zero] && t.core.loc.full 0x80) = true ∧
    nextIs (exec (.rotSaveComplete 2) ((begun ((rotating (slotIn .held) (slotIn .held) [] [] []).onFab fun f => { f with
      rots := f.rots.set 2 { f.rots[2] with save := some v } }) 19 { started (.rsavec 2 .clear 0x80) with wait := [4] }).onLoc fun l =>
        { l with served := [⟨4, [], 0, 1000, 0, false, some cLOCAL_BOUNDS⟩] }))
      (fun t => t.core.fab.rots[2].save == none && t.core.queues[19].stop == some (cENG 6 .addr)) = true := by
  decide +kernel

theorem witness_RotationCommands :
    let at2 := fun i x => exec x (queuedAt turning 19 i)
    nextIs (exec .rotAdmit (queuedAt (withMem turning [(0x1040, 7)]) 19 (.radmc 2 5 true 9))) (fun t =>
      t.core.fab.rots[2].slots.head? == some ⟨.active, true, 1, 0, 9, false⟩ && (t.core.fab.rots[2].inj.map (·.tok.data)) == [7]
        && t.core.loc.handles[5].ci == 2 && t.core.loc.handles[5].own && t.core.queues[19].ents == []
        && (t.core.loc.reqs.map (·.acc)) == [.write [(0x1040, [])] false]) = true ∧
    nextIs (exec .rotAdmit (queuedAt (turning.onFab fun f => { f with
      rstart := f.rstart.set 2 { f.rstart[2] with slots := List.replicate 6 (slotIn .active) } }) 19 (.radmc 2 5 true 9)))
      (fun t => t.core.fab.rots[2].refused == 1 && t.core.loc.handles[5].ci == 1) = true ∧
    nextIs (at2 (.rretc 2 .all) .rotRetire) (fun t => t.core.queues[19].ents == []) = true ∧
    nextIs (at2 (.rholdc 2 (.one 1)) .rotHold) (fun t => t.core.queues[19].ents == []) = true ∧
    nextIs (at2 (.rrelc 2 .all) .rotRelease) (fun t => t.core.queues[19].ents == []) = true ∧
    nextIs (exec .rotMap (queuedAt (withMem turning [(0x40, 7)]) 19 (.rmapc 2 0x40)))
      (fun t => t.core.fab.rots[2].map == some (7 :: List.replicate 63 0) && t.core.rotAt == 1000) = true ∧
    nextIs (at2 (.rmapc 2 0xFFFFE0) .rotMap) (fun t => t.core.queues[19].stop == some (cENG 6 .addr)) = true := by
  decide +kernel

/-- A record of two slots: entry 0 active, its token 9; entry 1 a faulted slot, which KF = 0 leaves out. -/
def recording (s : State) (code : Byte) (kf m : Bool) : State := queuedAt (withMem s [(0x80, 2), (0x81, 1), (0xC0, code), (0xC1, 3),
  (0xD0, 3), (0x4C0, 9), (0x500, 8)]) 19 (.rloadc 2 kf m 0x80)

theorem witness_RotationCommands_load :
    nextIs (exec .rotLoad (queuedAt turning 19 (.rloadc 2 true false 0x80)))
      (fun t => t.core.queues[19].stop == some (cROT 2 .record)) = true ∧
    nextIs (exec .rotLoad (queuedAt turning 19 (.rloadc 2 true false 0xFFFFE0)))
      (fun t => t.core.queues[19].stop == some (cROT 2 .record)) = true ∧
    nextIs (exec .rotLoad (recording turning 1 false false))
      (fun t => (t.core.fab.rots[2].slots.map (·.state)).take 2 == [.active, .empty] && t.core.loc.reqs.length == 4
        && (t.core.fab.rots[2].inj.map fun e => (e.phase, e.tok.data)) == [(0, 9)] && t.core.fab.rots[2].loading) = true ∧
    nextIs (exec .rotLoad (recording turning 1 false true)) (fun t => t.core.queues[19].stop == some (cROT 2 .map)) = true ∧
    nextIs (exec .rotLoad (recording turning 5 false false)) (fun t => t.core.queues[19].stop == some (cROT 2 .record)) = true ∧
    nextIs (exec .rotLoad (recording (rotating .zero (slotIn .active) [] [] []) 1 true false))
      (fun t => t.core.queues[19].stop == some (cROT 2 .notEmpty)) = true ∧
    nextIs (exec .rotLoad (begun turning 19 { started (.rloadc 2 true false 0x80) with stage := 1 }))
      (fun t => t.core.queues[19].run == none && t.core.rotAt == 1000) = true := by
  decide +kernel

/-- Two requests at bank 0, a read of the matrix engine and a write of a command. -/
def presented (aged : Nat) : State := tiny.onLoc fun l => { l with
  mem := [(3, 0x55)]
  reqs := [⟨1, .command 5, .write [(0, [1, 2])] true, 0, 990, aged, 0⟩, ⟨2, .mxe, .read 0 4 [], 0, 995, 0, 0⟩] }

theorem witness_BanksServeRequests :
    ((presented 0).core.loc.presented 0).length = 2 ∧
    nextIs (exec (.bankEngineAccess 0) (presented 0)) (fun t => (t.core.loc.reqs.map (·.id)) == [1]
      && (t.core.loc.served.map (·.bytes)) == [[0, 0, 0, 0x55]]) = true ∧
    nextIs (exec (.bankEngineAccess 0) (presented 16)) (fun t => (t.core.loc.reqs.map (·.id)) == [2]
      && t.core.loc.mem == [(0, 1), (1, 2), (3, 0x55)] && t.core.loc.full 0) = true ∧
    nextIs (exec (.requestAged 0) (presented 16)) (fun t => (t.core.loc.reqs.map (·.refused)) == [0]) = true ∧
    nextIs (exec (.bankEngineAccess 0) ((presented 0).onSq fun q => { q with banks := [0] }))
      (fun t => (t.core.loc.reqs.map (·.refused)) == [1, 1]) = true := by decide +kernel

/-- A task of one core at partition 0 with device memory. -/
def taskOn (k : Task → Task) : State :=
  { tiny with chip := { tiny.chip with
      tasks := [k { desc := ⟨0, 0, 0, 0, 0, 0, 0, 0, 0⟩, queue := some 0, part := 0, state := .running, asid := 5, nlc := 1,
                    cores := [0], start := 0, elig := 0, retired := [], saved := [], windows := [], barriers := [],
                    version := [], idle := 0, beenIn := [], fault := none, faultTime := 0, vlines := 0, fossil := [], freeze := 0,
                    packOwed := false, status := 0, meas := false }]
      parts := tiny.chip.parts.set 0 { Machine.Part.none with
        pclu := 1
        pbnk := 1
        pchn := 1
        phub := 1 } } }

/-- A core whose circuits 0 and 1 are the two ends of one: out port 3, fed by arc 3, and in port 4, which feeds arc 9;
and circuit 2, a memory node. -/
def circuited (rx : List (Nat × Token)) : State := ((taskOn id).onFab fun f => { f with
  arcs := (f.arcs.set 3 { arcOf 9 35 0 2 with fifo := [(990, tokOf 7)] }).set 9 (arcOf 36 6 0 2) }).onLoc fun l => { l with
  sd := l.sd.set 1 ⟨0x400, 6, 0, false, [⟨2, 64⟩]⟩
  circ := ((l.circ.set 0 { Circ.none with cfg := some ⟨3, true, false, false, 0, 4, 0, 2, 6, 0⟩ }).set 1 { Circ.none with
    cfg := some ⟨4, false, false, false, 0, 3, 0, 2, 6, 0⟩
    rx := rx }).set 2 { Circ.none with
      cfg := some ⟨5, false, true, false, 1, 9, 0, 2, 6, 0⟩
      armed := 1
      rx := rx } }

theorem witness_CircuitsMoveTokens :
    nextIs (exec (.circuitPassBegin 2) (circuited [])) (fun t => t.core.loc.circ[2].armed == 0
      && (t.core.loc.circ[2].pass.map (·.desc.base)) == some 0x400) = true ∧
    nextIs (exec (.circuitTransfer 1) (circuited [(1000, tokOf 5)])) (fun t => t.core.loc.circ[1].rx == []
      && (t.core.fab.arcs[9].fifo.map (·.2)) == [tokOf 5]) = true ∧
    ((circuited []).peerOf 0).isSome = true ∧
    nextIs (exec (.circuitTransfer 0) (circuited [])) (fun t => (t.core.loc.circ[1].rx.map (·.2)) == [tokOf 7]
      && t.core.fab.arcs[3].fifo == []) = true ∧
    nextIs (exec (.circuitTransfer 2) ((circuited [(1000, tokOf 5)]).onLoc fun l => { l with
      circ := l.circ.set 2 { l.circ[2] with pass := some ⟨l.sd[1], 1, [], 0, []⟩ } }))
      (fun t => (t.core.loc.reqs.map (·.acc)) == [.write [(0x440, rowBytes (tokOf 5).data)] false]) = true ∧
    exec (.cmpCircuitCarry 0) (circuited []) = .next (circuited []) := by
  refine ⟨by decide +kernel, by decide +kernel, by decide +kernel, by decide +kernel, by decide +kernel, by rfl⟩

/-- Tables at 0x1000, 0x2000, 0x3000 and 0x4000 that map the page 0 to the frame 0x50000, writable. -/
def mapped (w : Walk) : State := (taskOn id).onChip fun h => { h with
  walks := [w]
  parts := h.parts.set 0 { h.parts[0] with mem := [(0x1000, 3), (0x1001, 0x20), (0x2000, 3), (0x2001, 0x30), (0x3000, 3),
    (0x3001, 0x40), (0x4000, 5), (0x4002, 5), (0x50008, 0xAB)] } }

theorem witness_PageWalk :
    nextIs (exec (.pageWalk 0) (mapped ⟨0, [(0, false)], 0, 0, 0, 5, 0x1000, 0x8, true, 1000, none, none⟩))
      (fun t => t.chip.walks == [] && (t.core.tlb.map fun x => (x.base, x.size, x.pa, x.w)) == [(0, 0x10000, 0x50000, true)])
      = true ∧
    nextIs (exec (.pageWalk 0) (mapped ⟨0, [(0, false)], 0, 0, 0, 5, 0x1000, 0x8000000000, true, 1000, none, none⟩))
      (fun t => (t.chip.walks.map (·.ended)) == [some (cXLT 0 .notPresent)]) = true := by decide +kernel

/-- One request of the command side whose page the TLB holds. -/
def asking (what : GlobOp) : State := (mapped ⟨0, [(0, false)], 0, 0, 0, 5, 0x1000, 0, true, 2000, none, none⟩).onCore fun c => { c with
  tlb := [⟨5, 0, 0x10000, 0x50000, true, true, 0, false⟩]
  loc := { c.loc with greqs := [⟨3, 4, 0, false, false, none, false, 8, what, 0, 1000, none, none⟩] } }

theorem witness_GlobalAccess :
    ((asking (.load 2)).chip.parts[(0 : Fin 64)].place 0x50008) = .device ∧
    nextIs (exec .globalAccessComplete (asking (.load 2))) (fun t => t.core.loc.greqs == []
      && (t.core.loc.served.map (·.bytes)) == [[0xAB, 0]]) = true ∧
    nextIs (exec .globalAccessComplete (asking (.store [1, 2]))) (fun t => t.rdPhys 0 0x50008 3 == [1, 2, 0]) = true ∧
    nextIs (exec (.invalidationAck 0) ((asking (.load 2)).onChip fun h => { h with
      invals := [⟨some 0, 5, 0, 0x1000, [0, 256], []⟩] })) (fun t => (t.chip.invals.map (·.units)) == [[256]] && t.core.tlb == [])
      = true := by decide +kernel
/-! ### Commands and engines -/

def declA : Decl := ⟨some ⟨3, 0⟩, none, none⟩

def noDecl : Decl := ⟨none, none, none⟩

/-- Port 3 feeds cell 6 through arc 8; port 2 is fed by cell 9 through arc 3, whose head is k. -/
def portedTo (k : Token) : State := tiny.onFab fun f => { f with
  arcs := (f.arcs.set 8 (arcOf 35 6 0 2)).set 3 { arcOf 9 34 0 2 with fifo := [(990, k), (991, tokOf 8)] } }

theorem witness_CommandsRun :
    nextIs (exec (.commandBegin 0) (queuedAt (portedTo (tokOf 7)) 0 (.feedi 0 true 3 0x12 0x34 noDecl))) (fun t =>
      (t.core.queues[0].run.map (·.begin_)) == some 1000 && t.core.fab.ports[3].bind == .held 0) = true ∧
    nextIs (exec (.feedPush 0) (begun (portedTo (tokOf 7)) 0 { started (.feedi 0 true 3 0x12 0x34 noDecl) with
      rows := [(5, 0)] })) (fun t => (t.core.fab.arcs[8].fifo.map (·.2.data)) == [5]) = true ∧
    nextIs (exec (.drainTake 0) (begun (portedTo (tokOf 7)) 4 (started (.drainx 0 2 noDecl))))
      (fun t => t.core.fab.arcs[3].fifo.length == 1) = true ∧
    nextIs (exec (.drainTake 0) (begun (portedTo (.marker 0)) 4 (started (.drainx 0 2 noDecl))))
      (fun t => (t.core.queues[4].run.map (·.done)) == some true) = true ∧
    nextIs (exec (.drainTake 0) (begun (portedTo (tokOf 7)) 4 { started (.draina 0 false false false 2 0 1 noDecl) with
      src := ⟨0x400, 6, 0, false, [⟨2, 64⟩]⟩ })) (fun t => (t.core.queues[4].run.map (·.rows)) == some [((tokOf 7).data, 0)])
      = true := by decide +kernel

/-- A feed of one slot of handle 3 that is done. -/
theorem witness_CommandsRun_complete :
    nextIs (exec (.commandComplete 0) ((begun (handled 2) 0 { started (.feedm 0 3 declA) with
      done := true }).onFab fun f => { f with ports := f.ports.set 3 { f.ports[3] with bind := .held 0 } }))
      (fun t => t.core.queues[0].run == none && t.core.loc.handles[3].ci == 2 && t.core.fab.ports[3].bind == .free) = true := by
  decide +kernel

/-- A copy with a pending span of the destination; a command port with the words of a FEEDI at its head. -/
theorem witness_CommandsRun_ports :
    nextIs (exec .cpeRowAccess (begun tiny 8 { started (.copy 0 false none 1 2 none noDecl) with
      src := ⟨0x400, 6, 0, false, [⟨2, 64⟩]⟩
      dst := ⟨0x800, 6, 0, false, [⟨2, 64⟩]⟩ }))
      (fun t => t.core.loc.cpeTurn == some 0 && (t.core.loc.reqs.map (·.acc)) == [.read 0x400 64 []]) = true ∧
    nextIs (exec .cpeRowAccess (begun tiny 9 { started (.copy 1 false none 1 2 none noDecl) with
      src := ⟨0x400, 6, 0, true, [⟨2, 64⟩]⟩
      dst := ⟨0x800, 6, 0, false, [⟨2, 64⟩]⟩ }))
      (fun t => t.core.lastCh == 1 && t.core.loc.cpeUsed && (t.core.loc.greqs.map (·.va)) == [0x400]) = true ∧
    nextIs (exec .cpeRowAccess (tiny.onLoc fun l => { l with reqs := [⟨1, .cpe 3, .read 0 64 [], 0, 990, 1, 0⟩] }))
      (fun t => t.core.loc.cpeTurn == some 3) = true ∧
    (let x := fun k => (portedTo k).onFab fun f => { f with ports := f.ports.set 2 { f.ports[2] with bind := .command } }
     nextIs (exec (.commandPortIssue 2) (x (.marker 0))) (fun t => t.core.fab.arcs[3].fifo.length == 1) = true ∧
     nextIs (exec (.commandPortIssue 2) (x (tokOf 0))) (fun t => t.core.fab.arcs[3].fifo.length == 1) = true ∧
     nextIs (exec (.commandPortIssue 2) (x (tokOf 0x52004010))) (fun t => t.core.queues[0].ents.length == 1) = true) := by
  decide +kernel

def mxState (i : Instr) (k : Token) (f : Run → Run) : State := begun (portedTo k) 16 (f (started i))

theorem witness_MatrixEngineActs :
    nextIs (exec .mxeRowFiring (mxState (.mmul 3 0 true false .i8 2 none false none noDecl) (tokOf 7) id)) (fun t =>
      (t.core.queues[16].run.map fun u => (u.n, u.until_)) == some (1, 1006) && t.core.fab.arcs[3].fifo == []) = true ∧
    nextIs (exec .mxePortToken (mxState (.ldb (.port 2) .dk8 6 none noDecl) (tokOf 7) fun r => { r with pre := 511 }))
      (fun t => t.core.mxe.valid false && t.core.mxe.ty false == .dk8) = true ∧
    nextIs (exec .mxePortToken (mxState (.ldb (.port 2) .dk8 6 none noDecl) (.marker 0) id))
      (fun t => t.core.queues[16].stop == some (cPORT 2 .eoi)) = true := by decide +kernel

/-- RECUR of rotation 2 on port 2: the slot at the tap is active and a token stands there. -/
def recurring (inj : List Inject) : State := begun ((rotating (slotIn .active) (slotIn .active) [(999, tokOf 4)] inj []).onFab
  fun f => { f with arcs := f.arcs.set 3 { arcOf 9 34 0 2 with fifo := [(990, tokOf 7)] } }) 16
  (started (.recur 2 .dk8 6 2 none false noDecl))

theorem witness_MatrixEngineActs_recur :
    nextIs (exec .recurCapture (recurring [])) (fun t => t.core.fab.rots[2].inj.length == 1
      && t.core.fab.rots[2].slots.any (·.pend) && t.core.fab.arcs[3].fifo == []) = true ∧
    nextIs (exec .recurInject (recurring [⟨0, tokOf 7, 1000, true, false⟩])) (fun t => t.core.fab.rots[2].inj == []
      && (t.core.fab.arcs[5].fifo.map (·.2)) == [tokOf 7, tokOf 4]) = true := by decide +kernel

/-! ### Synchronisation, tasks, the hub, the outside -/

def syeAsk (r : SyeReq) (kept : List SyeReply) : State := (asking (.atom .add .i32 2 0)).onChip fun h => { h with
  dies := h.dies.set 0 { h.dies[0] with sye := ⟨[r], kept, 0, false⟩ } }

theorem witness_SynchronisationActs_sye :
    let r : SyeReq := ⟨0, 0, 4, 4, 3, 0, 5, 64, 0x50008, 0x50008, false, 0, .atom .add .i32 2 0, false⟩
    nextIs (exec (.syeAccess 0) (syeAsk r [])) (fun t => t.rdPhys 0 0x50008 2 == [0xAD, 0]
      && (t.core.loc.served.map (·.old)) == [0xAB]) = true ∧
    nextIs (exec (.syeAccess 0) (syeAsk r [⟨0, 0, 4, 4, ⟨3, [], 0, 990, 77, false, none⟩⟩]))
      (fun t => t.rdPhys 0 0x50008 1 == [0xAB] && (t.core.loc.served.map (·.old)) == [77]) = true ∧
    nextIs (exec (.syeAccess 0) (syeAsk { r with dev := 9 } [])) (fun t => t.rdPhys 0 0x50008 2 == [0xAD, 0]
      && t.core.loc.served == [] && (t.chip.links.toList.map (·.replies.length)).sum == 1) = true := by decide +kernel

/-- The node of logical core 0 has ended a round of a window of one node; core 0 has arrived at a barrier of one core. -/
theorem witness_SynchronisationActs_rounds :
    nextIs (exec (.windowRoundClose 0 2) (taskOn fun k => { k with windows := [(2, ⟨4, [⟨[], [⟨0, 0, 0, 0x40, 0, false, 0⟩], some 1,
      true⟩], []⟩)] })) (fun t => (t.core.blocks.map (·.stat)) == [0x40005]
        && (t.chip.tasks.map fun k => (k.window 2).round) == [5]) = true ∧
    nextIs (exec (.barrierRelease 0 3) (taskOn fun k => { k with barriers := [(3, ⟨7, [⟨0, 0, 0x40, 9, 0, false, 0⟩], [], false⟩)] }))
      (fun t => (t.core.blocks.map (·.stat)) == [0x70001] && (t.chip.tasks.map (·.barriers)) == [[(3, ⟨8, [], [], false⟩)]])
      = true ∧
    nextIs (exec (.barrierArrival 0 3 1) (taskOn fun k => { k with
      nlc := 2
      cores := [0, 64]
      barriers := [(3, ⟨7, [⟨1, 64, 0x40, 9, 1, false, 0⟩], [], false⟩)] }))
      (fun t => (t.chip.tasks.map (·.barriers)) == [[(3, ⟨7, [⟨1, 64, 0x40, 9, 1, false, 0⟩], [1], false⟩)]]) = true ∧
    nextIs (exec .xltComplete ((begun (taskOn id) 21 (started (.inva .self 0x80))).onChip fun h => { h with
      invals := [⟨some 0, 5, 0, 0x1000, [], []⟩] })) (fun t => (t.core.loc.reqs.map (·.acc)) == [.write [(0x80, [1, 0, 0, 0])] true])
      = true := by decide +kernel

/-- A replay of two nodes from 0x1000, which the queue appends. -/
theorem witness_SynchronisationActs_replay :
    nextIs (exec (.replayNodeAppend 4) ((taskOn id).onChip fun h => { h with
      queues := h.queues.set 4 { h.queues[4] with
        part := some 0
        dev := true
        en := true
        qbase := 0x8000 }
      replays := [(4, ⟨0x1000, 0, none, [], 2, 0, true⟩)] }))
      (fun t => t.chip.queues[4].tail == 1 && (t.chip.replays.map fun e => e.2.next) == [1]) = true := by decide +kernel

theorem witness_TasksEndAndMove :
    nextIs (exec .coreRetire ((taskOn id).onSq fun q => { q with ending := some .exit }))
      (fun t => t.core.retired == some .exit && (t.chip.tasks.map (·.retired.length)) == [1]) = true ∧
    nextIs (exec (.taskComplete 0) (taskOn fun k => { k with retired := [⟨0, some .exit, 9, 9, Vector.replicate 4 0, []⟩] }))
      (fun t => (t.chip.tasks.map fun k => (k.state, k.status)) == [(.done, 1)]) = true ∧
    nextIs (exec (.teardown 0) (taskOn fun k => { k with fault := some (⟨cWATCHDOG, 0, 0, 0, 0⟩, 0xFFFFFFFF, 0) }))
      (fun t => (t.chip.tasks.map (·.state)) == [.torn]) = true ∧
    nextIs (exec (.regionRelease 0) (taskOn fun k => { k with state := .torn }))
      (fun t => (t.chip.tasks.map (·.status)) == [3] && t.core.task == none) = true ∧
    ((taskOn fun k => { k with idle := 8191 }).onSq fun q => { q with wait := some ⟨.ldf, 8, 0, 0, 0⟩ }).chip.tasks.map (fun k =>
      ((taskOn fun k => { k with idle := 8191 }).onSq fun q => { q with wait := some ⟨.ldf, 8, 0, 0, 0⟩ }).idleCount 0 k)
      = [8192] ∧
    nextIs (exec (.watchdog 0) (taskOn fun k => { k with idle := 7 })) (fun t => (t.chip.tasks.map (·.idle)) == [7]) = true ∧
    nextIs (exec (.preempt 0 1) ((taskOn id).onChip fun h => { h with
      queues := h.queues.set 0 { h.queues[0] with part := some 0 } })) (fun t => (t.chip.tasks.map (·.state)) == [.stopping] && t.core.preempting) = true ∧
    nextIs (exec (.preemptAck 0) ((taskOn fun k => { k with state := .stopping }).onCore fun c => { c with captured := true }))
      (fun t => (t.chip.tasks.map (·.state)) == [.preempted]) = true := by decide +kernel

/-- The cores of a task that stops. -/
theorem witness_TasksEndAndMove_capture :
    let s := ((taskOn fun k => { k with state := .stopping }).onFab fun f => { f with
      stopping := true
      ports := Vector.replicate 16 { Port.none with quiet := true } }).onCore fun c =>
      { c with preempting := true }
    nextIs (exec (.kill 0 5) ((taskOn id).onChip fun h => { h with
      queues := h.queues.set 0 { h.queues[0] with part := some 0 }
      parts := h.parts.set 0 { h.parts[0] with pasid := 0x00080000 } })) (fun t => t.chip.parts[0].dying == [5]
        && (t.chip.tasks.map fun k => k.fault.isSome) == [true]) = true ∧
    nextIs (exec .coreCapture s) (fun t => t.core.captured) = true := by decide +kernel
/-! ### The hub and the outside agents -/

/-- The module up, partition 0 with device memory and an aperture, queue 4 its own; Penyan port 3 up. -/
def hubbed : State := (taskOn fun k => { k with state := .done }).onChip fun h => { h with
  time := 100
  dispatchAt := 100
  links := h.links.set 3 { h.links[3] with
    up := true
    credits := Vector.replicate 4 2 }
  queues := h.queues.set 4 { h.queues[4] with
    part := some 0
    en := true
    head := 3
    tail := 3 }
  parts := h.parts.set 0 { h.parts[0] with
    pasid := 0x00080000
    aperBase := 0x10000
    aperSize := 0x10000
    mem := [(8, 0x77), (0x1000, 2)] } }

theorem witness_HubServesItsHosts :
    nextIs (exec .dispatchStep hubbed) (fun t => t.chip.dispatchAt == 104) = true ∧
    nextIs (exec (.tailDoorbell 4 5) hubbed) (fun t => t.chip.queues[4].tail == 5 && t.chip.queues[4].en) = true ∧
    nextIs (exec (.tailDoorbell 4 68) hubbed) (fun t => t.chip.queues[4].tail == 3 && t.chip.queues[4].ovr
      && !t.chip.queues[4].en) = true ∧
    nextIs (exec (.tailDoorbell 4 67) hubbed) (fun t => t.chip.queues[4].tail == 67 && !t.chip.queues[4].ovr) = true ∧
    nextIs (exec (.graphDoorbell 4 0x1000) (hubbed.onChip fun h => { h with
      queues := h.queues.set 4 { h.queues[4] with dev := true } })) (fun t =>
        (t.chip.replays.map fun e => (e.1, e.2.nodes)) == [(4, 2)]) = true ∧
    nextIs (exec (.hostWrite 0 0x10008 [1, 2]) hubbed) (fun t => t.rdPhys 0 8 3 == [1, 2, 0]) = true ∧
    nextIs (exec (.hostRead 0 0x10008 2) hubbed) (fun t => t.chip.hostData == [0x77, 0]) = true ∧
    nextIs (exec (.peerRead 3 0 8 2) hubbed) (fun t => t.chip.peerData == [0x77, 0]) = true := by decide +kernel

/-- The same port with this much done; one flit that it sent, number 6, is not acknowledged yet. -/
def linked (f : Link → Link) : State := hubbed.onChip fun h => { h with
  links := h.links.set 3 (f { h.links[3] with
    buffer := [flitSeal ⟨6, 0, false, false, 0, 0, 1, 0⟩]
    next := 7 }) }

/-- R351: a good flit, one out of order, one that acknowledges and one that asks for number 6 again. -/
theorem witness_HubServesItsHosts_links :
    let good := flitSeal ⟨0, 2, false, false, 0, 0x21, 5, 0⟩
    let port := fun (o : Out) (p : Link → Bool) => nextIs o fun t => p t.chip.links[3]
    flitGood good = true ∧ flitGood { good with crc := good.crc ^^^ 1 } = false ∧
    (linked id).chip.links[3].canSend 3 = true ∧
    port (exec (.flitReceive 3 good) (linked id)) (fun l => l.expect == 1 && l.accepted == [good] && l.credits[0] == 3
      && (l.sent.map fun g => (g.ak, g.aseq, g.seq)) == [(true, 0, 7)]) = true ∧
    port (exec (.flitReceive 3 (flitSeal ⟨5, 0, false, false, 0, 0, 5, 0⟩)) (linked id)) (fun l => l.expect == 0 && l.replays == 1
      && (l.sent.map fun g => (g.nk, g.aseq)) == [(true, 0)]) = true ∧
    port (exec (.flitReceive 3 (flitSeal ⟨0, 0, true, false, 6, 0, 0, 0⟩)) (linked id)) (fun l => l.buffer.isEmpty) = true ∧
    port (exec (.flitReceive 3 (flitSeal ⟨0, 0, false, true, 6, 0, 0, 0⟩)) (linked id)) (fun l => (l.sent.map (·.seq)) == [6]
      && l.resent == 1 && l.naked == 6) = true ∧
    port (exec (.flitReceive 3 (flitSeal ⟨0, 0, false, true, 5, 0, 0, 0⟩)) (linked id)) (fun l => !l.up) = true := by
  decide +kernel

/-- R351, R352: the eighth replay, the fourth retrain, and a retrain's three ends. -/
theorem witness_HubServesItsHosts_retrain :
    let bad := flitSeal ⟨5, 0, false, false, 0, 0, 5, 0⟩
    let port := fun (o : Out) (p : Link → Bool) => nextIs o fun t => p t.chip.links[3]
    port (exec (.flitReceive 3 bad) (linked fun l => { l with replays := 7 })) (·.training) = true ∧
    port (exec (.flitReceive 3 bad) (linked fun l => { l with replays := 7, retrains := 3 })) (fun l => !l.up) = true ∧
    (let again := flitSeal ⟨0, 0, false, true, 6, 0, 0, 0⟩
     port (exec (.flitReceive 3 again) (linked fun l => { l with resent := 7, naked := 6 })) (·.training) = true ∧
     port (exec (.flitReceive 3 again) (linked fun l => { l with resent := 7, naked := 6, retrainsOut := 3 })) (fun l => !l.up)
       = true) ∧
    port (exec (.linkRetrain 3 (.ends true false)) (linked fun l => { l with training := true, replays := 8 })) (fun l =>
      !l.training && (l.sent.map (·.seq)) == [6] && l.retrains == 1 && l.retrainsOut == 0) = true ∧
    port (exec (.linkRetrain 3 (.ends true true)) (linked fun l => { l with training := true })) (fun l => l.buffer.isEmpty
      && l.next == 0 && l.up) = true ∧
    port (exec (.linkRetrain 3 (.ends false false)) (linked id)) (fun l => !l.up) = true := by decide +kernel

/-- One task running on core 0. -/
theorem witness_DeviceEvents :
    nextIs (exec (.boot true) State.reset) (fun t => t.chip.boot == .step 2) = true ∧
    nextIs (exec .functionLevelReset (taskOn id)) (fun t => (t.chip.tasks.map fun k => k.fault.map (·.1.cause)) ==
      [some cTEARDOWN_REQUEST]) = true ∧
    nextIs (exec (.thermalTrip 0) (taskOn id)) (fun t => (t.chip.tasks.map fun k => k.fault.map (·.1.cause)) ==
      [some (cCLUSTER_DOWN 0)]) = true ∧
    nextIs (exec (.ucieLinkFail 0 2) (taskOn id)) (fun t => (t.chip.tasks.map fun k => k.fault.map (·.1.cause)) ==
      [some (cUCIE 0 2)]) = true ∧
    nextIs (exec (.syeLost 0) (taskOn id)) (fun t => (t.chip.tasks.map fun k => k.fault.map (·.1.cause)) ==
      [some (cSYE_LOST 0)]) = true ∧
    nextIs (exec (.clockStretch 1 9) (taskOn id)) (fun t => t.chip.dies[1].stretch == 9) = true := by decide +kernel

/-- The debug port of a core of a partition that firmware opened: running, and halted. -/
def debugged (d : DebugState) : State := ((taskOn id).onChip fun h => { h with
  parts := h.parts.set 0 { h.parts[0] with debugEn := true } }).onSq fun q => { q with
    debug := d
    dcause := 2
    g := q.g.set 3 9 }

theorem witness_DeviceEvents_debug : tiny.debugDenied 0 = true ∧ (debugged .running).debugDenied 0 = false ∧
    nextIs (exec (.debugHalt 0) (debugged .running)) (fun t => t.core.sq.debug == .halting) = true ∧
    nextIs (exec (.debugStep 0) (debugged .running)) (fun t => (t.chip.debug).status == 3) = true ∧
    nextIs (exec (.debugStep 0) (debugged .halted)) (fun t => t.core.sq.debug == .stepping) = true ∧
    nextIs (exec (.debugResume 0) (debugged .halted)) (fun t => t.core.sq.debug == .running && t.core.sq.cause == 2) = true ∧
    nextIs (exec (.debugRead 0 0 3) (debugged .halted)) (fun t => (t.chip.debug).data == 9) = true ∧
    nextIs (exec (.debugWrite 0 0 4 7) (debugged .halted)) (fun t => t.core.sq.g[4] == 7) = true := by decide +kernel

/-! ### The step, the encodings and the invariant -/

/-- LI g2, 0x600 (the worked example of 03) as the next instruction. -/
def fetching : State := tiny.withFetchWord 32 0x14200600

theorem witness_IssuesNext : fetching.stage = 1 ∧ fetching.core.tick ≤ fetching.chip.now ∧ fetching.core.stage = issuePhase ∧
    fetching.core.task.isSome = true ∧ fetching.core.fab.stopping = false ∧ fetching.core.stopped = false ∧
    fetching.core.sq.ending = none ∧ fetching.core.sq.held = 0 ∧ fetching.energyOk fetching.core = true ∧
    fetching.core.brkMatch = none ∧ fetching.core.repeats = false ∧ fetching.core.sq.target = none ∧
    fetching.core.textAt fetching.core.sq.pc.toNat = some 0x14200600#32 := by decide +kernel

theorem test_step_issues : nextIs (step fetching) (fun t => t.core.sq.flight == [⟨1001, .g 2 0x600⟩] && t.core.sq.pc == 4
    && t.core.stage == issuePhase + 1) = true := by decide +kernel

/-- A word of major 0x00 decodes to nothing; the trap of the first word of the text is taken with no handler: a fault. -/
theorem test_step_illegal : decodeTableWord 32 0 = none ∧
    nextIs (step (tiny.withFetchWord 32 0)) (fun t => (t.core.fault.map (·.cause)) == some cILLEGAL_INSTRUCTION) = true := by
  decide +kernel

/-- SDLD of the worked example in 13 at PC 0. -/
theorem witness_StepRunsDecoded_forms :
    (sdescribed.withFetchWord 128 0x10052400001).core.found = .cmd 0x52400001 0x100 0 0 ∧
    nextIs (step (sdescribed.withFetchWord 128 0x10052400001)) (fun t => t.core.sq.pc == 16 && t.core.sq.flight ==
      [⟨1001, .sd 1 ⟨0x400, 2, 1, false, [⟨2, 16⟩, ⟨4, 4⟩]⟩⟩]) = true := by decide +kernel

theorem witness_EncodingRoundTrip : (Instr.li 2 0x600).wf = true ∧ encodeWord true (.li 2 0x600) = some 0x94200600#32 ∧
    (Instr.sdld 1 0x100).wf = true ∧ (encodeCommand (.sdld 1 0x100)).isSome = true := by decide

theorem witness_EveryStepKeepsMemoriesCanonical : MemoriesCanonical tiny :=
  ⟨by decide, by decide, by decide, by decide, by decide⟩

/-! ### Further clauses of the same statements -/

theorem witness_WritePointersAndArming_running :
    nextIs (exec (.wpr 6 0) ((pointed).onCore fun c => { c with queues := c.queues.set 8 ⟨[], some { started (.copy 0 false none 1 2 none noDecl) with
      pts := 40 }, none⟩ })) (fun t => t.core.sq.ctr.pts == 40) = true := by decide

/-- The checks of the global mica forms, and a memory error of an access, which is asynchronous. -/
theorem witness_BlockingGlobalAccess_micaStops :
    exec (.mldg 3 1 0 .ml4) (withG tiny 1 2) = .next ((withG tiny 1 2).raise cMISALIGNED) ∧
    exec (.mincg 3 1 0 .ml4) (withG tiny 1 0x1000000000000) = .next ((withG tiny 1 0x1000000000000).raise cGLOBAL_RANGE) ∧
    exec (.mldlg 3 0 0 .ml4) tiny = .next (tiny.raise cMICA_REGION) ∧
    exec (.mldg 3 2 0 .ml8) micaGlobal = .next (micaGlobal.raise cMICA_WIDTH) ∧
    exec (.mincg 3 2 4 .ml4) (withG micaGlobal 4 8) = .next ((withG micaGlobal 4 8).raise cMICA_REGION) ∧
    exec (.mincg 3 2 0 .ml4) (withG micaGlobal 3 65536) = .next ((withG micaGlobal 3 65536).raise cMICA_WEIGHT) ∧
    nextIs (exec (.ldg 3 0 .i32 8) (answered (some (cMEM 0 0)))) (fun t => (t.core.sq.raised.map (·.cause)) == [cMEM 0 0]
      && t.core.sq.after == .waits && t.core.sq.wait == none) = true := by
  refine ⟨by rfl, by rfl, by rfl, by rfl, by rfl, by rfl, by decide⟩

/-- Three lanes: off12 by 4, the field at bit 20 by 1, the field at bit 15 by 2. -/
theorem witness_LoopsRepeatsAndPin_lanes :
    nextIs (exec .repetition (repeating 0x1100208013004)) (fun t => t.core.sq.latch == some 0x22424004) = true := by decide

/-- Cell 9 of operation op with a token on each input, the last of them `d`. -/
def fedAs (op : Nat) (d : Token) : State := (wired op 2 2 1 0).onFab fun f => { f with
  arcs := ((f.arcs.set 0 { f.arcs[0] with fifo := [(990, tokOf 5)] }).set 1 { f.arcs[1] with fifo := [(990, tokOf 6)] }).set 2
    { f.arcs[2] with fifo := [(990, d)] } }

/-- STEER and MERGE by their predicates, a marker beside data, and a member at the tap whose slot is active, and one whose is
not. -/
theorem witness_CellFires_paths :
    nextIs (exec (.cellFiring 9) (fedAs 0x03 (tokOf 0))) (fun t => (t.core.fab.fire.map (·.path)) == some (some 0)
      && t.core.fab.arcs[3].reserved == 1) = true ∧
    nextIs (exec (.cellFiring 9) (fedAs 0x03 (tokOf 1))) (fun t => (t.core.fab.fire.map (·.path)) == some none) = true ∧
    nextIs (exec (.cellFiring 9) (fedAs 0x04 (tokOf 1))) (fun t => (t.core.fab.fire.map fun g => (g.path, g.ins)) ==
      some (some 1, [(1, [tokOf 6]), (2, [tokOf 1])]) && t.core.fab.arcs[0].fifo.length == 1) = true ∧
    nextIs (exec (.cellFiring 9) (fedAs 0x10 (.marker 0))) (fun t => t.core.fab.cells[9].stopped
      && t.core.sq.raised == [⟨cCELL 9 .eoi, 0, 1000⟩]) = true ∧
    nextIs (exec (.cellFiring 0) (rotating (slotIn .active) (slotIn .active) [(999, tokOf 7)] [] []))
      (fun t => (t.core.fab.fire.map (·.slot)) == some (some (2, 0))) = true ∧
    nextIs (exec (.cellFiring 0) (rotating .zero .zero [(999, tokOf 7)] [] []))
      (fun t => t.core.fab.fire == none && t.core.fab.cells[0].pipe.length == 1) = true := by decide +kernel

/-- Sixteen lanes 2048 bytes apart: one bank, sixteen sub-accesses, of which this is the first. -/
def scattered : State := ((wired 0xA0 2 2 1 0).onCell 9 fun c => { c with const := 0 }).onFab fun f => { f with
  arcs := ((f.arcs.set 0 { f.arcs[0] with fifo := [(990, tokOf (((List.range 16).map fun i => 2048 * i * 2 ^ (32 * i)).foldl (· + ·) 0))] }).set 1
    { f.arcs[1] with fifo := [(990, tokOf 6)] }).set 2 { f.arcs[2] with fifo := [(990, tokOf 7)] } }

theorem witness_CellFires_subAccess : scattered.core.holdsWheel 9 = true ∧
    nextIs (exec (.cellFiring 9) scattered) (fun t => t.core.fab.cells[9].sub == 1 && t.core.fab.fire == none) = true := by
  decide +kernel

/-- A poisoned firing raises no cause; a member's firing that faults pushes with PSN. -/
theorem witness_FiringsEnd_poison :
    let psn : Token := { tokOf 5 with psn := true }
    let u := (latched 0x10 2 2 1 0 [5] [6] [7] none).finishFire ⟨9, [(0, [psn])], none, none, none⟩ ⟨[1], [], some .overflow, []⟩ none
    u.core.sq.raised = [] ∧ u.core.fab.cells[(9 : Fin 32)].stopped = false ∧ u.core.fab.cells[(9 : Fin 32)].pipe.length = 1 ∧
    (((wired 0x10 2 2 1 0).onFab fun f => { f with rots := f.rots.set 1 { Rot.none with
        cfg := some ⟨2, 9, 3, false, 1, 2⟩
        slots := [.zero, { Slot.zero with state := .active }] } }).finishFire ⟨9, [], none, some (1, 1), none⟩
      ⟨[1], [], some .overflow, []⟩ none).core.fab.cells[(9 : Fin 32)].pipe.map (fun e => e.2.map (·.tok.psn)) = [[true]] := by
  decide +kernel

/-- Finite patterns and the numbers they denote: 1 of fp32, 1 of dk8 at bias 6, −1 of i8. -/
theorem witness_FloatingCellResults_numbers : LaneFinite ⟨10, 0⟩ 0x3F800000 ∧ LaneFinite ⟨8, 6⟩ 0x01 ∧ LaneFinite ⟨0, 0⟩ 0xFF ∧
    numberOf (.fin true 3 2) = some (-3 / 2) ∧ laneNumber ⟨8, 6⟩ 0x01 = 1 ∧ laneNumber ⟨0, 0⟩ 0xFF = -1 := by
  unfold LaneFinite
  decide +kernel

/-- 1/√4, log₂ 8 and 2^−1. -/
theorem witness_FloatingCellResults_exact : numberOf (rsqrtR (.fin false 4 1)) = some (1 / 2) ∧
    numberOf (log2R (.fin false 8 1)) = some 3 ∧ numberOf (exp2R (.fin true 1 1)) = some (1 / 2) := by decide +kernel

/-- Memory nodes: one that sends a row it has read, and its receiver; and the two ends of a circuit of which one is saved. -/
def nodeSending : State := (circuited []).onLoc fun l => { l with
  circ := l.circ.set 0 { Circ.none with
    cfg := some ⟨3, true, true, false, 1, 4, 0, 2, 6, 0⟩
    pass := some ⟨l.sd[1], 0, [(9, 0)], 1, []⟩ } }

def peerSaved : State := ((circuited []).onLoc fun l => { l with
  circ := l.circ.set 0 { Circ.none with cfg := some ⟨3, true, false, false, 0, 4, 1, 2, 6, 0⟩ } }).onTask 0 fun k => { k with
    nlc := 2
    saved := [Core.context { (circuited []).core with sq := { tiny.core.sq with lcid := 1 } }] }

theorem witness_CircuitsMoveTokens_nodes : (nodeSending.peerOf 0).isSome = true ∧
    nextIs (exec (.circuitTransfer 0) nodeSending) (fun t => (t.core.loc.circ[1].rx.map (·.2.data)) == [9]
      && (t.core.loc.circ[0].pass.map (·.n)) == some 1) = true ∧
    (peerSaved.farOf 0).map (·.cid) = some none ∧
    (peerSaved.carry true 0).core.fab.arcs[3].fifo = [] ∧
    ((peerSaved.carry true 0).chip.tasks.flatMap fun k => k.saved.flatMap fun v => v.core.loc.circ[1].rx.map (·.2)) = [tokOf 7] := by
  decide +kernel

/-- No budget of the small states' partition is set, and no line of it is owned. -/
theorem witness_Unbudgeted : Unbudgeted (taskOn id) 0 := fun k i => by
  have h : ∀ k : Fin 7, (taskOn id).chip.parts[(0 : Fin 64)].qb[k] = 0 := by decide
  unfold Part.permits
  rw [h k]
  rfl

theorem witness_Unowned : Unowned (mapped ⟨0, [(0, false)], 0, 0, 0, 5, 0x1000, 0x8, true, 1000, none, none⟩) 0 :=
  fun _ => ⟨rfl, rfl⟩

/-- The walk and the SYE's turn are due; a request of the sequencer whose SYE has granted it the turn is performed as it
issues. -/
theorem witness_TranslationAndGlobalAccess_walk :
    let s := mapped ⟨0, [(0, false)], 0, 0, 0, 5, 0x1000, 0x8, true, 1000, none, none⟩
    s.chip.walkRuns 0 0 = true ∧ s.chip.dies[(0 : Fin 4)].skips = false ∧ 1000 ≤ s.chip.clock 0 := by decide +kernel

def granting (granted : Bool) : State :=
  (syeAsk ⟨0, 0, 1, 4, 3, 0, 5, 64, 0x50008, 0x50008, false, 0, .load 2, granted⟩ []).onCore fun c => { c with
    sq := { c.sq with may := true }
    loc := { c.loc with greqs := [⟨3, 1, 0, false, false, none, false, 8, .load 2, 0, 1000, some 4, none⟩] } }

theorem witness_SynchronisationActs_grant :
    nextIs (exec (.syeAccess 0) (granting false)) (fun t => t.chip.dies[0].sye.reqs.map (·.granted) == [true]
      && t.core.loc.served == []) = true ∧
    nextIs (exec .globalAccessComplete (granting true)) (fun t => (t.core.loc.served.map (·.bytes)) == [[0xAB, 0]]
      && t.chip.dies[0].sye.used && t.chip.dies[0].sye.reqs == []) = true := by decide +kernel

/-- Barrier 3 of one core, its arrival at SYSTEM scope where `sys`; the group of the partition's barrier 3. -/
def grouped (sys told : Bool) (g : PeerGroup) : State := (taskOn fun k => { k with
  barriers := [(3, ⟨7, [⟨0, 0, 0x40, 9, 0, sys, 0⟩], [], told⟩)] }).onChip fun h => { h with
    links := h.links.set 3 { h.links[3] with
      up := true
      credits := Vector.replicate 4 2 }
    parts := h.parts.set 0 { h.parts[0] with groups := put PeerGroup.none 3 g h.parts[0].groups } }

theorem witness_SynchronisationActs_groups :
    let released := fun (t : State) => (t.chip.tasks.map (·.barriers)) == [[(3, ⟨8, [], [], false⟩)]]
    let told := fun (t : State) => t.chip.tasks.map (fun k => k.barriers.map (·.2.told)) == [[true]]
    nextIs (exec (.barrierRelease 0 3) (grouped true false .none)) (fun t => released t && t.core.l1 == []) = true ∧
    nextIs (exec (.barrierRelease 0 3) (grouped true false ⟨2, none, 8, 0, 0, 0⟩)) told = true ∧
    nextIs (exec (.barrierRelease 0 3) (grouped true false ⟨2, some 3, 0, 0, 0, 0⟩)) (fun t => told t
      && t.chip.links[3].sent.length == 1) = true ∧
    exec (.barrierRelease 0 3) (grouped true true ⟨2, none, 8, 0, 0, 0⟩) = .next (grouped true true ⟨2, none, 8, 0, 0, 0⟩) ∧
    nextIs (exec (.barrierRelease 0 3) (grouped true true ⟨3, none, 12, 2, 0, 0⟩)) (fun t => released t
      && (t.chip.parts[0].groups.map (·.2.send)) == [12] && (t.core.blocks.map (·.pts)) == [9]) = true ∧
    exec (.barrierRelease 0 3) (grouped true true ⟨2, none, 8, 1, 0, 8⟩) = .next (grouped true true ⟨2, none, 8, 1, 0, 8⟩) ∧
    exec (.barrierRelease 0 3) (grouped true true ⟨2, some 3, 0, 0, 0, 0⟩) = .next (grouped true true ⟨2, some 3, 0, 0, 0, 0⟩) ∧
    nextIs (exec (.barrierRelease 0 3) (grouped true true ⟨2, some 3, 0, 0, 1, 0⟩)) released = true := by
  refine ⟨by decide +kernel, by decide +kernel, by decide +kernel, by rfl, by decide +kernel, by rfl, by rfl, by decide +kernel⟩

/-- A pre-empted task: torn down with a fault, killed, forgotten by a function-level reset; and a resident core that has
retired, with a context that comes, sound or not. -/
theorem witness_TasksEndAndMove_preempted :
    nextIs (exec (.teardown 0) (taskOn fun k => { k with
      state := .preempted
      fault := some (⟨cWATCHDOG, 0, 0, 0, 0⟩, 0xFFFFFFFF, 0) })) (fun t => (t.chip.tasks.map (·.state)) == [.torn]) = true ∧
    nextIs (exec (.kill 0 5) ((taskOn fun k => { k with state := .preempted }).onChip fun h => { h with
      queues := h.queues.set 0 { h.queues[0] with part := some 0 }
      parts := h.parts.set 0 { h.parts[0] with pasid := 0x00080000 } }))
      (fun t => (t.chip.tasks.map fun k => (k.state, k.status)) == [(.completing, 6)]) = true ∧
    nextIs (exec .functionLevelReset (taskOn fun k => { k with state := .preempted }))
      (fun t => (t.chip.tasks.map (·.state)) == [.done]) = true := by decide +kernel

/-- Core 0 has retired as logical core 0; logical core 1 waits in its record, of this version. -/
def yielding (version : BitVec 16) : State := (taskOn fun k => { k with
  nlc := 2
  saved := [{ Core.context { tiny.core with sq := { tiny.core.sq with lcid := 1 } } with version := version }] }).onCore fun c =>
    { c with retired := some .exit }

theorem witness_TasksEndAndMove_yield :
    ((yielding 1).chip.tasks.map fun k => (k.nextRound 0).map (·.ok)) = [some true] ∧
    nextIs (exec .roundYield (yielding 1)) (fun t => t.core.sq.lcid == 1 && t.core.task == some 0
      && (t.chip.tasks.map (·.saved.length)) == [0]) = true ∧
    nextIs (exec .roundYield (yielding 2)) (fun t => (t.core.fault.map (·.cause)) == some cRESTORE_BAD) = true := by
  decide +kernel

/-- A configured cell of a core that stops, and a task whose gang does nothing while nothing is outstanding. -/
theorem witness_TasksEndAndMove_quiesce :
    let s := (taskOn fun k => { k with state := .stopping }).onFab fun f => { f with
      stopping := true
      cells := f.cells.set 9 { f.cells[9] with conf := some (cellWord 0x10 2 2 1 0) } }
    s.core.cellQuiet 9 1000 = true ∧
    nextIs (exec (.nodeQuiesce 9) s) (fun t => t.core.fab.cells[9].quiet) = true ∧
    nextIs (exec (.watchdog 0) (taskOn fun k => { k with
      idle := 7
      beenIn := [0] })) (fun t => (t.chip.tasks.map (·.idle)) == [7]) = true := by decide +kernel

theorem witness_HubServesItsHosts_registers :
    nextIs (exec (.hostRegisterRead 0x4010) hubbed) (fun t => t.chip.hostData == [3, 0, 0, 0, 3, 0, 0, 0]) = true ∧
    nextIs (exec (.hostRegisterRead 0x4018) hubbed) (fun t => t.chip.hostData == List.replicate 8 0) = true ∧
    nextIs (exec (.hostRegisterRead 0x100000) hubbed) (fun t => t.chip.hostData == [1, 0, 0, 0, 0, 0, 0, 0]) = true ∧
    nextIs (exec (.hostRegisterRead 0x100000) (hubbed.onChip fun h => { h with boot := .step 5 }))
      (fun t => t.chip.hostData == List.replicate 8 0) = true ∧
    nextIs (exec (.hostRegisterWrite 0x4008 0x12345) hubbed) (fun t => t.chip.queues[4].qbase == 0x12000) = true ∧
    nextIs (exec (.hostRegisterWrite 0x100040 3) (hubbed.onPart 0 fun p => { p with uesta := 5 }))
      (fun t => t.chip.parts[0].uesta == 4) = true ∧
    nextIs (exec (.graphDoorbell 4 0x1000) ((hubbed.onPart 0 fun p => { p with mem := [(0x1000, 2), (0x1008, 1)] }).onHw 4 fun q =>
      { q with dev := true })) (fun t => t.chip.replays == []) = true ∧
    nextIs (exec (.dbmvRead 0) (hubbed.onPart 0 fun p => { p with dirty := [(0, 6)] })) (fun t =>
      t.chip.hostData == [6, 0, 0, 0, 0, 0, 0, 0] && t.chip.parts[0].dirty == []) = true ∧
    nextIs (exec (.partitionConfigure 0 (.budget 2 9)) hubbed) (fun t => t.chip.parts[0].qb[2] == 9) = true := by
  decide +kernel

/-- A channel of the partition has spent its budget: what the host and a peer ask for waits. -/
def spentUp : State := hubbed.onPart 0 fun p => { p with
  qb := p.qb.set 0 1
  used := [(budgetKey 0 0, 5)] }

theorem witness_HubServesItsHosts_held : spentUp.chip.parts[(0 : Fin 64)].hubMay = false ∧
    hubbed.chip.parts[(0 : Fin 64)].hubMay = true ∧ hubbed.portMay 3 = true ∧
    nextIs (exec (.hostRead 0 0x10008 2) spentUp) (fun t => t.chip.waiting == [.hostRead 0 0x10008 2]) = true ∧
    nextIs (exec (.peerWrite 3 0 8 [1]) spentUp) (fun t => t.chip.waiting == [.peerWrite 3 0 8 [1]]) = true ∧
    nextIs (exec (.kill 4 5) spentUp) (fun t => t.chip.waiting == [.kill 4 5]) = true ∧
    nextIs (exec (.meas 0 0x1000) (hubbed.onPart 0 fun p => { p with mem := [(0x1018, 2)] })) (fun t =>
      (t.chip.meas.map (·.passes)) == [2]) = true := by decide +kernel

/-- Counts of a channel and of a hub link, whose periods run in die 0 and in the hub; both are over at cycle 8192. -/
theorem witness_HubServesItsHosts_quartz :
    let s := (taskOn fun k => { k with state := .done }).onChip fun h => { h with
      now := 8192
      base := 8192
      parts := h.parts.set 0 { h.parts[0] with used := [(budgetKey 0 0, 5)] } }
    nextIs (exec .quartzPeriod s) (fun t => t.chip.parts[0].used == []) = true := by decide +kernel

/-- A boot that found an error of core 0; errors in operation; the transaction engine. -/
theorem witness_DeviceEvents_errors :
    nextIs (exec (.uncorrectableError 0 .dict true) (State.reset.onChip fun h => { h with boot := .step 4 }))
      (fun t => t.chip.found == [(0, .ecc 0 .dict true)]) = true ∧
    nextIs (exec (.uncorrectableError 0 (.link 3) false) (State.reset.onChip fun h => { h with
      boot := .step 4
      links := h.links.set 3 { h.links[3] with up := true } })) (fun t => t.chip.found == [(0, .ecc 0 (.link 3) false)]
        && !t.chip.links[3].up) = true ∧
    nextIs (exec (.tenantTag 5 true [1]) (State.reset.onChip fun h => { h with boot := .step 4 }))
      (fun t => t.chip.found == [(0, .tenant 5 true [1])]) = true ∧
    nextIs (exec (.boot true) (State.reset.onChip fun h => { h with
      boot := .step 5
      found := [(0, .ecc 0 .dict true), (7, .ecc 0 .dict false)]
      flash := { h.flash with parts := put Machine.Part.none 0 { Machine.Part.none with pclu := 1 } h.flash.parts } }))
      (fun t => t.chip.parts[0].cecnt == 1 && t.chip.found == [] && (t.chip.parts[0].errs.map (·.time)) == [7]) = true ∧
    nextIs (exec (.uncorrectableError 0 (.mem 3 0 0x80) false) (taskOn id)) (fun t => (t.core.sq.raised.map (·.cause)) == [cMEM 3 0]
      && (t.chip.parts[0].errs.map (·.addr)) == [0x80]) = true ∧
    nextIs (exec (.uncorrectableError 0 (.link 3) false) (hubbed)) (fun t => !t.chip.links[3].up) = true ∧
    nextIs (exec (.uncorrectableError 0 (.link 3) true) (hubbed.onPart 1 fun p => { p with plnk := 8 }))
      (fun t => t.chip.parts[1].cecnt == 1 && t.chip.parts[0].cecnt == 0) = true ∧
    (tiny.onChip fun h => { h with dies := h.dies.set 1 { h.dies[1] with owed := 2 } }).chip.dies[(1 : Fin 4)].owed = 2 := by
  decide +kernel

theorem witness_DeviceEvents_transactions :
    nextIs (exec (.debugTransact false 0x7) (debugged .running)) (fun t => t.chip.dpq.length == 1
      && (t.chip.dprsp).status == 0xFF) = true ∧
    nextIs (State.debugEngine ((debugged .running).onChip fun h => { h with dpq := [⟨false, 990, false, 0x7⟩] }))
      (fun t => t.chip.dpq == [] && (t.chip.dprsp).status == 2) = true ∧
    nextIs (State.debugEngine ((debugged .running).onChip fun h => { h with dpq := [⟨false, 990, true, 0x7⟩] }))
      (fun t => t.chip.dpq == [] && (t.chip.dprsp).status == 1) = true := by decide +kernel

/-- The same instruction with an asynchronous cause pending, and while it is stepped. -/
theorem witness_StepRunsDecoded_boundaries :
    let s := raisedIn (fetching.onSq fun q => { q with
      tvec := 0x2B
      tcfg := 0x1FF }) [⟨cROT 2 .slot, 5, 999⟩]
    nextIs (step ((tiny.withFetchWord 32 0).onSq fun q => { q with
      tvec := 0x2B
      tcfg := 0x1FF
      skipBrk := true })) (fun t => !t.core.sq.skipBrk && t.core.sq.pc == 0x28) = true ∧
    s.core.sq.asyncPending 1000 = true ∧ nextIs (step s) (fun t => t.core.sq.pc == 0x28 && t.core.sq.flight == []) = true ∧
    nextIs (step (fetching.onSq fun q => { q with debug := .stepping })) (fun t => t.core.sq.debug == .halted
      && t.core.sq.cause == BitVec.ofNat 32 cDEBUG_STEP.toNat && t.core.sq.pc == 4) = true := by decide +kernel

/-! ### Ill-formed terms, one for each check (R37, R46, R78, R84, R221, R242–R245, R256, R269–R274, R282, R343) -/

theorem test_ill_formed_scalar : ([.br 0 true 0, .loopReg 0 1 0, .loopImm 0 1 0, .repReg 1 0, .repImm 1 3, .pin 0, .wrc 1 0x012,
    .wrc 1 0x031, .wrc 1 0x038, .wrc 1 0x068] : List Instr).all (fun i => !i.wf) = true := by decide

theorem test_ill_formed_command : ([.feedh 0 false false 1 0 noDecl, .feeda 0 true true false 1 0 0 noDecl,
    .feeda 0 false false false 1 0x1000000 0 noDecl, .drainh 0 false false 1 noDecl, .draina 0 false false false 1 0x1000000 0 noDecl,
    .sdld 1 0x108, .copy 0 false (some 0x20) 1 2 none noDecl, .hcopy 0 false (some 0x20) 1 2 ⟨0, 0, 0⟩ noDecl,
    .gather 0 false none 1 2 2 noDecl, .scatter 0 false none 1 2 2 noDecl, .selacc 0 0x20 1 none 0 noDecl,
    .snap 0x20 noDecl, .launch 0x20 1, .replay 0x20 1, .invr 0xFFFFFFFF 1 .self 0, .invr 0 0 .self 2, .inva .self 2] :
    List Instr).all (fun i => !i.wf) = true := by decide

theorem test_ill_formed_engine : ([.ldb (.spad 0x20) .i8 0 none noDecl, .ldb (.spad 0xFF8040) .i8 0 none noDecl,
    .ldb (.spad 0) .i8 1 none noDecl, .ldb .slot .i8 0 none noDecl, .mmul 127 1 false false .i8 0 none false none noDecl,
    .gmul 127 1 false false .i8 0 0 0 none noDecl, .gmul 0 0 false false .i8 1 0 0 none noDecl, .gmul 0 0 false false .i8 0 0 2 none noDecl,
    .rdacc 0 0 false .fp32 1 (.spad 0) noDecl, .rdacc 0 0 false .fp32 0 (.spad 0x20) noDecl,
    .recur 0 .i8 0 0 none false noDecl, .atom .and .fp32 .gang 0 0, .atom .add .i64 .gang 4 0, .atomw .add .i32 .gang 0 0x10 0,
    .mmerge .ml2 .gang 0 0 4 0, .mmergew .ml8 .gang 0 4 0 0 0, .wend .gang 0 0x10 0, .barr .gang 0 0x10] :
    List Instr).all (fun i => !i.wf) = true := by decide

end Sys2Proof.Tests
end

section
/-! PROOFS. The write-back of the L1's owned lines, and FENCE, EXIT and ABORT (O22). -/

namespace Sys2Proof.Proofs.Control

open Sys2Proof Sys2Proof.Machine Sys2Proof.Laws

/-! ### What a write-back can do (R187, R190, R208, R368) -/

/-- A core after write-backs: fewer lines in its L1 and on their way back, row requests of the L1, the mark of a refused
cycle, and the energy and events charged (R190, R371, R372); nothing else of it has changed. -/
def GivesBack (c c' : Core) : Prop :=
  ∃ l1 wb refused reqs nreq energy pmc, l1 ⊆ c.l1 ∧ wb ⊆ c.wb ∧ c' = { c with
    l1 := l1
    wb := wb
    refused := refused
    loc := { c.loc with
      reqs := reqs
      nreq := nreq }
    sq := { c.sq with ctr := { c.sq.ctr with
      energy := energy
      pmc := pmc } } }

theorem GivesBack.refl (c : Core) : GivesBack c c :=
  ⟨_, _, _, _, _, _, _, List.Subset.refl _, List.Subset.refl _, rfl⟩

theorem GivesBack.trans {a b c : Core} (hab : GivesBack a b) (hbc : GivesBack b c) : GivesBack a c := by
  obtain ⟨_, _, _, _, _, _, _, hl, hw, rfl⟩ := hab
  obtain ⟨_, _, _, _, _, _, _, hl', hw', rfl⟩ := hbc
  exact ⟨_, _, _, _, _, _, _, List.Subset.trans hl' hl, List.Subset.trans hw' hw, rfl⟩

theorem GivesBack.wb_subset {c c' : Core} (h : GivesBack c c') : c'.wb ⊆ c.wb := by
  obtain ⟨_, _, _, _, _, _, _, -, hw, rfl⟩ := h
  exact hw

theorem GivesBack.l1_subset {c c' : Core} (h : GivesBack c c') : c'.l1 ⊆ c.l1 := by
  obtain ⟨_, _, _, _, _, _, _, hl, -, rfl⟩ := h
  exact hl

theorem givesBack_dropLine (c : Core) (ln : Nat) : GivesBack c (c.dropLine ln) :=
  ⟨_, _, _, _, _, _, _, fun _ h => (List.mem_filter.mp h).1, fun _ h => (List.mem_filter.mp h).1, rfl⟩

theorem givesBack_refused (c : Core) : GivesBack c { c with refused := true } :=
  ⟨_, _, _, _, _, _, _, List.Subset.refl _, List.Subset.refl _, rfl⟩

theorem givesBack_l1Rows (c : Core) (k now : Nat) : GivesBack c (c.l1Rows k now) :=
  ⟨_, _, _, _, _, _, _, List.Subset.refl _, List.Subset.refl _, rfl⟩

theorem givesBack_charge (c : Core) (w : Vector (BitVec 16) 16) (k : Fin 23) (n : Nat) : GivesBack c (c.charge w k n) := by
  unfold Core.charge
  split
  · exact .refl c
  · exact ⟨_, _, _, _, _, _, _, List.Subset.refl _, List.Subset.refl _, rfl⟩

/-- R368: what a cycle adds to the counts of links changes nothing of what it is permitted. -/
theorem permits_spendHops (q : Part) (l : List Hop) (k : Fin 7) (i : Nat) :
    (l.foldl (fun q e => q.spend 2 (hopInst e) 1) q).permits k i = q.permits k i := by
  induction l generalizing q with
  | nil => rfl
  | cons e l ih => exact ih _

/-- A state after write-backs of the core in turn: it has given back lines, and the budgets permit what they permitted,
for they are looked at as they stood at the start of the cycle (R368). -/
structure WritesBack (s t : State) : Prop where
  core : GivesBack s.core t.core
  permits : ∀ (p : Fin 64) k i, t.chip.parts[p].permits k i = s.chip.parts[p].permits k i

namespace WritesBack

theorem refl (s : State) : WritesBack s s := ⟨.refl _, fun _ _ _ => rfl⟩

theorem trans {s t u : State} (hst : WritesBack s t) (htu : WritesBack t u) : WritesBack s u :=
  ⟨hst.core.trans htu.core, fun p k i => (htu.permits p k i).trans (hst.permits p k i)⟩

theorem onCore (s : State) {f : Core → Core} (h : GivesBack s.core (f s.core)) : WritesBack s (s.onCore f) :=
  ⟨h, fun _ _ _ => rfl⟩

theorem onCoreAt (s : State) (cid : BitVec 8) {f : Core → Core} (h : ∀ c, GivesBack c (f c)) :
    WritesBack s (s.onCoreAt cid f) := by
  unfold State.onCoreAt
  split
  · exact ⟨h _, fun _ _ _ => rfl⟩
  · exact ⟨.refl _, fun _ _ _ => rfl⟩

theorem onPart (s : State) (p : Fin 64) {f : Part → Part} (h : ∀ q k i, (f q).permits k i = q.permits k i) :
    WritesBack s (s.onPart p f) where
  core := .refl _
  permits q k i := by
    show (s.chip.parts.set p.val (f s.chip.parts[p]))[q.val].permits k i = _
    rw [Vector.getElem_set]
    split
    case isTrue hpq =>
      obtain rfl : p = q := Fin.ext hpq
      exact h _ k i
    case isFalse => rfl

theorem setLine (s : State) (p : Fin 64) (pa : Nat) (x : Line) : WritesBack s (s.setLine p pa x) :=
  onPart s p fun _ _ _ => rfl

theorem setMem (s : State) (p : Fin 64) (m : Part → List Host.Cell) :
    WritesBack s (s.onPart p fun q => { q with mem := m q }) :=
  onPart s p fun _ _ _ => rfl

theorem charge (s : State) (cid : BitVec 8) (k : Fin 23) (n : Nat) : WritesBack s (s.charge cid k n) := by
  unfold State.charge
  split
  · exact refl s
  · refine .trans ?_ (onCoreAt _ cid fun c => givesBack_charge c _ k n)
    split
    · exact onPart s _ fun _ _ _ => rfl
    · exact refl s

theorem crosses (s : State) (p : Fin 64) (who : Option (BitVec 8)) (l : List Hop) : WritesBack s (s.crosses p who l) := by
  unfold State.crosses
  split
  · exact refl s
  · have hp : WritesBack s (s.onPart p fun q => l.foldl (fun q e => q.spend 2 (hopInst e) 1) q) :=
      onPart s p fun q k i => permits_spendHops q l k i
    cases who with
    | none => exact hp
    | some c => exact hp.trans (charge _ c 8 _)

theorem atHome (s : State) (p : Fin 64) (who : Option (BitVec 8)) (pa : Nat) : WritesBack s (s.atHome p who pa) := by
  have bank : ∀ x, WritesBack s (s.take.2.onPart p fun q => q.spend 1 x 1) := fun x =>
    .trans (t := s.take.2) ⟨.refl _, fun _ _ _ => rfl⟩ (onPart _ p fun _ _ _ => rfl)
  have channel : ∀ (t : State) x n, WritesBack t (t.onPart p fun q => q.spend 0 x n) := fun t x n =>
    onPart t p fun _ _ _ => rfl
  unfold State.atHome
  cases who with
  | none =>
    dsimp only
    split
    · exact bank _
    · exact (bank _).trans (channel _ _ _)
  | some c =>
    dsimp only
    split
    · exact (bank _).trans (charge _ c 6 1)
    · exact (((bank _).trans (charge _ c 6 1)).trans (channel _ _ _)).trans (charge _ c 7 _)

/-- R208: an owner gives its line back. -/
theorem comeHome (s : State) (p : Fin 64) (who : Option (BitVec 8)) (pa : Nat) : WritesBack s (s.comeHome p who pa) := by
  unfold State.comeHome
  dsimp only
  split
  · exact refl s
  · split
    · exact setLine s p pa _
    · refine .trans ?_ (onCoreAt _ _ fun c => givesBack_dropLine c _)
      refine .trans ?_ (setLine _ p pa _)
      refine .trans ?_ (setMem _ p _)
      exact (atHome s p who pa).trans (crosses _ p who _)

theorem l1Rows (s : State) (cid : BitVec 8) : WritesBack s (s.l1Rows cid) :=
  .trans (t := s.take.2) ⟨.refl _, fun _ _ _ => rfl⟩ (onCoreAt _ cid fun c => givesBack_l1Rows c _ _)

end WritesBack

/-! ### The write-back of all lines, and an empty L1 (R214, R314) -/

/-- One line of those on their way back: written back, or refused by a budget. -/
def backOne (p : Fin 64) (s : State) (e : Nat × L1Line) : State :=
  if s.backPermits p (e.1 * 128) then
    ((s.comeHome p s.core.payer (e.1 * 128)).onCore (·.dropLine e.1)).l1Rows s.core.cid
  else s.onCore fun c => { c with refused := true }

theorem writeBack_eq (s : State) (p : Fin 64) : s.writeBack p = s.core.wb.foldl (backOne p) s := rfl

theorem backOne_writesBack (p : Fin 64) (s : State) (e : Nat × L1Line) : WritesBack s (backOne p s e) := by
  unfold backOne
  split
  · exact ((WritesBack.comeHome s p _ _).trans (.onCore _ (givesBack_dropLine _ _))).trans (.l1Rows _ _)
  · exact .onCore s (givesBack_refused _)

theorem backOnes_writesBack (p : Fin 64) (l : List (Nat × L1Line)) (s : State) : WritesBack s (l.foldl (backOne p) s) := by
  induction l generalizing s with
  | nil => exact .refl s
  | cons e l ih => exact (backOne_writesBack p s e).trans (ih _)

/-- No budget of a channel, of a bank or of a link withholds anything of partition p. -/
def HomesOpen (s : State) (p : Fin 64) : Prop := ∀ (k : Fin 7) i, k.val < 3 → s.chip.parts[p].permits k i = true

/-- R367: a budget of 0 is no limit. -/
theorem permits_of_unset {q : Part} {k : Fin 7} (h : q.qb[k] = 0) (i : Nat) : q.permits k i = true := by
  unfold Part.permits
  rw [h]
  rfl

theorem HomesOpen.writesBack {s t : State} {p : Fin 64} (h : HomesOpen s p) (hst : WritesBack s t) : HomesOpen t p :=
  fun k i hk => (hst.permits p k i).trans (h k i hk)

theorem HomesOpen.backPermits {s : State} {p : Fin 64} (h : HomesOpen s p) (pa : Nat) : s.backPermits p pa = true := by
  have chan := h 0 (s.chip.parts[p].homeChannel pa) (by decide)
  have bank := h 1 (s.chip.parts[p].homeBank pa) (by decide)
  have hops : s.chip.parts[p].permitsHops (s.backHops p pa) = true :=
    List.all_eq_true.mpr fun e _ => h 2 (hopInst e) (by decide)
  simp only [State.backPermits, State.homePermits, chan, bank, hops, Bool.or_true, Bool.true_or, Bool.and_true]

/-- A line that its budgets let go is no longer on its way. -/
theorem backOne_leaves {p : Fin 64} {s : State} (h : HomesOpen s p) (e : Nat × L1Line) :
    ∀ x ∈ (backOne p s e).core.wb, x.1 ≠ e.1 := by
  intro x hx
  rw [backOne, if_pos (h.backPermits _)] at hx
  have hx := (WritesBack.l1Rows _ _).core.wb_subset hx
  exact bne_iff_ne.mp (List.mem_filter.mp hx).2

theorem backOnes_leave {p : Fin 64} {s : State} (h : HomesOpen s p) (l : List (Nat × L1Line)) :
    ∀ e ∈ l, ∀ x ∈ (l.foldl (backOne p) s).core.wb, x.1 ≠ e.1 := by
  induction l generalizing s with
  | nil => exact fun _ he => absurd he List.not_mem_nil
  | cons d l ih =>
    intro e he x hx
    rcases List.mem_cons.mp he with rfl | he
    · exact backOne_leaves h e x ((backOnes_writesBack p l _).core.wb_subset hx)
    · exact ih (h.writesBack (backOne_writesBack p s d)) e he x hx

/-- Where no budget withholds a write-back, every line comes home. -/
theorem writeBack_wb {s : State} {p : Fin 64} (h : HomesOpen s p) : (s.writeBack p).core.wb = [] := by
  rw [writeBack_eq, List.eq_nil_iff_forall_not_mem]
  intro x hx
  exact backOnes_leave h s.core.wb x ((backOnes_writesBack p s.core.wb s).core.wb_subset hx) x hx rfl

/-- The core in turn with no line in its L1 and the owned ones on their way back. -/
def released (c : Core) : Core := { c with
  l1 := []
  wb := c.wb ++ c.l1.filter (·.2.owned) }

theorem emptyL1_writesBack (s : State) (p : Fin 64) : WritesBack (s.onCore released) (s.emptyL1 p) :=
  backOnes_writesBack p _ _

@[simp] theorem emptyL1_l1 (s : State) (p : Fin 64) : (s.emptyL1 p).core.l1 = [] :=
  List.subset_nil.mp (emptyL1_writesBack s p).core.l1_subset

theorem emptyL1_wb {s : State} {p : Fin 64} (h : HomesOpen s p) : (s.emptyL1 p).core.wb = [] :=
  writeBack_wb (s := s.onCore released) h

/-- What emptying the L1 leaves of the core in turn. -/
theorem emptyL1_core (s : State) (p : Fin 64) : ∃ wb refused reqs nreq energy pmc, (s.emptyL1 p).core = { s.core with
    l1 := []
    wb := wb
    refused := refused
    loc := { s.core.loc with
      reqs := reqs
      nreq := nreq }
    sq := { s.core.sq with ctr := { s.core.sq.ctr with
      energy := energy
      pmc := pmc } } } := by
  obtain ⟨_, wb, refused, reqs, nreq, energy, pmc, hl, -, h⟩ := (emptyL1_writesBack s p).core
  obtain rfl := List.subset_nil.mp hl
  exact ⟨wb, refused, reqs, nreq, energy, pmc, h⟩

/-! ### FENCE (R92, R214) -/

/-- R237: a queue has a free entry exactly where its entries and its begun command are fewer than 32. -/
theorem hasRoom_iff (s : State) (k : Fin 22) : s.core.queues[k].hasRoom = true ↔ roomIn s k := by
  unfold Queue.hasRoom Queue.size roomIn
  cases s.core.queues[k].run with
  | none => exact decide_eq_true_iff
  | some r => exact decide_eq_true_iff

theorem allRoom_iff (s : State) : s.core.queues.toList.all Queue.hasRoom = true ↔ ∀ k, roomIn s k := by
  simp only [← hasRoom_iff, List.all_eq_true, Vector.mem_toList_iff, Vector.mem_iff_getElem, Fin.forall_iff]
  constructor
  · intro h i hi
    exact h _ ⟨i, hi, rfl⟩
  · rintro h _ ⟨i, hi, rfl⟩
    exact h i hi

theorem mapAll_fin {α β : Type} {n : Nat} (f : α → β) (v : Vector α n) (k : Fin n) : (Vector.mapAll f v)[k] = f v[k] :=
  getElem_mapAll f v k.val k.isLt

/-- The state once a FENCE has put its markers. -/
def fenced (s : State) (sc : Scope) : State := s.served.onCore (·.putFence sc s.chip.now)

theorem fenced_queues (s : State) (sc : Scope) : (fenced s sc).core.queues =
    s.core.queues.mapAll fun q => { q with ents := q.ents ++ [.fence s.core.order sc s.chip.now] } := by
  unfold fenced State.onCore Core.putFence State.served State.onSq
  rfl

theorem fenced_queue (s : State) (sc : Scope) (k : Fin 22) : (fenced s sc).core.queues[k] =
    { s.core.queues[k] with ents := s.core.queues[k].ents ++ [.fence s.core.order sc s.chip.now] } := by
  rw [fenced_queues, mapAll_fin]

theorem exec_fence (s : State) (sc : Scope) : exec (.fence sc) s = execFence sc s := rfl

theorem partOf_fenced (s : State) (sc : Scope) : (fenced s sc).partOf (fenced s sc).core = s.partOf s.core := rfl

theorem execFence_of_room {s : State} (h : ∀ k, roomIn s k) (sc : Scope) : exec (.fence sc) s =
    .next (if sc = .system then (fenced s sc).emptyL1 (s.partOf s.core) else fenced s sc) := by
  rw [exec_fence, execFence, (allRoom_iff s).mpr h, ← partOf_fenced s sc]
  exact if_neg Bool.false_ne_true

theorem waitAt_kind (s : State) (k : WaitKind) (a v : Word) : (s.waitAt k a v).kind = k := by
  unfold State.waitAt Sq.waitOf
  cases s.core.sq.wait with
  | none => rfl
  | some w =>
    by_cases h : w.kind = k
    · simp only [h, if_true]
    · simp only [h, if_false, Wait.start]

theorem execFence_of_full {s : State} (h : ¬ ∀ k, roomIn s k) (sc : Scope) :
    ∃ t, exec (.fence sc) s = .next t ∧ WaitsOn s t .queue .cq := by
  have full : s.core.queues.toList.all Queue.hasRoom = false :=
    Bool.eq_false_iff.mpr fun hr => h ((allRoom_iff s).mp hr)
  refine ⟨_, ?_, { s.waitAt .queue 0 0 with
    third := .ofNat 64 (s.core.queues.toList.findIdx fun q => !q.hasRoom) }, waitAt_kind s _ _ _, rfl⟩
  rw [exec_fence, execFence, full]
  exact if_pos rfl

/-! ### ABORT (R94) -/

/-- The queues once an ABORT has discarded what has not begun. -/
def begunOnly (c : Core) : Vector Queue 22 := c.queues.mapAll fun q => { q with ents := [] }

theorem begunOnly_queue (c : Core) (k : Fin 22) : (begunOnly c)[k] = { c.queues[k] with ents := [] } :=
  mapAll_fin _ c.queues k

theorem exec_abort (s : State) : exec .abort s = .next { s with core := { s.core with
    queues := begunOnly s.core
    sq := { s.core.sq with
      ending := some .abort
      after := .stop } } } := by
  show execAbort s = _
  unfold execAbort State.onCore State.onSq begunOnly
  rfl

/-- Settles O22: with room a FENCE leaves its markers, and at SYSTEM scope what write-backs leave of the core; without room
it waits. -/
theorem fenceExitAbort : Obligations.FenceExitAbort := by
  intro s sc marked
  refine ⟨fun room hsc => ?below, fun room hsc => ?system, fun full => execFence_of_full full sc, rfl,
    _, exec_abort s, rfl, begunOnly_queue s.core, rfl, rfl⟩
  case below =>
    refine ⟨fenced s sc, ?_, fenced_queue s sc, rfl, rfl, rfl⟩
    rw [execFence_of_room room, if_neg hsc]
  case system =>
    obtain ⟨wb, refused, reqs, nreq, energy, pmc, hcore⟩ := emptyL1_core (fenced s sc) (s.partOf s.core)
    refine ⟨(fenced s sc).emptyL1 (s.partOf s.core), ?_, fun k => ?_, emptyL1_l1 _ _, fun unset => emptyL1_wb ?_, ?_, ?_,
      ?_, ?_⟩
    · rw [execFence_of_room room, if_pos hsc]
    · rw [hcore]
      exact fenced_queue s sc k
    · intro k i hk
      exact permits_of_unset (unset ⟨k.val, hk⟩) i
    all_goals
      rw [hcore]
      rfl

end Sys2Proof.Proofs.Control
end

section
/-! PROOFS. REGION_RELEASE where a line of the gang is not home, and a state of two cores of one CID in which it never is
(O53). -/

namespace Sys2Proof.Proofs.Control

open Sys2Proof Sys2Proof.Machine Sys2Proof.Laws

/-! ### REGION_RELEASE while lines are away (R319, R368) -/

theorem tornAck_of_not_owed {s : State} {t : Nat} {k : Task} (hk : s.chip.tasks[t]? = some k) (owed : k.packOwed = false) :
    s.tornAck t = s := by
  unfold State.tornAck
  rw [hk]
  simp only [owed, Bool.not_false, Bool.true_or, if_true]

/-- A drained torn gang whose owned lines are not all home keeps its cores: the lines go on, and nothing else. -/
theorem regionRelease_of_away {s : State} {t : Nat} {k : Task} (hk : s.chip.tasks[t]? = some k) (torn : k.state = .torn)
    (owed : k.packOwed = false) (drained : ∀ x ∈ s.gangOf t, x.occ (s.clockOf x.cid) = 0 ∧ x.circuitTokens = false)
    (away : (s.emptyGang k.part ((s.gangOf t).map (·.cid))).1 = false) :
    exec (.regionRelease t) s = .next (s.emptyGang k.part ((s.gangOf t).map (·.cid))).2 := by
  have still : ((s.gangOf t).all fun c => c.occ (s.clockOf c.cid) == 0 && !c.circuitTokens) = true :=
    List.all_eq_true.mpr fun x hx => by
      simp only [(drained x hx).1, (drained x hx).2, beq_self_eq_true, Bool.not_false, Bool.and_true]
  show execRegionRelease t s = _
  unfold execRegionRelease
  rw [hk]
  simp only [torn, still, tornAck_of_not_owed hk owed, away, ne_eq, not_true_eq_false, decide_false, Bool.not_true,
    Bool.or_false, Bool.false_eq_true, if_false, Bool.not_false, Bool.true_or, if_true]

/-- R113, R319: a core with nothing in its fabric and its local memory side holds no token. -/
theorem drained_of_empty {c : Core} (fab : c.fab = .empty) (loc : c.loc = .empty) (now : Nat) :
    c.occ now = 0 ∧ c.circuitTokens = false := by
  unfold Core.occ Core.circuitTokens
  rw [fab, loc]
  simp only [Fabric.empty, Local.empty, Vector.toList_replicate, List.map_replicate, List.sum_replicate_nat]
  exact ⟨rfl, rfl⟩

/-! ### Two cores of one CID -/

/-- A torn task of two logical cores that owes no acknowledgement. -/
def tornTask : Task := { Task.never ⟨0, 0, 0, 0, 0, 0, 0, 0, 0⟩ none 0 0 2 false with state := .torn }

/-- Cores 0 and 1 hold a torn task and nothing else; a second core of CID 0 holds no context, and a line of it is on its way
back. Reset gives every core a CID of its own, but the statement speaks of every state. -/
def twinned : State where
  core := { Core.idleCore 0 with task := some 0 }
  others := [{ Core.idleCore 0 with wb := [(0, ⟨true, 0, 0, 0⟩)] }, { Core.idleCore 1 with task := some 0 }]
  chip := { Chip.reset with tasks := [tornTask] }
  inbox := []
  stage := 0
  fresh := 0

theorem twinned_gang : twinned.gangOf 0 = [{ Core.idleCore 0 with task := some 0 }, { Core.idleCore 1 with task := some 0 }] :=
  rfl

theorem twinned_drained (x : Core) (hx : x ∈ twinned.gangOf 0) (now : Nat) : x.occ now = 0 ∧ x.circuitTokens = false := by
  rw [twinned_gang] at hx
  rcases List.mem_cons.mp hx with rfl | hx
  · exact drained_of_empty rfl rfl now
  · obtain rfl := List.mem_singleton.mp hx
    exact drained_of_empty rfl rfl now

theorem twinned_unbudgeted : Unbudgeted twinned tornTask.part := fun k i =>
  permits_of_unset (Vector.getElem_replicate k.isLt) i

/-- Core 1's turn brings the second core of CID 0 back in the place of core 0, with its line still on its way. -/
theorem twinned_away : (twinned.emptyGang 0 [0, 1]).1 = false := by decide

theorem twinned_tasks : (twinned.emptyGang 0 [0, 1]).2.chip.tasks = [tornTask] := rfl

/-- Refutes O53: no clause of it asks that the cores' CIDs be distinct. Where a core outside a torn gang bears the CID of
one of the gang, REGION_RELEASE takes the line of the one for a line of the other (`twinned`), and the task stays torn. -/
theorem not_tasksEndAndMove : ¬ Obligations.TasksEndAndMove := by
  intro h
  obtain ⟨-, -, -, release, -⟩ := h twinned 0 tornTask rfl
  obtain ⟨u, k, hu, hk, completing, -⟩ := release rfl rfl twinned_unbudgeted fun x hx ht =>
    twinned_drained x (List.mem_filter.mpr ⟨hx, beq_iff_eq.mpr ht⟩) _
  have stays : exec (.regionRelease 0) twinned = .next (twinned.emptyGang 0 [0, 1]).2 :=
    regionRelease_of_away (k := tornTask) rfl rfl rfl (fun x hx => twinned_drained x hx _) twinned_away
  obtain rfl : (twinned.emptyGang 0 [0, 1]).2 = u := by
    rw [stays] at hu
    injection hu
  rw [twinned_tasks] at hk
  obtain rfl : tornTask = k := Option.some.inj hk
  exact absurd completing (by decide)

end Sys2Proof.Proofs.Control
end
